-- ==== Sys2Proof/Word.lean ====
section
/-! DEFINITION. The words of the Orsuna 740: what the manual treats as bits or as a count that wraps.
Heights, counts and settings with a plain range are `Int` or `Nat` and stand where they are used. -/

namespace Sys2Proof

/-- One byte of a link frame or of a head word (R165, R26). -/
abbrev Byte := BitVec 8

/-- A reading of the free-running tick counter; differences are taken modulo 2^32 (R16). -/
abbrev Tick := BitVec 32

/-- A rotor angle in angle units, 2^24 to one revolution (units of measure, R46). -/
abbrev Angle := BitVec 24

/-- A head's 12-bit sequence number, modulo 4,096 (R24). -/
abbrev Seq := BitVec 12

/-- A 16-bit number that identifies: a step tag, a blade ID, a window or map generation, a record number. -/
abbrev Id16 := BitVec 16

/-- A run id, modulo 256 (R114). -/
abbrev RunId := BitVec 8

/-- The interval from the reading `t0` to the reading `t`, in ticks modulo 2^32 (R16). -/
def ticksSince (t0 t : Tick) : Nat := (t - t0).toNat

/-- A count 0..4,294,967,295 takes one more and saturates there (R34, R120, R141, R164, R180). -/
def satInc (n : Nat) : Nat := if n < 4294967295 then n + 1 else n

/-- Adding to a saturating count (R88). -/
def satAdd (n k : Nat) : Nat := min (n + k) 4294967295

/-- A value is clamped to `lo..hi` (arithmetic conventions: saturation and clamping). -/
def clampInt (lo hi x : Int) : Int := max lo (min hi x)

/-- A natural value is clamped to `lo..hi`. -/
def clampNat (lo hi x : Nat) : Nat := max lo (min hi x)

/-- `num / den` rounded to the nearest integer, halves away from zero (arithmetic conventions). -/
def roundHalfAway (num : Int) (den : Nat) : Int :=
  let q : Int := ((2 * num.natAbs + den) / (2 * den) : Nat)
  if num < 0 then -q else q

end Sys2Proof
end

