-- ==== Sys2Proof/Config.lean ====
section
/-! DEFINITION. What the part fixes (R170 and the rules cited) and the free values of the model. -/

namespace Sys2Proof.Config

/-- Blade entries (R56, R170). -/
abbrev bladeCapacity : Nat := 128
/-- Data-frame slots of the record store (R153, R170). -/
abbrev storeSlots : Nat := 512
/-- Points of one record (R82, R170). -/
abbrev pointLimit : Nat := 1024
/-- Points of one data frame (R154). -/
abbrev pointsPerFrame : Nat := 240
/-- Outstanding entries of one head (R25, R170). -/
abbrev outstandingLimit : Nat := 16
/-- Samples in one head queue (R30, R170). -/
abbrev queueLimit : Nat := 256
/-- Commands waiting for execution (R167, R170). -/
abbrev commandLimit : Nat := 4
/-- Notices waiting (R178, R170). -/
abbrev noticeLimit : Nat := 32
/-- The longest body of a frame (R165, R170). -/
abbrev bodyLimit : Nat := 2048
/-- Ticks held in the edge-time ring (R11). -/
abbrev ringLimit : Nat := 65
/-- The stall and ring-expiry period, 2^24 ticks (R11, R13). -/
abbrev silencePeriod : Nat := 16777216
/-- The length of a trigger pulse and of a pulsed output, in ticks (R24, R183). -/
abbrev pulseTicks : Nat := 100
/-- One millisecond in ticks (R16). -/
abbrev msTicks : Nat := 100000
/-- A gap that ends a partial head word, in ticks (R26). -/
abbrev wordGap : Nat := 2000
/-- A gap that ends a partial link frame, in ticks (R166). -/
abbrev frameGap : Nat := 100000
/-- After this many ticks the tick of a head's last trigger is no longer held (R22). -/
abbrev lastTriggerPeriod : Nat := 1000000
/-- The credit count saturates here (R160). -/
abbrev creditLimit : Nat := 4095
/-- Filled bins below which a learn is sparse (R103). -/
abbrev filledNeeded : Nat := 192
/-- The revision number IDNT reports (R170). -/
abbrev revision : Nat := 1

/-- FREE VALUE (log entry 7). R31 gives a head the tail blade "whose span contains" its angle at the crossing and
does not say which, when the guarded spans of several enabled blades contain it. The value at the counter `n`
names the one taken among the candidates, modulo their number. Nothing constrains it. -/
opaque tailPick : Nat → Nat

/-- FREE VALUE (log entry 11). R117 gives ARM_TIMEOUT the pass 0, and R141 gives a raising the pass that the scan plan
engine holds, which is the passes done in a step that was resumed after an interjection (R138). No rule says which of
the two holds there. The value says whether the raising names the pass held. Nothing constrains it. -/
opaque armTimeoutNamesPass : Bool

end Sys2Proof.Config
end

