-- ==== Sys2Proof/Syntax.lean ====
section
/-! DEFINITION. The commands the block takes: one constructor per row of spec/opcode_table.json.

A row that the table gives no operands takes those its rule needs. `after` is how many ticks of the free-running
tick counter (R16) pass between the step before and this one (log entry 1): the events that the outside or a timer
brings carry it, and what the controller does next on its own account happens at the tick it finds. A host command
carries no operand: its tag and body stand at the front of the link port's command queue (R167, log entry 3). -/

namespace Sys2Proof

/-- A head number (R187: 0..3). -/
inductive Head where
  | h0 | h1 | h2 | h3
deriving DecidableEq, Repr

/-- What one quadrature transition of an encoder is (R1, R14). -/
inductive Transition where
  | forward
  | reverse
  /-- both channels change together: a quadrature error -/
  | both
deriving DecidableEq, Repr

/-- The takers of one table edge or index. The manual leaves the order among them open (R9, R21, R31, R184). -/
inductive Taker where
  /-- the scan plan engine takes a new-revolution event, and with it the trigger unit starts tails (R31) -/
  | plan
  /-- the blade table takes a new-revolution event (R64) -/
  | blades
  /-- the trigger unit takes the ANGLE due instant of a forward edge (R19) -/
  | due
  /-- the auxiliary line unit evaluates BLADE_STROBE_OUT at a forward edge (R184) -/
  | strobe
deriving DecidableEq, Repr

/-- One byte received on a serial line, with its framing error (R26, R166). -/
structure LineByte where
  byte : Byte
  framingError : Bool
deriving DecidableEq, Repr

/-- The two pulsed outputs (R183). -/
inductive PulsedOutput where
  | passEnd
  | bladeStrobe
deriving DecidableEq, Repr

/-- The commands of the block. -/
inductive Instr where
  /-- TABLE_EDGE (R1) -/
  | tableEdge (after : Nat) (edge : Transition) (order : List Taker)
  /-- INDEX (R4): the dedicated table index connection goes from inactive to active -/
  | index (after : Nat) (order : List Taker)
  /-- RING_EXPIRY (R11) -/
  | ringExpiry (after : Nat)
  /-- STALL (R13) -/
  | stall (after : Nat)
  /-- RADIAL_EDGE (R14) -/
  | radialEdge (after : Nat) (edge : Transition)
  /-- MILLISECOND_BOUNDARY (R115) -/
  | millisecondBoundary (after : Nat)
  /-- TIME_DUE_INSTANT (R20) -/
  | timeDueInstant (after : Nat)
  /-- TRIGGER_PULSE_END (R24) -/
  | triggerPulseEnd (after : Nat) (head : Head)
  /-- LAST_TRIGGER_EXPIRY (R22) -/
  | lastTriggerExpiry (after : Nat) (head : Head)
  /-- HEAD_WORD (R26, R27): bytes arrive on a head's sample line -/
  | headWord (after : Nat) (head : Head) (bytes : List LineByte)
  /-- HEAD_WORD_GAP (R26) -/
  | headWordGap (after : Nat) (head : Head)
  /-- RESPONSE_TIMEOUT (R28) -/
  | responseTimeout (after : Nat) (head : Head)
  /-- PLACEMENT_GRANT (R38) -/
  | placementGrant
  /-- PLACEMENT_END (R40) -/
  | placementEnd (after : Nat)
  /-- TRACKING_POST (R61) -/
  | trackingPost
  /-- RECORD_REPORT (R120) -/
  | recordReport
  /-- RECORD_ADMISSION (R155); `choice` names the waiting record the store takes first (log entry 4) -/
  | recordAdmission (choice : Nat)
  /-- ADMISSION_REPORT (R156) -/
  | admissionReport
  /-- STEP_COMPLETION (R122) -/
  | stepCompletion
  /-- INTERJECTION_TAIL_END (R134) -/
  | interjectionTailEnd
  /-- FAULT_RAISE (R141); `choice` names the raising the latch takes first (R148, log entry 4) -/
  | faultRaise (choice : Nat)
  /-- FRAME_RECEIVED (R166): bytes arrive on the link -/
  | frameReceived (after : Nat) (bytes : List LineByte)
  /-- LINK_GAP (R166) -/
  | linkGap (after : Nat)
  /-- FRAME_SEND_START (R162) -/
  | frameSendStart
  /-- FRAME_SEND_END (R159) -/
  | frameSendEnd (after : Nat)
  /-- IDNT (R170) -/
  | idnt
  /-- STAT (R171) -/
  | stat
  /-- SETP of the ENCODER group (R17) -/
  | setpEncoder
  /-- SETP of a HEAD(h) group (R35) -/
  | setpHead
  /-- SETP of the TRACK group (R70) -/
  | setpTrack
  /-- SETP of the PLAN group (R128) -/
  | setpPlan
  /-- GETP (R173) -/
  | getp
  /-- CNTR (R174) -/
  | cntr
  /-- RUNP (R112) -/
  | runp
  /-- STOP (R126) -/
  | stop
  /-- CONT (R124) -/
  | cont
  /-- INTJ (R129) -/
  | intj
  /-- FCLR (R150) -/
  | fclr
  /-- GRNT (R160) -/
  | grnt
  /-- BTLD (R58, R59) -/
  | btld
  /-- BTRD (R60) -/
  | btrd
  /-- BTMK (R67) -/
  | btmk
  /-- MPLD (R97) -/
  | mpld
  /-- MPRD (R99) -/
  | mprd
  /-- MPCL (R98) -/
  | mpcl
  /-- STPW (R108) -/
  | stpw
  /-- STPR (R110) -/
  | stpr
  /-- AXAS (R181) -/
  | axas
  /-- AXWR (R185) -/
  | axwr
  /-- RSET (R177) -/
  | rset
  /-- UNKNOWN: a command whose keyword names no command (R169) -/
  | unknown
  /-- AUX_LINE_CHANGE (R182): the outside drives a line high or low -/
  | auxLineChange (after : Nat) (line : Fin 8) (high : Bool) (order : List Taker)
  /-- AUX_PULSE_END (R183) -/
  | auxPulseEnd (after : Nat) (output : PulsedOutput)
  /-- POWER_ON (R179) -/
  | powerOn
  /-- RESET_LINE (R179): the reset line is asserted -/
  | resetLine
  /-- RESET_RELEASE (R179): the reset line is released -/
  | resetRelease
deriving DecidableEq, Repr

end Sys2Proof
end

