-- ==== Sys2Proof/Decode.lean ====
section
/-! DEFINITION. The command that a word spells by the bits of spec/opcode_table.json. -/

namespace Sys2Proof

/-- No row of spec/opcode_table.json gives bits (every row's field list is empty and none is fixed), so no word spells
a command by the table: the answer is `none` for every word. The frames that carry the host's commands are read by
R165 and R187 in the link port (Machine/LinkPort.lean). -/
def decodeTableWord (_nbits _w : Nat) : Option Instr := none

end Sys2Proof
end

