-- ==== Sys2Proof/Machine/State.lean ====
section
/-! DEFINITION. Everything the manual gives the controller, block by block, as plain data; the reasons a step can
stop; and the state after a full reset. What each block does with it stands in the files beside this one. -/

namespace Sys2Proof.Machine

/-- Why the controller stops. It has no such reason: the manual gives every command an effect in every state (its
fault classes of chapter 9 are state of the scan plan engine, not stops of the machine). Nobody raises a fault of
this type, so it has no constructor; that is safe. -/
inductive Fault where
deriving DecidableEq, Repr

/-- Why a command has no meaning in this model. -/
inductive Refusal where
  /-- Raised by `exec` alone, for a command of the table that is not modelled yet, by its mnemonic. No arm of
  Machine/Dispatch.lean raises it. Safe: the run stops where the model says nothing. -/
  | notModelled (mnemonic : String)
deriving DecidableEq, Repr

/-- One value for each of the four heads. -/
structure PerHead (α : Type) where
  p0 : α
  p1 : α
  p2 : α
  p3 : α
deriving DecidableEq, Repr

/-- The value of head `h`. -/
def PerHead.get {α : Type} (v : PerHead α) : Head → α
  | .h0 => v.p0
  | .h1 => v.p1
  | .h2 => v.p2
  | .h3 => v.p3

/-- The value of head `h` becomes `x`. -/
def PerHead.set {α : Type} (v : PerHead α) (h : Head) (x : α) : PerHead α :=
  match h with
  | .h0 => { v with p0 := x }
  | .h1 => { v with p1 := x }
  | .h2 => { v with p2 := x }
  | .h3 => { v with p3 := x }

/-- Every head's value is taken through `f`. -/
def PerHead.map {α β : Type} (f : α → β) (v : PerHead α) : PerHead β :=
  ⟨f v.p0, f v.p1, f v.p2, f v.p3⟩

/-- The same value for every head. -/
def PerHead.all {α : Type} (x : α) : PerHead α := ⟨x, x, x, x⟩

/-- The heads in ascending order. -/
def heads : List Head := [.h0, .h1, .h2, .h3]

/-! ## Encoder unit (chapter 1) -/

/-- Direction of the latest table edge (R2). -/
inductive Direction where
  | forward
  | reverse
deriving DecidableEq, Repr

/-- The ENCODER parameter group (section 1.8). -/
structure EncoderParams where
  /-- N, 4,096..1,048,576 -/
  counts : Nat
  indexCorrection : Bool
  /-- 0..15 counts -/
  indexTolerance : Nat
  /-- Z -/
  zeroOffset : Angle
  /-- −16,000,000..16,000,000 lu -/
  radialOffset : Int
  /-- the radial sign is −1 -/
  radialMinus : Bool
deriving DecidableEq, Repr

/-- The encoder unit (R1 to R18). -/
structure Encoder where
  /-- C, 0..N−1 (R1) -/
  count : Nat
  /-- REFERENCED (R5) -/
  referenced : Bool
  direction : Direction
  /-- net revolution counter, signed 32-bit, saturating (R8) -/
  netRevs : Int
  /-- high-water mark (R9) -/
  highWater : Int
  /-- tick of the latest new-revolution event, when one has taken place (R10) -/
  lastRev : Option Tick
  /-- revolution time (R10) -/
  revTime : Nat
  /-- edge-time ring, oldest first, at most 65 ticks (R11) -/
  ring : List Tick
  /-- start of the interval that STALL times (R13) -/
  stallStart : Tick
  /-- STALL has been raised for this silence (R13) -/
  stallRaised : Bool
  /-- Cr, signed 32-bit, wrapping (R14) -/
  radial : BitVec 32
  /-- table quadrature-error counter (R1) -/
  quadErrors : Nat
  /-- radial quadrature-error counter (R14) -/
  radialErrors : Nat
  /-- the tick counter (R16) -/
  tick : Tick
  params : EncoderParams
deriving DecidableEq, Repr

/-! ## Trigger unit and head ports (chapter 2) -/

/-- An outstanding entry (R24). -/
structure Outstanding where
  seq : Seq
  trigTick : Tick
  /-- C_t -/
  count : Nat
  edgeTick : Tick
  /-- Q_t; `none` is STOPPED -/
  speed : Option Nat
  pass : Nat
  gen : Id16
  runId : RunId
deriving DecidableEq, Repr

/-- The four result codes of a head word (13.2). -/
inductive HeadCode where
  | ok
  | saturated
  | multiPeak
  | noPeak
deriving DecidableEq, Repr

/-- What a head word answers (section 2.3). -/
structure Answer where
  code : HeadCode
  intensity : BitVec 12
  distance : BitVec 20
deriving DecidableEq, Repr

/-- A matched sample, or a placeholder when there is no answer (R27, R29). -/
structure Sample where
  entry : Outstanding
  answer : Option Answer
deriving DecidableEq, Repr

/-- The eight counters of a head (R34). -/
structure HeadCounters where
  issued : Nat
  tooFast : Nat
  overrun : Nat
  noResponse : Nat
  stray : Nat
  corrupt : Nat
  queueDrops : Nat
  stale : Nat
deriving DecidableEq, Repr

/-- Where a head looks (section 2.7). -/
inductive Facing where
  | down
  | up
deriving DecidableEq, Repr

/-- No-response policies (R29). -/
inductive SilencePolicy where
  | mark
  | ignore
  | fault
deriving DecidableEq, Repr

/-- The HEAD(h) parameter group but for the next sequence number, which is the sequence counter of the trigger unit
(R35, R37). -/
structure HeadParams where
  facing : Facing
  /-- Zref_h, −8,388,608..8,388,607 lu -/
  reference : Int
  /-- L_h, 0..65,535 ticks -/
  latency : Nat
  /-- H_h -/
  azimuth : Angle
  /-- 2,000..1,000,000 ticks -/
  minSpacing : Nat
  /-- 1,000..1,000,000 ticks -/
  timeout : Nat
  policy : SilencePolicy
  /-- 0..3 -/
  priority : Nat
deriving DecidableEq, Repr

/-- A head port (R25 to R37). -/
structure HeadPort where
  /-- outstanding-trigger list, oldest first, at most 16 (R25) -/
  outstanding : List Outstanding
  /-- sample queue, oldest first, at most 256 (R30) -/
  queue : List Sample
  counters : HeadCounters
  /-- the bytes of the head word being assembled, first first (R26) -/
  partialWord : List LineByte
  /-- tick of the latest byte on the sample line (R26) -/
  lastByte : Tick
  params : HeadParams
deriving DecidableEq, Repr

/-- A head's tail state; RUNNING holds the tail blade (R31). -/
inductive TailState where
  | none
  | running (blade : Nat)
  | ended
deriving DecidableEq, Repr

/-- What the trigger unit holds for one head (section 2.1, R22, R24, R31). -/
structure TriggerHead where
  /-- sequence counter -/
  seq : Seq
  /-- tick of the last trigger, while it is held (R22) -/
  lastTrigger : Option Tick
  /-- the trigger line is active since this tick (R24) -/
  pulse : Option Tick
  tail : TailState
deriving DecidableEq, Repr

/-- The trigger unit. -/
structure TriggerUnit where
  heads : PerHead TriggerHead
  /-- start of the running TIME-mode period, when one runs (R20) -/
  period : Option Tick
deriving DecidableEq, Repr

/-! ## Blade table (chapter 4) -/

/-- One blade's window in a window set, at the position of its blade index (R57). -/
structure Window where
  id : Id16
  /-- tracked start S_b -/
  start : Angle
  /-- Wd_b -/
  width : Nat
  excluded : Bool
deriving DecidableEq, Repr

/-- How a blade is being followed (R56). -/
inductive BladeState where
  | active
  | missing
  | displaced
  | excluded
deriving DecidableEq, Repr

/-- Actions of BTMK (R67). -/
inductive Mark where
  | exclude
  | include
deriving DecidableEq, Repr

/-- A blade entry (R56). -/
structure BladeEntry where
  id : Id16
  nominal : Angle
  width : Nat
  /-- tracking offset O -/
  offset : Int
  smoothed : Int
  misses : Nat
  state : BladeState
  seen : Nat
  pendingOffset : Option Int
  pendingMark : Option Mark
deriving DecidableEq, Repr

/-- The TRACK parameter group (section 4.8). -/
structure TrackParams where
  /-- tracking limit L, 0..1,048,576 au -/
  limit : Nat
  /-- entry guard Ge, 0..1,048,576 au -/
  guard : Nat
  /-- K_miss, 1..15 -/
  kMiss : Nat
deriving DecidableEq, Repr

/-- The blade table. The previous generation number is always the current one less one (R57). -/
structure BladeTable where
  /-- in ascending order of nominal start, at most 128 (R56) -/
  entries : List BladeEntry
  current : List Window
  previous : List Window
  /-- current generation number -/
  gen : Id16
  params : TrackParams
deriving DecidableEq, Repr

/-! ## Runout map (chapter 6) -/

/-- State of the runout map (R95). -/
inductive MapState where
  | empty
  | loaded
  | learned
deriving DecidableEq, Repr

/-- The learning accumulators (R100). -/
structure Accumulators where
  /-- S_k -/
  sums : Vector Int 256
  /-- n_k -/
  counts : Vector Nat 256
  /-- r_L -/
  radius : Option Nat
deriving DecidableEq, Repr

/-- The runout map unit (R95, R96, R100, R102). -/
structure RunoutMap where
  /-- W[0] to W[255] -/
  bins : Vector Int 256
  state : MapState
  /-- r_map -/
  radius : Nat
  gen : Id16
  acc : Accumulators
  saved : Option Accumulators
deriving DecidableEq, Repr

/-! ## Scan plan engine (chapters 7 to 9) -/

/-- A step slot number, 0..63. -/
abbrev Slot := Fin 64

/-- Trigger mode with its spacing (R19, R20). -/
inductive TriggerMode where
  /-- ANGLE with count spacing M -/
  | angle (spacing : Nat)
  /-- TIME with time spacing Tp -/
  | time (spacing : Nat)
deriving DecidableEq, Repr

/-- The flags of a step (R107). -/
structure StepFlags where
  haltAfter : Bool
  discard : Bool
  headerOnly : Bool
  learn : Bool
  track : Bool
  scaleMap : Bool
  skipIfClean : Bool
deriving DecidableEq, Repr

/-- A step (R107). -/
structure ScanStep where
  tag : Id16
  /-- `none` is END -/
  next : Option Slot
  mask : PerHead Bool
  radius : Nat
  tolerance : Nat
  /-- settle time in ms -/
  settle : Nat
  /-- R -/
  passes : Nat
  mode : TriggerMode
  windowed : Bool
  /-- G -/
  guard : Nat
  first : Nat
  last : Nat
  /-- d -/
  decimation : Nat
  kOn : Nat
  kOff : Nat
  threshold : Nat
  trackHead : Head
  flags : StepFlags
deriving DecidableEq, Repr

/-- Plan states (R111). -/
inductive PlanState where
  | idle
  | settling
  | armed
  | acquiring
  | tail
  | halted
  | faulted
deriving DecidableEq, Repr

/-- Step counters (R120); the union is a set of record flags (R89). -/
structure StepCounters where
  made : Nat
  clean : Nat
  headerOnly : Nat
  lost : Nat
  union : BitVec 12
deriving DecidableEq, Repr

/-- The active slot, the active-step copy and the run id that goes with it (R111, R138). -/
structure ActiveStep where
  slot : Slot
  step : ScanStep
  runId : RunId
deriving DecidableEq, Repr

/-- The outcome of an after-step decision (R123, R131). -/
inductive Decision where
  | arm (slot : Slot)
  | halt (following : Option Slot)
  | finish
deriving DecidableEq, Repr

/-- Interjection state (R129). -/
inductive Interjection where
  | none
  | pending (slot : Slot)
  | running
deriving DecidableEq, Repr

/-- Phase to resume (R131). -/
inductive Phase where
  | resumePasses
  | restart
  | decided
  | halted
deriving DecidableEq, Repr

/-- The saved context (R131). -/
structure Context where
  slot : Slot
  tag : Id16
  runId : RunId
  phase : Phase
  passesDone : Nat
  counters : StepCounters
  decision : Option Decision
deriving DecidableEq, Repr

/-- Fault classes in order (section 9.1, 13.4). -/
inductive FaultClass where
  | indexSlip
  | direction
  | stall
  | headSilent
  | armTimeout
  | radiusDrift
  | storeLoss
  | stepInvalid
deriving DecidableEq, Repr

/-- Fault policies (R142). -/
inductive Policy where
  | report
  | haltAtStepEnd
  | stopNow
deriving DecidableEq, Repr

/-- A fault record of the latch (R144). -/
structure FaultRecord where
  cls : FaultClass
  head : Option Head
  tag : Id16
  pass : Nat
  tick : Tick
  policy : Policy
  /-- the halt has been taken -/
  taken : Bool
deriving DecidableEq, Repr

/-- The PLAN parameter group (section 7.8, R142). -/
structure PlanParams where
  /-- 100..60,000 ms -/
  armTimeout : Nat
  interjectSlot : Slot
  /-- one policy for each fault class, in class order -/
  policies : Vector Policy 8
deriving DecidableEq, Repr

/-- The scan plan engine (R107, R111, R129, R131, R141, R144). -/
structure ScanPlan where
  slots : Vector (Option ScanStep) 64
  state : PlanState
  active : Option ActiveStep
  runId : RunId
  pass : Nat
  passesDone : Nat
  /-- the lowest pass the triggers of this execution carry (R77) -/
  firstPass : Nat
  counters : StepCounters
  /-- settle timer in whole ms; `none` is stopped -/
  settleTimer : Option Nat
  /-- arm timer in whole ms; `none` is stopped -/
  armTimer : Option Nat
  /-- the arm timeout held at the arming (R117) -/
  armLimit : Nat
  drift : Bool
  /-- in HALTED, the following slot, or END as `some none` -/
  pendingDecision : Option (Option Slot)
  interjection : Interjection
  context : Option Context
  latch : Option FaultRecord
  /-- secondary-fault count -/
  secondary : Nat
  /-- one counter for each fault class, in class order -/
  faultCounters : Vector Nat 8
  params : PlanParams
  /-- tick of the latest millisecond boundary (R115) -/
  msMark : Tick
deriving DecidableEq, Repr

/-! ## Edge detectors and placement engine (chapters 3 and 5) -/

/-- A point of a record (R82, R91). -/
structure Point where
  u : Nat
  z : Int
  intensity : BitVec 12
  code : HeadCode
deriving DecidableEq, Repr

/-- A present sample as the detector keeps it: the point it would make, and whether it is measured (R81, R82). -/
structure Surface where
  point : Point
  measured : Bool
deriving DecidableEq, Repr

/-- The latest present sample in ON_SURFACE (R73). -/
structure LastPresent where
  point : Point
  /-- decimation index -/
  index : Nat
  kept : Bool
deriving DecidableEq, Repr

/-- Statistics of a record in the making (R88). -/
structure Stats where
  count : Nat
  sum : Int
  /-- z_min and z_max, once a measured sample has counted -/
  range : Option (Int × Int)
  dropouts : Nat
  saturated : Nat
  multiPeak : Nat
deriving DecidableEq, Repr

/-- A section record under construction (R76, R91). -/
structure OpenRecord where
  tag : Id16
  runId : RunId
  pass : Nat
  blade : Nat
  bladeId : Id16
  /-- S of the window in which the record opened -/
  start : Angle
  /-- Wd of that window -/
  width : Nat
  gen : Id16
  mapGen : Id16
  radius : Nat
  openTick : Tick
  entry : Option Nat
  exit : Option Nat
  /-- in order -/
  points : List Point
  stats : Stats
  flags : BitVec 12
deriving DecidableEq, Repr

/-- Detector states (R73). -/
inductive DetectorState where
  | outside
  | seeking
  | onSurface
  | afterExit
deriving DecidableEq, Repr

/-- An edge detector (R73). -/
structure Detector where
  state : DetectorState
  record : Option OpenRecord
  presentRun : Nat
  candidates : List Surface
  absentRun : Nat
  prevOffset : Nat
  lastPresent : Option LastPresent
  lastSeq : Option Seq
  runIn : Bool
  runInWindow : Option Nat
  /-- recorded passes, for each blade index -/
  recorded : Vector (Option Nat) 128
deriving DecidableEq, Repr

/-- The placement engine (R38, R40, R73). -/
structure Placement where
  /-- the granted sample and its head, while the engine is busy -/
  busy : Option (Head × Sample)
  lastServed : Head
  detectors : PerHead Detector
deriving DecidableEq, Repr

/-- Heights of a closed record (R88). -/
structure Heights where
  zMin : Int
  zMax : Int
  zMean : Int
deriving DecidableEq, Repr

/-- A closed section record (R91). -/
structure SectionRecord where
  tag : Id16
  runId : RunId
  pass : Nat
  head : Head
  blade : Nat
  bladeId : Id16
  gen : Id16
  mapGen : Id16
  radius : Nat
  openTick : Tick
  entry : Option Nat
  exit : Option Nat
  count : Nat
  dropouts : Nat
  saturated : Nat
  multiPeak : Nat
  heights : Option Heights
  pointCount : Nat
  withheld : Bool
  flags : BitVec 12
  digest : Option (BitVec 32)
  points : List Point
deriving DecidableEq, Repr

/-! ## What one block has sent and another has not taken yet (log entry 4) -/

/-- A record's result on its way to the blade table (R61). -/
structure Post where
  blade : Nat
  entry : Option Nat
  missingEntry : Bool
deriving DecidableEq, Repr

/-- A record's report on its way to the scan plan engine (R93). -/
structure RecordReport where
  flags : BitVec 12
  runId : RunId
  blade : Nat
  /-- the record was handed to the record store -/
  handed : Bool
  /-- the statistics formed from entry to exit, which reach the engine in a DISCARD step too (R88) -/
  statistics : Stats
deriving DecidableEq, Repr

/-- A record on its way to the record store, with the tick of its close (R93). -/
structure Handed where
  record : SectionRecord
  tick : Tick
deriving DecidableEq, Repr

/-- How the store took a record (R155). -/
inductive Outcome3 where
  | whole
  | headerOnly
  | lost
deriving DecidableEq, Repr

/-- The store's report on its way to the scan plan engine (R156). -/
structure AdmissionReport where
  outcome : Outcome3
  runId : RunId
  aborted : Bool
deriving DecidableEq, Repr

/-- A raising of a fault class, with all that it carries from the moment of the raising (R141). -/
structure Raising where
  cls : FaultClass
  head : Option Head
  tag : Id16
  pass : Nat
  tick : Tick
deriving DecidableEq, Repr

/-- Everything on its way between blocks, oldest first. -/
structure InFlight where
  posts : List Post
  reports : List RecordReport
  handed : List Handed
  stored : List AdmissionReport
  raisings : List Raising
deriving DecidableEq, Repr

/-! ## Record store (chapter 10) -/

/-- Kinds of data frame (R154). -/
inductive FrameKind where
  | whole
  | first
  | middle
  | last
deriving DecidableEq, Repr

/-- A data frame in its slot (R153, R156). The header is the record without its points. -/
structure DataFrame where
  number : Id16
  kind : FrameKind
  index : Nat
  header : Option SectionRecord
  points : List Point
deriving DecidableEq, Repr

/-- The store counters (R164). -/
structure StoreCounters where
  whole : Nat
  headerOnly : Nat
  lost : Nat
  sent : Nat
  episodes : Nat
deriving DecidableEq, Repr

/-- The record store (R153). -/
structure RecordStore where
  /-- the frame queue, oldest first, at most 512 -/
  frames : List DataFrame
  recordNumber : Id16
  credits : Nat
  starved : Bool
  counters : StoreCounters
deriving DecidableEq, Repr

/-! ## Link port (chapter 11) -/

/-- Reply statuses (R169, 13.1). -/
inductive Status where
  | ok
  | clamped
  | badLength
  | unknown
  | invalid
  | locked
  | slotBusy
  | wrongState
  | interjectBusy
  | faultLatched
  | overload
deriving DecidableEq, Repr

/-- A received command: its tag and its body, whose first four bytes are the keyword (R167). -/
structure HostCommand where
  tag : Byte
  body : List Byte
deriving DecidableEq, Repr

/-- An answer owed to a command not executed (R168). -/
structure OverloadEntry where
  tag : Byte
  keyword : List Byte
deriving DecidableEq, Repr

/-- A reply in the reply slot (R169). -/
structure Reply where
  tag : Byte
  keyword : List Byte
  status : Status
  data : List Byte
deriving DecidableEq, Repr

/-- The result of a learning step in its STEP_DONE notice (R105). -/
structure MapResult where
  sparse : Bool
  filled : Nat
  saturated : Nat
  gen : Id16
deriving DecidableEq, Repr

/-- Causes of a BLST notice (R69). -/
inductive BladeCause where
  | missed
  | found
  | saturated
  | overlap
  | recovered
  | excluded
  | included
  | limit
deriving DecidableEq, Repr

/-- What the raising in a FALT notice led to (R152). -/
inductive Disposition where
  | reported
  | latchedHalt
  | latchedStop
  | secondary
  | escalated
deriving DecidableEq, Repr

/-- A notice with its contents (section 11.6, 13.6). -/
inductive Notice where
  /-- SDON (R122) -/
  | stepDone (slot : Slot) (tag : Id16) (runId : RunId) (passesDone : Nat) (interjected : Bool)
      (counters : StepCounters) (bladesMissing : Nat) (mapResult : Option MapResult)
  /-- RDON (R123, R124, R138) -/
  | runDone (slot : Slot) (tag : Id16) (runId : RunId)
  /-- RSTP (R127) -/
  | runStopped (byLine : Bool) (slot : Slot) (tag : Id16) (runId : RunId) (state : PlanState) (pass : Nat)
      (aborted : Nat)
  /-- FALT of kind RAISED (R152) -/
  | faultRaised (cls : FaultClass) (head : Option Head) (tag : Id16) (pass : Nat) (tick : Tick)
      (disposition : Disposition) (state : PlanState) (secondary : Nat) (aborted : Nat)
  /-- FALT of kind HALTED (R147, R152) -/
  | faultHalted (record : FaultRecord) (state : PlanState) (secondary : Nat)
  /-- BLST (R69) -/
  | bladeChanged (index : Nat) (id : Id16) (old new : BladeState) (cause : BladeCause) (offset : Int)
      (misses : Nat) (gen : Id16)
  /-- STRV (R161) -/
  | starved (occupancy : Nat) (records : Nat) (tick : Tick)
  /-- REFD (R5) -/
  | referenced (tick : Tick)
deriving DecidableEq, Repr

/-- Whose frame is being sent (R162). -/
inductive FlightKind where
  | reply
  | overload
  | notice
  | data
deriving DecidableEq, Repr

/-- A frame in flight: whose it is, and all its bytes (R165). -/
structure Flight where
  kind : FlightKind
  bytes : List Byte
deriving DecidableEq, Repr

/-- The LINK counters (R174, R180). -/
structure LinkCounters where
  commands : Nat
  lengthDiscards : Nat
  gapDiscards : Nat
  checkDiscards : Nat
  kindDiscards : Nat
  overloads : Nat
  noticesLost : Nat
deriving DecidableEq, Repr

/-- The link port (R165 to R180). -/
structure LinkPort where
  /-- IN_FRAME with the bytes taken after the start character, or HUNTING (R166) -/
  receiving : Option (List LineByte)
  /-- tick of the latest byte taken from the link (R166) -/
  lastByte : Tick
  /-- command queue, oldest first, at most 4 (R167) -/
  queue : List HostCommand
  /-- overload list, oldest first (R168) -/
  overload : List OverloadEntry
  /-- reply slot (R167) -/
  reply : Option Reply
  /-- notice queue, oldest first, at most 32 (R178) -/
  notices : List Notice
  counters : LinkCounters
  /-- an RSET awaits its reset (R177) -/
  resetMark : Bool
  /-- the frame the transmitter is sending; `none` is free (R162) -/
  sending : Option Flight
deriving DecidableEq, Repr

/-! ## Auxiliary line unit (chapter 12) -/

/-- The sixteen functions in the order of their codes (chapter 12). -/
inductive AuxFunction where
  | generalIn
  | generalOut
  | inposIn
  | radialHomeIn
  | stopIn
  | interjectIn
  | gateIn
  | indexIn
  | bladeStrobeOut
  | stepActiveOut
  | passEndOut
  | faultOut
  | triggerMirror0
  | triggerMirror1
  | starvedOut
  | settlingOut
deriving DecidableEq, Repr

/-- An auxiliary line (R181). -/
structure AuxLine where
  function : AuxFunction
  /-- the polarity is ACTIVE_LOW -/
  activeLow : Bool
  /-- the electrical level the outside gives the line: high -/
  outside : Bool
deriving DecidableEq, Repr

/-- The auxiliary line unit. -/
structure AuxUnit where
  lines : Vector AuxLine 8
  /-- GENERAL_OUT levels: active (R185) -/
  general : Vector Bool 8
  /-- beginning of the PASS_END_OUT pulse in progress (R183) -/
  passEnd : Option Tick
  /-- beginning of the BLADE_STROBE_OUT pulse in progress (R183) -/
  strobe : Option Tick
  /-- strobe window (R184) -/
  strobeWindow : Option Nat
deriving DecidableEq, Repr

/-- The controller, and the queue of the commands that wait for it. -/
structure State where
  eu : Encoder
  tu : TriggerUnit
  hp : PerHead HeadPort
  pe : Placement
  bt : BladeTable
  rm : RunoutMap
  spe : ScanPlan
  rs : RecordStore
  lp : LinkPort
  ax : AuxUnit
  bus : InFlight
  /-- the reset line is asserted (R179) -/
  resetHeld : Bool
  /-- MODEL: how many free values have been used (log entry 7) -/
  freeCount : Nat
  /-- MODEL: the commands that wait, first in, first out -/
  pending : List Instr
deriving DecidableEq, Repr

/-! ## The state after a full reset -/

/-- An empty set of accumulators (R100). -/
def Accumulators.cleared : Accumulators := ⟨Vector.replicate 256 0, Vector.replicate 256 0, none⟩

/-- No record counted (R111). -/
def StepCounters.zero : StepCounters := ⟨0, 0, 0, 0, 0⟩

/-- The ENCODER group's defaults (section 1.8). -/
def EncoderParams.default : EncoderParams := ⟨262144, true, 2, 0, 0, false⟩

/-- The encoder unit after a full reset (section 1.8, State of the encoder unit after resets). -/
def Encoder.reset : Encoder :=
  { count := 0, referenced := false, direction := .forward, netRevs := 0, highWater := 0, lastRev := none,
    revTime := 0, ring := [], stallStart := 0, stallRaised := false, radial := 0, quadErrors := 0,
    radialErrors := 0, tick := 0, params := .default }

/-- A HEAD group's defaults (section 2.7). -/
def HeadParams.default : HeadParams := ⟨.down, 0, 0, 0, 2000, 100000, .mark, 0⟩

/-- A head port after a full reset (R25, R30, R34, R35). -/
def HeadPort.reset : HeadPort :=
  { outstanding := [], queue := [], counters := ⟨0, 0, 0, 0, 0, 0, 0, 0⟩, partialWord := [], lastByte := 0,
    params := .default }

/-- The trigger unit's share of a head after a full reset (R22, R24, R31, R37). -/
def TriggerHead.reset : TriggerHead := ⟨0, none, none, .none⟩

/-- An edge detector after a full reset (R73). -/
def Detector.reset : Detector :=
  { state := .outside, record := none, presentRun := 0, candidates := [], absentRun := 0, prevOffset := 0,
    lastPresent := none, lastSeq := none, runIn := false, runInWindow := none,
    recorded := Vector.replicate 128 none }

/-- The blade table after a full reset (section 4.8). -/
def BladeTable.reset : BladeTable := ⟨[], [], [], 0, ⟨65536, 32768, 3⟩⟩

/-- The runout map after a full reset (section 6.5). -/
def RunoutMap.reset : RunoutMap := ⟨Vector.replicate 256 0, .empty, 0, 0, .cleared, none⟩

/-- The default policies in class order (section 9.1). -/
def PlanParams.default : PlanParams :=
  ⟨10000, 0, #v[.stopNow, .stopNow, .stopNow, .haltAtStepEnd, .stopNow, .report, .report, .stopNow]⟩

/-- The scan plan engine after a full reset (R107, R111, R129, R131, R141, R144). -/
def ScanPlan.reset : ScanPlan :=
  { slots := Vector.replicate 64 none, state := .idle, active := none, runId := 0, pass := 0, passesDone := 0,
    firstPass := 0, counters := .zero, settleTimer := none, armTimer := none, armLimit := 0, drift := false,
    pendingDecision := none, interjection := .none, context := none, latch := none, secondary := 0,
    faultCounters := Vector.replicate 8 0, params := .default, msMark := 0 }

/-- The record store after a full reset (R153). -/
def RecordStore.reset : RecordStore := ⟨[], 0, 0, false, ⟨0, 0, 0, 0, 0⟩⟩

/-- The link port after a full reset (section 11.7). -/
def LinkPort.reset : LinkPort :=
  { receiving := none, lastByte := 0, queue := [], overload := [], reply := none, notices := [],
    counters := ⟨0, 0, 0, 0, 0, 0, 0⟩, resetMark := false, sending := none }

/-- The auxiliary line unit after a full reset (section 12.5); the outside drives every line low (log entry 9). -/
def AuxUnit.reset : AuxUnit :=
  { lines := Vector.replicate 8 ⟨.generalIn, false, false⟩, general := Vector.replicate 8 false, passEnd := none,
    strobe := none, strobeWindow := none }

/-- The controller right after a full reset, with no command waiting. -/
def State.reset : State :=
  { eu := .reset
    tu := ⟨.all .reset, none⟩
    hp := .all .reset
    pe := ⟨none, .h3, .all .reset⟩
    bt := .reset
    rm := .reset
    spe := .reset
    rs := .reset
    lp := .reset
    ax := .reset
    bus := ⟨[], [], [], [], []⟩
    resetHeld := false
    freeCount := 0
    pending := [] }

end Sys2Proof.Machine
end

