-- ==== Sys2Proof/Machine/Flags.lean ====
section
/-! DEFINITION. The flags of a section record (R89) and the set of them, as the 12 bits of 13.3. -/

namespace Sys2Proof.Machine

/-- The record flags, in the order of their bits (13.3). -/
inductive RecordFlag where
  | missingEntry
  | missingExit
  | extraSurface
  | truncated
  | loss
  | overrun
  | noResponse
  | clamped
  | reversed
  | drift
  | aborted
  | pointsDropped
deriving DecidableEq, Repr

/-- The bit a flag stands in (13.3: bits 0..11). -/
def flagBit : RecordFlag → Nat
  | .missingEntry => 0
  | .missingExit => 1
  | .extraSurface => 2
  | .truncated => 3
  | .loss => 4
  | .overrun => 5
  | .noResponse => 6
  | .clamped => 7
  | .reversed => 8
  | .drift => 9
  | .aborted => 10
  | .pointsDropped => 11

/-- The set that holds the one flag. -/
def flagMask (f : RecordFlag) : BitVec 12 := (1 : BitVec 12) <<< flagBit f

/-- A flag raised more than once has the same effect as once (R89). -/
def withFlag (f : RecordFlag) (flags : BitVec 12) : BitVec 12 := flags ||| flagMask f

/-- The flag is raised when the condition holds. -/
def withFlagIf (c : Bool) (f : RecordFlag) (flags : BitVec 12) : BitVec 12 := if c then withFlag f flags else flags

/-- The set holds the flag. -/
def hasFlag (f : RecordFlag) (flags : BitVec 12) : Bool := flags.getLsbD (flagBit f)

/-- A record is clean when its flag set is empty (R90). -/
def isClean (flags : BitVec 12) : Bool := flags == 0

end Sys2Proof.Machine
end

