-- ==== Sys2Proof/Machine/Operands.lean ====
section
/-! DEFINITION. Fields of a command's body: byte order, signed fields, the keywords, and values picked by a field mask
and clamped (R187, R172). -/

namespace Sys2Proof.Machine

/-- An unsigned field, most significant byte first (R187). -/
def beNat (bs : List Byte) : Nat := bs.foldl (fun v b => v * 256 + b.toNat) 0

/-- A signed field in two's complement (R187). -/
def beInt (bs : List Byte) : Int := (BitVec.ofNat (8 * bs.length) (beNat bs)).toInt

/-- The low `n` bytes of `v`, most significant byte first (R187). -/
def natBytes : Nat → Nat → List Byte
  | 0, _ => []
  | n + 1, v => BitVec.ofNat 8 (v / 256 ^ n) :: natBytes n v

/-- A signed value in `n` bytes of two's complement (R187). -/
def intBytes (n : Nat) (v : Int) : List Byte := natBytes n (v % (256 ^ n : Nat)).toNat

/-- The `len` bytes at offset `off`. -/
def bytesAt (bs : List Byte) (off len : Nat) : List Byte := (bs.drop off).take len

/-- The unsigned field of `len` bytes at offset `off`. -/
def natAt (bs : List Byte) (off len : Nat) : Nat := beNat (bytesAt bs off len)

/-- The signed field of `len` bytes at offset `off`. -/
def intAt (bs : List Byte) (off len : Nat) : Int := beInt (bytesAt bs off len)

/-- One byte for a mark: 0 for no and 1 for yes. Where the layout gives no code for yes, the 1 is the model's (DESIGN
CHOICE, log entry 38). -/
def boolByte (b : Bool) : List Byte := [if b then 1 else 0]

/-- Characters as they travel on the link. -/
def ascii (cs : List Char) : List Byte := cs.map fun c => BitVec.ofNat 8 c.toNat

/-- The keywords of section 11.4. -/
inductive Keyword where
  | idnt | stat | setp | getp | cntr | runp | stop | cont | intj | fclr | grnt
  | btld | btrd | btmk | mpld | mprd | mpcl | stpw | stpr | axas | axwr | rset
deriving DecidableEq, Repr

/-- A keyword as it travels: four capital letters (R165). -/
def keywordBytes : Keyword → List Byte
  | .idnt => ascii ['I', 'D', 'N', 'T']
  | .stat => ascii ['S', 'T', 'A', 'T']
  | .setp => ascii ['S', 'E', 'T', 'P']
  | .getp => ascii ['G', 'E', 'T', 'P']
  | .cntr => ascii ['C', 'N', 'T', 'R']
  | .runp => ascii ['R', 'U', 'N', 'P']
  | .stop => ascii ['S', 'T', 'O', 'P']
  | .cont => ascii ['C', 'O', 'N', 'T']
  | .intj => ascii ['I', 'N', 'T', 'J']
  | .fclr => ascii ['F', 'C', 'L', 'R']
  | .grnt => ascii ['G', 'R', 'N', 'T']
  | .btld => ascii ['B', 'T', 'L', 'D']
  | .btrd => ascii ['B', 'T', 'R', 'D']
  | .btmk => ascii ['B', 'T', 'M', 'K']
  | .mpld => ascii ['M', 'P', 'L', 'D']
  | .mprd => ascii ['M', 'P', 'R', 'D']
  | .mpcl => ascii ['M', 'P', 'C', 'L']
  | .stpw => ascii ['S', 'T', 'P', 'W']
  | .stpr => ascii ['S', 'T', 'P', 'R']
  | .axas => ascii ['A', 'X', 'A', 'S']
  | .axwr => ascii ['A', 'X', 'W', 'R']
  | .rset => ascii ['R', 'S', 'E', 'T']

/-- Every keyword of section 11.4. -/
def allKeywords : List Keyword :=
  [.idnt, .stat, .setp, .getp, .cntr, .runp, .stop, .cont, .intj, .fclr, .grnt,
   .btld, .btrd, .btmk, .mpld, .mprd, .mpcl, .stpw, .stpr, .axas, .axwr, .rset]

/-- The four keyword bytes of a command as received (R165, R169). -/
def commandKeyword (c : HostCommand) : List Byte := c.body.take 4

/-- The arguments of a command: what follows its keyword (R165). -/
def commandArgs (c : HostCommand) : List Byte := c.body.drop 4

/-- The command that a command's keyword names, when it names one (R169). -/
def commandNames (c : HostCommand) : Option Keyword :=
  allKeywords.find? fun k => keywordBytes k == commandKeyword c

/-- The head a head byte names, 0..3 (R187). -/
def headOfNat : Nat → Option Head
  | 0 => some .h0
  | 1 => some .h1
  | 2 => some .h2
  | 3 => some .h3
  | _ => none

/-- A head's number. -/
def headNum : Head → Nat
  | .h0 => 0
  | .h1 => 1
  | .h2 => 2
  | .h3 => 3

/-- A head byte; 0xFF stands for none (R187). -/
def headByte : Option Head → List Byte
  | none => [0xFF]
  | some h => natBytes 1 (headNum h)

/-- The slot a slot byte names, 0..63. -/
def slotOfNat (n : Nat) : Option Slot := if h : n < 64 then some ⟨n, h⟩ else none

/-- A slot byte; 0xFF stands for none, and for END in a next field (R187). -/
def slotByte : Option Slot → List Byte
  | none => [0xFF]
  | some s => natBytes 1 s.val

/-- A value the host writes, with the mark that it was clamped (R172). -/
structure Written (α : Type) where
  value : α
  clamped : Bool
deriving DecidableEq, Repr

/-- Field `i` of a masked write: a natural value clamped to `lo..hi` when the mask names it, and the old value when
it does not; the values of unnamed fields are not examined (R172). -/
def writeNat (mask i lo hi old new : Nat) : Written Nat :=
  if mask.testBit i then ⟨clampNat lo hi new, clampNat lo hi new != new⟩ else ⟨old, false⟩

/-- The same for a signed value. -/
def writeInt (mask i : Nat) (lo hi old new : Int) : Written Int :=
  if mask.testBit i then ⟨clampInt lo hi new, clampInt lo hi new != new⟩ else ⟨old, false⟩

/-- The same for a field with coded values: a code outside `codes` takes the last value listed, and counts as clamped
(R17, R35, R142). -/
def writeCode {α : Type} (mask i : Nat) (codes : List α) (last old : α) (new : Nat) : Written α :=
  if mask.testBit i then
    match codes[new]? with
    | some v => ⟨v, false⟩
    | none => ⟨last, true⟩
  else ⟨old, false⟩

end Sys2Proof.Machine
end

