-- ==== Sys2Proof/Machine/Layouts.lean ====
section
/-! DEFINITION. The byte layouts of chapter 13: checks, codes, frames, records, steps and notices (R165, R187, R188). -/

namespace Sys2Proof.Machine

/-! ## Checks -/

/-- One bit into the CRC-16 register (R187). -/
def crc16Bit (r : BitVec 16) (bit : Bool) : BitVec 16 :=
  if r.getLsbD 15 == bit then r <<< 1 else (r <<< 1) ^^^ 0x1021

/-- One byte into the CRC-16 register, most significant bit first (R187). -/
def crc16Byte (r : BitVec 16) (b : Byte) : BitVec 16 :=
  [7, 6, 5, 4, 3, 2, 1, 0].foldl (fun r i => crc16Bit r (b.getLsbD i)) r

/-- The CRC-16 of a frame's bytes (R187). -/
def crc16 (bs : List Byte) : BitVec 16 := bs.foldl crc16Byte 0xFFFF

/-- One bit into the 32-bit digest register (R188). -/
def crc32Bit (r : BitVec 32) (bit : Bool) : BitVec 32 :=
  if r.getLsbD 0 == bit then r >>> 1 else (r >>> 1) ^^^ 0xEDB88320

/-- One byte into the digest register, least significant bit first (R188). -/
def crc32Byte (r : BitVec 32) (b : Byte) : BitVec 32 :=
  [0, 1, 2, 3, 4, 5, 6, 7].foldl (fun r i => crc32Bit r (b.getLsbD i)) r

/-- The 32-bit check over bytes, inverted at the end (R188). -/
def crc32 (bs : List Byte) : BitVec 32 := ~~~ (bs.foldl crc32Byte 0xFFFFFFFF)

/-! ## Codes -/

/-- Status codes (13.1). -/
def statusCode : Status → Nat
  | .ok => 0
  | .clamped => 1
  | .badLength => 2
  | .unknown => 3
  | .invalid => 4
  | .locked => 5
  | .slotBusy => 6
  | .wrongState => 7
  | .interjectBusy => 8
  | .faultLatched => 9
  | .overload => 10

/-- Plan state codes (13.5). -/
def planCode : PlanState → Nat
  | .idle => 0
  | .settling => 1
  | .armed => 2
  | .acquiring => 3
  | .tail => 4
  | .halted => 5
  | .faulted => 6

/-- Fault class codes, and their places in class order (13.4). -/
def classIndex : FaultClass → Fin 8
  | .indexSlip => 0
  | .direction => 1
  | .stall => 2
  | .headSilent => 3
  | .armTimeout => 4
  | .radiusDrift => 5
  | .storeLoss => 6
  | .stepInvalid => 7

/-- Policy codes (13.4). -/
def policyCode : Policy → Nat
  | .report => 0
  | .haltAtStepEnd => 1
  | .stopNow => 2

/-- Blade state codes (13.4). -/
def bladeStateCode : BladeState → Nat
  | .active => 0
  | .missing => 1
  | .displaced => 2
  | .excluded => 3

/-- BLST cause codes (13.6). -/
def causeCode : BladeCause → Nat
  | .missed => 0
  | .found => 1
  | .saturated => 2
  | .overlap => 3
  | .recovered => 4
  | .excluded => 5
  | .included => 6
  | .limit => 7

/-- FALT disposition codes (13.6). -/
def dispositionCode : Disposition → Nat
  | .reported => 0
  | .latchedHalt => 1
  | .latchedStop => 2
  | .secondary => 3
  | .escalated => 4

/-- Map state codes (13.4). -/
def mapStateCode : MapState → Nat
  | .empty => 0
  | .loaded => 1
  | .learned => 2

/-- Head word and point codes (13.2, 13.3). -/
def headCodeNum : HeadCode → Nat
  | .ok => 0
  | .saturated => 1
  | .multiPeak => 2
  | .noPeak => 3

/-- The code in a head word's two bits (13.2). -/
def headCodeOf (n : Nat) : HeadCode :=
  match n with
  | 0 => .ok
  | 1 => .saturated
  | 2 => .multiPeak
  | _ => .noPeak

/-- Data frame kind codes (13.1). -/
def frameKindCode : FrameKind → Nat
  | .whole => 0
  | .first => 1
  | .middle => 2
  | .last => 3

/-- The functions of an auxiliary line in the order of their codes (chapter 12). -/
def auxFunctions : List AuxFunction :=
  [.generalIn, .generalOut, .inposIn, .radialHomeIn, .stopIn, .interjectIn, .gateIn, .indexIn, .bladeStrobeOut,
   .stepActiveOut, .passEndOut, .faultOut, .triggerMirror0, .triggerMirror1, .starvedOut, .settlingOut]

/-- The function's code (chapter 12). -/
def auxFunctionCode (f : AuxFunction) : Nat := auxFunctions.idxOf f

/-! ## Frames -/

/-- A frame kind's byte (13.1). -/
def flightByte : FlightKind → Byte
  | .reply => 0x02
  | .overload => 0x02
  | .notice => 0x03
  | .data => 0x04

/-- The kind byte of a command frame (13.1). -/
def commandByte : Byte := 0x01

/-- A whole frame: start character, length, kind, tag, body, check (R165, 13.1). -/
def frameBytes (kind tag : Byte) (body : List Byte) : List Byte :=
  let checked := natBytes 2 body.length ++ kind :: tag :: body
  0xA5 :: checked ++ natBytes 2 (crc16 checked).toNat

/-- The body of a reply (13.1). -/
def replyBody (r : Reply) : List Byte := r.keyword ++ natBytes 1 (statusCode r.status) ++ r.data

/-! ## Records -/

/-- A point in 8 bytes (13.3). -/
def pointBytes (p : Point) : List Byte :=
  natBytes 3 p.u ++ intBytes 3 p.z ++ natBytes 2 (p.intensity.toNat * 16 + headCodeNum p.code * 4)

/-- The point digest, absent when there is no point (R92, R188). -/
def pointDigest (ps : List Point) : Option (BitVec 32) :=
  if ps.isEmpty then none else some (crc32 (ps.flatMap pointBytes))

/-- The presence byte of a record header (13.3). Its bits 5..7, which no layout names, are 0 (DESIGN CHOICE, log entry
39). -/
def presenceByte (r : SectionRecord) : Nat :=
  (if r.entry.isSome then 1 else 0) + (if r.exit.isSome then 2 else 0) + (if r.heights.isSome then 4 else 0) +
  (if r.digest.isSome then 8 else 0) + (if r.withheld then 16 else 0)

/-- The 60-byte header of a section record (13.3). The bits 12..15 of the flags, which no layout names, are 0 (DESIGN
CHOICE, log entry 39). -/
def headerBytes (r : SectionRecord) : List Byte :=
  natBytes 2 r.tag.toNat ++ natBytes 1 r.runId.toNat ++ natBytes 1 r.pass ++ natBytes 1 (headNum r.head) ++
  natBytes 1 r.blade ++ natBytes 2 r.bladeId.toNat ++ natBytes 2 r.gen.toNat ++ natBytes 2 r.mapGen.toNat ++
  natBytes 4 r.radius ++ natBytes 4 r.openTick.toNat ++ natBytes 3 (r.entry.getD 0) ++ natBytes 3 (r.exit.getD 0) ++
  natBytes 4 r.count ++ natBytes 4 r.dropouts ++ natBytes 4 r.saturated ++ natBytes 4 r.multiPeak ++
  intBytes 3 (r.heights.elim 0 (·.zMin)) ++ intBytes 3 (r.heights.elim 0 (·.zMax)) ++
  intBytes 3 (r.heights.elim 0 (·.zMean)) ++ natBytes 2 r.pointCount ++ natBytes 1 (presenceByte r) ++
  natBytes 2 r.flags.toNat ++ natBytes 4 (r.digest.elim 0 (·.toNat))

/-- The body of a data frame (13.1). -/
def dataBody (f : DataFrame) : List Byte :=
  natBytes 2 f.number.toNat ++ natBytes 1 (frameKindCode f.kind) ++ natBytes 1 f.index ++
  f.header.elim [] headerBytes ++ natBytes 1 f.points.length ++ f.points.flatMap pointBytes

/-! ## Steps -/

/-- The flag byte of a step (13.4). Its bit 7 is 0, because a flag code outside the seven is not stored (R108). -/
def stepFlagsByte (f : StepFlags) : Nat :=
  (if f.haltAfter then 1 else 0) + (if f.discard then 2 else 0) + (if f.headerOnly then 4 else 0) +
  (if f.learn then 8 else 0) + (if f.track then 16 else 0) + (if f.scaleMap then 32 else 0) +
  (if f.skipIfClean then 64 else 0)

/-- The flags in a flag byte; a flag code outside the seven is not stored (R108). -/
def stepFlagsOf (n : Nat) : StepFlags :=
  ⟨n.testBit 0, n.testBit 1, n.testBit 2, n.testBit 3, n.testBit 4, n.testBit 5, n.testBit 6⟩

/-- The head mask in bits 0..3 (13.4). -/
def maskByte (m : PerHead Bool) : Nat :=
  (if m.p0 then 1 else 0) + (if m.p1 then 2 else 0) + (if m.p2 then 4 else 0) + (if m.p3 then 8 else 0)

/-- The head mask that a byte gives. Its bits 4..7, of which no rule speaks, are disregarded (DESIGN CHOICE, log entry
35). -/
def maskOf (n : Nat) : PerHead Bool := ⟨n.testBit 0, n.testBit 1, n.testBit 2, n.testBit 3⟩

/-- How many heads the mask names. -/
def maskSize (m : PerHead Bool) : Nat := m.p0.toNat + m.p1.toNat + m.p2.toNat + m.p3.toNat

/-- Code and spacing of a trigger mode (13.4). -/
def modeFields : TriggerMode → Nat × Nat
  | .angle m => (0, m)
  | .time t => (1, t)

/-- The 32-byte step (13.4). -/
def stepBytes (p : ScanStep) : List Byte :=
  natBytes 2 p.tag.toNat ++ slotByte p.next ++ natBytes 1 (maskByte p.mask) ++ natBytes 4 p.radius ++
  natBytes 2 p.tolerance ++ natBytes 2 p.settle ++ natBytes 1 p.passes ++ natBytes 1 (modeFields p.mode).1 ++
  natBytes 4 (modeFields p.mode).2 ++ boolByte p.windowed ++ natBytes 4 p.guard ++ natBytes 1 p.first ++
  natBytes 1 p.last ++ natBytes 1 p.decimation ++ natBytes 1 p.kOn ++ natBytes 1 p.kOff ++ natBytes 2 p.threshold ++
  natBytes 1 (headNum p.trackHead) ++ natBytes 1 (stepFlagsByte p.flags)

/-- The trigger mode a code and a spacing give, the spacing clamped to its range (R107, R108); a code other than
ANGLE or TIME gives none. -/
def readMode (code spacing : Nat) : Option (Written TriggerMode) :=
  match code with
  | 0 => some ⟨.angle (clampNat 1 65535 spacing), clampNat 1 65535 spacing != spacing⟩
  | 1 => some ⟨.time (clampNat 2000 1000000 spacing), clampNat 2000 1000000 spacing != spacing⟩
  | _ => none

/-- The next field: a slot, or 0xFF for END; any other byte gives none (R108, R187). -/
def readNext (n : Nat) : Option (Option Slot) :=
  if n = 255 then some none else (slotOfNat n).map some

/-- A step clamped as R108 part 3 says meets the tests of part 4. -/
def stepFormOk (p : ScanStep) : Bool :=
  decide (0 < maskSize p.mask) && decide (0 < p.passes) && decide (p.first ≤ p.last) &&
  (!p.flags.learn || decide (maskSize p.mask ≤ 1)) && (!p.flags.track || p.mask.get p.trackHead)

/-- The step in 32 bytes, taken by parts 2 to 4 of R108; `none` is the answer INVALID. A track head byte outside
0..3 is refused too (log entry 13), and the guard is clamped whether or not the step is windowed (log entry 14). -/
def readStep (bs : List Byte) : Option (Written ScanStep) :=
  match readMode (natAt bs 13 1) (natAt bs 14 4), readNext (natAt bs 2 1), headOfNat (natAt bs 30 1) with
  | some mode, some next, some trackHead =>
    let radius := natAt bs 4 4
    let settle := natAt bs 10 2
    let guard := natAt bs 19 4
    let first := natAt bs 23 1
    let last := natAt bs 24 1
    let d := natAt bs 25 1
    let kOn := natAt bs 26 1
    let kOff := natAt bs 27 1
    let threshold := natAt bs 28 2
    let p : ScanStep :=
      { tag := BitVec.ofNat 16 (natAt bs 0 2), next := next, mask := maskOf (natAt bs 3 1),
        radius := clampNat 0 8000000 radius, tolerance := natAt bs 8 2, settle := clampNat 0 10000 settle,
        passes := natAt bs 12 1, mode := mode.value, windowed := natAt bs 18 1 != 0, guard := clampNat 0 1048576 guard,
        first := clampNat 0 127 first, last := clampNat 0 127 last, decimation := clampNat 0 7 d,
        kOn := clampNat 1 15 kOn, kOff := clampNat 1 15 kOff, threshold := clampNat 0 4095 threshold,
        trackHead := trackHead, flags := stepFlagsOf (natAt bs 31 1) }
    let clamped := mode.clamped || p.radius != radius || p.settle != settle || p.guard != guard || p.first != first ||
      p.last != last || p.decimation != d || p.kOn != kOn || p.kOff != kOff || p.threshold != threshold
    if stepFormOk p then some ⟨p, clamped⟩ else none
  | _, _, _ => none

/-! ## Parameter groups -/

/-- The ENCODER group (13.4). -/
def encoderBytes (p : EncoderParams) : List Byte :=
  natBytes 4 p.counts ++ boolByte p.indexCorrection ++ natBytes 1 p.indexTolerance ++
  natBytes 4 p.zeroOffset.toNat ++ intBytes 4 p.radialOffset ++ boolByte p.radialMinus

/-- The codes of a facing and of a no-response policy (13.4). -/
def facingCode : Facing → Nat
  | .down => 0
  | .up => 1

def silenceCode : SilencePolicy → Nat
  | .mark => 0
  | .ignore => 1
  | .fault => 2

/-- The HEAD group, with the sequence counter as its last field (13.4, R35). -/
def headBytes (p : HeadParams) (seq : Seq) : List Byte :=
  natBytes 1 (facingCode p.facing) ++ intBytes 4 p.reference ++ natBytes 4 p.latency ++
  natBytes 4 p.azimuth.toNat ++ natBytes 4 p.minSpacing ++ natBytes 4 p.timeout ++
  natBytes 1 (silenceCode p.policy) ++ natBytes 1 p.priority ++ natBytes 2 seq.toNat

/-- The TRACK group (13.4). -/
def trackBytes (p : TrackParams) : List Byte := natBytes 4 p.limit ++ natBytes 4 p.guard ++ natBytes 1 p.kMiss

/-- The PLAN group (13.4). -/
def planBytes (p : PlanParams) : List Byte :=
  natBytes 4 p.armTimeout ++ natBytes 1 p.interjectSlot.val ++ p.policies.toList.flatMap fun q => natBytes 1 (policyCode q)

/-! ## Notices -/

/-- A notice's keyword (section 11.6). -/
def noticeKeyword : Notice → List Byte
  | .stepDone .. => ascii ['S', 'D', 'O', 'N']
  | .runDone .. => ascii ['R', 'D', 'O', 'N']
  | .runStopped .. => ascii ['R', 'S', 'T', 'P']
  | .faultRaised .. => ascii ['F', 'A', 'L', 'T']
  | .faultHalted .. => ascii ['F', 'A', 'L', 'T']
  | .bladeChanged .. => ascii ['B', 'L', 'S', 'T']
  | .starved .. => ascii ['S', 'T', 'R', 'V']
  | .referenced .. => ascii ['R', 'E', 'F', 'D']

/-- The map-result fields of an SDON, 0 when there is none (13.6), behind a present mark of 1 (DESIGN CHOICE, log entry
38). -/
def mapResultBytes : Option MapResult → List Byte
  | none => natBytes 8 0
  | some m =>
    natBytes 1 1 ++ boolByte m.sparse ++ natBytes 2 m.filled ++ natBytes 2 m.saturated ++ natBytes 2 m.gen.toNat

/-- A notice's contents after the keyword (13.6). The bits 12..15 of an SDON's flag union, which no layout names, are 0
(DESIGN CHOICE, log entry 39), and its interjected mark is 1 for yes (DESIGN CHOICE, log entry 38). -/
def noticeContents : Notice → List Byte
  | .stepDone slot tag runId done interjected c missing result =>
    slotByte (some slot) ++ natBytes 2 tag.toNat ++ natBytes 1 runId.toNat ++ natBytes 1 done ++
    boolByte interjected ++ natBytes 4 c.made ++ natBytes 4 c.clean ++ natBytes 4 c.headerOnly ++ natBytes 4 c.lost ++
    natBytes 2 c.union.toNat ++ natBytes 1 missing ++ mapResultBytes result
  | .runDone slot tag runId => slotByte (some slot) ++ natBytes 2 tag.toNat ++ natBytes 1 runId.toNat
  | .runStopped byLine slot tag runId state pass aborted =>
    boolByte byLine ++ slotByte (some slot) ++ natBytes 2 tag.toNat ++ natBytes 1 runId.toNat ++
    natBytes 1 (planCode state) ++ natBytes 1 pass ++ natBytes 2 aborted
  | .faultRaised cls head tag pass tick disposition state secondary aborted =>
    natBytes 1 0 ++ natBytes 1 (classIndex cls).val ++ headByte head ++ natBytes 2 tag.toNat ++ natBytes 1 pass ++
    natBytes 4 tick.toNat ++ natBytes 1 (dispositionCode disposition) ++ natBytes 1 (planCode state) ++
    natBytes 4 secondary ++ natBytes 2 aborted
  | .faultHalted r state secondary =>
    natBytes 1 1 ++ natBytes 1 (classIndex r.cls).val ++ headByte r.head ++ natBytes 2 r.tag.toNat ++
    natBytes 1 r.pass ++ natBytes 4 r.tick.toNat ++ [0xFF] ++ natBytes 1 (planCode state) ++ natBytes 4 secondary ++
    natBytes 2 0
  | .bladeChanged index id old new cause offset misses gen =>
    natBytes 1 index ++ natBytes 2 id.toNat ++ natBytes 1 (bladeStateCode old) ++ natBytes 1 (bladeStateCode new) ++
    natBytes 1 (causeCode cause) ++ intBytes 3 offset ++ natBytes 1 misses ++ natBytes 2 gen.toNat
  | .starved occupancy records tick => natBytes 2 occupancy ++ natBytes 2 records ++ natBytes 4 tick.toNat
  | .referenced tick => natBytes 4 tick.toNat

/-- A notice's body (13.1). -/
def noticeBody (n : Notice) : List Byte := noticeKeyword n ++ noticeContents n

end Sys2Proof.Machine
end

