-- ==== Sys2Proof/Machine/Ops.lean ====
section
/-! DEFINITION. The operations every block shares: time, the form of a meaning, notices, raisings, the radius, the
speed estimate, the predicted angle and the levels of the auxiliary lines. -/

namespace Sys2Proof.Machine

/-! ## The form of a meaning -/

/-- What `exec` and `step` answer. -/
abbrev Answered := Host.Outcome State Fault Refusal

/-- `after` ticks pass (R16). -/
def elapse (after : Nat) (s : State) : State := { s with eu := { s.eu with tick := s.eu.tick + BitVec.ofNat 32 after } }

/-- A command that a running controller takes: while the reset line is asserted every block holds its values and
nothing happens (R179). -/
def running (f : State → State) (s : State) : Answered := .next (if s.resetHeld then s else f s)

/-- An event that the outside or a timer brings `after` ticks later (log entry 1). -/
def event (after : Nat) (f : State → State) (s : State) : Answered := running (fun t => f (elapse after t)) s

/-- More than `period` ticks have passed since the reading `t0`. -/
def passedMore (period : Nat) (t0 : Tick) (s : State) : Bool := decide (period < ticksSince t0 s.eu.tick)

/-- At least `period` ticks have passed since the reading `t0`. -/
def passedAtLeast (period : Nat) (t0 : Tick) (s : State) : Bool := decide (period ≤ ticksSince t0 s.eu.tick)

/-- A full reset of every block (chapters 1 to 12, R177, R179). What is not the controller's stays: the electrical
levels the outside gives the lines, the reset line, and the model's own queue and counter (log entry 10). -/
def fullReset (s : State) : State :=
  { State.reset with
    ax := { State.reset.ax with lines := s.ax.lines.map fun l => { (⟨.generalIn, false, false⟩ : AuxLine) with outside := l.outside } }
    resetHeld := s.resetHeld
    freeCount := s.freeCount
    pending := s.pending }

/-! ## Notices and raisings -/

/-- A notice joins the link port's notice queue, or is dropped and counted when 32 wait (R178). -/
def linkNotice (n : Notice) (l : LinkPort) : LinkPort :=
  if l.notices.length < Config.noticeLimit then { l with notices := l.notices ++ [n] }
  else { l with counters := { l.counters with noticesLost := satInc l.counters.noticesLost } }

/-- A block has the link port queue a notice. -/
def queueNotice (n : Notice) (s : State) : State := { s with lp := linkNotice n s.lp }

/-- Several notices of one change, in order. -/
def queueNotices (ns : List Notice) (s : State) : State := { s with lp := ns.foldl (fun l n => linkNotice n l) s.lp }

/-- A raising as it stands now: with the tag of the active-step copy and the pass that the engine holds, or 0 and 0
when there is no active step (R141). -/
def raisedNow (cls : FaultClass) (head : Option Head) (s : State) : Raising :=
  match s.spe.active with
  | some a => ⟨cls, head, a.step.tag, s.spe.pass, s.eu.tick⟩
  | none => ⟨cls, head, 0, 0, s.eu.tick⟩

/-- A raising is on its way to the latch, where FAULT_RAISE takes it (R141, R148, log entry 5). -/
def sendRaising (r : Raising) (s : State) : State :=
  { s with bus := { s.bus with raisings := s.bus.raisings ++ [r] } }

/-! ## Updates of one head's share -/

/-- Head `h`'s port is changed. -/
def onPort (h : Head) (f : HeadPort → HeadPort) (s : State) : State := { s with hp := s.hp.set h (f (s.hp.get h)) }

/-- Head `h`'s counters are changed. -/
def onCounters (h : Head) (f : HeadCounters → HeadCounters) (s : State) : State :=
  onPort h (fun p => { p with counters := f p.counters }) s

/-- Head `h`'s share of the trigger unit is changed. -/
def onTrigger (h : Head) (f : TriggerHead → TriggerHead) (s : State) : State :=
  { s with tu := { s.tu with heads := s.tu.heads.set h (f (s.tu.heads.get h)) } }

/-- Head `h`'s edge detector is changed. -/
def onDetector (h : Head) (f : Detector → Detector) (s : State) : State :=
  { s with pe := { s.pe with detectors := s.pe.detectors.set h (f (s.pe.detectors.get h)) } }

/-- A flag is raised on the record a detector holds open, if it holds one (R22, R30, R42, R75). -/
def flagDetector (f : RecordFlag) (d : Detector) : Detector :=
  { d with record := d.record.map fun r => { r with flags := withFlag f r.flags } }

/-- The same for head `h`'s detector. -/
def flagOpen (f : RecordFlag) (h : Head) (s : State) : State := onDetector h (flagDetector f) s

/-! ## Readings of the encoder unit -/

/-- The radius r in lu (R15). -/
def radius (s : State) : Nat :=
  let cr := s.eu.radial.toInt
  let p := s.eu.params
  (clampInt 0 8000000 (if p.radialMinus then p.radialOffset - cr else p.radialOffset + cr)).toNat

/-- The newest tick of the ring: T_latest (R11). -/
def latestEdge (e : Encoder) : Option Tick := e.ring.getLast?

/-- t_edge: T_latest, or 0 when the ring is empty (R12). -/
def edgeTick (e : Encoder) : Tick := (latestEdge e).getD 0

/-- The speed estimate Q; `none` is STOPPED (R12). -/
def speedEstimate (e : Encoder) : Option Nat :=
  match e.ring.head?, latestEdge e with
  | some oldest, some newest =>
    let span := ticksSince oldest newest
    if e.ring.length = Config.ringLimit ∧ span < 1073741824 ∧ ticksSince newest e.tick ≤ Config.silencePeriod then
      some (4 * span)
    else none
  | _, _ => none

/-- C lies in the upper half [N/2, N) of the revolution (R6, R7). -/
def upperHalf (e : Encoder) : Bool := decide (e.params.counts ≤ 2 * e.count)

/-- The angle under head `h` when the table count is `c`, with no fraction and no latency (R23). -/
def angleAt (c : Nat) (h : Head) (s : State) : Angle :=
  BitVec.ofNat 24 (c * 16777216 / s.eu.params.counts) + (s.hp.get h).params.azimuth - s.eu.params.zeroOffset

/-- The predicted angle of head `h` (R23). -/
def predictedAngle (h : Head) (s : State) : Angle := angleAt s.eu.count h s

/-- The angle at the crossing, α0 (R31, R77). -/
def crossingAngle (h : Head) (s : State) : Angle := (s.hp.get h).params.azimuth - s.eu.params.zeroOffset

/-! ## Windows -/

/-- The angle lies in the window widened by `guard` on each side (R23). -/
def inSpan (guard : Nat) (w : Window) (a : Angle) : Bool :=
  decide ((a - w.start + BitVec.ofNat 24 guard).toNat < w.width + 2 * guard)

/-- The local offset of an angle from the window's start (R53). -/
def localOffset (w : Window) (a : Angle) : Nat := (a - w.start).toNat

/-- Blade `i` is enabled for the step in the generation of the window `w` (R23). -/
def enabledFor (p : ScanStep) (i : Nat) (w : Window) : Bool := decide (p.first ≤ i ∧ i ≤ p.last) && !w.excluded

/-- The windows of a set with their blade indexes. -/
def indexed (ws : List Window) : List (Nat × Window) := ws.zipIdx.map fun p => (p.2, p.1)

/-- The blade whose plain window holds the angle (R53). -/
def windowAt (ws : List Window) (a : Angle) : Option (Nat × Window) := (indexed ws).find? fun p => inSpan 0 p.2 a

/-- The enabled blades whose span, with the guard given, holds the angle (R21, R31). -/
def spansHolding (p : ScanStep) (guard : Nat) (ws : List Window) (a : Angle) : List Nat :=
  ((indexed ws).filter fun q => enabledFor p q.1 q.2 && inSpan guard q.2 a).map (·.1)

/-- The guard of a windowed step, and none of a step that is not windowed (R31). -/
def spanGuard (p : ScanStep) : Nat := if p.windowed then p.guard else 0

/-- The previous generation number (R57). -/
def previousGen (b : BladeTable) : Id16 := b.gen - 1

/-! ## Auxiliary lines -/

/-- The function is an output (chapter 12). -/
def isOutput : AuxFunction → Bool
  | .generalOut => true
  | .bladeStrobeOut => true
  | .stepActiveOut => true
  | .passEndOut => true
  | .faultOut => true
  | .triggerMirror0 => true
  | .triggerMirror1 => true
  | .starvedOut => true
  | .settlingOut => true
  | .generalIn => false
  | .inposIn => false
  | .radialHomeIn => false
  | .stopIn => false
  | .interjectIn => false
  | .gateIn => false
  | .indexIn => false

/-- The level of an output function on line `i`: active (R183). -/
def outputActive (f : AuxFunction) (i : Fin 8) (s : State) : Bool :=
  match f with
  | .generalOut => s.ax.general[i]
  | .bladeStrobeOut => s.ax.strobe.isSome
  | .stepActiveOut => decide (s.spe.state ∈ [.settling, .armed, .acquiring, .tail])
  | .passEndOut => s.ax.passEnd.isSome
  | .faultOut => s.spe.latch.isSome
  | .triggerMirror0 => (s.tu.heads.get .h0).pulse.isSome
  | .triggerMirror1 => (s.tu.heads.get .h1).pulse.isSome
  | .starvedOut => s.rs.starved
  | .settlingOut => decide (s.spe.state = .settling)
  | _ => false

/-- The electrical level of line `i`: driven when it holds an output function, and the outside's otherwise
(R181, R186). -/
def lineHigh (i : Fin 8) (s : State) : Bool :=
  let l := s.ax.lines[i]
  if isOutput l.function then outputActive l.function i s != l.activeLow else l.outside

/-- The eight line levels, one bit a line (13.4, 13.5), line i in bit i (DESIGN CHOICE, log entry 36). -/
def lineLevels (s : State) : Nat :=
  (List.finRange 8).foldl (fun v i => v + (if lineHigh i s then 2 ^ i.val else 0)) 0

/-- A line with an input function is active (R182). -/
def lineActive (l : AuxLine) : Bool := l.outside != l.activeLow

/-- An input function is assigned to a line. -/
def assigned (f : AuxFunction) (a : AuxUnit) : Bool := a.lines.toList.any fun l => l.function == f

/-- The level of an input function: the OR of its lines (R182). -/
def inputActive (f : AuxFunction) (a : AuxUnit) : Bool := a.lines.toList.any fun l => l.function == f && lineActive l

/-- A level function governs its condition only while it is assigned to a line (R21, R115, R182). -/
def levelMet (f : AuxFunction) (s : State) : Bool := !assigned f s.ax || inputActive f s.ax

/-- Each of the two pulsed outputs begins its 100 ticks again (R183). -/
def beginPulse (p : PulsedOutput) (s : State) : State :=
  match p with
  | .passEnd => { s with ax := { s.ax with passEnd := some s.eu.tick } }
  | .bladeStrobe => { s with ax := { s.ax with strobe := some s.eu.tick } }

/-! ## Queues between blocks -/

/-- The element at place `k` and the list without it. -/
def takeAt {α : Type} : Nat → List α → Option (α × List α)
  | _, [] => none
  | 0, x :: xs => some (x, xs)
  | k + 1, x :: xs => (takeAt k xs).map fun p => (p.1, x :: p.2)

/-- The element at place `k` may be taken first, when it may overtake each one before it. -/
def takeOvertaking {α : Type} (overtakes : α → α → Bool) (k : Nat) (xs : List α) : Option (α × List α) :=
  match takeAt k xs with
  | some (x, rest) => if (xs.take k).all (fun y => overtakes x y) then some (x, rest) else none
  | none => none

end Sys2Proof.Machine
end

