-- ==== Sys2Proof/Machine/Detector.lean ====
section
/-! DEFINITION. The edge detectors: arrivals, the building of a record, its close and its hand-over (chapter 5). -/

namespace Sys2Proof.Machine

/-- A placed sample as its detector takes it (R54). `surface` is present for a present sample. -/
structure Placed where
  seq : Seq
  pass : Nat
  runId : RunId
  gen : Id16
  trigTick : Tick
  angle : Angle
  /-- the window of the sample's generation that holds the angle, with its blade index -/
  window : Option (Nat × Window)
  /-- that blade is enabled for the step in the sample's generation -/
  enabled : Bool
  placeholder : Bool
  /-- for a present sample: corrected height, intensity, code, and whether it is measured -/
  surface : Option (Int × BitVec 12 × HeadCode × Bool)
  mapGen : Id16
  clamped : Bool
deriving DecidableEq, Repr

/-- What an arrival reads beside the sample: the active-step copy, the radius, the angle at the crossing and the
first pass of the execution (R73, R76, R77). -/
structure Surroundings where
  step : ScanStep
  radius : Nat
  crossing : Angle
  firstPass : Nat
deriving DecidableEq, Repr

/-- The radius lies outside the step's tolerance (R76, R119). -/
def outOfTolerance (p : ScanStep) (r : Nat) : Bool := decide (p.tolerance < ((r : Int) - p.radius).natAbs)

/-- A new record's empty statistics. -/
def emptyStats : Stats := ⟨0, 0, none, 0, 0, 0⟩

/-- A sample taken by ON_SURFACE enters the statistics (R88). -/
def countSurface (c : Surface) (s : Stats) : Stats :=
  let s := if c.point.code = .saturated then { s with saturated := satInc s.saturated } else s
  let s := if c.point.code = .multiPeak then { s with multiPeak := satInc s.multiPeak } else s
  if c.measured then
    { s with count := satInc s.count, sum := s.sum + c.point.z,
             range := some (match s.range with
               | none => (c.point.z, c.point.z)
               | some (lo, hi) => (min lo c.point.z, max hi c.point.z)) }
  else s

/-- A point is appended, or refused with TRUNCATED at the limit (R82). -/
def appendPoint (p : Point) (r : OpenRecord) : OpenRecord :=
  if r.points.length < Config.pointLimit then { r with points := r.points ++ [p] }
  else { r with flags := withFlag .truncated r.flags }

/-- ON_SURFACE takes a present sample: decimation, the last present sample, the absent run and the statistics
(R82, R83). -/
def takeSurface (decimation : Nat) (d : Detector) (c : Surface) : Detector :=
  match d.record with
  | none => d
  | some r =>
    let index := match d.lastPresent with
      | none => 0
      | some l => l.index + 1
    let keep := index % 2 ^ decimation = 0
    let kept := keep ∧ r.points.length < Config.pointLimit
    let r := if keep then appendPoint c.point r else r
    let stats := countSurface c r.stats
    { d with
      record := some { r with stats := { stats with dropouts := satAdd stats.dropouts d.absentRun } }
      lastPresent := some ⟨c.point, index, decide kept⟩
      absentRun := 0 }

/-- The exit is made at the last present sample, appended as a point when it was not kept (R83). -/
def makeExit (d : Detector) (r : OpenRecord) : OpenRecord :=
  match d.lastPresent with
  | none => r
  | some l => if l.kept then { r with exit := some l.point.u } else appendPoint l.point { r with exit := some l.point.u }

/-- The present sample `c` in SEEKING (R81). -/
def seekPresent (p : ScanStep) (d : Detector) (r : OpenRecord) (c : Surface) : Detector :=
  let run := d.candidates ++ [c]
  if p.kOn ≤ d.presentRun + 1 then
    let entry := (run.head?.map (·.point.u)).getD c.point.u
    run.foldl (takeSurface p.decimation)
      { d with state := .onSurface, record := some { r with entry := some entry }, presentRun := 0, candidates := [],
               absentRun := 0, lastPresent := none }
  else { d with presentRun := d.presentRun + 1, candidates := run }

/-- An open record takes a sample by the detector's state (R81 to R84). -/
def takeSample (p : ScanStep) (d : Detector) (c : Option Surface) : Detector :=
  match d.record with
  | none => d
  | some r =>
    match d.state, c with
    | .seeking, some c => seekPresent p d r c
    | .seeking, none => { d with presentRun := 0, candidates := [] }
    | .onSurface, some c => takeSurface p.decimation d c
    | .onSurface, none =>
      if p.kOff ≤ d.absentRun + 1 then
        { d with state := .afterExit, record := some (makeExit d r), absentRun := 0, presentRun := 0, lastPresent := none }
      else { d with absentRun := d.absentRun + 1 }
    | .afterExit, some _ =>
      if p.kOn ≤ d.presentRun + 1 then
        { d with record := some { r with flags := withFlag .extraSurface r.flags }, presentRun := 0 }
      else { d with presentRun := d.presentRun + 1 }
    | .afterExit, none => { d with presentRun := 0 }
    | .outside, _ => d

/-- The record as its close leaves it: the exit of ON_SURFACE and the flag the close sets, none of which but the exit
belongs to a teardown (R86, R87). -/
def finishRecord (d : Detector) (aborted : Bool) (r : OpenRecord) : OpenRecord :=
  match d.state with
  | .seeking => { r with flags := withFlagIf (!aborted) .missingEntry r.flags }
  | .onSurface =>
    let r := makeExit d r
    { r with flags := withFlagIf (!aborted && d.absentRun == 0) .missingExit r.flags }
  | .afterExit => r
  | .outside => r

/-- The heights of a closed record, absent when nothing was measured (R88). -/
def closedHeights (s : Stats) : Option Heights :=
  if s.count = 0 then none else s.range.map fun r => ⟨r.1, r.2, roundHalfAway s.sum s.count⟩

/-- The section record that an open record becomes (R91, R92). -/
def sealRecord (h : Head) (withheld : Bool) (r : OpenRecord) : SectionRecord :=
  { tag := r.tag, runId := r.runId, pass := r.pass, head := h, blade := r.blade, bladeId := r.bladeId, gen := r.gen,
    mapGen := r.mapGen, radius := r.radius, openTick := r.openTick, entry := r.entry, exit := r.exit,
    count := r.stats.count, dropouts := r.stats.dropouts, saturated := r.stats.saturated,
    multiPeak := r.stats.multiPeak, heights := closedHeights r.stats, pointCount := r.points.length,
    withheld := withheld, flags := r.flags, digest := pointDigest r.points,
    points := if withheld then [] else r.points }

/-- The detector without a record: OUTSIDE, its runs at 0 and its candidates empty (R86, R87). -/
def toOutside (d : Detector) : Detector :=
  { d with state := .outside, record := none, presentRun := 0, candidates := [], absentRun := 0, prevOffset := 0,
           lastPresent := none }

/-- A detector closes its open record, with ABORTED when a teardown closes it and REVERSED when a backward offset
does (R80, R86, R87). It answers the closed record, still in its open form. -/
def closeOpen (aborted reversed : Bool) (d : Detector) : Detector × Option OpenRecord :=
  match d.record with
  | none => (d, none)
  | some r =>
    let r := finishRecord d aborted r
    (toOutside d, some { r with flags := withFlagIf reversed .reversed (withFlagIf aborted .aborted r.flags) })

/-- The sample is a run-in sample, and of which blade's window (R77). -/
def runInBlade (e : Surroundings) (d : Detector) (p : Placed) : Option Nat :=
  match p.window with
  | none => none
  | some (b, w) =>
    if p.pass ≠ e.firstPass then none
    else match d.runInWindow with
      | some held => if b = held then some b else none
      | none => if inSpan 0 w e.crossing ∧ localOffset w e.crossing ≤ localOffset w p.angle then some b else none

/-- The record that opens on a sample in blade `b`'s window (R76). -/
def newRecord (e : Surroundings) (gap : Bool) (p : Placed) (b : Nat) (w : Window) : OpenRecord :=
  { tag := e.step.tag, runId := p.runId, pass := p.pass, blade := b, bladeId := w.id, start := w.start, width := w.width,
    gen := p.gen, mapGen := p.mapGen, radius := e.radius, openTick := p.trigTick, entry := none, exit := none,
    points := [], stats := emptyStats,
    flags := withFlagIf gap .loss (withFlagIf (outOfTolerance e.step e.radius) .drift 0) }

/-- Blade `b`'s recorded pass lies below the pass (R76, R78). -/
def passIsNew (d : Detector) (b pass : Nat) : Bool :=
  match d.recorded[b]? with
  | some (some q) => decide (q < pass)
  | some none => true
  | none => true

/-- The surface a present sample offers at the local offset `u` (R82). -/
def surfaceAt (u : Nat) (p : Placed) : Option Surface :=
  p.surface.map fun q => ⟨⟨u, q.1, q.2.1, q.2.2.1⟩, q.2.2.2⟩

/-- The sample joins the open record: its state takes it, and then its marks act (R74 steps 4 and 5, R89). -/
def joinRecord (e : Surroundings) (u : Nat) (p : Placed) (d : Detector) : Detector :=
  let d := takeSample e.step { d with prevOffset := u } (surfaceAt u p)
  let d := if p.clamped then flagDetector .clamped d else d
  if p.placeholder then flagDetector .noResponse d else d

/-- With no record open, the sample is a run-in sample, opens a record, or is discarded (R76, R77). -/
def tryOpening (e : Surroundings) (gap : Bool) (p : Placed) (d : Detector) : Detector :=
  match (if d.runIn then runInBlade e d p else none) with
  | some b => { d with runInWindow := some b }
  | none =>
    let d := { d with runIn := false, runInWindow := none }
    match p.window with
    | some (b, w) =>
      if p.enabled ∧ passIsNew d b p.pass then
        joinRecord e (localOffset w p.angle) p
          { d with state := .seeking, record := some (newRecord e gap p b w),
                   recorded := d.recorded.setIfInBounds b (some p.pass) }
      else d
    | none => d

/-- The sequence number does not follow the last one placed (R75). -/
def seqGap (d : Detector) (s : Seq) : Bool :=
  match d.lastSeq with
  | some l => s != l + 1
  | none => false

/-- One arrival at a detector, dealt with to its end; it answers the record that it closed, if it closed one
(R74, R75, R79, R80). -/
def arrive (e : Surroundings) (p : Placed) (d : Detector) : Detector × Option OpenRecord :=
  let gap := seqGap d p.seq
  let d := { d with lastSeq := some p.seq }
  let d := if gap then flagDetector .loss d else d
  match d.record with
  | none => (tryOpening e gap p d, none)
  | some r =>
    let u := (p.angle - r.start).toNat
    if r.width ≤ u then
      let c := closeOpen false false d
      (tryOpening e gap p c.1, c.2)
    else if u + 64 < d.prevOffset then closeOpen false true d
    else (joinRecord e (max u d.prevOffset) p d, none)

/-! ## Hand-over -/

/-- A closed record goes to the blade table, the scan plan engine and the record store, by the flags of the active
step (R61, R93, R125). -/
def deliver (h : Head) (r : OpenRecord) (s : State) : State :=
  match s.spe.active with
  | none => s
  | some a =>
    let f := a.step.flags
    let posted := f.track && !f.learn && a.step.trackHead == h && !hasFlag .aborted r.flags
    let post : Post := ⟨r.blade, r.entry, hasFlag .missingEntry r.flags⟩
    let handed : Handed := ⟨sealRecord h f.headerOnly r, s.eu.tick⟩
    { s with bus := { s.bus with
        posts := if posted then s.bus.posts ++ [post] else s.bus.posts
        reports := s.bus.reports ++ [⟨r.flags, r.runId, r.blade, !f.discard, r.stats⟩]
        handed := if f.discard then s.bus.handed else s.bus.handed ++ [handed] } }

/-- The closed record is delivered, if there is one. -/
def deliverClosed (h : Head) (r : Option OpenRecord) (s : State) : State :=
  match r with
  | none => s
  | some r => deliver h r s

/-- Head `h`'s record closes, by its tail end or by a teardown (R85, R86, R87). -/
def closeHead (aborted : Bool) (h : Head) (s : State) : State :=
  let c := closeOpen aborted false (s.pe.detectors.get h)
  deliverClosed h c.2 (onDetector h (fun _ => c.1) s)

/-- Head `h`'s detector holds an open record. -/
def recordOpen (h : Head) (s : State) : Bool := (s.pe.detectors.get h).record.isSome

/-- A sample of head `h` is being placed. -/
def placing (h : Head) (s : State) : Bool :=
  match s.pe.busy with
  | none => false
  | some (g, _) => g == h

/-- Head `h` has reached its tail end (R85). -/
def atTailEnd (h : Head) (s : State) : Bool :=
  s.spe.state == .tail && (s.tu.heads.get h).tail == .ended && (s.hp.get h).outstanding.isEmpty &&
  (s.hp.get h).queue.isEmpty && !placing h s

/-- A record that a head holds open at its tail end closes (R85). -/
def tailEndHead (h : Head) (s : State) : State := if atTailEnd h s && recordOpen h s then closeHead false h s else s

/-- The same for every head, in ascending order. -/
def tailEnds (s : State) : State := heads.foldl (fun t h => tailEndHead h t) s

end Sys2Proof.Machine
end

