-- ==== Sys2Proof/Machine/Blades.lean ====
section
/-! DEFINITION. The blade table: window sets, generations, tracking, marks, the tracking limit and loading
(chapter 4). -/

namespace Sys2Proof.Machine

/-- The tracked start S_b of an entry at the offset `o`: (S_nom + O) modulo 2^24 (R56). -/
def trackedStart (e : BladeEntry) (o : Int) : Angle := e.nominal + BitVec.ofInt 24 o

/-- An entry's window in the generation that its offset and state describe (R56, R57). -/
def windowOf (e : BladeEntry) : Window := ⟨e.id, trackedStart e e.offset, e.width, e.state == .excluded⟩

/-- A new current set is made from the entries: the number goes up and the old current set becomes the previous one
(R57, R64). -/
def newGeneration (entries : List BladeEntry) (b : BladeTable) : BladeTable :=
  { b with entries := entries, current := entries.map windowOf, previous := b.current, gen := b.gen + 1 }

/-- A change of blade `i`'s state gives the notice R69 describes; no change gives none. -/
def bladeNotice (i : Nat) (gen : Id16) (cause : BladeCause) (old new : BladeEntry) : List Notice :=
  if old.state = new.state then []
  else [.bladeChanged i new.id old.state new.state cause new.offset new.misses gen]

/-! ## Pending offsets (R65, R66) -/

/-- An offset saturated to plus or minus the limit (R65, R71). -/
def limited (limit : Nat) (o : Int) : Int := clampInt (-(limit : Int)) limit o

/-- The offset of an entry's candidate window, when it has one (R65). -/
def candidateOffset (limit : Nat) (e : BladeEntry) : Option Int := e.pendingOffset.map (limited limit)

/-- Where a window that starts at offset `o` begins, in angle counted on from the entry's nominal start without
wrapping, with `turn` revolutions added (log entry 19). -/
def beginsAt (turn : Int) (e : BladeEntry) (o : Int) : Int := e.nominal.toNat + o + turn * 16777216

/-- The later of a neighbour's two window ends: its old window's, and its candidate's when it has one (R66). -/
def laterEnd (limit : Nat) (turn : Int) (e : BladeEntry) : Int :=
  let old := beginsAt turn e e.offset + e.width
  match candidateOffset limit e with
  | none => old
  | some o => max old (beginsAt turn e o + e.width)

/-- The earlier of a neighbour's two window starts (R66). -/
def earlierStart (limit : Nat) (turn : Int) (e : BladeEntry) : Int :=
  let old := beginsAt turn e e.offset
  match candidateOffset limit e with
  | none => old
  | some o => min old (beginsAt turn e o)

/-- The candidate of blade `i` at the offset `o` lies wholly within its free span (R66). The previous neighbour of the
first blade is the last one, a revolution back; the next neighbour of the last is the first, a revolution on. -/
def candidatePasses (limit : Nat) (es : List BladeEntry) (i : Nat) (e : BladeEntry) (o : Int) : Bool :=
  if es.length ≤ 1 then true
  else
    let prev := if i = 0 then es[es.length - 1]?.map (laterEnd limit (-1)) else es[i - 1]?.map (laterEnd limit 0)
    let next := if i + 1 < es.length then es[i + 1]?.map (earlierStart limit 0) else es[0]?.map (earlierStart limit 1)
    match prev, next with
    | some lo, some hi => decide (lo ≤ beginsAt 0 e o ∧ beginsAt 0 e o + e.width ≤ hi)
    | _, _ => true

/-- The state a blade takes when its update was applied, saturated or not, or refused; an EXCLUDED blade stays
EXCLUDED (R65, log entry 26). -/
def stateAfterUpdate (refused saturated : Bool) (st : BladeState) : BladeState :=
  match st with
  | .excluded => .excluded
  | .displaced => if refused || saturated then .displaced else .active
  | .active => if refused || saturated then .displaced else .active
  | .missing => if refused || saturated then .displaced else .missing

/-- Blade `i`'s pending offset is applied or refused (R65, R66), with the notice of its change. -/
def applyOffset (limit : Nat) (gen : Id16) (es : List BladeEntry) (i : Nat) (e : BladeEntry) :
    BladeEntry × List Notice :=
  match e.pendingOffset with
  | none => (e, [])
  | some p =>
    let o := limited limit p
    if candidatePasses limit es i e o then
      let new := { e with offset := o, state := stateAfterUpdate false (o != p) e.state, pendingOffset := none }
      (new, bladeNotice i gen (if o != p then .saturated else .recovered) e new)
    else
      let new := { e with state := stateAfterUpdate true false e.state, pendingOffset := none }
      (new, bladeNotice i gen .overlap e new)

/-- Blade `i`'s pending mark is applied (R68), with the notice of its change. -/
def applyMark (gen : Id16) (i : Nat) (e : BladeEntry) : BladeEntry × List Notice :=
  match e.pendingMark with
  | none => (e, [])
  | some .exclude =>
    if e.state = .excluded then ({ e with pendingMark := none }, [])
    else
      let new := { e with state := .excluded, misses := 0, pendingMark := none }
      (new, bladeNotice i gen .excluded e new)
  | some .include =>
    if e.state = .excluded then
      let new := { e with state := .active, misses := 0, pendingMark := none }
      (new, bladeNotice i gen .included e new)
    else ({ e with pendingMark := none }, [])

/-- One blade through both stages of a new generation (R64). -/
def advanceBlade (limit : Nat) (gen : Id16) (es : List BladeEntry) (i : Nat) (e : BladeEntry) :
    BladeEntry × List Notice :=
  let a := applyOffset limit gen es i e
  let m := applyMark gen i a.1
  (m.1, a.2 ++ m.2)

/-- Every blade, in ascending index order. -/
def advanceBlades (limit : Nat) (gen : Id16) (es : List BladeEntry) : List (BladeEntry × List Notice) :=
  es.zipIdx.map fun p => advanceBlade limit gen es p.2 p.1

/-- An entry holds a pending offset or mark (R64). -/
def hasPending (e : BladeEntry) : Bool := e.pendingOffset.isSome || e.pendingMark.isSome

/-- The blade table takes a new-revolution event: with something pending it makes a new generation, and with nothing
pending it changes nothing (R64). -/
def bladesNewRevolution (s : State) : State :=
  if s.bt.entries.any hasPending then
    let r := advanceBlades s.bt.params.limit (s.bt.gen + 1) s.bt.entries
    queueNotices (r.flatMap (·.2)) { s with bt := newGeneration (r.map (·.1)) s.bt }
  else s

/-! ## Tracking (R61 to R63) -/

/-- The entry with a tracking observation taken: pending offset, smoothed deviation, passes seen and miss count
(R62, R63). -/
def observe (guard u : Nat) (e : BladeEntry) : BladeEntry :=
  let dev : Int := (u : Int) - guard
  { e with pendingOffset := some (e.offset + roundHalfAway dev 8)
           smoothed := e.smoothed + roundHalfAway (dev - e.smoothed) 8
           seen := satInc e.seen
           misses := 0
           state := if e.state = .missing then .active else e.state }

/-- The entry with a miss taken (R63). -/
def miss (kMiss : Nat) (e : BladeEntry) : BladeEntry :=
  let n := min (e.misses + 1) 15
  { e with misses := n
           state := if kMiss ≤ n ∧ (e.state = .active ∨ e.state = .displaced) then .missing else e.state }

/-- Blade `i`'s entry is changed, with the notice of a change of its state at the current number (R69). -/
def changeBlade (i : Nat) (cause : BladeCause) (f : BladeEntry → BladeEntry) (s : State) : State :=
  match s.bt.entries[i]? with
  | none => s
  | some e =>
    queueNotices (bladeNotice i s.bt.gen cause e (f e)) { s with bt := { s.bt with entries := s.bt.entries.set i (f e) } }

/-- The blade table takes a post: a post for an EXCLUDED blade is disregarded, one with an entry is an observation,
one with MISSING_ENTRY is a miss (R61). A post that names no entry of the table changes nothing (log entry 20). -/
def takePost (p : Post) (s : State) : State :=
  match s.bt.entries[p.blade]? with
  | none => s
  | some e =>
    if e.state = .excluded then s
    else match p.entry with
      | some u => changeBlade p.blade .found (observe s.bt.params.guard u) s
      | none => if p.missingEntry then changeBlade p.blade .missed (miss s.bt.params.kMiss) s else s

/-! ## The tracking limit (R71) -/

/-- An entry under a new limit. -/
def limitEntry (limit : Nat) (e : BladeEntry) : BladeEntry :=
  if limited limit e.offset = e.offset then e
  else { e with offset := limited limit e.offset
                state := if e.state = .excluded then .excluded else .displaced }

/-- The notices of a change of the limit, in ascending index order (log entry 28). -/
def limitNotices (limit : Nat) (gen : Id16) (es : List BladeEntry) : List Notice :=
  es.zipIdx.flatMap fun p => bladeNotice p.2 gen .limit p.1 (limitEntry limit p.1)

/-- The limit becomes `limit`. A change of it clamps the offsets, and a generation is made when one changed (R71). -/
def setLimit (limit : Nat) (s : State) : State :=
  let es := s.bt.entries.map (limitEntry limit)
  let bt := { s.bt with params := { s.bt.params with limit := limit } }
  if es = s.bt.entries then { s with bt := bt }
  else queueNotices (limitNotices limit (s.bt.gen + 1) s.bt.entries) { s with bt := newGeneration es bt }

/-! ## Loading (R58, R59) -/

/-- One entry as BTLD carries it. -/
structure BladeLoad where
  id : Nat
  nominal : Nat
  width : Nat
deriving DecidableEq, Repr

/-- The entries of a BTLD, 9 bytes each (13.4). -/
def readLoads : Nat → List Byte → List BladeLoad
  | 0, _ => []
  | n + 1, bs => ⟨natAt bs 0 2, natAt bs 2 4, natAt bs 6 3⟩ :: readLoads n (bs.drop 9)

/-- Each element and the next one satisfy the test. -/
def chainOk {α : Type} (t : α → α → Bool) : List α → Bool
  | [] => true
  | [_] => true
  | a :: b :: rest => t a b && chainOk t (b :: rest)

/-- The last window does not wrap onto the first; a table of one entry has no neighbour to test against (R58). -/
def lastOk (ls : List BladeLoad) : Bool :=
  match ls.head?, ls.getLast? with
  | some a, some z => decide (ls.length ≤ 1) || decide (z.nominal + z.width ≤ a.nominal + 16777216)
  | _, _ => true

/-- The entries of a BTLD are well formed (R58). -/
def loadsOk (ls : List BladeLoad) : Bool :=
  decide (ls.length ≤ Config.bladeCapacity) &&
  ls.all (fun l => decide (l.nominal ≤ 16777215) && decide (16 ≤ l.width ∧ l.width ≤ 4194304)) &&
  chainOk (fun a b => decide (a.nominal < b.nominal) && decide (a.nominal + a.width ≤ b.nominal)) ls &&
  decide (ls.map (·.id)).Nodup && lastOk ls

/-- An entry as loaded (R59). -/
def loadedEntry (l : BladeLoad) : BladeEntry :=
  { id := BitVec.ofNat 16 l.id, nominal := BitVec.ofNat 24 l.nominal, width := l.width, offset := 0, smoothed := 0,
    misses := 0, state := .active, seen := 0, pendingOffset := none, pendingMark := none }

/-- The table as an accepted BTLD leaves it: both window sets hold the loaded windows (R59). -/
def loadTable (ls : List BladeLoad) (b : BladeTable) : BladeTable :=
  let es := ls.map loadedEntry
  { b with entries := es, current := es.map windowOf, previous := es.map windowOf, gen := b.gen + 1 }

/-! ## Reading (R60) -/

/-- The pending byte of a BTRD entry (13.4). Its bits 3..7, which no layout names, are 0 (DESIGN CHOICE, log entry
39). -/
def pendingByte (e : BladeEntry) : Nat :=
  (if e.pendingOffset.isSome then 1 else 0) +
  (match e.pendingMark with
    | none => 0
    | some .exclude => 2
    | some .include => 4)

/-- A BTRD entry, 28 bytes (13.4). -/
def entryBytes (i : Nat) (e : BladeEntry) : List Byte :=
  natBytes 1 i ++ natBytes 2 e.id.toNat ++ natBytes 3 e.nominal.toNat ++ natBytes 3 e.width ++ intBytes 3 e.offset ++
  natBytes 3 (trackedStart e e.offset).toNat ++ intBytes 3 e.smoothed ++ natBytes 1 e.misses ++
  natBytes 1 (bladeStateCode e.state) ++ natBytes 4 e.seen ++ natBytes 1 (pendingByte e) ++
  intBytes 3 (e.pendingOffset.getD 0)

/-- The entries from `first` on, at most `count`. -/
def entriesFrom (first count : Nat) (es : List BladeEntry) : List (BladeEntry × Nat) :=
  (es.zipIdx.drop first).take count

/-- The blades of a range that are MISSING (R122). -/
def missingIn (first last : Nat) (es : List BladeEntry) : Nat :=
  (es.zipIdx.filter fun p => decide (first ≤ p.2 ∧ p.2 ≤ last) && p.1.state == .missing).length

end Sys2Proof.Machine
end

