-- ==== Sys2Proof/Machine/Store.lean ====
section
/-! DEFINITION. The record store's admissions and starvation, and what the blocks take of the records they are sent;
and the commands TRACKING_POST, RECORD_REPORT, RECORD_ADMISSION and ADMISSION_REPORT (chapter 10, R61, R120). -/

namespace Sys2Proof.Machine

/-! ## Frames of a record (R154, R156) -/

/-- How many data frames a record needs (R154). -/
def framesNeeded (r : SectionRecord) : Nat :=
  if r.withheld ∨ r.pointCount ≤ Config.pointsPerFrame then 1
  else (r.pointCount + (Config.pointsPerFrame - 1)) / Config.pointsPerFrame

/-- The one WHOLE frame of a record, with the points given. -/
def wholeFrame (number : Id16) (r : SectionRecord) (ps : List Point) : DataFrame :=
  ⟨number, .whole, 0, some { r with points := [] }, ps⟩

/-- The frames of a record of several frames, from frame `i` of `n` on: 240 points each until the last (R154). -/
def splitFrames (number : Id16) (r : SectionRecord) (n : Nat) : Nat → Nat → List Point → List DataFrame
  | 0, _, _ => []
  | left + 1, i, ps =>
    { number := number
      kind := if i = 0 then .first else if i + 1 = n then .last else .middle
      index := i
      header := if i = 0 then some { r with points := [] } else none
      points := ps.take Config.pointsPerFrame } :: splitFrames number r n left (i + 1) (ps.drop Config.pointsPerFrame)

/-- The frames that carry a record whole (R154, R155). -/
def framesOf (number : Id16) (r : SectionRecord) : List DataFrame :=
  if framesNeeded r = 1 then [wholeFrame number r r.points]
  else splitFrames number r (framesNeeded r) (framesNeeded r) 0 r.points

/-- The record shortened to its header, with POINTS_DROPPED (R155). -/
def droppedPoints (r : SectionRecord) : SectionRecord := { r with flags := withFlag .pointsDropped r.flags, points := [] }

/-! ## Starvation (R161) -/

/-- The frames that wait with no sending begun (R159, R161). -/
def waitingFrames (s : State) : List DataFrame :=
  match s.lp.sending with
  | some f => if f.kind = .data then s.rs.frames.tail else s.rs.frames
  | none => s.rs.frames

/-- The frame is the first of its record (R154). -/
def beginsRecord (f : DataFrame) : Bool := f.kind == .whole || f.kind == .first

/-- How many records the frames belong to: the frames of one record stand together (R153), so that after the front
frame each frame that is the first of its record begins another. Record numbers, which repeat (R156), are not read. -/
def recordsAmong (fs : List DataFrame) : Nat :=
  match fs with
  | [] => 0
  | _ :: rest => 1 + (rest.filter beginsRecord).length

/-- The store becomes starved, if a frame waits at a credit count of 0 and the flag is clear (R161, log entry 21). -/
def starve (s : State) : State :=
  if s.rs.starved ∨ s.rs.credits ≠ 0 ∨ waitingFrames s = [] then s
  else
    let c := s.rs.counters
    queueNotice (.starved s.rs.frames.length (recordsAmong (waitingFrames s)) s.eu.tick)
      { s with rs := { s.rs with starved := true, counters := { c with episodes := satInc c.episodes } } }

/-! ## Admission (R155, R156, R157) -/

/-- The store's counters are changed. -/
def onStoreCounters (f : StoreCounters → StoreCounters) (s : State) : State :=
  { s with rs := { s.rs with counters := f s.rs.counters } }

/-- The store's report of an admission is on its way to the scan plan engine (R156). -/
def reportAdmission (o : Outcome3) (r : SectionRecord) (s : State) : State :=
  { s with bus := { s.bus with stored := s.bus.stored ++ [⟨o, r.runId, hasFlag .aborted r.flags⟩] } }

/-- Frames join the end of the queue (R153). -/
def appendFrames (fs : List DataFrame) (s : State) : State := { s with rs := { s.rs with frames := s.rs.frames ++ fs } }

/-- The store's free slots (R153). -/
def freeSlots (s : State) : Nat := Config.storeSlots - s.rs.frames.length

/-- The store admits a record: whole, as a header only, or as lost (R155), under the current record number (R156). -/
def admitRecord (r : SectionRecord) (s : State) : State :=
  let number := s.rs.recordNumber
  let free := freeSlots s
  let s := { s with rs := { s.rs with recordNumber := number + 1 } }
  if framesNeeded r ≤ free then
    reportAdmission .whole r
      (starve (appendFrames (framesOf number r) (onStoreCounters (fun c => { c with whole := satInc c.whole }) s)))
  else if 0 < free then
    reportAdmission .headerOnly r
      (starve (appendFrames [wholeFrame number (droppedPoints r) []]
        (onStoreCounters (fun c => { c with headerOnly := satInc c.headerOnly }) s)))
  else
    reportAdmission .lost r
      (sendRaising ⟨.storeLoss, some r.head, r.tag, r.pass, s.eu.tick⟩
        (onStoreCounters (fun c => { c with lost := satInc c.lost }) s))

/-- The record `x` may be admitted before `y`, which was handed over earlier: at the same moment from another head,
and not both aborted by one teardown (R87, R155). -/
def mayOvertake (x y : Handed) : Bool :=
  x.tick == y.tick && x.record.head != y.record.head &&
  !(hasFlag .aborted x.record.flags && hasFlag .aborted y.record.flags)

/-- The store takes a waiting record and admits it (R155, log entry 4). -/
def takeHanded (choice : Nat) (s : State) : State :=
  match takeOvertaking mayOvertake choice s.bus.handed with
  | none => s
  | some (x, rest) => admitRecord x.record { s with bus := { s.bus with handed := rest } }

/-! ## What the blade table and the scan plan engine take -/

/-- The blade table takes the oldest post (R61). -/
def takePosted (s : State) : State :=
  match s.bus.posts with
  | [] => s
  | p :: rest => takePost p { s with bus := { s.bus with posts := rest } }

/-- The plan holds an active step under the run id (log entry 16). -/
def holdsRun (runId : RunId) (s : State) : Bool :=
  match s.spe.active with
  | none => false
  | some a => a.runId == runId

/-- A closed record in the step counters: made, clean and flag union (R120). -/
def countRecord (flags : BitVec 12) (c : StepCounters) : StepCounters :=
  { c with made := satInc c.made, clean := if isClean flags then satInc c.clean else c.clean,
           union := c.union ||| flags }

/-- The store's outcome in the step counters (R120). -/
def countOutcome (o : Outcome3) (c : StepCounters) : StepCounters :=
  match o with
  | .whole => c
  | .headerOnly => { c with headerOnly := satInc c.headerOnly, union := withFlag .pointsDropped c.union }
  | .lost => { c with lost := satInc c.lost }

/-- The step counters are changed. -/
def onStepCounters (f : StepCounters → StepCounters) (s : State) : State :=
  { s with spe := { s.spe with counters := f s.spe.counters } }

/-- The scan plan engine takes the oldest record report; an ABORTED record and one of a run no longer held change no
counter (R120). -/
def takeReport (s : State) : State :=
  match s.bus.reports with
  | [] => s
  | r :: rest =>
    let s := { s with bus := { s.bus with reports := rest } }
    if hasFlag .aborted r.flags then s else if holdsRun r.runId s then onStepCounters (countRecord r.flags) s else s

/-- The scan plan engine takes the store's oldest report (R120, R156). -/
def takeAdmission (s : State) : State :=
  match s.bus.stored with
  | [] => s
  | r :: rest =>
    let s := { s with bus := { s.bus with stored := rest } }
    if r.aborted then s else if holdsRun r.runId s then onStepCounters (countOutcome r.outcome) s else s

/-- TRACKING_POST (R61). -/
def execTrackingPost (s : State) : Answered := running takePosted s

/-- RECORD_REPORT (R120). -/
def execRecordReport (s : State) : Answered := running takeReport s

/-- RECORD_ADMISSION (R155). -/
def execRecordAdmission (choice : Nat) (s : State) : Answered := running (takeHanded choice) s

/-- ADMISSION_REPORT (R156). -/
def execAdmissionReport (s : State) : Answered := running takeAdmission s

end Sys2Proof.Machine
end

