-- ==== Sys2Proof/Machine/LinkPort.lean ====
section
/-! DEFINITION. The link port's receiver, transmitter and output selector; and the commands FRAME_RECEIVED, LINK_GAP,
FRAME_SEND_START and FRAME_SEND_END (sections 11.1, 11.2, 11.5, 10.5). -/

namespace Sys2Proof.Machine

/-- The link port is changed. -/
def onLink (f : LinkPort → LinkPort) (s : State) : State := { s with lp := f s.lp }

/-- The link counters are changed. -/
def onLinkCounters (f : LinkCounters → LinkCounters) (l : LinkPort) : LinkPort := { l with counters := f l.counters }

/-! ## Receiving (R165, R166, R167, R168) -/

/-- A command frame with a valid check: queued when the queue has room and no RSET awaits its reset, and entered in
the overload list otherwise (R167, R168, R177). -/
def receiveCommand (c : HostCommand) (l : LinkPort) : LinkPort :=
  let l := onLinkCounters (fun k => { k with commands := satInc k.commands }) l
  if l.queue.length < Config.commandLimit ∧ l.resetMark = false then { l with queue := l.queue ++ [c] }
  else
    { onLinkCounters (fun k => { k with overloads := satInc k.overloads }) l with
      overload := l.overload ++ [⟨c.tag, commandKeyword c⟩] }

/-- A completed frame, given as the bytes after the start character: check, kind, command (R166). -/
def completeFrame (frame : List LineByte) (l : LinkPort) : LinkPort :=
  let bs := frame.map (·.byte)
  let checked := bs.take (bs.length - 2)
  if frame.any (·.framingError) || decide (natAt bs (bs.length - 2) 2 ≠ (crc16 checked).toNat) then
    onLinkCounters (fun k => { k with checkDiscards := satInc k.checkDiscards }) l
  else if bytesAt bs 2 1 ≠ [commandByte] then onLinkCounters (fun k => { k with kindDiscards := satInc k.kindDiscards }) l
  else receiveCommand ⟨BitVec.ofNat 8 (natAt bs 3 1), bytesAt checked 4 (checked.length - 4)⟩ l

/-- One byte in IN_FRAME: the frame so far, its length judged as soon as it is complete, and its end at the last check
byte (R166). The frame after its start character is the body with 2 length bytes, kind, tag and 2 check bytes. -/
def frameByte (taken : List LineByte) (b : LineByte) (l : LinkPort) : LinkPort :=
  let frame := taken ++ [b]
  let len := natAt (frame.map (·.byte)) 0 2
  if frame.length < 2 then { l with receiving := some frame }
  else if len < 5 ∨ Config.bodyLimit < len then
    onLinkCounters (fun k => { k with lengthDiscards := satInc k.lengthDiscards }) { l with receiving := none }
  else if frame.length < len + 6 then { l with receiving := some frame }
  else completeFrame frame { l with receiving := none }

/-- One byte taken from the link at its place in the receiver's state (R166). -/
def receiveByte (b : LineByte) (l : LinkPort) : LinkPort :=
  match l.receiving with
  | some taken => frameByte taken b l
  | none => if b.byte = 0xA5 ∧ b.framingError = false then { l with receiving := some [] } else l

/-- The partial frame is discarded when more than 100,000 ticks have passed since its latest byte (R166). -/
def linkGapEnds (tick : Tick) (l : LinkPort) : LinkPort :=
  if l.receiving.isSome && decide (Config.frameGap < ticksSince l.lastByte tick) then
    onLinkCounters (fun k => { k with gapDiscards := satInc k.gapDiscards }) { l with receiving := none }
  else l

/-- One byte arrives on the link: a gap before it ends the partial frame first (R166, log entry 8). -/
def takeLinkByte (tick : Tick) (l : LinkPort) (b : LineByte) : LinkPort :=
  { receiveByte b (linkGapEnds tick l) with lastByte := tick }

/-- Bytes arrive on the link (R166). -/
def takeLinkBytes (bytes : List LineByte) (s : State) : State :=
  onLink (fun l => bytes.foldl (takeLinkByte s.eu.tick) l) s

/-! ## Sending (R158, R159, R162, R168, R177, R178) -/

/-- A frame begins to be sent. -/
def beginSending (kind : FlightKind) (tag : Byte) (body : List Byte) (s : State) : State :=
  onLink (fun l => { l with sending := some ⟨kind, frameBytes (flightByte kind) tag body⟩ }) s

/-- The OVERLOAD answer that an entry is owed (R168). -/
def overloadAnswer (e : OverloadEntry) : Reply := ⟨e.tag, e.keyword, .overload, []⟩

/-- A data frame begins to be sent: one credit is taken, and the store may become starved (R159, R161). -/
def sendData (f : DataFrame) (s : State) : State :=
  starve { beginSending .data 0 (dataBody f) s with rs := { s.rs with credits := s.rs.credits - 1 } }

/-- The output selector takes the first frame that is ready (R162, R168). -/
def selectOutput (s : State) : State :=
  match s.lp.sending, s.lp.overload, s.lp.reply, s.lp.notices, s.rs.frames with
  | some _, _, _, _, _ => s
  | none, e :: rest, _, _, _ =>
    beginSending .overload e.tag (replyBody (overloadAnswer e)) (onLink (fun l => { l with overload := rest }) s)
  | none, [], some r, _, _ => beginSending .reply r.tag (replyBody r) s
  | none, [], none, n :: rest, _ => beginSending .notice 0 (noticeBody n) (onLink (fun l => { l with notices := rest }) s)
  | none, [], none, [], f :: _ => if 1 ≤ s.rs.credits then sendData f s else s
  | none, [], none, [], [] => s

/-- What the end of a sending frees (R159, R167). -/
def releaseSent (kind : FlightKind) (s : State) : State :=
  match kind with
  | .reply => onLink (fun l => { l with reply := none }) s
  | .overload => s
  | .notice => s
  | .data => onStoreCounters (fun c => { c with sent := satInc c.sent }) { s with rs := { s.rs with frames := s.rs.frames.tail } }

/-- The RSET's reply and every answer owed have been sent (R177). -/
def resetDue (s : State) : Bool := s.lp.resetMark && s.lp.overload.isEmpty && s.lp.reply.isNone

/-- The last byte of the frame in flight has left the link; an RSET's full reset takes place when nothing owed is left
(R159, R167, R177). -/
def endSending (s : State) : State :=
  match s.lp.sending with
  | none => s
  | some f =>
    let s := releaseSent f.kind (onLink (fun l => { l with sending := none }) s)
    if resetDue s then fullReset s else s

/-- FRAME_RECEIVED (R166). -/
def execFrameReceived (after : Nat) (bytes : List LineByte) (s : State) : Answered := event after (takeLinkBytes bytes) s

/-- LINK_GAP (R166). -/
def execLinkGap (after : Nat) (s : State) : Answered := event after (fun t => onLink (linkGapEnds t.eu.tick) t) s

/-- FRAME_SEND_START (R162). -/
def execFrameSendStart (s : State) : Answered := running selectOutput s

/-- FRAME_SEND_END (R159). -/
def execFrameSendEnd (after : Nat) (s : State) : Answered := event after endSending s

end Sys2Proof.Machine
end

