-- ==== Sys2Proof/Machine/Runout.lean ====
section
/-! DEFINITION. The runout map: accumulating, the saved copy, completing a learn, loading and clearing (chapter 6). -/

namespace Sys2Proof.Machine

/-- The accumulators are changed. -/
def onAcc (f : Accumulators → Accumulators) (s : State) : State := { s with rm := { s.rm with acc := f s.rm.acc } }

/-- A measured height enters bin `k`, unless its count is full (R101). -/
def accumulate (k : Fin 256) (z : Int) (a : Accumulators) : Accumulators :=
  if a.counts[k] < 4294967295 then
    { a with sums := a.sums.set k (a.sums[k] + z), counts := a.counts.set k (a.counts[k] + 1) }
  else a

/-- How many bins are filled (R103). -/
def filledBins (a : Accumulators) : Nat := (a.counts.toList.filter fun n => decide (0 < n)).length

/-- The mean of bin `k`, when it is filled (R104 step 1). -/
def binMean (a : Accumulators) (k : Fin 256) : Option Int :=
  if a.counts[k] = 0 then none else some (roundHalfAway a.sums[k] a.counts[k])

/-- The mean of the nearest filled bin at or below `k`, going down circularly through at most `fuel` bins
(R104 steps 1 and 2). -/
def meanBelow (a : Accumulators) : Nat → Fin 256 → Int
  | 0, _ => 0
  | fuel + 1, k =>
    match binMean a k with
    | some m => m
    | none => meanBelow a fuel (k - 1)

/-- The 256 means after step 2 of R104. -/
def learnedMeans (a : Accumulators) : List Int := (List.finRange 256).map fun k => meanBelow a 256 k

/-- The mean over all bins (R104 step 3). -/
def meanAll (ms : List Int) : Int := roundHalfAway ms.sum 256

/-- A bin clamped to its range (R104 step 4). -/
def clampBin (w : Int) : Int := clampInt (-32768) 32767 w

/-- The learned bins (R104 steps 1 to 4). -/
def learnedBins (a : Accumulators) : Vector Int 256 :=
  let ms := learnedMeans a
  let m := meanAll ms
  Vector.ofFn fun k : Fin 256 => clampBin (ms.getD k.val 0 - m)

/-- How many bins step 4 saturates. -/
def saturatedBins (a : Accumulators) : Nat :=
  let ms := learnedMeans a
  let m := meanAll ms
  (ms.filter fun x => clampBin (x - m) != x - m).length

/-- The runout map completes a learn, with the map result (R103, R104, R105). -/
def completeLearn (m : RunoutMap) : RunoutMap × MapResult :=
  let filled := filledBins m.acc
  if filled < Config.filledNeeded then ({ m with acc := .cleared }, ⟨true, filled, 0, m.gen⟩)
  else
    ({ m with bins := learnedBins m.acc, state := .learned, radius := m.acc.radius.getD 0, gen := m.gen + 1,
              acc := .cleared },
     ⟨false, filled, saturatedBins m.acc, m.gen + 1⟩)

/-- The accumulators move into the saved copy and are cleared (R102). -/
def saveAcc (m : RunoutMap) : RunoutMap := { m with saved := some m.acc, acc := .cleared }

/-- The saved accumulators move back, if any are saved (R102). -/
def restoreAcc (m : RunoutMap) : RunoutMap :=
  match m.saved with
  | some a => { m with acc := a, saved := none }
  | none => m

/-- The accumulators are cleared and the saved copy emptied (R105). -/
def dropAcc (m : RunoutMap) : RunoutMap := { m with acc := .cleared, saved := none }

/-- The bins of an MPLD, two signed bytes each (13.4). -/
def readBins (bs : List Byte) : Vector Int 256 := Vector.ofFn fun k : Fin 256 => intAt bs (2 * k.val) 2

/-- A loaded map (R97). -/
def loadMap (r : Nat) (bins : Vector Int 256) (m : RunoutMap) : RunoutMap :=
  { m with bins := bins, state := .loaded, radius := r, gen := m.gen + 1 }

/-- A cleared map (R98). -/
def clearMap (m : RunoutMap) : RunoutMap :=
  { m with bins := Vector.replicate 256 0, state := .empty, radius := 0, gen := m.gen + 1 }

/-- The reply of MPRD (R99, 13.4). -/
def mapBytes (m : RunoutMap) : List Byte :=
  natBytes 1 (mapStateCode m.state) ++ natBytes 4 m.radius ++ natBytes 2 m.gen.toNat ++
  m.bins.toList.flatMap fun w => intBytes 2 w

/-- The correction W before scaling, interpolated to the angle (R50). -/
def interpolated (m : RunoutMap) (a : Angle) : Int :=
  let k : Fin 256 := Fin.ofNat 256 (a.toNat / 65536)
  let u := a.toNat % 65536
  m.bins[k] + ((m.bins[k + 1] - m.bins[k]) * u + 32768) / 65536

end Sys2Proof.Machine
end

