-- ==== Sys2Proof/Machine/Commands.lean ====
section
/-! DEFINITION. How a host command is executed and replied to; and the commands IDNT, STAT, GETP, CNTR, GRNT, RSET and
UNKNOWN (R167, R169, R170, R171, R173, R174, R160, R177). -/

namespace Sys2Proof.Machine

/-! ## Execution and reply (R167, R169) -/

/-- What a command's execution gives: the status, the result data and the state it leaves. -/
structure Executed where
  status : Status
  data : List Byte
  after : State
deriving DecidableEq, Repr

/-- A refused command changes nothing and its reply carries no result data (R169). -/
def refuse (st : Status) (s : State) : Executed := ⟨st, [], s⟩

/-- A command executed as asked. -/
def done (data : List Byte) (s : State) : Executed := ⟨.ok, data, s⟩

/-- A command executed, with the mark that a value was clamped. -/
def doneWith (clamped : Bool) (data : List Byte) (s : State) : Executed := ⟨if clamped then .clamped else .ok, data, s⟩

/-- A command whose arguments do not take `n` bytes is refused with BAD_LENGTH; one without arguments carries one
byte (R165, R169). -/
def withLength (n : Nat) (f : List Byte → State → Executed) (args : List Byte) (s : State) : Executed :=
  if args.length = n then f args s else refuse .badLength s

/-- A command refused with LOCKED outside IDLE. -/
def whenIdle (f : State → Executed) (s : State) : Executed := if s.spe.state = .idle then f s else refuse .locked s

/-- The command that executes next: the oldest in the queue, while the reply slot is empty and no RSET awaits its
reset (R167). -/
def nextCommand (s : State) : Option (HostCommand × List HostCommand) :=
  if s.lp.reply.isNone ∧ s.lp.resetMark = false then
    match s.lp.queue with
    | [] => none
    | c :: rest => some (c, rest)
  else none

/-- The reply to a command, in the reply slot (R167, R169). -/
def replyTo (c : HostCommand) (e : Executed) : State :=
  onLink (fun l => { l with reply := some ⟨c.tag, commandKeyword c, e.status, e.data⟩ }) e.after

/-- A host-command row executes the next command when it is this row's, and changes nothing when it is not (R167, log
entries 2 and 3). -/
def executeCommand (mine : HostCommand → Bool) (f : List Byte → State → Executed) (s : State) : State :=
  match nextCommand s with
  | none => s
  | some (c, rest) =>
    if mine c then replyTo c (f (commandArgs c) (onLink (fun l => { l with queue := rest }) s)) else s

/-- The row of the keyword `k`. -/
def hostCommand (k : Keyword) (f : List Byte → State → Executed) (s : State) : Answered :=
  running (executeCommand (fun c => commandNames c == some k) f) s

/-! ## Parameter groups by their codes (13.4, R172, R173) -/

/-- A parameter group. -/
inductive Group where
  | encoder
  | head (h : Head)
  | track
  | plan
deriving DecidableEq, Repr

/-- The group that a group code and a head byte name (13.4, R172, R173). -/
def groupOf (code head : Nat) : Option Group :=
  match code with
  | 0 => some .encoder
  | 1 => (headOfNat head).map .head
  | 2 => some .track
  | 3 => some .plan
  | _ => none

/-- Every field of a group as it stands (R173, 13.4). -/
def groupBytes (g : Group) (s : State) : List Byte :=
  match g with
  | .encoder => encoderBytes s.eu.params
  | .head h => headBytes (s.hp.get h).params (s.tu.heads.get h).seq
  | .track => trackBytes s.bt.params
  | .plan => planBytes s.spe.params

/-! ## IDNT (R170) -/

/-- The capacities in the order of R170. -/
def capacities : List Nat :=
  [4, Config.bladeCapacity, 64, 256, Config.storeSlots, Config.pointLimit, Config.outstandingLimit, Config.queueLimit,
   Config.commandLimit, Config.noticeLimit, 8, Config.bodyLimit]

/-- The identity of the part (R170, 13.4). -/
def identityBytes : List Byte :=
  ascii ['B', 'r', 'a', 'm', 'i', 'd', 'o', 'r'] ++ ascii ['O', 'r', 's', 'u', 'n', 'a', ' ', '7', '4', '0'] ++
  natBytes 1 Config.revision ++ capacities.flatMap (natBytes 2)

/-- IDNT (R170). -/
def execIdnt (s : State) : Answered := hostCommand .idnt (withLength 1 fun _ s => done identityBytes s) s

/-! ## STAT (R171, R151, R186, 13.5) -/

/-- The interjection state and the slot requested while PENDING (13.5). -/
def interjectionBytes (i : Interjection) : List Byte :=
  match i with
  | .none => natBytes 1 0 ++ slotByte none
  | .pending slot => natBytes 1 1 ++ slotByte (some slot)
  | .running => natBytes 1 2 ++ slotByte none

/-- The part of STAT that both forms share, after the form byte (13.5); the starvation flag is 1 while it is set (DESIGN
CHOICE, log entry 38). -/
def statBytes (s : State) : List Byte :=
  natBytes 1 (planCode s.spe.state) ++ slotByte (s.spe.active.map (·.slot)) ++
  natBytes 2 (s.spe.active.elim 0 (·.step.tag.toNat)) ++ natBytes 1 s.spe.pass ++
  interjectionBytes s.spe.interjection ++ boolByte s.eu.referenced ++ natBytes 4 s.eu.count ++
  natBytes 4 s.eu.revTime ++ natBytes 4 (radius s) ++ natBytes 2 s.rs.credits ++ natBytes 2 s.rs.frames.length ++
  boolByte s.rs.starved ++ natBytes 1 s.lp.notices.length ++ natBytes 4 s.lp.counters.noticesLost ++
  natBytes 1 (lineLevels s)

/-- What the fault form adds (R151, 13.5); the mark of a halt taken is 1 (DESIGN CHOICE, log entry 38). -/
def latchBytes (r : FaultRecord) (s : State) : List Byte :=
  natBytes 1 (classIndex r.cls).val ++ headByte r.head ++ natBytes 2 r.tag.toNat ++ natBytes 1 r.pass ++
  natBytes 4 r.tick.toNat ++ natBytes 1 (policyCode r.policy) ++ boolByte r.taken ++ natBytes 4 s.spe.secondary ++
  s.spe.faultCounters.toList.flatMap (natBytes 4)

/-- The reply of STAT in the form that the latch calls for (R151, R171). -/
def statReply (s : State) : List Byte :=
  match s.spe.latch with
  | none => natBytes 1 0 ++ statBytes s
  | some r => natBytes 1 1 ++ statBytes s ++ latchBytes r s

/-- STAT (R171). -/
def execStat (s : State) : Answered := hostCommand .stat (withLength 1 fun _ s => done (statReply s) s) s

/-! ## GETP (R173) -/

/-- GETP with its two argument bytes. -/
def readGroup (args : List Byte) (s : State) : Executed :=
  match groupOf (natAt args 0 1) (natAt args 1 1) with
  | none => refuse .invalid s
  | some g => done (groupBytes g s) s

/-- GETP (R173). -/
def execGetp (s : State) : Answered := hostCommand .getp (withLength 2 readGroup) s

/-! ## CNTR (R174) -/

/-- A set of counters. -/
inductive CounterSet where
  | head (h : Head)
  | encoder
  | fault
  | store
  | link
deriving DecidableEq, Repr

/-- The set that a set code and a head byte name (13.4, R174). -/
def counterSetOf (code head : Nat) : Option CounterSet :=
  match code with
  | 0 => (headOfNat head).map .head
  | 1 => some .encoder
  | 2 => some .fault
  | 3 => some .store
  | 4 => some .link
  | _ => none

/-- The counters of a set in the order of R174. -/
def counterValues (c : CounterSet) (s : State) : List Nat :=
  match c with
  | .head h =>
    let k := (s.hp.get h).counters
    [k.issued, k.tooFast, k.overrun, k.noResponse, k.stray, k.corrupt, k.queueDrops, k.stale]
  | .encoder => [s.eu.quadErrors, s.eu.radialErrors]
  | .fault => s.spe.faultCounters.toList
  | .store =>
    let k := s.rs.counters
    [k.whole, k.headerOnly, k.lost, k.sent, k.episodes]
  | .link =>
    let k := s.lp.counters
    [k.commands, k.lengthDiscards, k.gapDiscards, k.checkDiscards, k.kindDiscards, k.overloads, k.noticesLost]

/-- Every counter of a set becomes 0 (R174). -/
def clearCounters (c : CounterSet) (s : State) : State :=
  match c with
  | .head h => onCounters h (fun _ => ⟨0, 0, 0, 0, 0, 0, 0, 0⟩) s
  | .encoder => { s with eu := { s.eu with quadErrors := 0, radialErrors := 0 } }
  | .fault => { s with spe := { s.spe with faultCounters := Vector.replicate 8 0 } }
  | .store => onStoreCounters (fun _ => ⟨0, 0, 0, 0, 0⟩) s
  | .link => onLink (onLinkCounters fun _ => ⟨0, 0, 0, 0, 0, 0, 0⟩) s

/-- CNTR with its three argument bytes. -/
def readCounters (args : List Byte) (s : State) : Executed :=
  match counterSetOf (natAt args 0 1) (natAt args 1 1) with
  | none => refuse .invalid s
  | some c =>
    done ((counterValues c s).flatMap (natBytes 4)) (if natAt args 2 1 = 0 then s else clearCounters c s)

/-- CNTR (R174). -/
def execCntr (s : State) : Answered := hostCommand .cntr (withLength 3 readCounters) s

/-! ## GRNT (R160, R161) -/

/-- GRNT with its two argument bytes: the count saturates at 4,095, and a count above 0 ends a starvation episode. -/
def grantCredits (args : List Byte) (s : State) : Executed :=
  let sum := s.rs.credits + natAt args 0 2
  let credits := min sum Config.creditLimit
  doneWith (decide (Config.creditLimit < sum)) (natBytes 2 credits)
    { s with rs := { s.rs with credits := credits, starved := s.rs.starved && credits == 0 } }

/-- GRNT (R160). -/
def execGrnt (s : State) : Answered := hostCommand .grnt (withLength 2 grantCredits) s

/-! ## RSET and UNKNOWN (R177, R169) -/

/-- A waiting command is entered in the overload list and counted (R168, R177). -/
def overloadCommand (l : LinkPort) (c : HostCommand) : LinkPort :=
  { onLinkCounters (fun k => { k with overloads := satInc k.overloads }) l with
    overload := l.overload ++ [⟨c.tag, commandKeyword c⟩] }

/-- RSET empties the queue into the overload list, oldest first, and marks that a reset is awaited (R177). -/
def awaitReset (l : LinkPort) : LinkPort :=
  { l.queue.foldl overloadCommand l with queue := [], resetMark := true }

/-- RSET (R177). -/
def execRset (s : State) : Answered := hostCommand .rset (withLength 1 fun _ s => done [] (onLink awaitReset s)) s

/-- UNKNOWN: a command whose keyword names no command (R169). -/
def execUnknown (s : State) : Answered :=
  running (executeCommand (fun c => commandNames c == none) fun _ s => refuse .unknown s) s

end Sys2Proof.Machine
end

