-- ==== Sys2Proof/Machine/Faults.lean ====
section
/-! DEFINITION. The run teardown, the fault latch and the halts (R33, R87, R127, chapter 9). -/

namespace Sys2Proof.Machine

/-- The scan plan engine is changed. -/
def onPlan (f : ScanPlan → ScanPlan) (s : State) : State := { s with spe := f s.spe }

/-- What every change that leaves the plan IDLE or FAULTED does to the plan (R111, R147). -/
def emptyPlan (st : PlanState) (p : ScanPlan) : ScanPlan :=
  { p with state := st, active := none, pass := 0, passesDone := 0, counters := .zero, settleTimer := none,
           armTimer := none, pendingDecision := none, interjection := .none, context := none }

/-- Every head's tail becomes NONE and the TIME-mode period stops (R20, R31, R33). -/
def stopTails (s : State) : State :=
  { s with tu := { heads := s.tu.heads.map fun t => { t with tail := .none }, period := none } }

/-- The outstanding-trigger lists and the sample queues are emptied without resolution (R33). -/
def emptyPorts (s : State) : State := { s with hp := s.hp.map fun p => { p with outstanding := [], queue := [] } }

/-- Every open record closes with ABORTED, in ascending head order, and every detector is OUTSIDE (R87). -/
def abortRecords (s : State) : State :=
  let t := heads.foldl (fun t h => closeHead true h t) s
  { t with pe := { t.pe with busy := none, detectors := t.pe.detectors.map toOutside } }

/-- How many records are open. -/
def openRecords (s : State) : Nat := (heads.filter fun h => recordOpen h s).length

/-- A run teardown at every block, the plan left in the state given (R127). -/
def teardown (st : PlanState) (s : State) : State :=
  let s := stopTails (emptyPorts (abortRecords s))
  { s with rm := dropAcc s.rm
           spe := { emptyPlan st s.spe with drift := false }
           ax := { s.ax with strobeWindow := none } }

/-- The policy of a fault class; that of STEP_INVALID is always STOP_NOW (R142). -/
def policyOf (cls : FaultClass) (s : State) : Policy :=
  match cls with
  | .stepInvalid => .stopNow
  | _ => s.spe.params.policies[classIndex cls]

/-- The fault counter of the class takes one more (R141). -/
def countFault (cls : FaultClass) (p : ScanPlan) : ScanPlan :=
  let i := classIndex cls
  { p with faultCounters := p.faultCounters.set i (satInc p.faultCounters[i]) }

/-- Taking a pending halt: the halt is marked taken, the plan goes to FAULTED and a FALT of kind HALTED is queued
(R147). -/
def takeHalt (s : State) : State :=
  match s.spe.latch with
  | none => s
  | some r =>
    let r := { r with taken := true }
    let s := stopTails s
    queueNotice (.faultHalted r .faulted s.spe.secondary)
      { s with rm := dropAcc s.rm, spe := { emptyPlan .faulted s.spe with latch := some r } }

/-- The latch holds a fault under HALT_AT_STEP_END whose halt has not been taken (R144). -/
def haltPending (s : State) : Bool :=
  match s.spe.latch with
  | some r => r.policy == .haltAtStepEnd && !r.taken
  | none => false

/-- The FALT notice of a raising (R152). -/
def raisedNotice (r : FaultRecord) (d : Disposition) (aborted : Nat) (s : State) : Notice :=
  .faultRaised r.cls r.head r.tag r.pass r.tick d s.spe.state s.spe.secondary aborted

/-- A raising that latches while the latch is clear (R145, R146). -/
def latchFirst (r : FaultRecord) (s : State) : State :=
  if r.policy = .stopNow then
    let n := openRecords s
    let s := teardown .faulted (onPlan (fun p => { p with latch := some r }) s)
    queueNotice (raisedNotice r .latchedStop n s) s
  else
    let s := onPlan (fun p => { p with latch := some r }) s
    let t := queueNotice (raisedNotice r .latchedHalt 0 s) s
    if s.spe.state = .idle ∨ s.spe.state = .halted then takeHalt t else t

/-- A secondary fault: the latched record stays and the count goes up; a STOP_NOW raising escalates a pending halt
(R148). -/
def latchSecond (held r : FaultRecord) (s : State) : State :=
  let s := onPlan (fun p => { p with secondary := satInc p.secondary }) s
  if r.policy = .stopNow ∧ held.policy = .haltAtStepEnd ∧ held.taken = false then
    let n := openRecords s
    let s := teardown .faulted (onPlan (fun p => { p with latch := some { held with taken := true } }) s)
    queueNotice (raisedNotice r .escalated n s) s
  else queueNotice (raisedNotice r .secondary 0 s) s

/-- The fault record of a raising under a policy, its halt not taken (R144). -/
def recordOf (r : Raising) (p : Policy) : FaultRecord := ⟨r.cls, r.head, r.tag, r.pass, r.tick, p, false⟩

/-- A raising is counted and disposed of under its policy (R141, R143, R145, R146, R148). -/
def raiseFault (x : Raising) (s : State) : State :=
  let r := recordOf x (policyOf x.cls s)
  let s := onPlan (countFault x.cls) s
  if r.policy = .report then queueNotice (raisedNotice r .reported 0 s) s
  else match s.spe.latch with
    | none => latchFirst r s
    | some held => latchSecond held r s

/-- A STOP or a STOP_IN edge outside IDLE and FAULTED: the teardown, the RSTP notice, and the halt of a latched fault
(R126, R127, R146). -/
def stopRun (byLine : Bool) (s : State) : State :=
  match s.spe.active with
  | none => s
  | some a =>
    let notice : Notice := .runStopped byLine a.slot a.step.tag a.runId s.spe.state s.spe.pass (openRecords s)
    match s.spe.latch with
    | none => queueNotice notice (teardown .idle s)
    | some _ => takeHalt (queueNotice notice (teardown .faulted s))

/-- The plan may be stopped (R126). -/
def stoppable (s : State) : Bool := !(s.spe.state == .idle || s.spe.state == .faulted)

end Sys2Proof.Machine
end

