-- ==== Sys2Proof/Machine/Plan.lean ====
section
/-! DEFINITION. The scan plan engine: settling, arming, passes, tails, completion, decisions and interjections
(chapters 7 and 8). -/

namespace Sys2Proof.Machine

/-! ## Settling (R115) -/

/-- The settle condition (R115). -/
def settled (p : ScanStep) (s : State) : Bool :=
  s.eu.referenced && !outOfTolerance p (radius s) && levelMet .inposIn s

/-- Settling ends: the plan enters ARMED, and a learning step fixes its radius candidate (R101, R115). -/
def endSettling (p : ScanStep) (s : State) : State :=
  let s := onPlan (fun q => { q with state := .armed, settleTimer := none }) s
  if p.flags.learn then onAcc (fun a => { a with radius := some (radius s) }) s else s

/-- The settle condition is tested in SETTLING (R115). -/
def settleTest (s : State) : State :=
  match s.spe.active with
  | none => s
  | some a =>
    if s.spe.state ≠ .settling then s
    else if settled a.step s then
      if a.step.settle ≤ s.spe.settleTimer.getD 0 then endSettling a.step s else s
    else onPlan (fun q => { q with settleTimer := some 0 }) s

/-- The settle timer at a millisecond boundary: it advances while the condition holds, and then the condition is
tested (R115). -/
def settleTick (s : State) : State :=
  match s.spe.active with
  | none => s
  | some a =>
    if s.spe.state = .settling ∧ settled a.step s then
      settleTest (onPlan (fun q => { q with settleTimer := some (q.settleTimer.getD 0 + 1) }) s)
    else settleTest s

/-- The pass that ARM_TIMEOUT carries: 0 by R117, and by R141 the pass that the engine holds, which is not 0 in a
step resumed with passes done. Where the two differ a free value chooses between exactly these two (log entry 11). -/
def armTimeoutPass (s : State) : Nat :=
  if s.spe.pass = 0 then 0 else if Config.armTimeoutNamesPass then s.spe.pass else 0

/-- The arm timer at a millisecond boundary: it counts in SETTLING and ARMED, and raises ARM_TIMEOUT once, with no
head, the step's tag and the pass of `armTimeoutPass` (R117, R141). The latch takes it in the same change (log
entry 5). -/
def armTick (s : State) : State :=
  match s.spe.active, s.spe.armTimer with
  | some a, some n =>
    if s.spe.state = .settling ∨ s.spe.state = .armed then
      if s.spe.armLimit ≤ n + 1 then
        raiseFault ⟨.armTimeout, none, a.step.tag, armTimeoutPass s, s.eu.tick⟩
          (onPlan (fun q => { q with armTimer := none }) s)
      else onPlan (fun q => { q with armTimer := some (n + 1) }) s
    else s
  | _, _ => s

/-! ## Drift (R119) -/

/-- The radius is tested for drift in ACQUIRING (R119). A RADIUS_DRIFT goes to the latch as the raisings of other
blocks do, so that either of it and an INDEX_SLIP of the same index may be taken first (R148, log entry 5). -/
def driftTest (s : State) : State :=
  match s.spe.active with
  | none => s
  | some a =>
    if s.spe.state ≠ .acquiring then s
    else if outOfTolerance a.step (radius s) then
      if s.spe.drift then s
      else sendRaising (raisedNow .radiusDrift none s) (onPlan (fun q => { q with drift := true }) s)
    else onPlan (fun q => { q with drift := false }) s

/-- The radius was `before` and may have changed: the settle and drift tests of R115 and R119. -/
def radiusMoved (before : Nat) (s : State) : State := if radius s = before then s else driftTest (settleTest s)

/-! ## Arming (R113, R114) -/

/-- How a step is armed: afresh, or on the resumption of a saved context (R114, R138). -/
inductive Arming where
  | fresh
  | resumed (context : Context)
deriving DecidableEq, Repr

/-- The step in the slot, when the tests of R113 let it be armed. -/
def armable (slot : Slot) (s : State) : Option ScanStep :=
  match s.spe.slots[slot] with
  | none => none
  | some p =>
    if p.flags.learn then some p
    else if s.bt.entries.isEmpty then none
    else if p.flags.scaleMap ∧ s.rm.radius = 0 then none
    else some p

/-- The tag a refused arming carries: the slot's, or 0 for an EMPTY slot (R113). -/
def slotTag (slot : Slot) (s : State) : Id16 := (s.spe.slots[slot].map (·.tag)).getD 0

/-- STEP_INVALID with the tag of the slot being armed and pass 0 (R113, R141); the latch takes it in the change that
refuses the arming (log entry 5). -/
def stepInvalid (tag : Id16) (s : State) : State := raiseFault ⟨.stepInvalid, none, tag, 0, s.eu.tick⟩ s

/-- The active-step copy: the blade range of a step that is not a learning step is clamped to the table (R114). -/
def stepCopy (p : ScanStep) (s : State) : ScanStep :=
  if p.flags.learn then p
  else
    let top := s.bt.entries.length - 1
    { p with first := min p.first top, last := min p.last top }

/-- A detector at an arming (R73). -/
def armDetector (d : Detector) : Detector :=
  { toOutside d with lastSeq := none, recorded := Vector.replicate 128 none, runIn := true, runInWindow := none }

/-- The plan as an arming leaves it, in SETTLING (R114), with the saved passes and counters on a resumption (R138). -/
def armPlan (how : Arming) (slot : Slot) (p : ScanStep) (q : ScanPlan) : ScanPlan :=
  let done := match how with
    | .fresh => 0
    | .resumed c => c.passesDone
  let counters := match how with
    | .fresh => .zero
    | .resumed c => c.counters
  { q with state := .settling, active := some ⟨slot, p, q.runId + 1⟩, runId := q.runId + 1, pass := done,
           passesDone := done, firstPass := done + 1, counters := counters, settleTimer := some 0, armTimer := some 0,
           armLimit := q.params.armTimeout, drift := false, pendingDecision := none }

/-- The runout map at the arming of a learning step: cleared, or restored on a resumption (R100, R102). -/
def armMap (how : Arming) (m : RunoutMap) : RunoutMap :=
  match how with
  | .fresh => { m with acc := .cleared }
  | .resumed _ => restoreAcc m

/-- The slot is armed, as one change, or STEP_INVALID is raised (R113, R114). -/
def armSlot (how : Arming) (slot : Slot) (s : State) : State :=
  match armable slot s with
  | none => stepInvalid (slotTag slot s) s
  | some p =>
    let s := stopTails s
    settleTest
      { s with
        spe := armPlan how slot (stepCopy p s) s.spe
        eu := { s.eu with highWater := s.eu.netRevs }
        pe := { s.pe with detectors := s.pe.detectors.map armDetector }
        rm := if p.flags.learn then armMap how s.rm else s.rm }

/-! ## Passes and tails (R31, R116, R118, R133) -/

/-- A head's tail at the entry into TAIL, and whether a free value chose its tail blade (R31, log entry 7). -/
def tailFor (a : ActiveStep) (h : Head) (s : State) : TailState × Bool :=
  if !a.step.mask.get h || a.step.flags.learn then (.ended, false)
  else match spansHolding a.step (spanGuard a.step) s.bt.current (crossingAngle h s) with
    | [] => (.ended, false)
    | [b] => (.running b, false)
    | b :: bs => (.running ((b :: bs).getD (Config.tailPick s.freeCount % (bs.length + 1)) b), true)

/-- Head `h`'s tail is started (R31). -/
def startTail (a : ActiveStep) (h : Head) (s : State) : State :=
  let t := tailFor a h s
  let s := onTrigger h (fun x => { x with tail := t.1 }) s
  if t.2 then { s with freeCount := s.freeCount + 1 } else s

/-- The plan enters TAIL: the PASS_END_OUT pulse, the tails of the heads, and no strobe window (R31, R118, R133,
R184). -/
def enterTail (a : ActiveStep) (s : State) : State :=
  let s := beginPulse .passEnd (onPlan (fun q => { q with state := .tail }) s)
  heads.foldl (fun t h => startTail a h t) { s with ax := { s.ax with strobeWindow := none } }

/-- The plan enters ACQUIRING (R13, R20, R116, R184). -/
def enterAcquiring (a : ActiveStep) (s : State) : State :=
  let period := match a.step.mode with
    | .time _ => some s.eu.tick
    | .angle _ => none
  driftTest
    { s with
      spe := { s.spe with state := .acquiring, pass := s.spe.passesDone + 1, armTimer := none }
      eu := { s.eu with stallStart := s.eu.tick, stallRaised := false }
      tu := { s.tu with period := period }
      ax := { s.ax with strobeWindow := none } }

/-- An interjection request is pending (R129). -/
def interjectionPending (s : State) : Bool :=
  match s.spe.interjection with
  | .pending _ => true
  | .none => false
  | .running => false

/-- The scan plan engine takes a new-revolution event (R116, R118, R133). -/
def planNewRevolution (s : State) : State :=
  match s.spe.active with
  | none => s
  | some a =>
    match s.spe.state with
    | .armed => enterAcquiring a s
    | .acquiring =>
      let p := s.spe.pass
      let s := onPlan (fun q => { q with passesDone := p }) s
      if p < a.step.passes ∧ !interjectionPending s then onPlan (fun q => { q with pass := p + 1 }) s
      else enterTail a s
    | _ => s

/-! ## The after-step decision (R123, R124) -/

/-- The skip of SKIP_IF_CLEAN applies (R123 part 3). -/
def skips (p : ScanStep) (c : StepCounters) : Bool :=
  p.flags.skipIfClean && decide (1 ≤ c.made ∧ c.clean = c.made ∧ c.headerOnly = 0 ∧ c.lost = 0)

/-- The following slot, or END; `none` when a skip finds its slot EMPTY (R123 part 3). -/
def following (a : ActiveStep) (s : State) : Option (Option Slot) :=
  if skips a.step s.spe.counters then
    match a.step.next with
    | none => some none
    | some n => s.spe.slots[n].map (·.next)
  else some a.step.next

/-- The plan's own decision (R123 parts 3 to 5). -/
def ownDecision (a : ActiveStep) (s : State) : Option Decision :=
  (following a s).map fun f =>
    if a.step.flags.haltAfter then .halt f
    else match f with
      | none => .finish
      | some n => .arm n

/-- The plan goes IDLE with an RDON notice for its active step (R123 part 5). -/
def finishPlan (s : State) : State :=
  match s.spe.active with
  | none => s
  | some a => onPlan (emptyPlan .idle) (queueNotice (.runDone a.slot a.step.tag a.runId) (stopTails s))

/-- A decision is carried out (R123 parts 4 and 5). -/
def carryOut (d : Decision) (s : State) : State :=
  match d with
  | .arm n => armSlot .fresh n s
  | .halt f => onPlan (fun q => { q with state := .halted, pendingDecision := some f }) (stopTails s)
  | .finish => finishPlan s

/-! ## Interjections (chapter 8) -/

/-- The saved context of the interrupted plan (R131). -/
def contextOf (a : ActiveStep) (phase : Phase) (counters : StepCounters) (decision : Option Decision) (s : State) :
    Context :=
  { slot := a.slot, tag := a.step.tag, runId := a.runId, phase := phase, passesDone := s.spe.passesDone,
    counters := counters, decision := decision }

/-- The context is saved and the requested slot is armed as the interjected step (R131, R137). -/
def startInterjection (c : Context) (slot : Slot) (s : State) : State :=
  armSlot .fresh slot (onPlan (fun q => { q with interjection := .running, context := some c }) s)

/-- An accepted request (R129 step 4, R132, R133, R135, R136). A learning step abandoned in SETTLING or ARMED leaves its
accumulators and its radius candidate as they stand (DESIGN CHOICE, log entry 34). -/
def requestInterjection (slot : Slot) (s : State) : State :=
  match s.spe.active with
  | none => s
  | some a =>
    match s.spe.state with
    | .settling => startInterjection { contextOf a .restart .zero none s with passesDone := 0 } slot s
    | .armed => startInterjection { contextOf a .restart .zero none s with passesDone := 0 } slot s
    | .halted =>
      startInterjection (contextOf a .halted s.spe.counters (some (.halt (s.spe.pendingDecision.getD none))) s) slot s
    | .acquiring => onPlan (fun q => { q with interjection := .pending slot }) s
    | .tail => onPlan (fun q => { q with interjection := .pending slot }) s
    | .idle => s
    | .faulted => s

/-- A request for an interjection is accepted in this state (R129 steps 2 and 3); otherwise the refusal. -/
def interjectionRefusal (s : State) : Option Status :=
  if !stoppable s then some .wrongState
  else if s.spe.interjection ≠ .none then some .interjectBusy
  else none

/-- The main step is the plan's active step again, as it stood (R138, log entry 17). -/
def holdMain (c : Context) (s : State) : State :=
  onPlan (fun q => { q with
    active := q.slots[c.slot].map fun p => ⟨c.slot, { stepCopy p s with tag := c.tag }, c.runId⟩
    pass := c.passesDone, passesDone := c.passesDone, counters := c.counters }) s

/-- The saved context is restored, which ends the interjection (R138). -/
def restoreContext (c : Context) (s : State) : State :=
  let s := onPlan (fun q => { q with interjection := .none, context := none }) s
  match c.phase, c.decision with
  | .resumePasses, _ => armSlot (.resumed c) c.slot s
  | .restart, _ => armSlot .fresh c.slot s
  | .decided, some d => carryOut d (holdMain c s)
  | .halted, some d => carryOut d (holdMain c s)
  | .decided, none => s
  | .halted, none => s

/-! ## Completion (R121, R122, R123, R134, R137) -/

/-- The four conditions on which TAIL ends (R121); a record is closed when its report has been taken too (log
entry 16). -/
def tailOver (s : State) : Bool :=
  s.spe.state == .tail && heads.all (fun h => (s.tu.heads.get h).tail == .ended) &&
  heads.all (fun h => (s.hp.get h).outstanding.isEmpty) &&
  heads.all (fun h => (s.hp.get h).queue.isEmpty) && s.pe.busy.isNone &&
  heads.all (fun h => !recordOpen h s) && s.bus.handed.isEmpty && s.bus.stored.isEmpty && s.bus.reports.isEmpty

/-- The tail is an interjection tail: the request is pending and the passes are not done (R133). -/
def inInterjectionTail (a : ActiveStep) (s : State) : Bool :=
  interjectionPending s && decide (s.spe.passesDone < a.step.passes)

/-- Blades missing in a STEP_DONE (R122). -/
def bladesMissing (p : ScanStep) (s : State) : Nat :=
  if p.flags.learn then 0 else missingIn p.first p.last s.bt.entries

/-- Parts 1 and 2 of a completion: the learn and the STEP_DONE notice (R122). -/
def reportStep (a : ActiveStep) (s : State) : State :=
  let learnt := completeLearn s.rm
  let result := if a.step.flags.learn then some learnt.2 else none
  let notice : Notice := .stepDone a.slot a.step.tag a.runId s.spe.passesDone (s.spe.interjection == .running)
    s.spe.counters (bladesMissing a.step s) result
  queueNotice notice (if a.step.flags.learn then { s with rm := learnt.1 } else s)

/-- Part 3 of a completion: the after-step decision (R123), or the return from an interjected step (R137). -/
def afterStep (a : ActiveStep) (s : State) : State :=
  if haltPending s then takeHalt s
  else match s.spe.interjection with
    | .running =>
      match s.spe.context with
      | some c => restoreContext c s
      | none => finishPlan s
    | .pending slot =>
      match ownDecision a s with
      | none => stepInvalid 0 s
      | some d => startInterjection (contextOf a .decided s.spe.counters (some d) s) slot s
    | .none =>
      match ownDecision a s with
      | none => stepInvalid 0 s
      | some d => carryOut d s

/-- The end of an interjection tail: the halt that waits, or the saved context and the interjected step (R134). -/
def endInterjectionTail (a : ActiveStep) (slot : Slot) (s : State) : State :=
  if haltPending s then takeHalt s
  else
    let c := contextOf a .resumePasses s.spe.counters none s
    startInterjection c slot (if a.step.flags.learn then { s with rm := saveAcc s.rm } else s)

end Sys2Proof.Machine
end

