-- ==== Sys2Proof/Machine/Triggers.lean ====
section
/-! DEFINITION. The trigger unit: due instants, the five checks, triggers and tails; and the commands
TIME_DUE_INSTANT, TRIGGER_PULSE_END and LAST_TRIGGER_EXPIRY (sections 2.1, 2.2, 2.4). -/

namespace Sys2Proof.Machine

/-- The outstanding entry a trigger of head `h` captures (R24). -/
def captured (a : ActiveStep) (h : Head) (s : State) : Outstanding :=
  { seq := (s.tu.heads.get h).seq, trigTick := s.eu.tick, count := s.eu.count, edgeTick := edgeTick s.eu,
    speed := speedEstimate s.eu, pass := s.spe.pass, gen := s.bt.gen, runId := a.runId }

/-- Head `h` is triggered (R24). -/
def issueTrigger (a : ActiveStep) (h : Head) (s : State) : State :=
  let e := captured a h s
  let s := onPort h (fun p => { p with outstanding := p.outstanding ++ [e]
                                       counters := { p.counters with issued := satInc p.counters.issued } }) s
  onTrigger h (fun t => { t with seq := t.seq + 1, lastTrigger := some e.trigTick, pulse := some e.trigTick }) s

/-- Check 4: the minimum spacing has passed since the head's last trigger, if its tick is held (R22). -/
def spacingMet (h : Head) (s : State) : Bool :=
  match (s.tu.heads.get h).lastTrigger with
  | none => true
  | some t => passedAtLeast (s.hp.get h).params.minSpacing t s

/-- Check 5: the head's outstanding-trigger list has room (R22). -/
def listHasRoom (h : Head) (s : State) : Bool :=
  decide ((s.hp.get h).outstanding.length < Config.outstandingLimit)

/-- A head that has passed the first three checks is tested for spacing and for room, and triggered or skipped
(R22). -/
def attemptTrigger (a : ActiveStep) (h : Head) (s : State) : State :=
  if !spacingMet h s then
    flagOpen .overrun h (onCounters h (fun c => { c with tooFast := satInc c.tooFast }) s)
  else if !listHasRoom h s then
    flagOpen .overrun h (onCounters h (fun c => { c with overrun := satInc c.overrun }) s)
  else issueTrigger a h s

/-- The direction and the gate let a trigger through (R21 checks 1 and 2). -/
def triggersAllowed (s : State) : Bool := s.eu.direction == .forward && levelMet .gateIn s

/-- Check 3 in ACQUIRING (R21). -/
def predictedInWindow (a : ActiveStep) (h : Head) (s : State) : Bool :=
  !a.step.windowed || a.step.flags.learn ||
  !(spansHolding a.step a.step.guard s.bt.current (predictedAngle h s)).isEmpty

/-- The predicted angle of a head lies in its tail span (R32). -/
def inTailSpan (a : ActiveStep) (h : Head) (blade : Nat) (s : State) : Bool :=
  match s.bt.current[blade]? with
  | some w => inSpan (spanGuard a.step) w (predictedAngle h s)
  | none => false

/-- A due instant for one head of the step's mask (R21, R32). -/
def dueHead (a : ActiveStep) (h : Head) (s : State) : State :=
  if !a.step.mask.get h then s
  else match s.spe.state, (s.tu.heads.get h).tail with
    | .acquiring, _ => if triggersAllowed s && predictedInWindow a h s then attemptTrigger a h s else s
    | .tail, .running b =>
      if inTailSpan a h b s then (if triggersAllowed s then attemptTrigger a h s else s)
      else onTrigger h (fun t => { t with tail := .ended }) s
    | _, _ => s

/-- A due instant: each head of the mask is judged separately (R21). -/
def dueInstant (a : ActiveStep) (s : State) : State := heads.foldl (fun t h => dueHead a h t) s

/-- The ANGLE due instant of a forward edge, when the edge leaves C at a multiple of M (R19). -/
def angleDue (s : State) : State :=
  match s.spe.active with
  | none => s
  | some a =>
    match a.step.mode with
    | .angle m => if s.eu.count % m = 0 then dueInstant a s else s
    | .time _ => s

/-- A TIME due instant: Tp ticks have passed since the period began, and the next period begins at their end (R20,
log entry 25). -/
def timeDue (s : State) : State :=
  match s.spe.active, s.tu.period with
  | some a, some t0 =>
    match a.step.mode with
    | .time tp =>
      if passedAtLeast tp t0 s then
        tailEnds (dueInstant a { s with tu := { s.tu with period := some (t0 + BitVec.ofNat 32 tp) } })
      else s
    | .angle _ => s
  | _, _ => s

/-- A trigger line's 100 ticks are over (R24). -/
def pulseOver (h : Head) (s : State) : State :=
  match (s.tu.heads.get h).pulse with
  | some t => if passedAtLeast Config.pulseTicks t s then onTrigger h (fun x => { x with pulse := none }) s else s
  | none => s

/-- The tick of a head's last trigger is no longer held (R22). -/
def forgetTrigger (h : Head) (s : State) : State :=
  match (s.tu.heads.get h).lastTrigger with
  | some t =>
    if passedMore Config.lastTriggerPeriod t s then onTrigger h (fun x => { x with lastTrigger := none }) s else s
  | none => s

/-- TIME_DUE_INSTANT (R20). -/
def execTimeDueInstant (after : Nat) (s : State) : Answered := event after timeDue s

/-- TRIGGER_PULSE_END (R24). -/
def execTriggerPulseEnd (after : Nat) (h : Head) (s : State) : Answered := event after (pulseOver h) s

/-- LAST_TRIGGER_EXPIRY (R22). -/
def execLastTriggerExpiry (after : Nat) (h : Head) (s : State) : Answered := event after (forgetTrigger h) s

end Sys2Proof.Machine
end

