-- ==== Sys2Proof/Machine/Encoder.lean ====
section
/-! DEFINITION. The encoder unit: TABLE_EDGE, INDEX, RING_EXPIRY, STALL, RADIAL_EDGE and MILLISECOND_BOUNDARY
(chapter 1, R115, R117, R184). -/

namespace Sys2Proof.Machine

/-- The encoder unit is changed. -/
def onEncoder (f : Encoder → Encoder) (s : State) : State := { s with eu := f s.eu }

/-- The net count goes up by one and saturates (R8). -/
def netUp (n : Int) : Int := if n < 2147483647 then n + 1 else n

/-- The net count goes down by one and saturates (R8). -/
def netDown (n : Int) : Int := if -2147483648 < n then n - 1 else n

/-- The ring with the tick of one more forward edge (R11). -/
def pushEdge (t : Tick) (ring : List Tick) : List Tick :=
  (if ring.length < Config.ringLimit then ring else ring.tail) ++ [t]

/-- A forward zero crossing raises the net count above the high-water mark (R9). -/
def isNewRevolution (e : Encoder) : Bool := decide (e.highWater < netUp e.netRevs)

/-- A forward zero crossing at the encoder unit: the net count, and for a new-revolution event the mark and the
revolution time (R8, R9, R10). -/
def crossForward (e : Encoder) : Encoder :=
  let n := netUp e.netRevs
  if isNewRevolution e then
    { e with netRevs := n, highWater := n, lastRev := some e.tick
             revTime := match e.lastRev with
               | some t => ticksSince t e.tick
               | none => e.revTime }
  else { e with netRevs := n }

/-- A forward edge at the encoder unit: count, direction, ring and stall interval (R1, R2, R11, R13). -/
def edgeForward (e : Encoder) : Encoder :=
  { e with count := (e.count + 1) % e.params.counts, direction := .forward, ring := pushEdge e.tick e.ring,
           stallStart := e.tick, stallRaised := false }

/-- A reverse edge at the encoder unit (R1, R2, R11, R13), with the reverse zero crossing from 0 to N−1 (R7, R8). -/
def edgeReverse (e : Encoder) : Encoder :=
  { e with count := (e.count + e.params.counts - 1) % e.params.counts, direction := .reverse, ring := [],
           stallStart := e.tick, stallRaised := false,
           netRevs := if e.referenced ∧ e.count = 0 then netDown e.netRevs else e.netRevs }

/-! ## The takers of an edge -/

/-- Blade `b`'s plain window is entered by head 0 (R184). -/
def strobeAt (b : Option Nat) (s : State) : State :=
  match b with
  | none => { s with ax := { s.ax with strobeWindow := none } }
  | some b =>
    if s.ax.strobeWindow = some b then s
    else beginPulse .bladeStrobe { s with ax := { s.ax with strobeWindow := some b } }

/-- BLADE_STROBE_OUT is evaluated at a forward edge (R184). -/
def strobeEdge (s : State) : State :=
  match s.spe.active with
  | none => s
  | some a =>
    if s.spe.state = .acquiring ∧ a.step.flags.learn = false then
      strobeAt (spansHolding a.step 0 s.bt.current (predictedAngle .h0 s)).head? s
    else s

/-- One taker takes what the edge or index brings: `revolution` for a new-revolution event, `edge` for a forward
edge. -/
def takeBy (revolution edge : Bool) (s : State) : Taker → State
  | .plan => if revolution then planNewRevolution s else s
  | .blades => if revolution then bladesNewRevolution s else s
  | .due => if edge then angleDue s else s
  | .strobe => if edge then strobeEdge s else s

/-- The order in which the takers act: those named, each once, and then the others (log entry 6). -/
def takersInOrder (order : List Taker) : List Taker :=
  let named := order.foldl (fun l t => if l.contains t then l else l ++ [t]) []
  named ++ [Taker.plan, .blades, .due, .strobe].filter fun t => !named.contains t

/-- All takers in the order given, and then the tail ends they may have brought about (R85). -/
def takeAll (order : List Taker) (revolution edge : Bool) (s : State) : State :=
  tailEnds ((takersInOrder order).foldl (takeBy revolution edge) s)

/-! ## Edges -/

/-- A forward table edge (R1, R7, R9, R19, R184). -/
def forwardEdge (order : List Taker) (s : State) : State :=
  let crossing := s.eu.referenced && decide ((s.eu.count + 1) % s.eu.params.counts = 0)
  let revolution := crossing && isNewRevolution s.eu
  takeAll order revolution true
    (onEncoder (fun e => if crossing then crossForward (edgeForward e) else edgeForward e) s)

/-- A reverse table edge; the first of a reversal in ACQUIRING or TAIL raises DIRECTION (R3). -/
def reverseEdge (s : State) : State :=
  let first := s.eu.direction == .forward && (s.spe.state == .acquiring || s.spe.state == .tail)
  let s := onEncoder edgeReverse s
  if first then sendRaising (raisedNow .direction none s) s else s

/-- A table quadrature transition (R1). -/
def tableTransition (edge : Transition) (order : List Taker) (s : State) : State :=
  match edge with
  | .forward => forwardEdge order s
  | .reverse => reverseEdge s
  | .both => onEncoder (fun e => { e with quadErrors := satInc e.quadErrors }) s

/-! ## The index -/

/-- The error of an index against the count (R6). -/
def indexError (e : Encoder) : Int := if upperHalf e then (e.count : Int) - e.params.counts else e.count

/-- The index slips (R6). -/
def indexSlips (s : State) : Bool :=
  decide (s.eu.params.indexTolerance < (indexError s.eu).natAbs) && s.spe.state != .idle

/-- A forward index that finds the encoder REFERENCED (R6). Where the index slips and its correction is a new-revolution
event too, the raising comes before the plan takes the event, and carries the pass that the event finds (DESIGN CHOICE,
log entry 37). -/
def checkedIndex (order : List Taker) (s : State) : State :=
  let slips := indexSlips s
  let crossing := s.eu.params.indexCorrection && upperHalf s.eu
  let revolution := crossing && isNewRevolution s.eu
  let s := if slips then sendRaising (raisedNow .indexSlip none s) s else s
  let s := if s.eu.params.indexCorrection then onEncoder (fun e => { e with count := 0 }) s else s
  takeAll order revolution false (if crossing then onEncoder crossForward s else s)

/-- A forward index that references the encoder (R5); a change of the encoder state is a test of settling (R115). -/
def referencingIndex (s : State) : State :=
  settleTest (queueNotice (.referenced s.eu.tick) (onEncoder (fun e => { e with count := 0, referenced := true }) s))

/-- An index of the input that is chosen; a reverse index is disregarded (R4). -/
def indexEdge (order : List Taker) (s : State) : State :=
  if s.eu.direction = .reverse then s
  else if s.eu.referenced then checkedIndex order s
  else referencingIndex s

/-- An index of the dedicated connection, disregarded while INDEX_IN is assigned (R4). -/
def dedicatedIndex (order : List Taker) (s : State) : State :=
  if assigned .indexIn s.ax then s else indexEdge order s

/-! ## Expiries, the carriage and the millisecond -/

/-- The edge-time ring expires (R11). -/
def ringExpires (s : State) : State :=
  match latestEdge s.eu with
  | some t => if passedMore Config.silencePeriod t s then onEncoder (fun e => { e with ring := [] }) s else s
  | none => s

/-- The stall timer expires in ACQUIRING, once for each silence (R13). -/
def stallExpires (s : State) : State :=
  if s.spe.state = .acquiring ∧ s.eu.stallRaised = false ∧ passedMore Config.silencePeriod s.eu.stallStart s = true then
    sendRaising (raisedNow .stall none s) (onEncoder (fun e => { e with stallRaised := true }) s)
  else s

/-- A radial quadrature transition (R14); a change of r is tested for settling and for drift (R115, R119). -/
def radialTransition (edge : Transition) (s : State) : State :=
  match edge with
  | .forward => radiusMoved (radius s) (onEncoder (fun e => { e with radial := e.radial + 1 }) s)
  | .reverse => radiusMoved (radius s) (onEncoder (fun e => { e with radial := e.radial - 1 }) s)
  | .both => onEncoder (fun e => { e with radialErrors := satInc e.radialErrors }) s

/-- A millisecond boundary: the settle timer, the settle condition and the arm timer (R115, R117, log entries 22
and 25). -/
def millisecond (s : State) : State :=
  if passedAtLeast Config.msTicks s.spe.msMark s then
    armTick (settleTick (onPlan (fun q => { q with msMark := q.msMark + BitVec.ofNat 32 Config.msTicks }) s))
  else s

/-- TABLE_EDGE (R1). -/
def execTableEdge (after : Nat) (edge : Transition) (order : List Taker) (s : State) : Answered :=
  event after (tableTransition edge order) s

/-- INDEX (R4). -/
def execIndex (after : Nat) (order : List Taker) (s : State) : Answered := event after (dedicatedIndex order) s

/-- RING_EXPIRY (R11). -/
def execRingExpiry (after : Nat) (s : State) : Answered := event after ringExpires s

/-- STALL (R13). -/
def execStall (after : Nat) (s : State) : Answered := event after stallExpires s

/-- RADIAL_EDGE (R14). -/
def execRadialEdge (after : Nat) (edge : Transition) (s : State) : Answered := event after (radialTransition edge) s

/-- MILLISECOND_BOUNDARY (R115). -/
def execMillisecondBoundary (after : Nat) (s : State) : Answered := event after millisecond s

end Sys2Proof.Machine
end

