-- ==== Sys2Proof/Machine/AuxLines.lean ====
section
/-! DEFINITION. The auxiliary lines: the commands AXAS, AXWR, AUX_LINE_CHANGE and AUX_PULSE_END (chapter 12). -/

namespace Sys2Proof.Machine

/-! ## Assignment and general outputs (R181, R182, R185) -/

/-- Line `i` is changed. -/
def onLine (i : Fin 8) (f : AuxLine → AuxLine) (s : State) : State :=
  { s with ax := { s.ax with lines := s.ax.lines.set i (f s.ax.lines[i]) } }

/-- A line number 0..7. -/
def lineOfNat (n : Nat) : Option (Fin 8) := if h : n < 8 then some ⟨n, h⟩ else none

/-- The polarity that a code names: ACTIVE_LOW or not (13.4). -/
def polarityOf (code : Nat) : Option Bool :=
  match code with
  | 0 => some false
  | 1 => some true
  | _ => none

/-- The result data of an AXAS: the line as now held and its electrical level (R181). -/
def lineBytes (i : Fin 8) (s : State) : List Byte :=
  natBytes 1 i.val ++ natBytes 1 (auxFunctionCode s.ax.lines[i].function) ++ boolByte s.ax.lines[i].activeLow ++
  boolByte (lineHigh i s)

/-- AXAS with its line, function and polarity (R181). A change of INPOS_IN that it brings is tested for settling, and
no edge comes of it (R182). -/
def assignLine (args : List Byte) (s : State) : Executed :=
  match lineOfNat (natAt args 0 1), auxFunctions[natAt args 1 1]?, polarityOf (natAt args 2 1) with
  | some i, some f, some low =>
    let s := settleTest (onLine i (fun l => { l with function := f, activeLow := low }) s)
    done (lineBytes i s) s
  | _, _, _ => refuse .invalid s

/-- The eight levels with those that the mask names taken from `levels` (R185). Line i stands in bit i of both bytes
(DESIGN CHOICE, log entry 36). -/
def writeLevels (mask levels : Nat) (g : Vector Bool 8) : Vector Bool 8 :=
  Vector.ofFn fun i : Fin 8 => if mask.testBit i.val then levels.testBit i.val else g[i]

/-- The GENERAL_OUT levels, one bit a line (13.4), line i in bit i (DESIGN CHOICE, log entry 36). -/
def levelBits (g : Vector Bool 8) : Nat :=
  (List.finRange 8).foldl (fun v i => v + (if g[i] then 2 ^ i.val else 0)) 0

/-- AXWR with its mask and levels (R185). -/
def writeGeneral (args : List Byte) (s : State) : Executed :=
  let s := { s with ax := { s.ax with general := writeLevels (natAt args 0 1) (natAt args 1 1) s.ax.general } }
  done (natBytes 1 (levelBits s.ax.general) ++ natBytes 1 (lineLevels s)) s

/-! ## Level changes (R182) -/

/-- A rising edge of an edge function reaches the block that uses it (R14, R126, R130, R4). -/
def risingEdge (f : AuxFunction) (order : List Taker) (s : State) : State :=
  match f with
  | .radialHomeIn => radiusMoved (radius s) (onEncoder (fun e => { e with radial := 0 }) s)
  | .stopIn => if stoppable s then stopRun true s else s
  | .interjectIn =>
    if interjectionRefusal s = none then requestInterjection s.spe.params.interjectSlot s else s
  | .indexIn => indexEdge order s
  | _ => s

/-- The outside drives line `i` to a level. The function that the line holds takes the change: INPOS_IN by its level,
an edge function by its rising edge (R182). -/
def lineChange (i : Fin 8) (high : Bool) (order : List Taker) (s : State) : State :=
  let f := s.ax.lines[i].function
  let before := inputActive f s.ax
  let s := onLine i (fun l => { l with outside := high }) s
  let after := inputActive f s.ax
  if before = after then s
  else if f = .inposIn then settleTest s
  else if after then risingEdge f order s
  else s

/-- While the reset line is asserted the controller takes no change, and the line has its new level when it is released
(R179, log entry 10). -/
def lineChangeAny (after : Nat) (i : Fin 8) (high : Bool) (order : List Taker) (s : State) : State :=
  if s.resetHeld then onLine i (fun l => { l with outside := high }) s else lineChange i high order (elapse after s)

/-! ## The ends of pulses (R183) -/

/-- A pulse that began at `t` has lasted its 100 ticks. -/
def pulseDone (t : Option Tick) (s : State) : Bool :=
  match t with
  | some t => passedAtLeast Config.pulseTicks t s
  | none => false

/-- A pulsed output goes inactive 100 ticks after its latest beginning (R183). -/
def endPulse (p : PulsedOutput) (s : State) : State :=
  match p with
  | .passEnd => if pulseDone s.ax.passEnd s then { s with ax := { s.ax with passEnd := none } } else s
  | .bladeStrobe => if pulseDone s.ax.strobe s then { s with ax := { s.ax with strobe := none } } else s

/-- AXAS (R181). -/
def execAxas (s : State) : Answered := hostCommand .axas (withLength 3 assignLine) s

/-- AXWR (R185). -/
def execAxwr (s : State) : Answered := hostCommand .axwr (withLength 2 writeGeneral) s

/-- AUX_LINE_CHANGE (R182). -/
def execAuxLineChange (after : Nat) (i : Fin 8) (high : Bool) (order : List Taker) (s : State) : Answered :=
  .next (lineChangeAny after i high order s)

/-- AUX_PULSE_END (R183). -/
def execAuxPulseEnd (after : Nat) (p : PulsedOutput) (s : State) : Answered := event after (endPulse p) s

end Sys2Proof.Machine
end

