-- ==== Sys2Proof/Machine/Completion.lean ====
section
/-! DEFINITION. The commands STEP_COMPLETION, INTERJECTION_TAIL_END and FAULT_RAISE (R121, R122, R134, R141). -/

namespace Sys2Proof.Machine

/-- The active step completes, when its ordinary tail is over (R121, R122). -/
def completeStep (s : State) : State :=
  match s.spe.active with
  | none => s
  | some a => if tailOver s && !inInterjectionTail a s then afterStep a (reportStep a s) else s

/-- An interjection tail ends, when its conditions hold (R133, R134). -/
def finishInterjectionTail (s : State) : State :=
  match s.spe.active, s.spe.interjection with
  | some a, .pending slot => if tailOver s && inInterjectionTail a s then endInterjectionTail a slot s else s
  | _, _ => s

/-- Raisings of the same tick may reach the latch in either order (R148). -/
def raisedTogether (x y : Raising) : Bool := x.tick == y.tick

/-- The latch takes a raising that is on its way (R141, log entries 4 and 5). -/
def takeRaising (choice : Nat) (s : State) : State :=
  match takeOvertaking raisedTogether choice s.bus.raisings with
  | none => s
  | some (r, rest) => raiseFault r { s with bus := { s.bus with raisings := rest } }

/-- STEP_COMPLETION (R122). -/
def execStepCompletion (s : State) : Answered := running completeStep s

/-- INTERJECTION_TAIL_END (R134). -/
def execInterjectionTailEnd (s : State) : Answered := running finishInterjectionTail s

/-- FAULT_RAISE (R141). -/
def execFaultRaise (choice : Nat) (s : State) : Answered := running (takeRaising choice) s

end Sys2Proof.Machine
end

