-- ==== Sys2Proof/Machine/HeadPorts.lean ====
section
/-! DEFINITION. The head ports: assembling head words, matching, no-response and the sample queue; and the commands
HEAD_WORD, HEAD_WORD_GAP and RESPONSE_TIMEOUT (sections 2.2 and 2.3, R30, 13.2, R188). -/

namespace Sys2Proof.Machine

/-! ## The head word (13.2) -/

/-- A head word by its fields. -/
structure HeadWord where
  seq : Seq
  answer : Answer
deriving DecidableEq, Repr

/-- The fields of a head word's seven bytes, bit 55 first on the line; the two spare bits are disregarded (13.2,
R26). -/
def readWord (bs : List Byte) : HeadWord :=
  let v := beNat bs
  { seq := BitVec.ofNat 12 (v / 2 ^ 44)
    answer := { code := headCodeOf (v / 2 ^ 42 % 4), intensity := BitVec.ofNat 12 (v / 2 ^ 28),
                distance := BitVec.ofNat 20 (v / 2 ^ 8) } }

/-- The check byte that six bytes ask for: their exclusive OR, with 0x5A (R188). -/
def wordCheck (bs : List Byte) : Byte := bs.foldl (fun x b => x ^^^ b) 0x5A

/-- A completed word is good: no byte has a framing error and the seventh is the check of the first six
(R26, R188). -/
def wordGood (word : List LineByte) : Bool :=
  word.all (fun b => !b.framingError) &&
  (word.drop 6).map (·.byte) == [wordCheck ((word.take 6).map (·.byte))]

/-! ## The sample queue and the outstanding-trigger list -/

/-- A matched sample or a placeholder joins head `h`'s queue, or is dropped at a full one (R30). -/
def enqueueSample (h : Head) (x : Sample) (s : State) : State :=
  if (s.hp.get h).queue.length < Config.queueLimit then onPort h (fun p => { p with queue := p.queue ++ [x] }) s
  else flagOpen .loss h (onCounters h (fun c => { c with queueDrops := satInc c.queueDrops }) s)

/-- An entry that has left the list is resolved as no-response under the head's policy (R29). -/
def resolveSilent (h : Head) (e : Outstanding) (s : State) : State :=
  let s := onCounters h (fun c => { c with noResponse := satInc c.noResponse }) s
  match (s.hp.get h).params.policy with
  | .mark => enqueueSample h ⟨e, none⟩ s
  | .ignore => s
  | .fault => sendRaising (raisedNow .headSilent (some h) s) s

/-- The list before the entry that carries `q`, that entry, and the list after it. -/
def splitAtSeq (q : Seq) : List Outstanding → Option (List Outstanding × Outstanding × List Outstanding)
  | [] => none
  | e :: rest =>
    if e.seq = q then some ([], e, rest)
    else (splitAtSeq q rest).map fun r => (e :: r.1, r.2.1, r.2.2)

/-- A good word is matched, every older entry resolved first, or is a stray (R27). -/
def matchWord (h : Head) (w : HeadWord) (s : State) : State :=
  match splitAtSeq w.seq (s.hp.get h).outstanding with
  | none => onCounters h (fun c => { c with stray := satInc c.stray }) s
  | some (older, e, rest) =>
    let s := onPort h (fun p => { p with outstanding := rest }) s
    enqueueSample h ⟨e, some w.answer⟩ (older.foldl (fun t x => resolveSilent h x t) s)

/-! ## Assembling (R26) -/

/-- A word of head `h` is counted as corrupt (R26). -/
def countCorrupt (h : Head) (s : State) : State :=
  onCounters h (fun c => { c with corrupt := satInc c.corrupt }) s

/-- The partial word is discarded and counted as corrupt when more than 2,000 ticks have passed since its latest byte
(R26). -/
def wordGapEnds (h : Head) (s : State) : State :=
  let p := s.hp.get h
  if !p.partialWord.isEmpty && passedMore Config.wordGap p.lastByte s then
    countCorrupt h (onPort h (fun p => { p with partialWord := [] }) s)
  else s

/-- A completed word: offered to matching when good, and counted as corrupt when not (R26, R27, R188). -/
def completeWord (h : Head) (word : List LineByte) (s : State) : State :=
  if wordGood word then matchWord h (readWord (word.map (·.byte))) s else countCorrupt h s

/-- One byte arrives on head `h`'s sample line (R26). -/
def takeLineByte (h : Head) (b : LineByte) (s : State) : State :=
  let s := wordGapEnds h s
  let word := (s.hp.get h).partialWord ++ [b]
  let tick := s.eu.tick
  if word.length < 7 then onPort h (fun p => { p with partialWord := word, lastByte := tick }) s
  else completeWord h word (onPort h (fun p => { p with partialWord := [], lastByte := tick }) s)

/-- Bytes arrive on head `h`'s sample line, and the matches may bring tail ends about (R26, R27, R85). -/
def takeWordBytes (h : Head) (bytes : List LineByte) (s : State) : State :=
  tailEnds (bytes.foldl (fun t b => takeLineByte h b t) s)

/-- The front entry of head `h`'s list is resolved when more than the response timeout has passed since its trigger
(R28). -/
def frontTimesOut (h : Head) (s : State) : State :=
  match (s.hp.get h).outstanding with
  | [] => s
  | e :: rest =>
    if passedMore (s.hp.get h).params.timeout e.trigTick s then
      tailEnds (resolveSilent h e (onPort h (fun p => { p with outstanding := rest }) s))
    else s

/-- HEAD_WORD (R26, R27). -/
def execHeadWord (after : Nat) (h : Head) (bytes : List LineByte) (s : State) : Answered :=
  event after (takeWordBytes h bytes) s

/-- HEAD_WORD_GAP (R26). -/
def execHeadWordGap (after : Nat) (h : Head) (s : State) : Answered := event after (wordGapEnds h) s

/-- RESPONSE_TIMEOUT (R28). -/
def execResponseTimeout (after : Nat) (h : Head) (s : State) : Answered := event after (frontTimesOut h) s

end Sys2Proof.Machine
end

