-- ==== Sys2Proof/Machine/Params.lean ====
section
/-! DEFINITION. Writing the four parameter groups: the commands SETP_ENCODER, SETP_HEAD, SETP_TRACK and SETP_PLAN
(R17, R18, R35, R37, R70, R71, R128, R142, R172). -/

namespace Sys2Proof.Machine

/-- The arguments of a SETP after its group code and head byte: the field mask and the values (13.4). -/
structure GroupWrite where
  mask : Nat
  values : List Byte
deriving DecidableEq, Repr

/-- The field mask and the values of a SETP. -/
def groupWrite (args : List Byte) : GroupWrite := ⟨natAt args 2 2, args.drop 4⟩

/-- How many bytes the values of a group take (13.4). -/
def groupLength : Group → Nat
  | .encoder => 15
  | .head _ => 25
  | .track => 9
  | .plan => 13

/-- The tests of R172 on the way to the group, and then the group's own lock and write. -/
def setGroup (write : Group → GroupWrite → State → Executed) (args : List Byte) (s : State) : Executed :=
  if args = [] then refuse .badLength s
  else match groupOf (natAt args 0 1) (natAt args 1 1) with
    | none => refuse .invalid s
    | some g => if args.length = 4 + groupLength g then write g (groupWrite args) s else refuse .badLength s

/-- A SETP is this row's when it names the row's group, or names none of the four (log entry 3). -/
def setpOf (code : Nat) (c : HostCommand) : Bool :=
  commandNames c == some .setp &&
  (decide ((commandArgs c).length = 0) || natAt (commandArgs c) 0 1 == code || decide (3 < natAt (commandArgs c) 0 1))

/-! ## ENCODER (R17, R18) -/

/-- The ENCODER group with the named fields written and clamped (R17). -/
def writeEncoderParams (w : GroupWrite) (p : EncoderParams) : Written EncoderParams :=
  let n := writeNat w.mask 0 4096 1048576 p.counts (natAt w.values 0 4)
  let ic := writeCode w.mask 1 [false, true] true p.indexCorrection (natAt w.values 4 1)
  let tol := writeNat w.mask 2 0 15 p.indexTolerance (natAt w.values 5 1)
  let z := writeNat w.mask 3 0 16777215 p.zeroOffset.toNat (natAt w.values 6 4)
  let ro := writeInt w.mask 4 (-16000000) 16000000 p.radialOffset (intAt w.values 10 4)
  let rs := writeCode w.mask 5 [false, true] true p.radialMinus (natAt w.values 14 1)
  { value :=
      { counts := n.value, indexCorrection := ic.value, indexTolerance := tol.value,
        zeroOffset := BitVec.ofNat 24 z.value, radialOffset := ro.value, radialMinus := rs.value }
    clamped := n.clamped || ic.clamped || tol.clamped || z.clamped || ro.clamped || rs.clamped }

/-- A change of N (R18). -/
def changeCounts (e : Encoder) : Encoder :=
  { e with count := 0, referenced := false, netRevs := 0, highWater := 0, lastRev := none, revTime := 0, ring := [],
           stallStart := e.tick, stallRaised := false }

/-- The encoder unit takes its written group (R17, R18). -/
def takeEncoderParams (p : EncoderParams) (e : Encoder) : Encoder :=
  if p.counts = e.params.counts then { e with params := p } else { changeCounts e with params := p }

/-- A SETP of the ENCODER group (R17). -/
def setEncoder (w : GroupWrite) (s : State) : Executed :=
  whenIdle (fun s =>
    let p := writeEncoderParams w s.eu.params
    doneWith p.clamped (encoderBytes p.value) { s with eu := takeEncoderParams p.value s.eu }) s

/-! ## HEAD(h) (R35, R37) -/

/-- A HEAD group with the named fields written and clamped (R35). -/
def writeHeadParams (w : GroupWrite) (p : HeadParams) : Written HeadParams :=
  let facing := writeCode w.mask 0 [Facing.down, .up] .up p.facing (natAt w.values 0 1)
  let ref := writeInt w.mask 1 (-8388608) 8388607 p.reference (intAt w.values 1 4)
  let latency := writeNat w.mask 2 0 65535 p.latency (natAt w.values 5 4)
  let azimuth := writeNat w.mask 3 0 16777215 p.azimuth.toNat (natAt w.values 9 4)
  let spacing := writeNat w.mask 4 2000 1000000 p.minSpacing (natAt w.values 13 4)
  let timeout := writeNat w.mask 5 1000 1000000 p.timeout (natAt w.values 17 4)
  let policy := writeCode w.mask 6 [SilencePolicy.mark, .ignore, .fault] .fault p.policy (natAt w.values 21 1)
  let priority := writeNat w.mask 7 0 3 p.priority (natAt w.values 22 1)
  { value :=
      { facing := facing.value, reference := ref.value, latency := latency.value,
        azimuth := BitVec.ofNat 24 azimuth.value, minSpacing := spacing.value, timeout := timeout.value,
        policy := policy.value, priority := priority.value }
    clamped := facing.clamped || ref.clamped || latency.clamped || azimuth.clamped || spacing.clamped ||
      timeout.clamped || policy.clamped || priority.clamped }

/-- The ninth field of a HEAD group: the next sequence number (R35, R37). -/
def writeNextSeq (w : GroupWrite) (q : Seq) : Written Nat := writeNat w.mask 8 0 4095 q.toNat (natAt w.values 23 2)

/-- A SETP of HEAD(h) (R35, R37). -/
def setHead (h : Head) (w : GroupWrite) (s : State) : Executed :=
  whenIdle (fun s =>
    let p := writeHeadParams w (s.hp.get h).params
    let q := writeNextSeq w (s.tu.heads.get h).seq
    doneWith (p.clamped || q.clamped) (headBytes p.value (BitVec.ofNat 12 q.value))
      (onTrigger h (fun t => { t with seq := BitVec.ofNat 12 q.value })
        (onPort h (fun x => { x with params := p.value }) s))) s

/-! ## TRACK (R70, R71) -/

/-- The guard and K_miss become those written. -/
def setGuards (guard kMiss : Nat) (s : State) : State :=
  { s with bt := { s.bt with params := { s.bt.params with guard := guard, kMiss := kMiss } } }

/-- A SETP of the TRACK group: its lock stands on the tracking limit alone (R70), and a change of the limit acts on
the entries (R71). -/
def setTrack (w : GroupWrite) (s : State) : Executed :=
  if w.mask.testBit 0 ∧ s.spe.state ≠ .idle then refuse .locked s
  else
    let limit := writeNat w.mask 0 0 1048576 s.bt.params.limit (natAt w.values 0 4)
    let guard := writeNat w.mask 1 0 1048576 s.bt.params.guard (natAt w.values 4 4)
    let kMiss := writeNat w.mask 2 1 15 s.bt.params.kMiss (natAt w.values 8 1)
    let s' := setGuards guard.value kMiss.value s
    doneWith (limit.clamped || guard.clamped || kMiss.clamped) (trackBytes ⟨limit.value, guard.value, kMiss.value⟩)
      (if limit.value = s.bt.params.limit then s' else setLimit limit.value s')

/-! ## PLAN (R128, R142) -/

/-- The policy of class `i` as written: a code outside the three takes STOP_NOW, and that of STEP_INVALID always holds
STOP_NOW (R142). -/
def writePolicy (w : GroupWrite) (ps : Vector Policy 8) (i : Fin 8) : Written Policy :=
  let code := natAt w.values (5 + i.val) 1
  if i = classIndex .stepInvalid then ⟨.stopNow, w.mask.testBit (2 + i.val) && code != policyCode .stopNow⟩
  else writeCode w.mask (2 + i.val) [Policy.report, .haltAtStepEnd, .stopNow] .stopNow ps[i] code

/-- The PLAN group with the named fields written and clamped (R128, R142). -/
def writePlanParams (w : GroupWrite) (p : PlanParams) : Written PlanParams :=
  let timeout := writeNat w.mask 0 100 60000 p.armTimeout (natAt w.values 0 4)
  let slot := writeNat w.mask 1 0 63 p.interjectSlot.val (natAt w.values 4 1)
  { value :=
      { armTimeout := timeout.value, interjectSlot := Fin.ofNat 64 slot.value,
        policies := Vector.ofFn fun i => (writePolicy w p.policies i).value }
    clamped := timeout.clamped || slot.clamped || (List.finRange 8).any fun i => (writePolicy w p.policies i).clamped }

/-- A SETP of the PLAN group, in every plan state (R128). -/
def setPlan (w : GroupWrite) (s : State) : Executed :=
  let p := writePlanParams w s.spe.params
  doneWith p.clamped (planBytes p.value) { s with spe := { s.spe with params := p.value } }

/-! ## The rows -/

/-- The write that a group takes. -/
def writeGroup (g : Group) (w : GroupWrite) (s : State) : Executed :=
  match g with
  | .encoder => setEncoder w s
  | .head h => setHead h w s
  | .track => setTrack w s
  | .plan => setPlan w s

/-- SETP of the ENCODER group (R17, R172). -/
def execSetpEncoder (s : State) : Answered := running (executeCommand (setpOf 0) (setGroup writeGroup)) s

/-- SETP of a HEAD(h) group (R35, R172). -/
def execSetpHead (s : State) : Answered := running (executeCommand (setpOf 1) (setGroup writeGroup)) s

/-- SETP of the TRACK group (R70, R172). -/
def execSetpTrack (s : State) : Answered := running (executeCommand (setpOf 2) (setGroup writeGroup)) s

/-- SETP of the PLAN group (R128, R172). -/
def execSetpPlan (s : State) : Answered := running (executeCommand (setpOf 3) (setGroup writeGroup)) s

end Sys2Proof.Machine
end

