-- ==== Sys2Proof/Machine/Placement.lean ====
section
/-! DEFINITION. The placement arbiter and the placement of a sample; and the commands PLACEMENT_GRANT and
PLACEMENT_END (section 2.8, chapter 3). -/

namespace Sys2Proof.Machine

/-! ## The arbiter (R38, R39) -/

/-- The head after `h` in the cyclic order 0, 1, 2, 3 (R38). -/
def nextHead : Head → Head
  | .h0 => .h1
  | .h1 => .h2
  | .h2 => .h3
  | .h3 => .h0

/-- The four heads in the cyclic order that follows `h` (R38). -/
def headsAfter (h : Head) : List Head :=
  let a := nextHead h
  let b := nextHead a
  let c := nextHead b
  [a, b, c, h]

/-- The head whose queue the arbiter serves: the highest priority among the non-empty queues, and the first of those
after the head last served (R38). -/
def grantedHead (s : State) : Option Head :=
  let waiting := (headsAfter s.pe.lastServed).filter fun h => !(s.hp.get h).queue.isEmpty
  let top := waiting.foldl (fun m h => max m (s.hp.get h).params.priority) 0
  waiting.find? fun h => (s.hp.get h).params.priority == top

/-- The arbiter grants the front sample of a queue when the engine is free (R38). -/
def grantSample (s : State) : State :=
  match s.pe.busy, grantedHead s with
  | none, some h =>
    match (s.hp.get h).queue with
    | [] => s
    | x :: rest =>
      let s := onPort h (fun p => { p with queue := rest }) s
      { s with pe := { s.pe with busy := some (h, x), lastServed := h } }
  | _, _ => s

/-! ## The exposure angle (R43 to R46) -/

/-- The fraction f in 1/256 count (R43). -/
def fractionOf (e : Outstanding) : Nat :=
  match e.speed with
  | none => 0
  | some q => if q = 0 then 255 else min (ticksSince e.edgeTick e.trigTick * 65536 / q) 255

/-- The latency advance a in 1/256 count, with the mark of its saturation (R44). -/
def advanceOf (latency : Nat) (e : Outstanding) : Nat × Bool :=
  match e.speed with
  | none => (0, false)
  | some q =>
    if q = 0 then (if 0 < latency then (65535, true) else (0, false))
    else (min (latency * 65536 / q) 65535, decide (65535 < latency * 65536 / q))

/-- The position P of the exposure in 1/256 count (R45). -/
def exposurePosition (n latency : Nat) (e : Outstanding) : Nat :=
  (e.count * 256 + fractionOf e + (advanceOf latency e).1) % (n * 256)

/-- The rotor angle θ of the exposure (R45, R46). -/
def exposureAngle (p : EncoderParams) (hp : HeadParams) (e : Outstanding) : Angle :=
  BitVec.ofNat 24 (exposurePosition p.counts hp.latency e * 65536 / p.counts) + hp.azimuth - p.zeroOffset

/-! ## Class, height and correction (R47 to R52) -/

/-- A sample is present (R47). -/
def isPresent (threshold : Nat) (a : Answer) : Bool :=
  match a.code with
  | .ok => decide (threshold ≤ a.intensity.toNat)
  | .saturated => true
  | .multiPeak => true
  | .noPeak => false

/-- A sample is measured (R47). -/
def isMeasured (threshold : Nat) (a : Answer) : Bool :=
  match a.code with
  | .ok => decide (threshold ≤ a.intensity.toNat)
  | .saturated => false
  | .multiPeak => false
  | .noPeak => false

/-- A height saturated to its range (R48, R52). -/
def clampHeight (z : Int) : Int := clampInt (-8388608) 8388607 z

/-- The height before saturation (R48). -/
def exactHeight (hp : HeadParams) (a : Answer) : Int :=
  match hp.facing with
  | .down => hp.reference - a.distance.toNat
  | .up => hp.reference + a.distance.toNat

/-- The correction W in force at the angle, scaled where the step scales it (R49, R50, R51). -/
def correctionAt (p : ScanStep) (r : Nat) (m : RunoutMap) (a : Angle) : Int :=
  if m.state = .empty then 0
  else if p.flags.scaleMap then roundHalfAway (interpolated m a * r) m.radius
  else interpolated m a

/-- The corrected height and the mark of a saturation (R48, R52). -/
def correctedHeight (z w : Int) : Int × Bool := (clampHeight (clampHeight z - w), clampHeight z != z || clampHeight (clampHeight z - w) != clampHeight z - w)

/-! ## The stale test, the placed sample and the hand-over (R42, R53, R54, R55) -/

/-- The window set of a generation that the table still keeps (R42). -/
def windowSet (b : BladeTable) (g : Id16) : Option (List Window) :=
  if g = b.gen then some b.current else if g = previousGen b then some b.previous else none

/-- A sample granted for head `h`, placed against a window set (R43 to R54). -/
def placedSample (a : ActiveStep) (ws : List Window) (h : Head) (x : Sample) (s : State) : Placed :=
  let hp := (s.hp.get h).params
  let angle := exposureAngle s.eu.params hp x.entry
  let window := windowAt ws angle
  let present := x.answer.filter (isPresent a.step.threshold)
  let height := fun (q : Answer) => correctedHeight (exactHeight hp q) (correctionAt a.step (radius s) s.rm angle)
  { seq := x.entry.seq, pass := x.entry.pass, runId := x.entry.runId, gen := x.entry.gen, trigTick := x.entry.trigTick,
    angle := angle, window := window,
    enabled := window.any fun q => enabledFor a.step q.1 q.2,
    placeholder := x.answer.isNone,
    surface := present.map fun q => ((height q).1, q.intensity, q.code, isMeasured a.step.threshold q),
    mapGen := s.rm.gen,
    clamped := (advanceOf hp.latency x.entry).2 || present.any fun q => (height q).2 }

/-- What the edge detector of head `h` reads beside the sample (R76, R77). -/
def surroundings (a : ActiveStep) (h : Head) (s : State) : Surroundings :=
  ⟨a.step, radius s, crossingAngle h s, s.spe.firstPass⟩

/-- A stale sample is discarded: counted, flagged on the open record, and its number held as placed (R42). -/
def discardStale (h : Head) (x : Sample) (s : State) : State :=
  let s := onCounters h (fun c => { c with stale := satInc c.stale }) s
  onDetector h (fun d => { flagDetector .loss d with lastSeq := some x.entry.seq }) s

/-- The placed sample arrives at head `h`'s edge detector (R54, R74). -/
def handOver (a : ActiveStep) (ws : List Window) (h : Head) (x : Sample) (s : State) : State :=
  let r := arrive (surroundings a h s) (placedSample a ws h x s) (s.pe.detectors.get h)
  deliverClosed h r.2 (onDetector h (fun _ => r.1) s)

/-- In a learning step a measured sample enters its bin with its raw height, and any other hands nothing on
(R55, R101). -/
def learnFrom (a : ActiveStep) (h : Head) (x : Sample) (s : State) : State :=
  let hp := (s.hp.get h).params
  match x.answer.filter (isMeasured a.step.threshold) with
  | none => s
  | some q =>
    let angle := exposureAngle s.eu.params hp x.entry
    onAcc (accumulate (Fin.ofNat 256 (angle.toNat / 65536)) (clampHeight (exactHeight hp q))) s

/-- The placement of the granted sample, dealt with whole (R40, R42, R54, R55). -/
def placeSample (a : ActiveStep) (h : Head) (x : Sample) (s : State) : State :=
  if a.step.flags.learn then learnFrom a h x s
  else match windowSet s.bt x.entry.gen with
    | none => discardStale h x s
    | some ws => handOver a ws h x s

/-- The placement in progress ends and the engine is free (R40). -/
def endPlacement (s : State) : State :=
  match s.pe.busy with
  | none => s
  | some (h, x) =>
    let s := { s with pe := { s.pe with busy := none } }
    match s.spe.active with
    | none => s
    | some a => tailEnds (placeSample a h x s)

/-- PLACEMENT_GRANT (R38). -/
def execPlacementGrant (s : State) : Answered := running grantSample s

/-- PLACEMENT_END (R40). -/
def execPlacementEnd (after : Nat) (s : State) : Answered := event after endPlacement s

end Sys2Proof.Machine
end

