-- ==== Sys2Proof/Machine/PlanCommands.lean ====
section
/-! DEFINITION. The commands of the scan plan engine: RUNP, STOP, CONT, INTJ, FCLR, STPW and STPR (R108 to R112, R124,
R126, R129, R150). -/

namespace Sys2Proof.Machine

/-- RUNP with its slot byte (R112). -/
def runSlot (args : List Byte) (s : State) : Executed :=
  match slotOfNat (natAt args 0 1) with
  | none => refuse .invalid s
  | some slot =>
    if s.spe.latch.isSome then refuse .faultLatched s
    else if s.spe.state ≠ .idle then refuse .wrongState s
    else done [] (armSlot .fresh slot s)

/-- STOP (R126). -/
def stopCommand (s : State) : Executed := if stoppable s then done [] (stopRun false s) else refuse .wrongState s

/-- CONT carries out the pending decision of HALTED (R124). -/
def continuePlan (s : State) : Executed :=
  match s.spe.state, s.spe.pendingDecision with
  | .halted, some (some slot) => done [] (armSlot .fresh slot s)
  | .halted, some none => done [] (finishPlan s)
  | .halted, none => done [] (finishPlan s)
  | _, _ => refuse .wrongState s

/-- INTJ with its slot byte (R129). -/
def interjectSlot (args : List Byte) (s : State) : Executed :=
  match slotOfNat (natAt args 0 1) with
  | none => refuse .invalid s
  | some slot =>
    match interjectionRefusal s with
    | some st => refuse st s
    | none => done [] (requestInterjection slot s)

/-- FCLR (R150). -/
def clearFault (s : State) : Executed :=
  if s.spe.state = .faulted then
    done [] (onPlan (fun p => { p with latch := none, secondary := 0, state := .idle }) s)
  else refuse .wrongState s

/-- The slot is the active step's or the saved context's (R109). -/
def slotBusy (slot : Slot) (s : State) : Bool :=
  s.spe.active.any (fun a => a.slot == slot) || s.spe.context.any fun c => c.slot == slot

/-- STPW with its slot byte and step (R108, R109). -/
def writeSlot (args : List Byte) (s : State) : Executed :=
  match slotOfNat (natAt args 0 1), readStep (args.drop 1) with
  | some slot, some p =>
    if slotBusy slot s then refuse .slotBusy s
    else doneWith p.clamped [] (onPlan (fun q => { q with slots := q.slots.set slot (some p.value) }) s)
  | _, _ => refuse .invalid s

/-- A slot's contents for STPR: the mark EMPTY with no step (R110, log entry 15), or the step behind a present mark of 1
(DESIGN CHOICE, log entry 38). -/
def slotContents (p : Option ScanStep) : List Byte :=
  match p with
  | none => natBytes 1 0 ++ natBytes 32 0
  | some p => natBytes 1 1 ++ stepBytes p

/-- STPR with its slot byte (R110). -/
def readSlot (args : List Byte) (s : State) : Executed :=
  match slotOfNat (natAt args 0 1) with
  | none => refuse .invalid s
  | some slot => done (slotContents s.spe.slots[slot]) s

/-- RUNP (R112). -/
def execRunp (s : State) : Answered := hostCommand .runp (withLength 1 runSlot) s

/-- STOP (R126). -/
def execStop (s : State) : Answered := hostCommand .stop (withLength 1 fun _ s => stopCommand s) s

/-- CONT (R124). -/
def execCont (s : State) : Answered := hostCommand .cont (withLength 1 fun _ s => continuePlan s) s

/-- INTJ (R129). -/
def execIntj (s : State) : Answered := hostCommand .intj (withLength 1 interjectSlot) s

/-- FCLR (R150). -/
def execFclr (s : State) : Answered := hostCommand .fclr (withLength 1 fun _ s => clearFault s) s

/-- STPW (R108). -/
def execStpw (s : State) : Answered := hostCommand .stpw (withLength 33 writeSlot) s

/-- STPR (R110). -/
def execStpr (s : State) : Answered := hostCommand .stpr (withLength 1 readSlot) s

end Sys2Proof.Machine
end

