-- ==== Sys2Proof/Machine/Resets.lean ====
section
/-! DEFINITION. The commands POWER_ON, RESET_LINE and RESET_RELEASE (R179). -/

namespace Sys2Proof.Machine

/-- POWER_ON: a full reset of every block (R179). -/
def execPowerOn (s : State) : Answered := .next (fullReset s)

/-- RESET_LINE: a full reset, and every block holds its values until the release (R179). -/
def execResetLine (s : State) : Answered := .next { fullReset s with resetHeld := true }

/-- RESET_RELEASE: the controller starts from the values it holds, and the tick counter counts from 0 (R179). A
release of a line that is not asserted changes nothing (log entry 27). -/
def execResetRelease (s : State) : Answered := .next (if s.resetHeld then { fullReset s with resetHeld := false } else s)

end Sys2Proof.Machine
end

