-- ==== Sys2Proof/Machine/TableCommands.lean ====
section
/-! DEFINITION. The commands of the blade table and of the runout map: BTLD, BTRD, BTMK, MPLD, MPRD and MPCL (R58 to
R60, R67, R97 to R99). -/

namespace Sys2Proof.Machine

/-! ## The blade table -/

/-- A BTLD whose length agrees with its entry count (R58, R59). -/
def loadBlades (args : List Byte) (s : State) : Executed :=
  whenIdle (fun s =>
    let ls := readLoads (natAt args 0 1) (args.drop 1)
    if loadsOk ls then
      let bt := loadTable ls s.bt
      done (natBytes 2 bt.gen.toNat) { s with bt := bt }
    else refuse .invalid s) s

/-- A command that carries an entry count and entries of `size` bytes: its length must agree with the count (R169,
R176). -/
def withCount (size : Nat) (f : List Byte → State → Executed) (args : List Byte) (s : State) : Executed :=
  if args ≠ [] ∧ args.length = 1 + size * natAt args 0 1 then f args s else refuse .badLength s

/-- What a BTRD carries before its entries (R60, 13.4). -/
def tableHead (b : BladeTable) (returned : Nat) : List Byte :=
  natBytes 1 b.entries.length ++ natBytes 2 b.gen.toNat ++ natBytes 2 (previousGen b).toNat ++
  natBytes 3 b.params.limit ++ natBytes 1 returned

/-- BTRD with its first index and its count (R60). -/
def readBlades (args : List Byte) (s : State) : Executed :=
  let first := natAt args 0 1
  let count := clampNat 1 64 (natAt args 1 1)
  if first < s.bt.entries.length then
    let es := entriesFrom first count s.bt.entries
    doneWith (count != natAt args 1 1) (tableHead s.bt es.length ++ es.flatMap fun p => entryBytes p.2 p.1) s
  else refuse .invalid s

/-- The action a code names (R67, R187). -/
def markOf (code : Nat) : Option Mark :=
  match code with
  | 0 => some .exclude
  | 1 => some .include
  | _ => none

/-- The index and action pairs of a BTMK; `none` when a code names no action (13.4, R187). -/
def readMarks : Nat → List Byte → Option (List (Nat × Mark))
  | 0, _ => some []
  | n + 1, bs =>
    match markOf (natAt bs 1 1), readMarks n (bs.drop 2) with
    | some m, some ms => some ((natAt bs 0 1, m) :: ms)
    | _, _ => none

/-- The marks of a BTMK are acceptable to a table of `size` entries (R67). -/
def marksOk (size : Nat) (ms : List (Nat × Mark)) : Bool :=
  decide (1 ≤ ms.length ∧ ms.length ≤ Config.bladeCapacity) && ms.all (fun m => decide (m.1 < size)) &&
  decide (ms.map (·.1)).Nodup

/-- A pending mark is staged for a blade, in place of any other (R67). -/
def stageMark (es : List BladeEntry) (m : Nat × Mark) : List BladeEntry :=
  es.modify m.1 fun e => { e with pendingMark := some m.2 }

/-- A BTMK whose length agrees with its count (R67). -/
def markBlades (args : List Byte) (s : State) : Executed :=
  match readMarks (natAt args 0 1) (args.drop 1) with
  | none => refuse .invalid s
  | some ms =>
    if marksOk s.bt.entries.length ms then
      done [] { s with bt := { s.bt with entries := ms.foldl stageMark s.bt.entries } }
    else refuse .invalid s

/-! ## The runout map -/

/-- An MPLD of the right length (R97). -/
def loadRunout (args : List Byte) (s : State) : Executed :=
  whenIdle (fun s =>
    let r := natAt args 0 4
    if 1 ≤ r ∧ r ≤ 8000000 then
      let m := loadMap r (readBins (args.drop 4)) s.rm
      done (natBytes 2 m.gen.toNat) { s with rm := m }
    else refuse .invalid s) s

/-- MPCL (R98). -/
def clearRunout (s : State) : Executed :=
  whenIdle (fun s =>
    let m := clearMap s.rm
    done (natBytes 2 m.gen.toNat) { s with rm := m }) s

/-- BTLD (R58, R59). -/
def execBtld (s : State) : Answered := hostCommand .btld (withCount 9 loadBlades) s

/-- BTRD (R60). -/
def execBtrd (s : State) : Answered := hostCommand .btrd (withLength 2 readBlades) s

/-- BTMK (R67). -/
def execBtmk (s : State) : Answered := hostCommand .btmk (withCount 2 markBlades) s

/-- MPLD (R97). -/
def execMpld (s : State) : Answered := hostCommand .mpld (withLength 516 loadRunout) s

/-- MPRD (R99). -/
def execMprd (s : State) : Answered := hostCommand .mprd (withLength 1 fun _ s => done (mapBytes s.rm) s) s

/-- MPCL (R98). -/
def execMpcl (s : State) : Answered := hostCommand .mpcl (withLength 1 fun _ s => clearRunout s) s

end Sys2Proof.Machine
end

