-- ==== Sys2Proof/Machine/Dispatch.lean ====
section
/-! DEFINITION. The meaning of each command of the table: one arm per constructor of Instr, each one call. -/

namespace Sys2Proof.Machine

/-- What a command does to everything but the queue of waiting commands. -/
def exec (i : Instr) (s : State) : Host.Outcome State Fault Refusal :=
  match i with
  | .tableEdge after edge order => Sys2Proof.Machine.execTableEdge after edge order s
  | .index after order => Sys2Proof.Machine.execIndex after order s
  | .ringExpiry after => Sys2Proof.Machine.execRingExpiry after s
  | .stall after => Sys2Proof.Machine.execStall after s
  | .radialEdge after edge => Sys2Proof.Machine.execRadialEdge after edge s
  | .millisecondBoundary after => Sys2Proof.Machine.execMillisecondBoundary after s
  | .timeDueInstant after => Sys2Proof.Machine.execTimeDueInstant after s
  | .triggerPulseEnd after head => Sys2Proof.Machine.execTriggerPulseEnd after head s
  | .lastTriggerExpiry after head => Sys2Proof.Machine.execLastTriggerExpiry after head s
  | .headWord after head bytes => Sys2Proof.Machine.execHeadWord after head bytes s
  | .headWordGap after head => Sys2Proof.Machine.execHeadWordGap after head s
  | .responseTimeout after head => Sys2Proof.Machine.execResponseTimeout after head s
  | .placementGrant => Sys2Proof.Machine.execPlacementGrant s
  | .placementEnd after => Sys2Proof.Machine.execPlacementEnd after s
  | .trackingPost => Sys2Proof.Machine.execTrackingPost s
  | .recordReport => Sys2Proof.Machine.execRecordReport s
  | .recordAdmission choice => Sys2Proof.Machine.execRecordAdmission choice s
  | .admissionReport => Sys2Proof.Machine.execAdmissionReport s
  | .stepCompletion => Sys2Proof.Machine.execStepCompletion s
  | .interjectionTailEnd => Sys2Proof.Machine.execInterjectionTailEnd s
  | .faultRaise choice => Sys2Proof.Machine.execFaultRaise choice s
  | .frameReceived after bytes => Sys2Proof.Machine.execFrameReceived after bytes s
  | .linkGap after => Sys2Proof.Machine.execLinkGap after s
  | .frameSendStart => Sys2Proof.Machine.execFrameSendStart s
  | .frameSendEnd after => Sys2Proof.Machine.execFrameSendEnd after s
  | .idnt => Sys2Proof.Machine.execIdnt s
  | .stat => Sys2Proof.Machine.execStat s
  | .setpEncoder => Sys2Proof.Machine.execSetpEncoder s
  | .setpHead => Sys2Proof.Machine.execSetpHead s
  | .setpTrack => Sys2Proof.Machine.execSetpTrack s
  | .setpPlan => Sys2Proof.Machine.execSetpPlan s
  | .getp => Sys2Proof.Machine.execGetp s
  | .cntr => Sys2Proof.Machine.execCntr s
  | .runp => Sys2Proof.Machine.execRunp s
  | .stop => Sys2Proof.Machine.execStop s
  | .cont => Sys2Proof.Machine.execCont s
  | .intj => Sys2Proof.Machine.execIntj s
  | .fclr => Sys2Proof.Machine.execFclr s
  | .grnt => Sys2Proof.Machine.execGrnt s
  | .btld => Sys2Proof.Machine.execBtld s
  | .btrd => Sys2Proof.Machine.execBtrd s
  | .btmk => Sys2Proof.Machine.execBtmk s
  | .mpld => Sys2Proof.Machine.execMpld s
  | .mprd => Sys2Proof.Machine.execMprd s
  | .mpcl => Sys2Proof.Machine.execMpcl s
  | .stpw => Sys2Proof.Machine.execStpw s
  | .stpr => Sys2Proof.Machine.execStpr s
  | .axas => Sys2Proof.Machine.execAxas s
  | .axwr => Sys2Proof.Machine.execAxwr s
  | .rset => Sys2Proof.Machine.execRset s
  | .unknown => Sys2Proof.Machine.execUnknown s
  | .auxLineChange after line high order => Sys2Proof.Machine.execAuxLineChange after line high order s
  | .auxPulseEnd after output => Sys2Proof.Machine.execAuxPulseEnd after output s
  | .powerOn => Sys2Proof.Machine.execPowerOn s
  | .resetLine => Sys2Proof.Machine.execResetLine s
  | .resetRelease => Sys2Proof.Machine.execResetRelease s

end Sys2Proof.Machine
end

