-- ==== Sys2Proof/Machine/Step.lean ====
section
/-! DEFINITION. One step: the command at the front of the queue, or, with no command waiting, one tick. -/

namespace Sys2Proof.Machine

/-- The commands that wait become `q`. -/
def withPending (q : List Instr) (s : State) : State := { s with pending := q }

/-- With no command waiting the controller idles: one tick of the tick counter passes, unless the reset line holds
every block at its values (R16, R179, log entry 1). -/
def idle (s : State) : State := if s.resetHeld then s else elapse 1 s

/-- One step: the command at the front of the queue is executed with the rest of the queue waiting. -/
def step (s : State) : Host.Outcome State Fault Refusal :=
  match s.pending with
  | [] => .next (idle s)
  | c :: rest => exec c (withPending rest s)

/-- The state with the command that the word spells at the front of its queue, and unchanged where it spells none. -/
def State.withFetchWord (s : State) (nbits w : Nat) : State :=
  match decodeTableWord nbits w with
  | none => s
  | some c => withPending (c :: s.pending) s

end Sys2Proof.Machine
end

