-- ==== Sys2Proof/Safety.lean ====
section
/-! DEFINITION. The terms in which statements about the controller speak: the invariants of its state, and a host
command that stands ready to be executed. -/

namespace Sys2Proof.Machine

/-! ## Invariants -/

/-- The bounds the manual gives to what the blocks hold: the table count (R1, section 1.8), the net count (R8), the
edge-time ring (R11), the outstanding-trigger lists (R25), a word in assembly (R26), the sample queues (R30), the
points of an open record (R82), the data-frame slots (R153), the credits (R160), the command queue (R167) and the
notice queue (R178). -/
def WithinBounds (s : State) : Prop :=
  (4096 ≤ s.eu.params.counts ∧ s.eu.params.counts ≤ 1048576 ∧ s.eu.count < s.eu.params.counts) ∧
  (-2147483648 ≤ s.eu.netRevs ∧ s.eu.netRevs ≤ 2147483647) ∧
  s.eu.ring.length ≤ 65 ∧
  (∀ h : Head, (s.hp.get h).outstanding.length ≤ 16 ∧ (s.hp.get h).queue.length ≤ 256 ∧
    (s.hp.get h).partialWord.length ≤ 6) ∧
  (∀ h : Head, ∀ r, (s.pe.detectors.get h).record = some r → r.points.length ≤ 1024) ∧
  s.rs.frames.length ≤ 512 ∧ s.rs.credits ≤ 4095 ∧ s.lp.queue.length ≤ 4 ∧ s.lp.notices.length ≤ 32

/-- The plan is acquiring or in its tail, the two states in which triggers are outstanding (R21, R25). -/
def takingSamples (p : PlanState) : Prop := p = .acquiring ∨ p = .tail

/-- The plan is at rest: it holds no active step (R109, R147). -/
def atRest (p : PlanState) : Prop := p = .idle ∨ p = .faulted

/-- How the plan, the latch, the interjection and the trigger lists stand together. FAULTED needs a latched record,
and a record latched outside FAULTED waits for a step end, which IDLE and HALTED do not have (R144, R146); an active
step stands exactly outside IDLE and FAULTED, and its slot and that of the saved context hold a step (R109, R131);
the saved context stands exactly while the interjected step runs, and a request waits only in ACQUIRING and TAIL
(R129, R131 to R133); outside ACQUIRING and TAIL no trigger is outstanding (R25), and outside TAIL no head has a tail
(R31). -/
def PlanCoherent (s : State) : Prop :=
  (s.spe.state = .faulted → s.spe.latch.isSome) ∧
  (∀ r, s.spe.latch = some r → s.spe.state ≠ .faulted →
    r.policy = .haltAtStepEnd ∧ r.taken = false ∧ s.spe.state ≠ .idle ∧ s.spe.state ≠ .halted) ∧
  (s.spe.active = none ↔ atRest s.spe.state) ∧
  (∀ a, s.spe.active = some a → (s.spe.slots[a.slot]).isSome) ∧
  (∀ c, s.spe.context = some c → (s.spe.slots[c.slot]).isSome) ∧
  (s.spe.context.isSome ↔ s.spe.interjection = .running) ∧
  (∀ slot, s.spe.interjection = .pending slot → takingSamples s.spe.state) ∧
  (atRest s.spe.state → s.spe.interjection = .none) ∧
  (¬ takingSamples s.spe.state → ∀ h : Head, (s.hp.get h).outstanding = []) ∧
  (s.spe.state ≠ .tail → ∀ h : Head, (s.tu.heads.get h).tail = .none)

/-- Two neighbouring entries' windows, at the offsets that `o` gives, do not overlap: the first ends where the second
starts or before, in angle counted on without wrapping. -/
def apart (o : BladeEntry → Int) (turn : Int) (a b : BladeEntry) : Prop :=
  beginsAt 0 a (o a) + a.width ≤ beginsAt turn b (o b)

/-- The windows of the entries do not overlap, each with the next and the last with the first a revolution on
(R58, R66). -/
def Separated (o : BladeEntry → Int) (es : List BladeEntry) : Prop :=
  es.IsChain (apart o 0) ∧ ∀ a z, es.head? = some a → es.getLast? = some z → apart o 1 z a

/-- At most one window of the set holds any angle (R53). -/
def AtMostOne (ws : List Window) : Prop :=
  ∀ (a : Angle) (i j : Nat) (v w : Window), ws[i]? = some v → ws[j]? = some w →
    inSpan 0 v a = true → inSpan 0 w a = true → i = j

/-- The blade table: nominal windows and tracked windows do not overlap (R58, R66, R71), the current set is what the
entries give (R57), and the previous set too holds no angle twice (R53). -/
def WindowsApart (s : State) : Prop :=
  Separated (fun _ => 0) s.bt.entries ∧ Separated (fun e => e.offset) s.bt.entries ∧
  s.bt.current = s.bt.entries.map windowOf ∧ AtMostOne s.bt.previous

/-! ## Host commands -/

/-- A command with the keyword `k` is the next to execute: the controller is not held in reset, the reply slot is
empty, no RSET awaits its reset, and the command stands at the front of the queue (R167). -/
def Offered (k : Keyword) (tag : Byte) (args : List Byte) (rest : List HostCommand) (s : State) : Prop :=
  s.resetHeld = false ∧ s.lp.reply = none ∧ s.lp.resetMark = false ∧
  s.lp.queue = ⟨tag, keywordBytes k ++ args⟩ :: rest

/-- The state `t` with the reply in the reply slot and the commands `rest` waiting. -/
def replied (k : Keyword) (tag : Byte) (st : Status) (data : List Byte) (rest : List HostCommand) (t : State) : State :=
  { t with lp := { t.lp with queue := rest, reply := some ⟨tag, keywordBytes k, st, data⟩ } }

/-! ## Steps as they are stored (R107, R108) -/

/-- The spacing of a trigger mode is in its range (R107). -/
def modeInRange : TriggerMode → Prop
  | .angle m => 1 ≤ m ∧ m ≤ 65535
  | .time t => 2000 ≤ t ∧ t ≤ 1000000

/-- Every field of a step is in its range and the step passes the tests of R108. -/
def StepStored (p : ScanStep) : Prop :=
  modeInRange p.mode ∧ p.radius ≤ 8000000 ∧ p.tolerance ≤ 65535 ∧ p.settle ≤ 10000 ∧ p.passes ≤ 255 ∧
  p.guard ≤ 1048576 ∧ p.first ≤ 127 ∧ p.last ≤ 127 ∧ p.decimation ≤ 7 ∧ 1 ≤ p.kOn ∧ p.kOn ≤ 15 ∧ 1 ≤ p.kOff ∧
  p.kOff ≤ 15 ∧ p.threshold ≤ 4095 ∧ stepFormOk p = true

/-- Every step that a slot or the active-step copy holds is as STPW stores steps (R107, R108, R114). -/
def StepsStored (s : State) : Prop :=
  (∀ (i : Fin 64) (p : ScanStep), s.spe.slots[i] = some p → StepStored p) ∧
  ∀ a, s.spe.active = some a → StepStored a.step

/-! ## Detectors -/

/-- A height is in its range (R52). -/
def heightInRange (z : Int) : Prop := -8388608 ≤ z ∧ z ≤ 8388607

/-- The points that an open record holds or may still take, in arrival order: its points, the last present sample,
and the candidates (R81 to R83). -/
def pointsInHand (d : Detector) (r : OpenRecord) : List Point :=
  r.points ++ d.lastPresent.toList.map (·.point) ++ d.candidates.map (·.point)

/-- A detector without a record is OUTSIDE with nothing counted, and one outside SEEKING has no candidates (R73); the
points in hand of one that holds a record stand in non-decreasing order of offset, none beyond the previous offset,
which lies inside the record's window, and every height is in range (R52, R80, R82). -/
def DetectorSound (d : Detector) : Prop :=
  (d.record = none → d.state = .outside ∧ d.presentRun = 0 ∧ d.candidates = [] ∧ d.absentRun = 0 ∧
    d.lastPresent = none) ∧
  (d.state ≠ .seeking → d.candidates = []) ∧
  ∀ r, d.record = some r → d.prevOffset < r.width ∧ ((pointsInHand d r).map (·.u)).Pairwise (· ≤ ·) ∧
    ∀ p ∈ pointsInHand d r, p.u ≤ d.prevOffset ∧ heightInRange p.z

/-- Every head's detector is sound. -/
def DetectorsSound (s : State) : Prop := ∀ h : Head, DetectorSound (s.pe.detectors.get h)

/-! ## Conditions on the state -/

/-- The command is no full reset in this state: not one of the three of R179, and not the end of a sending after which
an RSET's reset may take place (R177). -/
def notReset (c : Instr) (s : State) : Prop :=
  match c with
  | .powerOn => False
  | .resetLine => False
  | .resetRelease => False
  | .frameSendEnd _ => s.lp.resetMark = false
  | _ => True

/-- A level function is assigned to no line, or one of its lines is active: the outside's level differs from the level
at which the line's polarity makes it inactive (R21, R115, R182). -/
def lineConditionMet (f : AuxFunction) (s : State) : Prop :=
  (∀ i : Fin 8, s.ax.lines[i].function ≠ f) ∨
  ∃ i : Fin 8, s.ax.lines[i].function = f ∧ s.ax.lines[i].outside ≠ s.ax.lines[i].activeLow

/-- The settle condition of R115 holds for the step. -/
def settleConditionMet (p : ScanStep) (s : State) : Prop :=
  s.eu.referenced = true ∧ ((radius s : Int) - p.radius).natAbs ≤ p.tolerance ∧ lineConditionMet .inposIn s

/-- Some enabled blade of the current generation has the angle in its guarded span (R23). -/
def inGuardedSpan (p : ScanStep) (a : Angle) (s : State) : Prop :=
  ∃ (i : Nat) (w : Window), s.bt.current[i]? = some w ∧ p.first ≤ i ∧ i ≤ p.last ∧ w.excluded = false ∧
    (a - w.start + BitVec.ofNat 24 p.guard).toNat < w.width + 2 * p.guard

/-- A forward edge at this state is a forward zero crossing (R7). -/
def edgeCrosses (s : State) : Prop := s.eu.referenced = true ∧ (s.eu.count + 1) % s.eu.params.counts = 0

/-- What a due instant in ACQUIRING does for head `h` by the five checks: the head is passed over, skipped as TOO_FAST
or OVERRUN with the flag on its open record, or triggered with the entry of R24 (R21, R22, R24). The instant falls in
the state `u` and leaves `t`. -/
def headJudged (a : ActiveStep) (h : Head) (u t : State) : Prop :=
  let x := u.tu.heads.get h
  let p := u.hp.get h
  let d := u.pe.detectors.get h
  let k := p.counters
  let angle := BitVec.ofNat 24 (u.eu.count * 16777216 / u.eu.params.counts) + p.params.azimuth - u.eu.params.zeroOffset
  let due := a.step.mask.get h = true ∧ u.eu.direction = .forward ∧ lineConditionMet .gateIn u ∧
    (a.step.windowed = true → a.step.flags.learn = false → inGuardedSpan a.step angle u)
  let spaced := ∀ last ∈ x.lastTrigger, p.params.minSpacing ≤ (u.eu.tick - last).toNat
  let flagged := { d with record := d.record.map fun r => { r with flags := r.flags ||| flagMask .overrun } }
  let entry : Outstanding :=
    { seq := x.seq, trigTick := u.eu.tick, count := u.eu.count, edgeTick := u.eu.ring.getLast?.getD 0
      speed := speedEstimate u.eu, pass := u.spe.pass, gen := u.bt.gen, runId := a.runId }
  (¬ due → t.tu.heads.get h = x ∧ t.hp.get h = p ∧ t.pe.detectors.get h = d) ∧
  (due → ¬ spaced → t.tu.heads.get h = x ∧
    t.hp.get h = { p with counters := { k with tooFast := satInc k.tooFast } } ∧ t.pe.detectors.get h = flagged) ∧
  (due → spaced → 16 ≤ p.outstanding.length → t.tu.heads.get h = x ∧
    t.hp.get h = { p with counters := { k with overrun := satInc k.overrun } } ∧ t.pe.detectors.get h = flagged) ∧
  (due → spaced → p.outstanding.length < 16 →
    t.tu.heads.get h = { x with seq := x.seq + 1, lastTrigger := some u.eu.tick, pulse := some u.eu.tick } ∧
    t.hp.get h = { p with outstanding := p.outstanding ++ [entry], counters := { k with issued := satInc k.issued } } ∧
    t.pe.detectors.get h = d)

/-- The encoder unit at a forward edge at its tick: the count, the direction, the ring of at most 65 ticks and the stall
interval (R1, R2, R11, R13). -/
def edgeTaken (e : Encoder) : Encoder :=
  { e with
    count := (e.count + 1) % e.params.counts, direction := .forward, stallStart := e.tick, stallRaised := false
    ring := (if e.ring.length < 65 then e.ring else e.ring.drop 1) ++ [e.tick] }

/-- The encoder unit at a forward zero crossing at its tick, its net count below the limit: the net count goes up, and a
new-revolution event, which exceeds the high-water mark, moves the mark and times the revolution (R8 to R10). -/
def crossingTaken (e : Encoder) : Encoder :=
  if e.highWater < e.netRevs + 1 then
    { e with
      netRevs := e.netRevs + 1, highWater := e.netRevs + 1, lastRev := some e.tick
      revTime := match e.lastRev with
        | some before => (e.tick - before).toNat
        | none => e.revTime }
  else { e with netRevs := e.netRevs + 1 }

/-! ## Blade table (R65, R66, R68, R69) -/

/-- An offset at which a neighbour's window stands or may stand in the generation being made: the old one, and the
candidate's when it has one (R65, R66). -/
def standsAt (limit : Nat) (q : BladeEntry) (o : Int) : Prop :=
  o = q.offset ∨ ∃ p, q.pendingOffset = some p ∧ o = max (-(limit : Int)) (min limit p)

/-- The candidate of blade `i` at the offset `o` lies in the free span between its two neighbours (R66), in angle counted
on without wrapping (log entry 19). -/
def fitsFreeSpan (limit : Nat) (es : List BladeEntry) (i : Nat) (e : BladeEntry) (o : Int) : Prop :=
  let n := es.length
  n ≤ 1 ∨
  ((∀ (q : BladeEntry) (x : Int), es[(i + n - 1) % n]? = some q → standsAt limit q x →
      beginsAt (if i = 0 then -1 else 0) q x + q.width ≤ beginsAt 0 e o) ∧
   ∀ (q : BladeEntry) (x : Int), es[(i + 1) % n]? = some q → standsAt limit q x →
      beginsAt 0 e o + e.width ≤ beginsAt (if i + 1 = n then 1 else 0) q x)

/-- The BLST notice of a change of blade `i`'s state, and none without one (R69). -/
def bladeSaid (i : Nat) (gen : Id16) (cause : BladeCause) (e f : BladeEntry) : List Notice :=
  if f.state = e.state then [] else [.bladeChanged i e.id e.state f.state cause f.offset f.misses gen]

/-- The entry `e` of blade `i` becomes `f` by its pending offset, with the notices `ns` (R65, R66, log entry 26). -/
def offsetTaken (limit : Nat) (gen : Id16) (es : List BladeEntry) (i : Nat) (e f : BladeEntry) (ns : List Notice) :
    Prop :=
  (e.pendingOffset = none → f = e ∧ ns = []) ∧
  ∀ p, e.pendingOffset = some p →
    let o := max (-(limit : Int)) (min limit p)
    (fitsFreeSpan limit es i e o →
      f = { e with
        offset := o, pendingOffset := none
        state := if e.state = .excluded then .excluded else if o ≠ p then .displaced
          else if e.state = .displaced then .active else e.state } ∧
      ns = bladeSaid i gen (if o ≠ p then .saturated else .recovered) e f) ∧
    (¬ fitsFreeSpan limit es i e o →
      f = { e with pendingOffset := none, state := if e.state = .excluded then .excluded else .displaced } ∧
      ns = bladeSaid i gen .overlap e f)

/-- The entry `e` of blade `i` becomes `f` by its pending mark, with the notices `ns` (R68). -/
def markTaken (gen : Id16) (i : Nat) (e f : BladeEntry) (ns : List Notice) : Prop :=
  (e.pendingMark = none → f = e ∧ ns = []) ∧
  (e.pendingMark = some .exclude →
    f = (if e.state = .excluded then { e with pendingMark := none }
         else { e with state := .excluded, misses := 0, pendingMark := none }) ∧
    ns = bladeSaid i gen .excluded e f) ∧
  (e.pendingMark = some .include →
    f = (if e.state = .excluded then { e with state := .active, misses := 0, pendingMark := none }
         else { e with pendingMark := none }) ∧
    ns = bladeSaid i gen .included e f)

/-! ## Head words (13.2) -/

/-- The seven bytes of a head word, the two spare bits as given. -/
def headWordBytes (w : HeadWord) (spare : BitVec 2) : List Byte :=
  let six := natBytes 6 (w.seq.toNat * 2 ^ 36 + headCodeNum w.answer.code * 2 ^ 34 + spare.toNat * 2 ^ 32 +
    w.answer.intensity.toNat * 2 ^ 20 + w.answer.distance.toNat)
  six ++ [six.foldl (fun x b => x ^^^ b) 0x5A]

/-- Bytes as they arrive on a line without framing errors. -/
def cleanly (bs : List Byte) : List LineByte := bs.map fun b => ⟨b, false⟩

/-! ## Samples at the edge detectors -/

/-- The correction in force at the rotor angle: interpolated between two bins, and scaled by the radius where the step
scales it (R49 to R51). -/
def correctionInForce (p : ScanStep) (s : State) (a : Angle) : Int :=
  let k : Fin 256 := Fin.ofNat 256 (a.toNat / 65536)
  let w := s.rm.bins[k] + ((s.rm.bins[k + 1] - s.rm.bins[k]) * (a.toNat % 65536 : Nat) + 32768) / 65536
  if s.rm.state = .empty then 0 else if p.flags.scaleMap then roundHalfAway (w * radius s) s.rm.radius else w

/-- The latency advance of a sample saturates, for which the sample carries CLAMPED (R44). -/
def advanceSaturates (latency : Nat) (e : Outstanding) : Bool :=
  match e.speed with
  | none => false
  | some 0 => decide (0 < latency)
  | some (q + 1) => decide (65535 < latency * 65536 / (q + 1))

/-- The sample `x` that is being placed for head `h` joins the head's open record `r` at the offset `u`: its window set is
kept, its number follows the last one placed, and it lies in the record's window, at most 64 au behind the previous
offset, at which it is then held (R42, R54, R75, R79, R80). Outside TAIL, where no tail end follows. -/
def joinsRecord (a : ActiveStep) (h : Head) (x : Sample) (r : OpenRecord) (u : Nat) (s : State) : Prop :=
  let d := s.pe.detectors.get h
  let v := (exposureAngle s.eu.params (s.hp.get h).params x.entry - r.start).toNat
  s.resetHeld = false ∧ s.spe.state ≠ .tail ∧ s.spe.active = some a ∧ a.step.flags.learn = false ∧
  s.pe.busy = some (h, x) ∧ (x.entry.gen = s.bt.gen ∨ x.entry.gen = s.bt.gen - 1) ∧ d.record = some r ∧
  d.lastSeq = some (x.entry.seq - 1) ∧ v < r.width ∧ d.prevOffset ≤ v + 64 ∧ u = max v d.prevOffset

/-- The placement ends, and of everything but the time and the free engine only head `h`'s detector changes. -/
def placementLeaves (after : Nat) (h : Head) (d : Detector) (s : State) : Prop :=
  exec (.placementEnd after) s =
    .next { elapse after s with pe := { s.pe with busy := none, detectors := s.pe.detectors.set h d } }

/-- The record with its exit at the last present sample, which is appended as a point when it was not kept, up to the
limit of 1,024 (R83). -/
def exitAt (l : LastPresent) (r : OpenRecord) : OpenRecord :=
  if l.kept then { r with exit := some l.point.u }
  else if r.points.length < 1024 then { r with exit := some l.point.u, points := r.points ++ [l.point] }
  else { r with exit := some l.point.u, flags := r.flags ||| flagMask .truncated }

/-- The record that detector `d` holds as its close leaves it, no teardown making the close (R86). -/
def closedForm (d : Detector) (r : OpenRecord) : OpenRecord :=
  match d.state, d.lastPresent with
  | .seeking, _ => { r with flags := r.flags ||| flagMask .missingEntry }
  | .onSurface, some l =>
    let f := exitAt l r
    if d.absentRun = 0 then { f with flags := f.flags ||| flagMask .missingExit } else f
  | _, _ => r

/-- The closed record `r` of head `h` is handed on: its report to the scan plan engine, the record to the store unless the
step discards, and its result to the blade table when the step tracks by this head (R61, R88, R91 to R93, R125). -/
def handedOn (a : ActiveStep) (h : Head) (r : OpenRecord) (s t : State) : Prop :=
  ∃ c : SectionRecord,
    t.bus = { s.bus with
      posts := s.bus.posts ++ (if a.step.flags.track ∧ a.step.trackHead = h then
        [⟨r.blade, r.entry, hasFlag .missingEntry r.flags⟩] else [])
      reports := s.bus.reports ++ [⟨r.flags, r.runId, r.blade, !a.step.flags.discard, r.stats⟩]
      handed := s.bus.handed ++ (if a.step.flags.discard then [] else [⟨c, t.eu.tick⟩]) } ∧
    (c.tag = r.tag ∧ c.runId = r.runId ∧ c.pass = r.pass ∧ c.head = h ∧ c.blade = r.blade ∧
      c.bladeId = r.bladeId ∧ c.gen = r.gen ∧ c.mapGen = r.mapGen ∧ c.radius = r.radius ∧
      c.openTick = r.openTick ∧ c.entry = r.entry ∧ c.exit = r.exit ∧ c.count = r.stats.count ∧
      c.dropouts = r.stats.dropouts ∧ c.saturated = r.stats.saturated ∧ c.multiPeak = r.stats.multiPeak ∧
      c.pointCount = r.points.length ∧ c.withheld = a.step.flags.headerOnly ∧ c.flags = r.flags) ∧
    (r.stats.count = 0 → c.heights = none) ∧
    (∀ lo hi : Int, r.stats.count ≠ 0 → r.stats.range = some (lo, hi) →
      c.heights = some ⟨lo, hi, roundHalfAway r.stats.sum r.stats.count⟩) ∧
    (c.digest = none ↔ r.points = []) ∧ (r.points ≠ [] → c.digest = some (crc32 (r.points.flatMap pointBytes))) ∧
    c.points = if a.step.flags.headerOnly then [] else r.points

/-! ## What the plan's changes leave -/

/-- The plan as every change that takes it to IDLE or FAULTED leaves it (R111). -/
def planAtRest (st : PlanState) (p : ScanPlan) : ScanPlan :=
  { p with state := st, active := none, pass := 0, passesDone := 0, counters := ⟨0, 0, 0, 0, 0⟩, settleTimer := none,
           armTimer := none, pendingDecision := none, interjection := .none, context := none }

/-- Every head's tail is NONE and no TIME-mode period runs (R20, R31). -/
def tailsStopped (tu : TriggerUnit) : TriggerUnit := ⟨tu.heads.map fun x => { x with tail := .none }, none⟩

/-- Accumulators with every sum and count 0 (R100). -/
def accumulatorsAt (radius : Option Nat) : Accumulators := ⟨Vector.replicate 256 0, Vector.replicate 256 0, radius⟩

/-- The tests of R113 let the step be armed. -/
def armableStep (p : ScanStep) (s : State) : Prop :=
  p.flags.learn = true ∨ (s.bt.entries ≠ [] ∧ (p.flags.scaleMap = true → s.rm.radius ≠ 0))

/-- What arming the step `p` of the slot leaves, with the runout map, the passes done and the counters it starts from
(R9, R73, R101, R114, R115, R138). -/
def armedWith (m : RunoutMap) (slot : Slot) (p : ScanStep) (done : Nat) (counters : StepCounters) (s t : State) : Prop :=
  let top := s.bt.entries.length - 1
  let copy := if p.flags.learn then p else { p with first := min p.first top, last := min p.last top }
  let atOnce := settleConditionMet p s ∧ p.settle = 0
  let q := t.spe
  (q.active = some ⟨slot, copy, s.spe.runId + 1⟩ ∧ q.runId = s.spe.runId + 1 ∧ q.pass = done ∧ q.passesDone = done ∧
    q.firstPass = done + 1 ∧ q.counters = counters ∧ q.armTimer = some 0 ∧ q.armLimit = s.spe.params.armTimeout ∧
    q.drift = false ∧ q.pendingDecision = none ∧ q.slots = s.spe.slots ∧ q.latch = s.spe.latch ∧
    q.params = s.spe.params ∧ q.faultCounters = s.spe.faultCounters) ∧
  (atOnce → q.state = .armed ∧ q.settleTimer = none) ∧ (¬ atOnce → q.state = .settling ∧ q.settleTimer = some 0) ∧
  (t.eu = { s.eu with highWater := s.eu.netRevs } ∧ t.tu = tailsStopped s.tu ∧ t.hp = s.hp ∧ t.bt = s.bt ∧
    t.rs = s.rs ∧ t.ax = s.ax ∧ t.bus = s.bus ∧ t.pe.busy = s.pe.busy ∧ t.pe.lastServed = s.pe.lastServed) ∧
  (∀ h : Head, let d := t.pe.detectors.get h
    d.state = .outside ∧ d.record = none ∧ d.lastSeq = none ∧ d.runIn = true ∧ d.runInWindow = none ∧
    d.recorded = Vector.replicate 128 none) ∧
  ((p.flags.learn = false ∨ ¬ atOnce) → t.rm = m) ∧
  (p.flags.learn = true → atOnce → t.rm = { m with acc := { m.acc with radius := some (radius s) } })

/-- What arming the step afresh leaves: a learning step starts with empty accumulators (R100, R114). -/
def armedAs (slot : Slot) (p : ScanStep) (done : Nat) (counters : StepCounters) (s t : State) : Prop :=
  armedWith (if p.flags.learn then { s.rm with acc := accumulatorsAt none } else s.rm) slot p done counters s t

/-- What the completion of the active step leaves of the runout map: the learn of a learning step is completed (R103 to
R105, R122 part 1). -/
def learnTaken (a : ActiveStep) (s : State) : State :=
  if a.step.flags.learn then { s with rm := (completeLearn s.rm).1 } else s

/-- The STEP_DONE notice of the active step, with the map result of a learning step (R122). -/
def stepDoneOf (a : ActiveStep) (interjected : Bool) (s : State) : Notice :=
  .stepDone a.slot a.step.tag a.runId s.spe.passesDone interjected s.spe.counters
    (if a.step.flags.learn then 0 else missingIn a.step.first a.step.last s.bt.entries)
    (if a.step.flags.learn then some (completeLearn s.rm).2 else none)

/-- The conditions on which TAIL ends (R121); the reports on their way have been taken (log entry 16). -/
def tailIsOver (s : State) : Prop :=
  s.spe.state = .tail ∧ s.pe.busy = none ∧ s.bus.handed = [] ∧ s.bus.stored = [] ∧ s.bus.reports = [] ∧
  ∀ h : Head, (s.tu.heads.get h).tail = .ended ∧ (s.hp.get h).outstanding = [] ∧ (s.hp.get h).queue = [] ∧
    (s.pe.detectors.get h).record = none

/-- The following slot of a completed step, with the skip of SKIP_IF_CLEAN (R123 part 3). -/
def followingSlot (a : ActiveStep) (s : State) (f : Option Slot) : Prop :=
  let c := s.spe.counters
  let skip := a.step.flags.skipIfClean = true ∧ 1 ≤ c.made ∧ c.clean = c.made ∧ c.headerOnly = 0 ∧ c.lost = 0
  (¬ skip → f = a.step.next) ∧
  (skip → (a.step.next = none → f = none) ∧
    ∀ n, a.step.next = some n → ∃ p : ScanStep, s.spe.slots[n] = some p ∧ f = p.next)

/-- The records held open, in ascending head order. -/
def openInOrder (s : State) : List OpenRecord := heads.filterMap fun h => (s.pe.detectors.get h).record

/-- What a run teardown leaves at every block but the scan plan engine, the link port and the raisings on their way
(R33, R87, R127). -/
def tornDown (a : ActiveStep) (s t : State) : Prop :=
  (t.eu = s.eu ∧ t.bt = s.bt ∧ t.rs = s.rs ∧ t.tu = tailsStopped s.tu ∧
    t.rm = { s.rm with acc := accumulatorsAt none, saved := none } ∧ t.ax = { s.ax with strobeWindow := none } ∧
    t.pe.busy = none ∧ t.pe.lastServed = s.pe.lastServed) ∧
  (∀ h : Head, t.hp.get h = { s.hp.get h with outstanding := [], queue := [] } ∧
    (t.pe.detectors.get h).state = .outside ∧ (t.pe.detectors.get h).record = none ∧
    (t.pe.detectors.get h).lastSeq = (s.pe.detectors.get h).lastSeq ∧
    (t.pe.detectors.get h).recorded = (s.pe.detectors.get h).recorded) ∧
  t.bus.posts = s.bus.posts ∧ t.bus.stored = s.bus.stored ∧
  (∃ rs : List RecordReport, t.bus.reports = s.bus.reports ++ rs ∧
    rs.map (fun r => (r.runId, r.blade)) = (openInOrder s).map (fun r => (r.runId, r.blade)) ∧
    ∀ r ∈ rs, hasFlag .aborted r.flags = true) ∧
  (a.step.flags.discard = true → t.bus.handed = s.bus.handed) ∧
  (a.step.flags.discard = false → ∃ hs : List Handed, t.bus.handed = s.bus.handed ++ hs ∧
    hs.map (fun x => x.record.head) = heads.filter (fun h => (s.pe.detectors.get h).record.isSome) ∧
    ∀ x ∈ hs, hasFlag .aborted x.record.flags = true ∧ x.tick = s.eu.tick)

/-- What a STOP_NOW disposal leaves of the plan and the latch: FAULTED with the record latched, its halt not marked taken
(log entry 15), and the raising counted (R141, R145). -/
def stoppedNow (r : Raising) (p : ScanPlan) : ScanPlan :=
  let i := classIndex r.cls
  { planAtRest .faulted p with
    drift := false, faultCounters := p.faultCounters.set i (satInc p.faultCounters[i])
    latch := some ⟨r.cls, r.head, r.tag, r.pass, r.tick, .stopNow, false⟩ }

/-- The FALT notice of that disposal, with the number of records closed ABORTED (R145, R152). -/
def stoppedSaid (r : Raising) (s : State) : Notice :=
  .faultRaised r.cls r.head r.tag r.pass r.tick .latchedStop .faulted s.spe.secondary (openInOrder s).length

/-- What a halt taken leaves (R102, R105, R147): the plan FAULTED, the halt marked taken, and no accumulators. -/
def haltTaken (r : FaultRecord) (s : State) : State :=
  { s with
    tu := tailsStopped s.tu, rm := { s.rm with acc := accumulatorsAt none, saved := none }
    spe := { planAtRest .faulted s.spe with latch := some { r with taken := true } } }

/-- A raising of the class, made in this state: the tag of the active-step copy and the pass, or 0 and 0 while there is
no active step, and the tick (R141). -/
def raisingOf (cls : FaultClass) (head : Option Head) (s : State) : Raising :=
  { cls := cls, head := head, tag := s.spe.active.elim 0 (·.step.tag), pass := s.spe.active.elim 0 fun _ => s.spe.pass
    tick := s.eu.tick }

end Sys2Proof.Machine
end

