-- ==== Sys2Proof/Certificates/Slice0/Obligations.lean ====
section
/-! DEFINITION. The statements about the controller, in the words of the manual's rules. -/

open Sys2Proof Sys2Proof.Machine

/-! ## The queue, reset and the whole machine -/

/-- A step runs the command at the front of the queue, on the state whose queue is the rest. With an empty queue
the model chooses (log entry 1) that one tick of the counter of R16 passes, and none while the reset line is
asserted (R179). -/
def Obligations.StepRunsFrontCommand : Prop :=
  (∀ (s : State) (c : Instr) (rest : List Instr), s.pending = c :: rest → step s = exec c { s with pending := rest }) ∧
  ∀ s : State, s.pending = [] →
    (s.resetHeld = false → step s = .next { s with eu := { s.eu with tick := s.eu.tick + 1 } }) ∧
    (s.resetHeld = true → step s = .next s)

/-- Every command, well formed or not, completes in every state, and leaves the queue of waiting commands alone. -/
def Obligations.EveryCommandCompletes : Prop :=
  ∀ (c : Instr) (s : State), ∃ t : State, exec c s = .next t ∧ t.pending = s.pending

/-- While the reset line is asserted every block holds its values (R179): of the commands that are not resets,
only a change of a line's outside level changes anything, and that only the level (log entry 10). -/
def Obligations.HeldWhileResetAsserted : Prop :=
  ∀ (c : Instr) (s : State), s.resetHeld = true → c ≠ .powerOn → c ≠ .resetLine → c ≠ .resetRelease →
    exec c s = .next (match c with
      | .auxLineChange _ i high _ =>
        { s with ax := { s.ax with lines := s.ax.lines.set i { s.ax.lines[i] with outside := high } } }
      | _ => s)

/-- What POWER_ON, RESET_LINE and RESET_RELEASE leave: every block at its reset values, the outside's levels on
the lines kept (log entry 10), and the reset line as each leaves it; a release of a line that is not asserted
changes nothing (R179, log entry 27). And the values that the rules give those reset values, block by block, with the
defaults of the four parameter groups (section 1.8, 2.7, 4.8, 7.8, R142). -/
def Obligations.ResetsLeaveResetValues : Prop :=
  (∀ s : State, ∃ t : State,
     (t.eu = State.reset.eu ∧ t.tu = State.reset.tu ∧ t.hp = State.reset.hp ∧ t.pe = State.reset.pe ∧
       t.bt = State.reset.bt ∧ t.rm = State.reset.rm ∧ t.spe = State.reset.spe ∧ t.rs = State.reset.rs ∧
       t.lp = State.reset.lp ∧ t.bus = State.reset.bus) ∧
     (∀ i : Fin 8, t.ax.lines[i] = ⟨.generalIn, false, s.ax.lines[i].outside⟩ ∧ t.ax.general[i] = false) ∧
     t.ax.passEnd = none ∧ t.ax.strobe = none ∧ t.ax.strobeWindow = none ∧ t.resetHeld = s.resetHeld ∧
     t.freeCount = s.freeCount ∧ t.pending = s.pending ∧
     exec .powerOn s = .next t ∧ exec .resetLine s = .next { t with resetHeld := true } ∧
     exec .resetRelease s = .next (if s.resetHeld then { t with resetHeld := false } else s)) ∧
  let s := State.reset
  (s.eu.count = 0 ∧ s.eu.referenced = false ∧ s.eu.direction = .forward ∧ s.eu.netRevs = 0 ∧ s.eu.highWater = 0 ∧
    s.eu.lastRev = none ∧ s.eu.revTime = 0 ∧ s.eu.ring = [] ∧ s.eu.radial = 0 ∧ s.eu.quadErrors = 0 ∧
    s.eu.radialErrors = 0 ∧ s.eu.tick = 0) ∧
  (∀ h : Head, (s.tu.heads.get h).seq = 0 ∧ (s.tu.heads.get h).lastTrigger = none ∧
    (s.tu.heads.get h).pulse = none ∧ (s.tu.heads.get h).tail = .none ∧ (s.hp.get h).outstanding = [] ∧
    (s.hp.get h).queue = [] ∧ (s.hp.get h).counters = ⟨0, 0, 0, 0, 0, 0, 0, 0⟩ ∧
    (s.pe.detectors.get h).state = .outside ∧ (s.pe.detectors.get h).record = none ∧
    (s.pe.detectors.get h).lastSeq = none ∧ (s.pe.detectors.get h).runIn = false) ∧
  s.pe.busy = none ∧ s.pe.lastServed = .h3 ∧
  (s.bt.entries = [] ∧ s.bt.current = [] ∧ s.bt.previous = [] ∧ s.bt.gen = 0 ∧ previousGen s.bt = 65535) ∧
  (s.rm.state = .empty ∧ s.rm.radius = 0 ∧ s.rm.gen = 0 ∧ (∀ k : Fin 256, s.rm.bins[k] = 0) ∧ s.rm.saved = none) ∧
  (s.spe.state = .idle ∧ s.spe.active = none ∧ s.spe.runId = 0 ∧ s.spe.pass = 0 ∧ s.spe.passesDone = 0 ∧
    s.spe.settleTimer = none ∧ s.spe.armTimer = none ∧ s.spe.drift = false ∧ s.spe.pendingDecision = none ∧
    s.spe.interjection = .none ∧ s.spe.context = none ∧ s.spe.latch = none ∧ s.spe.secondary = 0 ∧
    (∀ i : Fin 64, s.spe.slots[i] = none) ∧ ∀ i : Fin 8, s.spe.faultCounters[i] = 0) ∧
  (s.rs.frames = [] ∧ s.rs.recordNumber = 0 ∧ s.rs.credits = 0 ∧ s.rs.starved = false ∧
    s.rs.counters = ⟨0, 0, 0, 0, 0⟩) ∧
  (s.lp.receiving = none ∧ s.lp.queue = [] ∧ s.lp.overload = [] ∧ s.lp.reply = none ∧ s.lp.notices = [] ∧
    s.lp.resetMark = false ∧ s.lp.sending = none ∧ s.lp.counters = ⟨0, 0, 0, 0, 0, 0, 0⟩) ∧
  (∀ i : Fin 8, s.ax.lines[i].function = .generalIn ∧ s.ax.lines[i].activeLow = false ∧ s.ax.general[i] = false) ∧
  s.eu.params = { counts := 262144, indexCorrection := true, indexTolerance := 2, zeroOffset := 0, radialOffset := 0
                  radialMinus := false } ∧
  (∀ h : Head, (s.hp.get h).params =
    { facing := .down, reference := 0, latency := 0, azimuth := 0, minSpacing := 2000, timeout := 100000
      policy := .mark, priority := 0 }) ∧
  s.bt.params = { limit := 65536, guard := 32768, kMiss := 3 } ∧
  s.spe.params.armTimeout = 10000 ∧ s.spe.params.interjectSlot.val = 0 ∧
  s.spe.params.policies.toList =
    [.stopNow, .stopNow, .stopNow, .haltAtStepEnd, .stopNow, .report, .report, .stopNow]

/-- The five invariants hold after a full reset. -/
def Obligations.ResetMeetsInvariants : Prop :=
  WithinBounds State.reset ∧ PlanCoherent State.reset ∧ WindowsApart State.reset ∧ DetectorsSound State.reset ∧
  StepsStored State.reset

/-- Every step keeps the bounds that the manual gives to counts, lists and queues. -/
def Obligations.StepKeepsBounds : Prop :=
  ∀ s t : State, WithinBounds s → step s = .next t → WithinBounds t

/-- Every step keeps the plan, the latch, the interjection and the trigger lists coherent. -/
def Obligations.StepKeepsPlanCoherent : Prop :=
  ∀ s t : State, PlanCoherent s → step s = .next t → PlanCoherent t

/-- Every step keeps the windows of the blade table apart (R57, R58, R66, R71), so that an angle lies in at most
one window of the current set and of the previous one (R53). -/
def Obligations.StepKeepsWindowsApart : Prop :=
  ∀ s t : State, WindowsApart s → step s = .next t →
    WindowsApart t ∧ AtMostOne t.bt.current ∧ AtMostOne t.bt.previous

/-- Every step keeps the edge detectors sound: a detector without a record is OUTSIDE and empty (R73), and the
points of an open record stand in order of offset inside its window, at heights in range (R52, R80, R82). -/
def Obligations.StepKeepsDetectorsSound : Prop :=
  ∀ s t : State, DetectorsSound s → step s = .next t → DetectorsSound t

/-- Every step keeps the stored steps and the active-step copy within the ranges of R107 and the tests of R108. -/
def Obligations.StepKeepsStepsStored : Prop :=
  ∀ s t : State, StepsStored s → step s = .next t → StepsStored t

/-- Whatever command fills the empty reply slot: the reply carries the tag and keyword of the command at the front
of the queue, and a reply of any status but OK and CLAMPED carries no data and leaves everything else as it was
(R169). And the lengths: a command whose arguments have another length than its own is refused with BAD_LENGTH, which
for BTLD and BTMK is the length that their count calls for (R58, R67, R165, R169, R176). -/
def Obligations.RefusedCommandChangesNothing : Prop :=
  (∀ (c : Instr) (s t : State) (r : Reply), exec c s = .next t → s.lp.reply = none → t.lp.reply = some r →
     ∃ (hc : HostCommand) (rest : List HostCommand), s.lp.queue = hc :: rest ∧ r.tag = hc.tag ∧
       r.keyword = hc.body.take 4 ∧
       (r.status ≠ .ok → r.status ≠ .clamped →
         r.data = [] ∧ t = { s with lp := { s.lp with queue := rest, reply := some r } })) ∧
  ∀ (s : State) (tag : Byte) (args : List Byte) (rest : List HostCommand),
    (∀ (c : Instr) (k : Keyword) (n : Nat),
      (c, k, n) ∈ [(.idnt, .idnt, 1), (.stat, .stat, 1), (.getp, .getp, 2), (.cntr, .cntr, 3), (.runp, .runp, 1),
        (.stop, .stop, 1), (.cont, .cont, 1), (.intj, .intj, 1), (.fclr, .fclr, 1), (.grnt, .grnt, 2),
        (.btrd, .btrd, 2), (.mpld, .mpld, 516), (.mprd, .mprd, 1), (.mpcl, .mpcl, 1), (.stpw, .stpw, 33),
        (.stpr, .stpr, 1), (.axas, .axas, 3), (.axwr, .axwr, 2), (.rset, .rset, 1)] →
      Offered k tag args rest s → args.length ≠ n → exec c s = .next (replied k tag .badLength [] rest s)) ∧
    ((args = [] ∨ args.length ≠ 1 + 9 * natAt args 0 1) → Offered .btld tag args rest s →
      exec .btld s = .next (replied .btld tag .badLength [] rest s)) ∧
    ((args = [] ∨ args.length ≠ 1 + 2 * natAt args 0 1) → Offered .btmk tag args rest s →
      exec .btmk s = .next (replied .btmk tag .badLength [] rest s))

/-- Outside IDLE no command but a reset changes the ENCODER group, a HEAD group, the tracking limit, or the ID,
nominal start and width of a blade, and the slot of the active step keeps its contents (R17, R35, R58, R70, R109). -/
def Obligations.LockedOutsideIdle : Prop :=
  ∀ (c : Instr) (s t : State), notReset c s → s.spe.state ≠ .idle → exec c s = .next t →
    t.eu.params = s.eu.params ∧ (∀ h : Head, (t.hp.get h).params = (s.hp.get h).params) ∧
    t.bt.params.limit = s.bt.params.limit ∧
    t.bt.entries.map (fun e => (e.id, e.nominal, e.width)) = s.bt.entries.map (fun e => (e.id, e.nominal, e.width)) ∧
    ∀ a, s.spe.active = some a → t.spe.slots[a.slot] = s.spe.slots[a.slot]

/-- A latched record stays until an FCLR or a full reset: no other command changes it but to mark its halt taken,
and none lowers the secondary-fault count (R144, R148, R150). -/
def Obligations.LatchedRecordStays : Prop :=
  ∀ (c : Instr) (s t : State) (r : FaultRecord), notReset c s → c ≠ .fclr → s.spe.latch = some r →
    exec c s = .next t →
    (t.spe.latch = some r ∨ t.spe.latch = some { r with taken := true }) ∧ s.spe.secondary ≤ t.spe.secondary

/-! ## What is sent is read back -/

/-- A command frame laid out by R165 and R187 is received as the command it carries: it joins the queue when fewer than
4 wait and no RSET awaits its reset, and is owed an OVERLOAD answer otherwise (R166 to R168, R177); the list of owed
answers has no bound here (log entry 18). -/
def Obligations.CommandFrameIsReceived : Prop :=
  ∀ (s : State) (after : Nat) (tag : Byte) (body : List Byte), s.resetHeld = false → s.lp.receiving = none →
    5 ≤ body.length → body.length ≤ 2048 →
    exec (.frameReceived after (cleanly (frameBytes 0x01 tag body))) s =
      let k := { s.lp.counters with commands := satInc s.lp.counters.commands }
      let l := { s.lp with lastByte := s.eu.tick + BitVec.ofNat 32 after, counters := k }
      .next { elapse after s with
        lp := if s.lp.queue.length < 4 ∧ s.lp.resetMark = false then { l with queue := s.lp.queue ++ [⟨tag, body⟩] }
              else { l with counters := { k with overloads := satInc s.lp.counters.overloads }
                            overload := s.lp.overload ++ [⟨tag, body.take 4⟩] } }

/-- A frame whose body length is in range is judged at its last byte: a framing error or a check that does not
agree, another kind than COMMAND, or a command; one whose length is out of range ends at its length bytes; and an
incomplete one is held until a gap of more than 100,000 ticks discards it (R166). -/
def Obligations.FrameIsJudged : Prop :=
  (∀ (s : State) (after : Nat) (frame : List LineByte), s.resetHeld = false → s.lp.receiving = none →
     let bs := frame.map (·.byte)
     let len := natAt bs 0 2
     let l := { s.lp with lastByte := s.eu.tick + BitVec.ofNat 32 after }
     let bad := (∃ b ∈ frame, b.framingError = true) ∨ natAt bs (len + 4) 2 ≠ (crc16 (bs.take (len + 4))).toNat
     let answers (x : LinkPort) :=
       exec (.frameReceived after (⟨0xA5, false⟩ :: frame)) s = .next { elapse after s with lp := x }
     (frame.length = 2 → (len < 5 ∨ 2048 < len) →
       answers { l with counters := { s.lp.counters with lengthDiscards := satInc s.lp.counters.lengthDiscards } }) ∧
     (5 ≤ len → len ≤ 2048 → frame.length = len + 6 → bad →
       answers { l with counters := { s.lp.counters with checkDiscards := satInc s.lp.counters.checkDiscards } }) ∧
     (5 ≤ len → len ≤ 2048 → frame.length = len + 6 → ¬ bad → bytesAt bs 2 1 ≠ [0x01] →
       answers { l with counters := { s.lp.counters with kindDiscards := satInc s.lp.counters.kindDiscards } }) ∧
     (5 ≤ len → len ≤ 2048 → 2 ≤ frame.length → frame.length < len + 6 → answers { l with receiving := some frame })) ∧
  ∀ (s : State) (after : Nat), s.resetHeld = false →
    let t := elapse after s
    (s.lp.receiving ≠ none → 100000 < (t.eu.tick - s.lp.lastByte).toNat →
      exec (.linkGap after) s = .next { t with
        lp := { s.lp with receiving := none
                          counters := { s.lp.counters with gapDiscards := satInc s.lp.counters.gapDiscards } } }) ∧
    ((s.lp.receiving = none ∨ (t.eu.tick - s.lp.lastByte).toNat ≤ 100000) →
      exec (.linkGap after) s = .next t)

/-- The 32 bytes of a stored step are read back as that step, with nothing clamped; and whatever bytes an STPW carries,
a step that is read from them is within the ranges of R107 and passes the tests of R108. No step is read, for the answer
INVALID, exactly where R108 says so: another trigger-mode code, a next field that is no slot and not END, an empty head
mask, R of 0, a first blade beyond the last after clamping, LEARN with more than one head, TRACK with a track head
outside the mask; and, as the model has it, for a track head above 3 (log entry 13). Each field of a step that is read
is the one its bytes give, a scalar at the nearest end of its range, and the step counts as clamped exactly when one of
them was brought there, the guard of a step that is not windowed too (R108, 13.4, log entry 14); the bits 4..7 of the
head mask (log entry 35) and the flag bit 7 are disregarded. -/
def Obligations.StoredStepsReadBack : Prop :=
  (∀ p : ScanStep, StepStored p → readStep (stepBytes p) = some ⟨p, false⟩) ∧
  ∀ bs : List Byte,
    let next := natAt bs 2 1
    let mask := natAt bs 3 1
    let code := natAt bs 13 1
    let spacing := natAt bs 14 4
    let track := natAt bs 30 1
    let flags := natAt bs 31 1
    let lo := if code = 0 then 1 else 2000
    let hi := if code = 0 then 65535 else 1000000
    (readStep bs = none ↔
      1 < code ∨ (63 < next ∧ next ≠ 255) ∨ 3 < track ∨ (∀ i < 4, mask.testBit i = false) ∨ natAt bs 12 1 = 0 ∨
      min 127 (natAt bs 24 1) < min 127 (natAt bs 23 1) ∨
      (flags.testBit 3 = true ∧ ∃ i j : Nat, i < j ∧ j < 4 ∧ mask.testBit i = true ∧ mask.testBit j = true) ∨
      (flags.testBit 4 = true ∧ mask.testBit track = false)) ∧
    ∀ w : Written ScanStep, readStep bs = some w →
      let p := w.value
      StepStored p ∧ p.tag.toNat = natAt bs 0 2 ∧ p.next.elim 255 (·.val) = next ∧
      (∀ h : Head, p.mask.get h = mask.testBit (headNum h)) ∧ p.radius = min 8000000 (natAt bs 4 4) ∧
      p.tolerance = natAt bs 8 2 ∧ p.settle = min 10000 (natAt bs 10 2) ∧ p.passes = natAt bs 12 1 ∧
      p.mode = (if code = 0 then .angle (max lo (min hi spacing)) else .time (max lo (min hi spacing))) ∧
      p.windowed = (natAt bs 18 1 != 0) ∧ p.guard = min 1048576 (natAt bs 19 4) ∧ p.first = min 127 (natAt bs 23 1) ∧
      p.last = min 127 (natAt bs 24 1) ∧ p.decimation = min 7 (natAt bs 25 1) ∧
      p.kOn = max 1 (min 15 (natAt bs 26 1)) ∧ p.kOff = max 1 (min 15 (natAt bs 27 1)) ∧
      p.threshold = min 4095 (natAt bs 28 2) ∧ headNum p.trackHead = track ∧
      p.flags = ⟨flags.testBit 0, flags.testBit 1, flags.testBit 2, flags.testBit 3, flags.testBit 4, flags.testBit 5,
        flags.testBit 6⟩ ∧
      (w.clamped = true ↔
        8000000 < natAt bs 4 4 ∨ 10000 < natAt bs 10 2 ∨ spacing < lo ∨ hi < spacing ∨ 1048576 < natAt bs 19 4 ∨
        127 < natAt bs 23 1 ∨ 127 < natAt bs 24 1 ∨ 7 < natAt bs 25 1 ∨ natAt bs 26 1 < 1 ∨ 15 < natAt bs 26 1 ∨
        natAt bs 27 1 < 1 ∨ 15 < natAt bs 27 1 ∨ 4095 < natAt bs 28 2)

/-- The seven bytes of a head word are a good word and are read as the word, whatever the spare bits (13.2, R26,
R188). -/
def Obligations.HeadWordReadBack : Prop :=
  ∀ (w : HeadWord) (spare : BitVec 2),
    wordGood (cleanly (headWordBytes w spare)) = true ∧ readWord (headWordBytes w spare) = w

/-! ## The encoder unit -/

/-- A forward table edge outside ACQUIRING and TAIL that is no zero crossing: the count, the direction, the ring
of at most 65 ticks and the stall interval, and nothing else (R1, R2, R7, R11, R13). One that is a zero crossing, while
no plan waits for it and the blade table holds nothing pending: the net count goes up besides, and a new-revolution
event, one that exceeds the high-water mark, moves the mark and times the revolution (R7 to R10, R64). And one in
ACQUIRING moves the strobe window: a pulse of BLADE_STROBE_OUT begins when head 0's predicted angle enters the plain
window of an enabled blade, nothing happens within it, and outside every one there is no strobe window; a learning step
has none (R23, R184). This is said of an edge that is no crossing, of one that is no new-revolution event, and of one
that starts the next pass with nothing pending in the blade table (R118). -/
def Obligations.ForwardEdgeCounts : Prop :=
  (∀ (s : State) (after : Nat) (order : List Taker), s.resetHeld = false → ¬ takingSamples s.spe.state →
     ¬ edgeCrosses s →
     let t := elapse after s
     exec (.tableEdge after .forward order) s = .next { t with eu := { t.eu with
       count := (s.eu.count + 1) % s.eu.params.counts, direction := .forward, stallStart := t.eu.tick
       stallRaised := false
       ring := (if s.eu.ring.length < 65 then s.eu.ring else s.eu.ring.drop 1) ++ [t.eu.tick] } }) ∧
  (∀ (s : State) (after : Nat) (order : List Taker), s.resetHeld = false → edgeCrosses s →
     ¬ takingSamples s.spe.state → s.spe.state ≠ .armed →
     (∀ e ∈ s.bt.entries, e.pendingOffset = none ∧ e.pendingMark = none) → s.eu.netRevs < 2147483647 →
     let t := elapse after s
     let now := t.eu.tick
     let e := { t.eu with
       count := 0, direction := .forward, stallStart := now, stallRaised := false
       ring := (if s.eu.ring.length < 65 then s.eu.ring else s.eu.ring.drop 1) ++ [now], netRevs := s.eu.netRevs + 1 }
     (s.eu.netRevs + 1 ≤ s.eu.highWater → exec (.tableEdge after .forward order) s = .next { t with eu := e }) ∧
     (s.eu.highWater < s.eu.netRevs + 1 →
       exec (.tableEdge after .forward order) s = .next { t with eu := { e with
         highWater := s.eu.netRevs + 1, lastRev := some now
         revTime := match s.eu.lastRev with
           | some before => (now - before).toNat
           | none => s.eu.revTime } })) ∧
  ∀ (s : State) (after : Nat) (order : List Taker) (a : ActiveStep), s.resetHeld = false →
    s.spe.state = .acquiring → s.spe.active = some a → AtMostOne s.bt.current →
    (edgeCrosses s → s.eu.netRevs < 2147483647 ∧ (s.eu.netRevs + 1 ≤ s.eu.highWater ∨
      (s.spe.pass < a.step.passes ∧ (∀ slot, s.spe.interjection ≠ .pending slot) ∧
        ∀ e ∈ s.bt.entries, e.pendingOffset = none ∧ e.pendingMark = none))) →
    let count := (s.eu.count + 1) % s.eu.params.counts
    let angle := BitVec.ofNat 24 (count * 16777216 / s.eu.params.counts) + (s.hp.get .h0).params.azimuth -
      s.eu.params.zeroOffset
    let holds (i : Nat) := ∃ w : Window, s.bt.current[i]? = some w ∧ a.step.first ≤ i ∧ i ≤ a.step.last ∧
      w.excluded = false ∧ (angle - w.start).toNat < w.width
    let e := edgeTaken (elapse after s).eu
    ∃ t : State, exec (.tableEdge after .forward order) s = .next t ∧
      (¬ edgeCrosses s → t.eu = e) ∧ (edgeCrosses s → t.eu = crossingTaken e) ∧
      (a.step.flags.learn = true → t.ax = s.ax) ∧
      (a.step.flags.learn = false →
        (∀ i, holds i → s.ax.strobeWindow = some i → t.ax = s.ax) ∧
        (∀ i, holds i → s.ax.strobeWindow ≠ some i →
          t.ax = { s.ax with strobe := some t.eu.tick, strobeWindow := some i }) ∧
        ((∀ i, ¬ holds i) → t.ax = { s.ax with strobeWindow := none }))

/-- A reverse table edge: the count, the direction, the emptied ring, the stall interval and the net count of a
reverse zero crossing; and DIRECTION is raised by the first one of a reversal in ACQUIRING or TAIL, and by no
other, and is on its way to the latch (R1, R2, R3, R7, R8, R11, R13, R141, log entry 5). -/
def Obligations.ReverseEdgeCounts : Prop :=
  ∀ (s : State) (after : Nat) (order : List Taker), s.resetHeld = false → s.eu.count < s.eu.params.counts →
    let t := elapse after s
    let raised := s.eu.direction = .forward ∧ (s.spe.state = .acquiring ∨ s.spe.state = .tail)
    exec (.tableEdge after .reverse order) s = .next { t with
      eu := { t.eu with
        count := if s.eu.count = 0 then s.eu.params.counts - 1 else s.eu.count - 1
        direction := .reverse, ring := [], stallStart := t.eu.tick, stallRaised := false
        netRevs := if s.eu.referenced = true ∧ s.eu.count = 0 ∧ -2147483648 < s.eu.netRevs then s.eu.netRevs - 1
                   else s.eu.netRevs }
      bus := { s.bus with
        raisings := s.bus.raisings ++ (if raised then [raisingOf .direction none t] else []) } }

/-- A quadrature error of the table channels or of the radial channels counts and does nothing else; and a radial
transition moves Cr by one, wrapping, and outside SETTLING and ACQUIRING nothing else (R1, R14). -/
def Obligations.TransitionsCount : Prop :=
  (∀ (s : State) (after : Nat) (order : List Taker), s.resetHeld = false →
     let t := elapse after s
     exec (.tableEdge after .both order) s =
       .next { t with eu := { t.eu with quadErrors := satInc s.eu.quadErrors } } ∧
     exec (.radialEdge after .both) s =
       .next { t with eu := { t.eu with radialErrors := satInc s.eu.radialErrors } }) ∧
  ∀ (s : State) (after : Nat), s.resetHeld = false → s.spe.state ≠ .settling → s.spe.state ≠ .acquiring →
    let t := elapse after s
    exec (.radialEdge after .forward) s = .next { t with eu := { t.eu with radial := s.eu.radial + 1 } } ∧
    exec (.radialEdge after .reverse) s = .next { t with eu := { t.eu with radial := s.eu.radial - 1 } }

/-- A new-revolution event with something pending in the blade table makes a new generation: the number goes up,
the old current set becomes the previous one, the new one is the entries' own, and nothing stays pending; every
offset is within the tracking limit when it was before (R57, R64, R65). Each entry takes its pending offset, applied,
saturated to the limit or refused by the overlap test, and then its pending mark, and each change of its state gives a
BLST notice, in ascending index order, at the new number (R65, R66, R68, R69, log entries 19 and 26). -/
def Obligations.NewRevolutionMakesGeneration : Prop :=
  ∀ (s : State) (after : Nat) (order : List Taker), s.resetHeld = false → edgeCrosses s →
    s.eu.netRevs < 2147483647 → s.eu.highWater < s.eu.netRevs + 1 →
    (∃ e ∈ s.bt.entries, e.pendingOffset ≠ none ∨ e.pendingMark ≠ none) →
    ∃ (t : State) (said : List (List Notice)), exec (.tableEdge after .forward order) s = .next t ∧
      t.bt.gen = s.bt.gen + 1 ∧ t.bt.previous = s.bt.current ∧ t.bt.current = t.bt.entries.map windowOf ∧
      t.bt.params = s.bt.params ∧
      t.bt.entries.map (fun e => (e.id, e.nominal, e.width, e.seen, e.smoothed)) =
        s.bt.entries.map (fun e => (e.id, e.nominal, e.width, e.seen, e.smoothed)) ∧
      (∀ e ∈ t.bt.entries, e.pendingOffset = none ∧ e.pendingMark = none) ∧
      ((∀ e ∈ s.bt.entries, e.offset.natAbs ≤ s.bt.params.limit) →
        ∀ e ∈ t.bt.entries, e.offset.natAbs ≤ s.bt.params.limit) ∧
      said.length = s.bt.entries.length ∧
      (∀ (i : Nat) (e : BladeEntry), s.bt.entries[i]? = some e →
        ∃ (g f : BladeEntry) (first second : List Notice), t.bt.entries[i]? = some f ∧
          said[i]? = some (first ++ second) ∧ offsetTaken s.bt.params.limit t.bt.gen s.bt.entries i e g first ∧
          markTaken t.bt.gen i g f second) ∧
      (s.lp.notices.length + said.flatten.length ≤ 32 →
        t.lp = { s.lp with notices := s.lp.notices ++ said.flatten })

/-- In ARMED a new-revolution event starts the pass after those done, with the radius in tolerance: the arm timer
stops, the stall interval starts, and a TIME-mode step's period starts (R13, R20, R116, R119). In ACQUIRING it
ends the pass: the next one starts while one is left and no interjection is pending, and otherwise the plan enters
TAIL with the pass held and a PASS_END_OUT pulse (R118, R133). -/
def Obligations.NewRevolutionsRunPasses : Prop :=
  (∀ (s : State) (after : Nat) (order : List Taker) (a : ActiveStep), s.resetHeld = false → edgeCrosses s →
     s.eu.netRevs < 2147483647 → s.eu.highWater < s.eu.netRevs + 1 → s.spe.state = .armed → s.spe.active = some a →
     ((radius s : Int) - a.step.radius).natAbs ≤ a.step.tolerance →
     ∃ t : State, exec (.tableEdge after .forward order) s = .next t ∧
       t.spe = { s.spe with state := .acquiring, pass := s.spe.passesDone + 1, armTimer := none, drift := false } ∧
       t.eu.count = 0 ∧ t.eu.netRevs = s.eu.netRevs + 1 ∧ t.eu.highWater = s.eu.netRevs + 1 ∧
       t.eu.stallStart = t.eu.tick ∧ t.eu.stallRaised = false ∧ t.rm = s.rm ∧ t.rs = s.rs ∧ t.bus = s.bus ∧
       t.tu.period = (match a.step.mode with
         | .time _ => some t.eu.tick
         | .angle _ => none)) ∧
  ∀ (s : State) (after : Nat) (order : List Taker) (a : ActiveStep), s.resetHeld = false → edgeCrosses s →
    s.eu.netRevs < 2147483647 → s.eu.highWater < s.eu.netRevs + 1 → s.spe.state = .acquiring →
    s.spe.active = some a →
    ∃ t : State, exec (.tableEdge after .forward order) s = .next t ∧ t.rm = s.rm ∧ t.rs = s.rs ∧
      t.tu.period = s.tu.period ∧ t.eu.highWater = s.eu.netRevs + 1 ∧
      if s.spe.pass < a.step.passes ∧ ∀ slot, s.spe.interjection ≠ .pending slot then
        t.spe = { s.spe with passesDone := s.spe.pass, pass := s.spe.pass + 1 } ∧ t.ax.passEnd = s.ax.passEnd
      else
        t.spe = { s.spe with passesDone := s.spe.pass, state := .tail } ∧ t.ax.passEnd = some t.eu.tick ∧
        ∀ h : Head, (t.tu.heads.get h).tail ≠ .none

/-- The entry into TAIL starts the tails: a head outside the mask or of a learning step ends at once, and so does
one whose angle at the crossing lies in the span of no enabled blade; another runs on a blade whose span holds it,
whichever blade the free value of log entry 7 takes among several (R31). Stated for the crossing of an index
correction, at which no due instant falls (R19). -/
def Obligations.TailsStartAtPassEnd : Prop :=
  ∀ (s : State) (after : Nat) (order : List Taker) (a : ActiveStep), s.resetHeld = false →
    s.eu.direction = .forward → (∀ i : Fin 8, s.ax.lines[i].function ≠ .indexIn) → s.eu.referenced = true →
    s.eu.params.indexCorrection = true → s.eu.params.counts ≤ 2 * s.eu.count → s.eu.netRevs < 2147483647 →
    s.eu.highWater < s.eu.netRevs + 1 → s.spe.state = .acquiring → s.spe.active = some a →
    a.step.passes ≤ s.spe.pass → (∀ e ∈ s.bt.entries, e.pendingOffset = none ∧ e.pendingMark = none) →
    ∃ t : State, exec (.index after order) s = .next t ∧ t.eu.count = 0 ∧
      t.spe = { s.spe with passesDone := s.spe.pass, state := .tail } ∧
      ∀ h : Head,
        (t.tu.heads.get h).seq = (s.tu.heads.get h).seq ∧
        let guard := if a.step.windowed then a.step.guard else 0
        let angle := (s.hp.get h).params.azimuth - s.eu.params.zeroOffset
        let holds (i : Nat) := ∃ w : Window, s.bt.current[i]? = some w ∧ a.step.first ≤ i ∧ i ≤ a.step.last ∧
          w.excluded = false ∧ (angle - w.start + BitVec.ofNat 24 guard).toNat < w.width + 2 * guard
        let runs := a.step.mask.get h = true ∧ a.step.flags.learn = false ∧ ∃ i, holds i
        (runs → ∃ i, holds i ∧ (t.tu.heads.get h).tail = .running i) ∧ (¬ runs → (t.tu.heads.get h).tail = .ended)

/-- An index of the dedicated connection: disregarded while INDEX_IN is assigned and while the direction is
REVERSE; in SETTLING apart, the first forward one references the encoder and sends REFD; and a later one is checked
against the tolerance, INDEX_SLIP being on its way to the latch when it slips outside IDLE, and corrects the count where
correction is ON: one of the lower half, so that it is no crossing, by its count, and one of the upper half by C − N,
its correction being a forward zero crossing, here with no plan that takes one and nothing pending in the blade table
(R4 to R10, R141, log entry 5). -/
def Obligations.IndexIsHandled : Prop :=
  ∀ (s : State) (after : Nat) (order : List Taker), s.resetHeld = false →
    let t := elapse after s
    let slipped (slips : Prop) [Decidable slips] :=
      { s.bus with raisings := s.bus.raisings ++ (if slips then [raisingOf .indexSlip none t] else []) }
    (((∃ i : Fin 8, s.ax.lines[i].function = .indexIn) ∨ s.eu.direction = .reverse) →
      exec (.index after order) s = .next t) ∧
    ((∀ i : Fin 8, s.ax.lines[i].function ≠ .indexIn) → s.eu.direction = .forward → s.eu.referenced = false →
      s.spe.state ≠ .settling → s.lp.notices.length < 32 →
      exec (.index after order) s = .next { t with
        eu := { t.eu with count := 0, referenced := true }
        lp := { s.lp with notices := s.lp.notices ++ [.referenced t.eu.tick] } }) ∧
    ((∀ i : Fin 8, s.ax.lines[i].function ≠ .indexIn) → s.eu.direction = .forward → s.eu.referenced = true →
      2 * s.eu.count < s.eu.params.counts → s.spe.state ≠ .tail →
      exec (.index after order) s = .next { t with
        eu := { t.eu with count := if s.eu.params.indexCorrection then 0 else s.eu.count }
        bus := slipped (s.eu.params.indexTolerance < s.eu.count ∧ s.spe.state ≠ .idle) }) ∧
    ((∀ i : Fin 8, s.ax.lines[i].function ≠ .indexIn) → s.eu.direction = .forward → s.eu.referenced = true →
      s.eu.params.counts ≤ 2 * s.eu.count → s.eu.count < s.eu.params.counts → s.spe.state ≠ .tail →
      let bus := slipped (s.eu.params.indexTolerance < s.eu.params.counts - s.eu.count ∧ s.spe.state ≠ .idle)
      (s.eu.params.indexCorrection = false → exec (.index after order) s = .next { t with bus := bus }) ∧
      (s.eu.params.indexCorrection = true → s.spe.state ≠ .armed → s.spe.state ≠ .acquiring →
        (∀ e ∈ s.bt.entries, e.pendingOffset = none ∧ e.pendingMark = none) → s.eu.netRevs < 2147483647 →
        exec (.index after order) s =
          .next { t with eu := crossingTaken { t.eu with count := 0 }, bus := bus }))

/-- The edge-time ring empties, and STALL is raised once for a silence in ACQUIRING, when more than 2^24 ticks have
passed; a trigger line and a pulsed output go inactive after 100 ticks; the tick of a head's last trigger is let go
when more than 1,000,000 have passed; and before that, or in another plan state for STALL, nothing happens (R11, R13,
R22, R24, R141, R183, log entries 5 and 25). -/
def Obligations.TimersExpire : Prop :=
  (∀ (s : State) (after : Nat), s.resetHeld = false →
     let t := elapse after s
     (∀ newest ∈ s.eu.ring.getLast?, 16777216 < (t.eu.tick - newest).toNat →
       exec (.ringExpiry after) s = .next { t with eu := { t.eu with ring := [] } }) ∧
     (∀ newest ∈ s.eu.ring.getLast?, (t.eu.tick - newest).toNat ≤ 16777216 → exec (.ringExpiry after) s = .next t) ∧
     (s.spe.state = .acquiring → s.eu.stallRaised = false → 16777216 < (t.eu.tick - s.eu.stallStart).toNat →
       exec (.stall after) s = .next { t with
         eu := { t.eu with stallRaised := true }
         bus := { s.bus with raisings := s.bus.raisings ++ [raisingOf .stall none t] } }) ∧
     ((s.spe.state ≠ .acquiring ∨ s.eu.stallRaised = true ∨ (t.eu.tick - s.eu.stallStart).toNat ≤ 16777216) →
       exec (.stall after) s = .next t)) ∧
  (∀ (s : State) (after : Nat) (h : Head) (begun : Tick), s.resetHeld = false →
     let t := elapse after s
     let x := s.tu.heads.get h
     let now := t.eu.tick
     (x.pulse = some begun → 100 ≤ (now - begun).toNat →
       exec (.triggerPulseEnd after h) s =
         .next { t with tu := { s.tu with heads := s.tu.heads.set h { x with pulse := none } } }) ∧
     (x.pulse = some begun → (now - begun).toNat < 100 → exec (.triggerPulseEnd after h) s = .next t) ∧
     (x.lastTrigger = some begun → 1000000 < (now - begun).toNat →
       exec (.lastTriggerExpiry after h) s =
         .next { t with tu := { s.tu with heads := s.tu.heads.set h { x with lastTrigger := none } } }) ∧
     (x.lastTrigger = some begun → (now - begun).toNat ≤ 1000000 → exec (.lastTriggerExpiry after h) s = .next t)) ∧
  ∀ (s : State) (after : Nat) (begun : Tick), s.resetHeld = false →
    let t := elapse after s
    let now := t.eu.tick
    (s.ax.passEnd = some begun → 100 ≤ (now - begun).toNat →
      exec (.auxPulseEnd after .passEnd) s = .next { t with ax := { s.ax with passEnd := none } }) ∧
    (s.ax.passEnd = some begun → (now - begun).toNat < 100 → exec (.auxPulseEnd after .passEnd) s = .next t) ∧
    (s.ax.strobe = some begun → 100 ≤ (now - begun).toNat →
      exec (.auxPulseEnd after .bladeStrobe) s = .next { t with ax := { s.ax with strobe := none } }) ∧
    (s.ax.strobe = some begun → (now - begun).toNat < 100 → exec (.auxPulseEnd after .bladeStrobe) s = .next t)

/-- At a millisecond boundary in SETTLING, short of the arm timeout: while the settle condition holds the settle timer
advances, and at the settle time the plan enters ARMED, where a learning step fixes its radius candidate; while it
fails the timer returns to 0; and the arm timer advances (R101, R115, R117, log entries 25 and 32). At the arm timeout
in ARMED the arm timer stops and ARM_TIMEOUT is raised, with no head, the step's tag and pass 0, and in a step resumed
with passes done with pass 0 or the pass held, between which log entry 11 leaves it open: under REPORT with its notice,
and under STOP_NOW with the run torn down (R117, R141, R143, R145, R152, log entries 5 and 15). In ACQUIRING a radius that a radial transition takes out of tolerance sets the drift mark
and raises RADIUS_DRIFT once, on its way to the latch; one that it takes back in clears the mark (R119, R141, log entry
5). -/
def Obligations.RadiusIsTested : Prop :=
  (∀ (s : State) (after : Nat) (a : ActiveStep) (n m : Nat), s.resetHeld = false → s.spe.state = .settling →
     s.spe.active = some a → s.spe.settleTimer = some n → s.spe.armTimer = some m →
     m + 1 < s.spe.armLimit →
     let t := elapse after s
     100000 ≤ (t.eu.tick - s.spe.msMark).toNat →
     let q := { s.spe with msMark := s.spe.msMark + 100000, armTimer := some (m + 1) }
     (settleConditionMet a.step s → a.step.settle ≤ n + 1 →
       exec (.millisecondBoundary after) s = .next { t with
         spe := { q with state := .armed, settleTimer := none }
         rm := if a.step.flags.learn then { s.rm with acc := { s.rm.acc with radius := some (radius s) } }
               else s.rm }) ∧
     (settleConditionMet a.step s → n + 1 < a.step.settle →
       exec (.millisecondBoundary after) s = .next { t with spe := { q with settleTimer := some (n + 1) } }) ∧
     (¬ settleConditionMet a.step s →
       exec (.millisecondBoundary after) s = .next { t with spe := { q with settleTimer := some 0 } })) ∧
  (∀ (s : State) (after : Nat) (a : ActiveStep) (m : Nat), s.resetHeld = false → s.spe.state = .armed →
     s.spe.active = some a → s.spe.armTimer = some m → s.spe.armLimit ≤ m + 1 → s.lp.notices.length < 32 →
     let u := elapse after s
     100000 ≤ (u.eu.tick - s.spe.msMark).toNat →
     ∃ pass : Nat, (pass = 0 ∨ pass = s.spe.pass) ∧
     let r : Raising := ⟨.armTimeout, none, a.step.tag, pass, u.eu.tick⟩
     let q := { s.spe with msMark := s.spe.msMark + 100000, armTimer := none }
     (s.spe.params.policies[4] = .report →
       exec (.millisecondBoundary after) s = .next { u with
         spe := { q with faultCounters := s.spe.faultCounters.set 4 (satInc s.spe.faultCounters[4]) }
         lp := { s.lp with notices := s.lp.notices ++ [.faultRaised .armTimeout none a.step.tag pass u.eu.tick .reported
           .armed s.spe.secondary 0] } }) ∧
     (s.spe.params.policies[4] = .stopNow → s.spe.latch = none →
       ∃ t : State, exec (.millisecondBoundary after) s = .next t ∧ tornDown a u t ∧ t.spe = stoppedNow r q ∧
         t.bus.raisings = s.bus.raisings ∧ t.lp = { s.lp with notices := s.lp.notices ++ [stoppedSaid r s] })) ∧
  ∀ (s : State) (after : Nat) (a : ActiveStep), s.resetHeld = false → s.spe.state = .acquiring →
    s.spe.active = some a →
    let t := { elapse after s with eu := { (elapse after s).eu with radial := s.eu.radial + 1 } }
    radius t ≠ radius s →
    (a.step.tolerance < ((radius t : Int) - a.step.radius).natAbs → s.spe.drift = false →
      exec (.radialEdge after .forward) s = .next { t with
        spe := { s.spe with drift := true }
        bus := { s.bus with raisings := s.bus.raisings ++
          [⟨.radiusDrift, none, a.step.tag, s.spe.pass, t.eu.tick⟩] } }) ∧
    (a.step.tolerance < ((radius t : Int) - a.step.radius).natAbs → s.spe.drift = true →
      exec (.radialEdge after .forward) s = .next t) ∧
    (((radius t : Int) - a.step.radius).natAbs ≤ a.step.tolerance →
      exec (.radialEdge after .forward) s = .next { t with spe := { s.spe with drift := false } })

/-! ## Triggers, head ports and placement -/

/-- A TIME due instant in ACQUIRING judges each head of the mask by the five checks: it is passed over, skipped as
TOO_FAST or OVERRUN with the flag on the head's open record, or triggered with the entry of R24 (R20 to R24). In
TAIL it ends the tail of a head whose predicted angle has left its tail span, whatever the direction and the gate,
and triggers nothing there; a tail that has ended stays so and triggers nothing (R32). And the ANGLE due instants: in
ACQUIRING a forward edge that leaves C at a multiple of M, here no crossing, judges each head in the same way, and one
that leaves it elsewhere triggers nothing (R19). -/
def Obligations.DueInstantJudgesHeads : Prop :=
  (∀ (s : State) (after : Nat) (a : ActiveStep) (t0 : Tick) (tp : Nat), s.resetHeld = false →
     s.spe.state = .acquiring → s.spe.active = some a → a.step.mode = .time tp → s.tu.period = some t0 →
     let u := elapse after s
     tp ≤ (u.eu.tick - t0).toNat →
     ∃ t : State, exec (.timeDueInstant after) s = .next t ∧ t.eu = u.eu ∧ t.spe = s.spe ∧ t.bt = s.bt ∧
       t.bus = s.bus ∧ t.lp = s.lp ∧ t.tu.period = some (t0 + BitVec.ofNat 32 tp) ∧
       ∀ h : Head, headJudged a h u t) ∧
  (∀ (s : State) (after : Nat) (a : ActiveStep) (t0 : Tick) (tp : Nat), s.resetHeld = false →
     s.spe.state = .tail → s.spe.active = some a → a.step.mode = .time tp → s.tu.period = some t0 →
     tp ≤ ((elapse after s).eu.tick - t0).toNat →
     ∃ t : State, exec (.timeDueInstant after) s = .next t ∧ t.spe = s.spe ∧
       ∀ h : Head, a.step.mask.get h = true →
         let guard := if a.step.windowed then a.step.guard else 0
         let angle := BitVec.ofNat 24 (s.eu.count * 16777216 / s.eu.params.counts) +
           (s.hp.get h).params.azimuth - s.eu.params.zeroOffset
         (∀ (b : Nat) (w : Window), (s.tu.heads.get h).tail = .running b → s.bt.current[b]? = some w →
           ((w.width + 2 * guard ≤ (angle - w.start + BitVec.ofNat 24 guard).toNat →
               t.tu.heads.get h = { s.tu.heads.get h with tail := .ended } ∧ t.hp.get h = s.hp.get h) ∧
            ((angle - w.start + BitVec.ofNat 24 guard).toNat < w.width + 2 * guard →
               (t.tu.heads.get h).tail = .running b))) ∧
         ((s.tu.heads.get h).tail = .ended → t.tu.heads.get h = s.tu.heads.get h ∧ t.hp.get h = s.hp.get h)) ∧
  ∀ (s : State) (after : Nat) (order : List Taker) (a : ActiveStep) (m : Nat), s.resetHeld = false →
    s.spe.state = .acquiring → s.spe.active = some a → a.step.mode = .angle m → ¬ edgeCrosses s →
    let u := { elapse after s with eu := edgeTaken (elapse after s).eu }
    ∃ t : State, exec (.tableEdge after .forward order) s = .next t ∧ t.eu = u.eu ∧ t.spe = s.spe ∧ t.bt = s.bt ∧
      t.bus = s.bus ∧ t.lp = s.lp ∧ t.tu.period = s.tu.period ∧
      (u.eu.count % m = 0 → ∀ h : Head, headJudged a h u t) ∧
      (u.eu.count % m ≠ 0 → t.tu = s.tu ∧ t.hp = s.hp ∧ t.pe = s.pe)

/-- A good word, under MARK and under the other policies: every entry ahead of its own is resolved as no-response, oldest
first, and leaves a placeholder under MARK, nothing under IGNORE, and a HEAD_SILENT of its own on its way to the latch
under FAULT; then the matched sample joins the queue, and the rest of the list stays (R27, R29, R141, log entry 5). The
queue takes them in this order while it holds fewer than 256; each further one is dropped and counted, and raises LOSS
on the record that the head holds open (R30). Outside TAIL, where no tail end follows. -/
def Obligations.WordMatchesUnderMark : Prop :=
  ∀ (s : State) (after : Nat) (h : Head) (w : HeadWord) (spare : BitVec 2) (older later : List Outstanding)
    (e : Outstanding), s.resetHeld = false → s.spe.state ≠ .tail →
    let p := s.hp.get h
    p.partialWord = [] → p.outstanding = older ++ e :: later → (∀ x ∈ older, x.seq ≠ w.seq) → e.seq = w.seq →
    let t := elapse after s
    let d := s.pe.detectors.get h
    let lossy := { d with record := d.record.map fun r => { r with flags := r.flags ||| flagMask .loss } }
    let placeholders : List Sample := if p.params.policy = .mark then older.map (fun x => ⟨x, none⟩) else []
    let arriving := placeholders ++ [⟨e, some w.answer⟩]
    let room := 256 - p.queue.length
    exec (.headWord after h (cleanly (headWordBytes w spare))) s = .next { t with
      hp := s.hp.set h { p with
        outstanding := later
        queue := p.queue ++ arriving.take room
        counters := { p.counters with
          noResponse := satInc^[older.length] p.counters.noResponse
          queueDrops := satInc^[arriving.length - room] p.counters.queueDrops }
        lastByte := t.eu.tick }
      pe := if arriving.length ≤ room then s.pe else { s.pe with detectors := s.pe.detectors.set h lossy }
      bus := { s.bus with raisings := s.bus.raisings ++
        (if p.params.policy = .fault then List.replicate older.length (raisingOf .headSilent (some h) t) else []) } }

/-- A good word that no entry carries is a stray, and seven bytes with a wrong check or a framing error are a
corrupt word: each is counted and resolves nothing; fewer than seven bytes wait as a partial word, and a gap of
more than 2,000 ticks discards them as corrupt (R26, R27, R188). -/
def Obligations.OtherWordsAreCounted : Prop :=
  (∀ (s : State) (after : Nat) (h : Head), s.resetHeld = false → s.spe.state ≠ .tail →
     let p := s.hp.get h
     let t := elapse after s
     let q := { p with lastByte := t.eu.tick }
     let k := p.counters
     p.partialWord = [] →
     (∀ (w : HeadWord) (spare : BitVec 2), (∀ x ∈ p.outstanding, x.seq ≠ w.seq) →
       exec (.headWord after h (cleanly (headWordBytes w spare))) s =
         .next { t with hp := s.hp.set h { q with counters := { k with stray := satInc k.stray } } }) ∧
     (∀ bs : List LineByte, bs.length = 7 →
       ((∃ b ∈ bs, b.framingError = true) ∨
         (bs.drop 6).map (·.byte) ≠ [((bs.take 6).map (·.byte)).foldl (fun x b => x ^^^ b) 0x5A]) →
       exec (.headWord after h bs) s =
         .next { t with hp := s.hp.set h { q with counters := { k with corrupt := satInc k.corrupt } } }) ∧
     (∀ bs : List LineByte, 0 < bs.length → bs.length < 7 →
       exec (.headWord after h bs) s = .next { t with hp := s.hp.set h { q with partialWord := bs } })) ∧
  ∀ (s : State) (after : Nat) (h : Head), s.resetHeld = false →
    let t := elapse after s
    let p := s.hp.get h
    (p.partialWord ≠ [] → 2000 < (t.eu.tick - p.lastByte).toNat →
      exec (.headWordGap after h) s = .next { t with
        hp := s.hp.set h { p with partialWord := []
                                  counters := { p.counters with corrupt := satInc p.counters.corrupt } } }) ∧
    ((p.partialWord = [] ∨ (t.eu.tick - p.lastByte).toNat ≤ 2000) → exec (.headWordGap after h) s = .next t)

/-- The front entry of a list that has waited longer than the response timeout leaves it and is resolved as no-response
under the head's policy: a placeholder, dropped with LOSS at a full queue, nothing, or HEAD_SILENT on its way to the
latch (R28 to R30, R141, log entry 5). Outside TAIL, where no tail end follows. -/
def Obligations.ResponseTimeoutResolves : Prop :=
  ∀ (s : State) (after : Nat) (h : Head) (e : Outstanding) (rest : List Outstanding), s.resetHeld = false →
    s.spe.state ≠ .tail →
    let t := elapse after s
    let p := s.hp.get h
    let k := { p.counters with noResponse := satInc p.counters.noResponse }
    let q := { p with outstanding := rest, counters := k }
    let d := s.pe.detectors.get h
    let lossy := { d with record := d.record.map fun r => { r with flags := r.flags ||| flagMask .loss } }
    p.outstanding = e :: rest →
    ((t.eu.tick - e.trigTick).toNat ≤ p.params.timeout → exec (.responseTimeout after h) s = .next t) ∧
    (p.params.timeout < (t.eu.tick - e.trigTick).toNat →
      (p.params.policy = .mark → p.queue.length < 256 →
        exec (.responseTimeout after h) s =
          .next { t with hp := s.hp.set h { q with queue := p.queue ++ [⟨e, none⟩] } }) ∧
      (p.params.policy = .mark → 256 ≤ p.queue.length →
        exec (.responseTimeout after h) s = .next { t with
          hp := s.hp.set h { q with counters := { k with queueDrops := satInc p.counters.queueDrops } }
          pe := { s.pe with detectors := s.pe.detectors.set h lossy } }) ∧
      (p.params.policy = .ignore → exec (.responseTimeout after h) s = .next { t with hp := s.hp.set h q }) ∧
      (p.params.policy = .fault →
        exec (.responseTimeout after h) s = .next { t with
          hp := s.hp.set h q
          bus := { s.bus with raisings := s.bus.raisings ++ [raisingOf .headSilent (some h) t] } }))

/-- The free placement engine is granted the front sample of the head that R38 names: none waits at a higher
priority, and none of the same priority stands between the head last served and it in the cyclic order. A busy
engine is granted nothing, and neither is a free one when every queue is empty (R38, R39, R40). -/
def Obligations.ArbiterGrantsByPriority : Prop :=
  ∀ s : State, s.resetHeld = false →
    ((s.pe.busy ≠ none ∨ ∀ h : Head, (s.hp.get h).queue = []) → exec .placementGrant s = .next s) ∧
    (s.pe.busy = none → (∃ h : Head, (s.hp.get h).queue ≠ []) →
      ∃ (h : Head) (x : Sample) (rest : List Sample), (s.hp.get h).queue = x :: rest ∧
        (∀ g : Head, (s.hp.get g).queue ≠ [] → (s.hp.get g).params.priority ≤ (s.hp.get h).params.priority) ∧
        (∀ g : Head, (s.hp.get g).queue ≠ [] → (s.hp.get g).params.priority = (s.hp.get h).params.priority →
          (headNum h + 3 - headNum s.pe.lastServed) % 4 ≤ (headNum g + 3 - headNum s.pe.lastServed) % 4) ∧
        exec .placementGrant s = .next { s with
          hp := s.hp.set h { s.hp.get h with queue := rest }
          pe := { s.pe with busy := some (h, x), lastServed := h } })

/-- The angle at which a sample is placed is in the form of R43 to R46: the position in 1/256 count from the
count, the interpolated fraction and the latency advance, all of them bounded as the rules say. -/
def Obligations.ExposureAngleFormed : Prop :=
  ∀ (p : EncoderParams) (hp : HeadParams) (e : Outstanding), 4096 ≤ p.counts → p.counts ≤ 1048576 →
    e.count < p.counts →
    let dt := (e.trigTick - e.edgeTick).toNat
    let f := match e.speed with
      | none => 0
      | some 0 => 255
      | some (q + 1) => min (dt * 65536 / (q + 1)) 255
    let a := match e.speed with
      | none => 0
      | some 0 => if hp.latency = 0 then 0 else 65535
      | some (q + 1) => min (hp.latency * 65536 / (q + 1)) 65535
    let raw := (e.count * 256 + f + a) % (p.counts * 256) * 65536 / p.counts
    raw < 16777216 ∧
    ((exposureAngle p hp e).toNat : Int) = ((raw : Int) + hp.azimuth.toNat - p.zeroOffset.toNat) % 16777216

/-- A sample of a generation that is no longer kept is stale: it is counted, the open record is flagged LOSS, its
number is held as placed, and nothing else happens (R42). In a learning step a measured sample adds its raw height
to the bin of its angle, and any other placed sample hands nothing on (R47, R48, R55, R101). -/
def Obligations.SamplesThatJoinNoRecord : Prop :=
  (∀ (s : State) (after : Nat) (a : ActiveStep) (h : Head) (x : Sample), s.resetHeld = false →
     s.spe.state ≠ .tail → s.spe.active = some a → a.step.flags.learn = false → s.pe.busy = some (h, x) →
     x.entry.gen ≠ s.bt.gen → x.entry.gen ≠ s.bt.gen - 1 →
     let p := s.hp.get h
     let d := s.pe.detectors.get h
     let lossy := { d with record := d.record.map (fun r => { r with flags := r.flags ||| flagMask .loss })
                           lastSeq := some x.entry.seq }
     exec (.placementEnd after) s = .next { elapse after s with
       hp := s.hp.set h { p with counters := { p.counters with stale := satInc p.counters.stale } }
       pe := { s.pe with busy := none, detectors := s.pe.detectors.set h lossy } }) ∧
  ∀ (s : State) (after : Nat) (a : ActiveStep) (h : Head) (x : Sample), s.resetHeld = false →
    s.spe.state ≠ .tail → s.spe.active = some a → a.step.flags.learn = true → s.pe.busy = some (h, x) →
    let p := (s.hp.get h).params
    let t := { elapse after s with pe := { s.pe with busy := none } }
    let k : Fin 256 := Fin.ofNat 256 ((exposureAngle s.eu.params p x.entry).toNat / 65536)
    let acc := s.rm.acc
    (∀ q : Answer, x.answer = some q → q.code = .ok → a.step.threshold ≤ q.intensity.toNat →
      acc.counts[k] < 4294967295 →
      let exact : Int := if p.facing = .down then p.reference - q.distance.toNat else p.reference + q.distance.toNat
      let z := max (-8388608) (min 8388607 exact)
      exec (.placementEnd after) s = .next { t with rm := { s.rm with acc := { acc with
        sums := acc.sums.set k (acc.sums[k] + z), counts := acc.counts.set k (acc.counts[k] + 1) } } }) ∧
    ((∀ q : Answer, x.answer = some q → q.code ≠ .ok ∨ q.intensity.toNat < a.step.threshold) →
      exec (.placementEnd after) s = .next t)

/-- A sample that its generation's set places in the window of an enabled blade opens a record for a detector that
holds none, has left the run-in or leaves it with this sample, and has recorded the blade in no pass or a lower one: the
record's blade, window, pass, generation and opening readings are those of R76, and its flags tell a gap, a drift, a
placeholder and a clamp (R44, R53, R54, R75 to R78, R89). Stated for an absent sample, which SEEKING counts in nothing
(R81). And a run-in sample, one of the first pass in the run-in window, or in the window that holds the crossing at or
beyond it, opens nothing and holds the run-in window (R77). -/
def Obligations.SampleOpensRecord : Prop :=
  ∀ (s : State) (after : Nat) (a : ActiveStep) (h : Head) (x : Sample) (b : Nat) (w : Window), s.resetHeld = false →
    s.spe.state ≠ .tail → s.spe.active = some a → a.step.flags.learn = false → s.pe.busy = some (h, x) →
    x.entry.gen = s.bt.gen → AtMostOne s.bt.current → s.bt.current[b]? = some w →
    let hp := (s.hp.get h).params
    let d := s.pe.detectors.get h
    let u := (exposureAngle s.eu.params hp x.entry - w.start).toNat
    let crossing := (hp.azimuth - s.eu.params.zeroOffset - w.start).toNat
    let isRunIn := d.runIn = true ∧ x.entry.pass = s.spe.firstPass ∧
      (d.runInWindow = some b ∨ (d.runInWindow = none ∧ crossing < w.width ∧ crossing ≤ u))
    u < w.width → d.record = none →
    (isRunIn → placementLeaves after h { d with lastSeq := some x.entry.seq, runInWindow := some b } s) ∧
    (¬ isRunIn → w.excluded = false → a.step.first ≤ b → b ≤ a.step.last → b < 128 →
      d.state = .outside → d.presentRun = 0 → d.candidates = [] →
      (∀ pass : Nat, d.recorded[b]? = some (some pass) → pass < x.entry.pass) →
      (x.answer = none ∨ ∃ q : Answer, x.answer = some q ∧ q.code = .noPeak) →
      ∃ r : OpenRecord,
        placementLeaves after h { d with
          state := .seeking, record := some r, prevOffset := u, lastSeq := some x.entry.seq, runIn := false
          runInWindow := none, recorded := d.recorded.setIfInBounds b (some x.entry.pass) } s ∧
        r.tag = a.step.tag ∧ r.runId = x.entry.runId ∧ r.pass = x.entry.pass ∧ r.blade = b ∧ r.bladeId = w.id ∧
        r.start = w.start ∧ r.width = w.width ∧ r.gen = x.entry.gen ∧ r.mapGen = s.rm.gen ∧ r.radius = radius s ∧
        r.openTick = x.entry.trigTick ∧ r.entry = none ∧ r.exit = none ∧ r.points = [] ∧
        (hasFlag .loss r.flags = true ↔ ∃ l, d.lastSeq = some l ∧ x.entry.seq ≠ l + 1) ∧
        (hasFlag .drift r.flags = true ↔ a.step.tolerance < ((radius s : Int) - a.step.radius).natAbs) ∧
        (hasFlag .noResponse r.flags = true ↔ x.answer = none) ∧
        (hasFlag .clamped r.flags = true ↔ advanceSaturates hp.latency x.entry = true))

/-- A sample joins an open record by the detector's state, with CLAMPED when the latency advance, the height or the
corrected height saturates, and NO_RESPONSE for a placeholder (R44, R48, R52, R79, R80, R89). A present sample, which is
one of code OK at or above the threshold, and so measured, or one of code SATURATED or MULTI_PEAK, which is not, its
height corrected by the map in force: ON_SURFACE takes it as a point with its code where decimation keeps it and the
record has room, counts a measured one in count, sum and heights and another in the counter of its code, an absent run
before it counting as dropouts; SEEKING counts it as a candidate, and the K_on-th of a run makes the entry at the first,
here with decimation 0, the candidates entering points and statistics; AFTER_EXIT marks a run of K_on with
EXTRA_SURFACE (R47, R49 to R51, R81, R82, R84, R88, log entry 24). An absent one: SEEKING and AFTER_EXIT lose their run, and the K_off-th of a
run in ON_SURFACE makes the exit at the last present sample (R81, R83, R84). -/
def Obligations.SampleExtendsSurface : Prop :=
  (∀ (s : State) (after : Nat) (a : ActiveStep) (h : Head) (x : Sample) (r : OpenRecord) (u : Nat) (q : Answer),
     joinsRecord a h x r u s → x.answer = some q →
     (q.code = .ok ∧ a.step.threshold ≤ q.intensity.toNat ∨ q.code = .saturated ∨ q.code = .multiPeak) →
     (a.step.flags.scaleMap = true → s.rm.radius ≠ 0) →
     let hp := (s.hp.get h).params
     let d := s.pe.detectors.get h
     let w := correctionInForce a.step s (exposureAngle s.eu.params hp x.entry)
     let exact : Int := if hp.facing = .down then hp.reference - q.distance.toNat else hp.reference + q.distance.toNat
     let raw := max (-8388608) (min 8388607 exact)
     let z := max (-8388608) (min 8388607 (raw - w))
     let point : Point := ⟨u, z, q.intensity, q.code⟩
     let measured := q.code = .ok
     let marked (f : BitVec 12) :=
       if advanceSaturates hp.latency x.entry = true ∨ raw ≠ exact ∨ z ≠ raw - w then f ||| flagMask .clamped else f
     let e := { d with lastSeq := some x.entry.seq, prevOffset := u }
     (∀ l : LastPresent, d.state = .onSurface → d.lastPresent = some l →
       let keep := (l.index + 1) % 2 ^ a.step.decimation = 0
       let room := r.points.length < 1024
       placementLeaves after h { e with
         absentRun := 0, lastPresent := some ⟨point, l.index + 1, decide (keep ∧ room)⟩
         record := some { r with
           points := if keep ∧ room then r.points ++ [point] else r.points
           flags := marked (if keep ∧ ¬ room then r.flags ||| flagMask .truncated else r.flags)
           stats := {
             count := if measured then satInc r.stats.count else r.stats.count
             sum := if measured then r.stats.sum + z else r.stats.sum
             range := if measured then some (r.stats.range.elim (z, z) fun m => (min m.1 z, max m.2 z)) else r.stats.range
             dropouts := satAdd r.stats.dropouts d.absentRun
             saturated := if q.code = .saturated then satInc r.stats.saturated else r.stats.saturated
             multiPeak := if q.code = .multiPeak then satInc r.stats.multiPeak else r.stats.multiPeak } } } s) ∧
     (d.state = .seeking → d.presentRun + 1 < a.step.kOn →
       placementLeaves after h { e with
         presentRun := d.presentRun + 1, candidates := d.candidates ++ [⟨point, decide measured⟩]
         record := some { r with flags := marked r.flags } } s) ∧
     (d.state = .seeking → a.step.kOn ≤ d.presentRun + 1 → a.step.decimation = 0 →
       r.points.length + d.candidates.length < 1024 →
       let points := d.candidates.map (·.point) ++ [point]
       let run : List Surface := d.candidates ++ [⟨point, decide measured⟩]
       let taken := run.filter (·.measured)
       let coded (c : HeadCode) := (points.filter fun p => p.code == c).length
       ∃ (e' : Detector) (r' : OpenRecord), placementLeaves after h e' s ∧ e'.state = .onSurface ∧
         e'.record = some r' ∧ e'.presentRun = 0 ∧ e'.candidates = [] ∧ e'.absentRun = 0 ∧ e'.prevOffset = u ∧
         e'.lastPresent = some ⟨point, d.candidates.length, true⟩ ∧ r'.entry = points.head?.map (·.u) ∧
         r'.exit = r.exit ∧ r'.points = r.points ++ points ∧ r'.flags = marked r.flags ∧
         r'.stats.count = satInc^[taken.length] r.stats.count ∧
         r'.stats.sum = r.stats.sum + (taken.map (·.point.z)).sum ∧
         r'.stats.range = taken.foldl (fun m c => some (m.elim (c.point.z, c.point.z) fun b =>
           (min b.1 c.point.z, max b.2 c.point.z))) r.stats.range ∧
         r'.stats.saturated = satInc^[coded .saturated] r.stats.saturated ∧
         r'.stats.multiPeak = satInc^[coded .multiPeak] r.stats.multiPeak) ∧
     (d.state = .afterExit →
       placementLeaves after h (if d.presentRun + 1 < a.step.kOn then
           { e with presentRun := d.presentRun + 1, record := some { r with flags := marked r.flags } }
         else { e with presentRun := 0
                       record := some { r with flags := marked (r.flags ||| flagMask .extraSurface) } }) s)) ∧
  ∀ (s : State) (after : Nat) (a : ActiveStep) (h : Head) (x : Sample) (r : OpenRecord) (u : Nat),
    joinsRecord a h x r u s →
    (∀ q : Answer, x.answer = some q → q.code = .noPeak ∨ q.code = .ok ∧ q.intensity.toNat < a.step.threshold) →
    let d := s.pe.detectors.get h
    let marked (f : BitVec 12) :=
      let g := if advanceSaturates (s.hp.get h).params.latency x.entry then f ||| flagMask .clamped else f
      if x.answer = none then g ||| flagMask .noResponse else g
    let e := { d with lastSeq := some x.entry.seq, prevOffset := u, record := some { r with flags := marked r.flags } }
    (d.state = .seeking → placementLeaves after h { e with presentRun := 0, candidates := [] } s) ∧
    (d.state = .onSurface → d.absentRun + 1 < a.step.kOff →
      placementLeaves after h { e with absentRun := d.absentRun + 1 } s) ∧
    (∀ l : LastPresent, d.state = .onSurface → d.lastPresent = some l → a.step.kOff ≤ d.absentRun + 1 →
      let f := exitAt l r
      placementLeaves after h { e with
        state := .afterExit, record := some { f with flags := marked f.flags }, absentRun := 0, presentRun := 0
        lastPresent := none } s) ∧
    (d.state = .afterExit → placementLeaves after h { e with presentRun := 0 } s)

/-- A sample outside the open record's window closes the record, here one that lies in no window and opens nothing, and
so does a sample more than 64 au behind the previous offset, with REVERSED: the record, with the entry, the exit and
the flags that R86 gives for the detector's state, goes to the scan plan engine with its statistics, to the record
store unless the step discards, and to the blade table when the step tracks by this head, and the detector is OUTSIDE
(R61, R79, R80, R83, R86, R88, R91 to R93, R125). And the tail end of a head closes the record it holds in the same
way, here when the last entry leaves the list under IGNORE (R29, R85). -/
def Obligations.SampleOutsideClosesRecord : Prop :=
  (∀ (s : State) (after : Nat) (a : ActiveStep) (h : Head) (x : Sample) (r : OpenRecord), s.resetHeld = false →
     s.spe.state ≠ .tail → s.spe.active = some a → a.step.flags.learn = false → s.pe.busy = some (h, x) →
     x.entry.gen = s.bt.gen →
     let angle := exposureAngle s.eu.params (s.hp.get h).params x.entry
     let d := s.pe.detectors.get h
     let v := (angle - r.start).toNat
     d.record = some r → (d.state = .onSurface → d.lastPresent ≠ none) → d.lastSeq = some (x.entry.seq - 1) →
     hasFlag .aborted r.flags = false →
     ((r.width ≤ v ∧ ∀ w ∈ s.bt.current, w.width ≤ (angle - w.start).toNat) ∨
       (v < r.width ∧ v + 64 < d.prevOffset)) →
     let f := closedForm d r
     ∃ t : State, exec (.placementEnd after) s = .next t ∧
       (t.pe.detectors.get h).state = .outside ∧ (t.pe.detectors.get h).record = none ∧
       (t.pe.detectors.get h).lastSeq = some x.entry.seq ∧ (t.pe.detectors.get h).recorded = d.recorded ∧
       handedOn a h (if v < r.width then { f with flags := f.flags ||| flagMask .reversed } else f) s t) ∧
  ∀ (s : State) (after : Nat) (a : ActiveStep) (h : Head) (e : Outstanding) (r : OpenRecord), s.resetHeld = false →
    s.spe.state = .tail → s.spe.active = some a → a.step.flags.learn = false → s.pe.busy = none →
    let p := s.hp.get h
    let d := s.pe.detectors.get h
    (s.tu.heads.get h).tail = .ended → p.outstanding = [e] → p.queue = [] → p.params.policy = .ignore →
    p.params.timeout < ((elapse after s).eu.tick - e.trigTick).toNat → d.record = some r →
    (d.state = .onSurface → d.lastPresent ≠ none) → hasFlag .aborted r.flags = false →
    (∀ g : Head, g ≠ h → (s.pe.detectors.get g).record = none) →
    ∃ t : State, exec (.responseTimeout after h) s = .next t ∧ (t.hp.get h).outstanding = [] ∧
      (t.pe.detectors.get h).state = .outside ∧ (t.pe.detectors.get h).record = none ∧
      handedOn a h (closedForm d r) s t

/-! ## Records on their way, and the record store -/

/-- A record's frames: one WHOLE frame for a record without its points or of at most 240 of them, and otherwise
one frame for each 240 points begun, FIRST, MIDDLE … and LAST, which carry the points in order; never more than 5
frames for at most 1,024 points (R154). -/
def Obligations.FramesOfRecord : Prop :=
  ∀ (number : Id16) (r : SectionRecord), (r.withheld = false → r.pointCount = r.points.length) →
    let fs := framesOf number r
    let header := some { r with points := [] }
    ((r.withheld = true ∨ r.pointCount ≤ 240) → fs = [⟨number, .whole, 0, header, r.points⟩]) ∧
    (r.withheld = false → 240 < r.pointCount →
      fs.length = (r.pointCount + 239) / 240 ∧ (r.pointCount ≤ 1024 → fs.length ≤ 5) ∧
      fs.flatMap (·.points) = r.points ∧
      ∀ (i : Nat) (f : DataFrame), fs[i]? = some f → f.number = number ∧ f.index = i ∧
        f.kind = (if i = 0 then .first else if i + 1 = fs.length then .last else .middle) ∧
        f.header = (if i = 0 then header else none) ∧ f.points = (r.points.drop (240 * i)).take 240 ∧
        1 ≤ f.points.length)

/-- The store admits the record handed over first: whole when its frames fit, as a header with POINTS_DROPPED when one
slot is free, and otherwise as lost with STORE_LOSS on its way to the latch, each under the next record number and with
its report to the scan plan engine (R141, R155 to R157, R164, log entry 5). Where the credits are above 0 or the store
is starved already, nothing more happens; and an admission that appends a frame at a count of 0, here while no data
frame is being sent, begins a starvation episode with its STRV notice (R161, log entry 21). -/
def Obligations.StoreAdmitsRecord : Prop :=
  ∀ (s : State) (x : Handed) (rest : List Handed), s.resetHeld = false → s.bus.handed = x :: rest →
    let r := x.record
    let number := s.rs.recordNumber
    let fs := framesOf number r
    let free := 512 - s.rs.frames.length
    let k := s.rs.counters
    let aborted := hasFlag .aborted r.flags
    let stored (o : Outcome3) := { s.bus with handed := rest, stored := s.bus.stored ++ [⟨o, r.runId, aborted⟩] }
    let short := { r with flags := r.flags ||| flagMask .pointsDropped, points := [] }
    let header : DataFrame := ⟨number, .whole, 0, some short, []⟩
    let loss : Raising := ⟨.storeLoss, some r.head, r.tag, r.pass, s.eu.tick⟩
    ((s.rs.credits ≠ 0 ∨ s.rs.starved = true) →
      (fs.length ≤ free → exec (.recordAdmission 0) s = .next { s with
        rs := { s.rs with recordNumber := number + 1, frames := s.rs.frames ++ fs
                          counters := { k with whole := satInc k.whole } }
        bus := stored .whole }) ∧
      (free < fs.length → 0 < free → exec (.recordAdmission 0) s = .next { s with
        rs := { s.rs with recordNumber := number + 1, frames := s.rs.frames ++ [header]
                          counters := { k with headerOnly := satInc k.headerOnly } }
        bus := stored .headerOnly })) ∧
    (s.rs.credits = 0 → s.rs.starved = false → (∀ f, s.lp.sending = some f → f.kind ≠ .data) →
      s.lp.notices.length < 32 →
      let noticed (frames : List DataFrame) := { s.lp with
        notices := s.lp.notices ++ [.starved frames.length (recordsAmong frames) s.eu.tick] }
      (fs.length ≤ free → exec (.recordAdmission 0) s = .next { s with
        rs := { s.rs with recordNumber := number + 1, frames := s.rs.frames ++ fs, starved := true
                          counters := { k with whole := satInc k.whole, episodes := satInc k.episodes } }
        lp := noticed (s.rs.frames ++ fs), bus := stored .whole }) ∧
      (free < fs.length → 0 < free → exec (.recordAdmission 0) s = .next { s with
        rs := { s.rs with recordNumber := number + 1, frames := s.rs.frames ++ [header], starved := true
                          counters := { k with headerOnly := satInc k.headerOnly, episodes := satInc k.episodes } }
        lp := noticed (s.rs.frames ++ [header]), bus := stored .headerOnly })) ∧
    (free = 0 → exec (.recordAdmission 0) s = .next { s with
      rs := { s.rs with recordNumber := number + 1, counters := { k with lost := satInc k.lost } }
      bus := { stored .lost with raisings := s.bus.raisings ++ [loss] } })

/-- What the other blocks take of the records on their way: the blade table a tracking observation or a miss, or
nothing for an EXCLUDED blade (R61 to R63, R69); and the scan plan engine a record's report and the store's report
in its step counters, or nothing of an ABORTED record (R120, R127, R156), nor, as the model has it, of a run the
plan no longer holds (log entry 16). -/
def Obligations.RecordResultsAreTaken : Prop :=
  ∀ s : State, s.resetHeld = false →
    (∀ (p : Post) (rest : List Post) (e : BladeEntry), s.bus.posts = p :: rest → s.bt.entries[p.blade]? = some e →
      let t := { s with bus := { s.bus with posts := rest } }
      let changed (f : BladeEntry) (cause : BladeCause) :=
        { t with
          bt := { s.bt with entries := s.bt.entries.set p.blade f }
          lp := { s.lp with notices := s.lp.notices ++ (if f.state = e.state then [] else
            [.bladeChanged p.blade e.id e.state f.state cause f.offset f.misses s.bt.gen]) } }
      (e.state = .excluded → exec .trackingPost s = .next t) ∧
      (∀ u : Nat, e.state ≠ .excluded → p.entry = some u → s.lp.notices.length < 32 →
        let dev : Int := u - s.bt.params.guard
        exec .trackingPost s = .next (changed { e with
          pendingOffset := some (e.offset + roundHalfAway dev 8)
          smoothed := e.smoothed + roundHalfAway (dev - e.smoothed) 8, seen := satInc e.seen, misses := 0
          state := if e.state = .missing then .active else e.state } .found)) ∧
      (e.state ≠ .excluded → p.entry = none → p.missingEntry = true → s.lp.notices.length < 32 →
        let n := min (e.misses + 1) 15
        exec .trackingPost s = .next (changed { e with
          misses := n, state := if s.bt.params.kMiss ≤ n then .missing else e.state } .missed))) ∧
    (∀ (r : RecordReport) (rest : List RecordReport), s.bus.reports = r :: rest →
      let t := { s with bus := { s.bus with reports := rest } }
      let c := s.spe.counters
      let held := ∃ a, s.spe.active = some a ∧ a.runId = r.runId
      ((hasFlag .aborted r.flags = true ∨ ¬ held) → exec .recordReport s = .next t) ∧
      (hasFlag .aborted r.flags = false → held →
        exec .recordReport s = .next { t with spe := { s.spe with counters := { c with
          made := satInc c.made, clean := if r.flags = 0 then satInc c.clean else c.clean
          union := c.union ||| r.flags } } })) ∧
    ∀ (r : AdmissionReport) (rest : List AdmissionReport), s.bus.stored = r :: rest →
      let t := { s with bus := { s.bus with stored := rest } }
      let c := s.spe.counters
      let held := ∃ a, s.spe.active = some a ∧ a.runId = r.runId
      ((r.aborted = true ∨ ¬ held ∨ r.outcome = .whole) → exec .admissionReport s = .next t) ∧
      (r.aborted = false → held → r.outcome = .headerOnly →
        exec .admissionReport s = .next { t with spe := { s.spe with counters := { c with
          headerOnly := satInc c.headerOnly, union := c.union ||| flagMask .pointsDropped } } }) ∧
      (r.aborted = false → held → r.outcome = .lost →
        exec .admissionReport s = .next { t with spe := { s.spe with counters := { c with lost := satInc c.lost } } })

/-! ## The link -/

/-- The free transmitter takes the first that is ready: the answer at the front of the overload list, the reply, the
oldest notice, or, for a credit, the frame at the front of the store; a busy one takes nothing (R159, R162, R165, R168,
R178). The last credit taken while another frame waits begins a starvation episode, its notice counting the records
that wait as log entry 21 says (R161). The bytes of notices and records are in the layouts of 13.1, 13.3 and 13.6, with
the marks of log entry 38 and the unnamed bits of log entry 39. -/
def Obligations.SelectorTakesFirstReady : Prop :=
  ∀ s : State, s.resetHeld = false →
    let sent (k : FlightKind) (bytes : List Byte) (l : LinkPort) := { l with sending := some ⟨k, bytes⟩ }
    (s.lp.sending ≠ none → exec .frameSendStart s = .next s) ∧
    (s.lp.sending = none →
      (∀ e rest, s.lp.overload = e :: rest →
        exec .frameSendStart s = .next { s with
          lp := sent .overload (frameBytes 0x02 e.tag (e.keyword ++ [10])) { s.lp with overload := rest } }) ∧
      (s.lp.overload = [] → ∀ r, s.lp.reply = some r →
        let body := r.keyword ++ [BitVec.ofNat 8 (statusCode r.status)] ++ r.data
        exec .frameSendStart s = .next { s with lp := sent .reply (frameBytes 0x02 r.tag body) s.lp }) ∧
      (s.lp.overload = [] → s.lp.reply = none → ∀ n rest, s.lp.notices = n :: rest →
        exec .frameSendStart s = .next { s with
          lp := sent .notice (frameBytes 0x03 0 (noticeBody n)) { s.lp with notices := rest } }) ∧
      (s.lp.overload = [] → s.lp.reply = none → s.lp.notices = [] → ∀ f rest, s.rs.frames = f :: rest →
        let l := sent .data (frameBytes 0x04 0 (dataBody f)) s.lp
        (s.rs.credits = 0 → exec .frameSendStart s = .next s) ∧
        ((2 ≤ s.rs.credits ∨ s.rs.credits = 1 ∧ (rest = [] ∨ s.rs.starved = true)) →
          exec .frameSendStart s = .next { s with lp := l, rs := { s.rs with credits := s.rs.credits - 1 } }) ∧
        (s.rs.credits = 1 → rest ≠ [] → s.rs.starved = false →
          exec .frameSendStart s = .next { s with
            lp := { l with notices := [.starved s.rs.frames.length (recordsAmong rest) s.eu.tick] }
            rs := { s.rs with credits := 0, starved := true
                              counters := { s.rs.counters with episodes := satInc s.rs.counters.episodes } } })) ∧
      (s.lp.overload = [] → s.lp.reply = none → s.lp.notices = [] → s.rs.frames = [] →
        exec .frameSendStart s = .next s))

/-- The end of a sending frees the transmitter and what was sent: the reply slot, or the data frame's slot with
its count. With an RSET awaiting its reset, the end of a reply or of an answer that leaves no answer owed and no reply
is the full reset, and any other end frees what was sent as without the mark (R159, R167, R168, R177). -/
def Obligations.SendingEnds : Prop :=
  ∀ (s : State) (after : Nat) (f : Flight), s.resetHeld = false → s.lp.sending = some f →
    let t := elapse after s
    let l := { s.lp with sending := none }
    let resets := s.lp.resetMark = true ∧ s.lp.overload = [] ∧ (f.kind = .reply ∨ s.lp.reply = none)
    (¬ resets →
      (f.kind = .reply → exec (.frameSendEnd after) s = .next { t with lp := { l with reply := none } }) ∧
      ((f.kind = .overload ∨ f.kind = .notice) → exec (.frameSendEnd after) s = .next { t with lp := l }) ∧
      (f.kind = .data → exec (.frameSendEnd after) s = .next { t with
        lp := l
        rs := { s.rs with frames := s.rs.frames.drop 1
                          counters := { s.rs.counters with sent := satInc s.rs.counters.sent } } })) ∧
    (resets → ∃ u : State, exec .powerOn s = .next u ∧ exec (.frameSendEnd after) s = .next u)

/-! ## The scan plan engine -/

/-- A step that is not a learning step completes when the conditions of TAIL hold: STEP_DONE, and then HALTED with the
following slot, IDLE with RDON, the following slot armed, the halt of a fault latched under HALT_AT_STEP_END, or
STEP_INVALID for a skip onto an EMPTY slot; before they hold nothing happens (R121 to R123, R145 to R147, log entries
15, 16 and 32). With no interjection but, for the halt, one that runs. -/
def Obligations.StepCompletes : Prop :=
  ∀ (s : State) (a : ActiveStep) (f : Option Slot), s.resetHeld = false → s.spe.active = some a →
    let sdon (interjected : Bool) : Notice := .stepDone a.slot a.step.tag a.runId s.spe.passesDone interjected
      s.spe.counters (missingIn a.step.first a.step.last s.bt.entries) none
    let notified (ns : List Notice) := { s.lp with notices := s.lp.notices ++ ns }
    (¬ tailIsOver s → exec .stepCompletion s = .next s) ∧
    (tailIsOver s → a.step.flags.learn = false → s.spe.interjection = .none → s.spe.latch = none →
      followingSlot a s f → s.lp.notices.length + 2 ≤ 32 →
      (a.step.flags.haltAfter = true → exec .stepCompletion s = .next { s with
        tu := tailsStopped s.tu, spe := { s.spe with state := .halted, pendingDecision := some f }
        lp := notified [sdon false] }) ∧
      (a.step.flags.haltAfter = false → f = none → exec .stepCompletion s = .next { s with
        tu := tailsStopped s.tu, spe := planAtRest .idle s.spe
        lp := notified [sdon false, .runDone a.slot a.step.tag a.runId] }) ∧
      (a.step.flags.haltAfter = false → ∀ (n : Slot) (p : ScanStep), f = some n → s.spe.slots[n] = some p →
        armableStep p s → ∃ t : State, exec .stepCompletion s = .next t ∧
          armedAs n p 0 ⟨0, 0, 0, 0, 0⟩ s t ∧ t.lp = notified [sdon false])) ∧
    (tailIsOver s → a.step.flags.learn = false → (∀ slot, s.spe.interjection ≠ .pending slot) →
      s.lp.notices.length + 2 ≤ 32 → ∀ r, s.spe.latch = some r → r.policy = .haltAtStepEnd → r.taken = false →
      let interjected := s.spe.interjection == .running
      exec .stepCompletion s = .next { haltTaken r s with
        lp := notified [sdon interjected, .faultHalted { r with taken := true } .faulted s.spe.secondary] }) ∧
    (tailIsOver s → a.step.flags.learn = false → s.spe.interjection = .none → s.spe.latch = none →
      s.lp.notices.length + 2 ≤ 32 → a.step.flags.skipIfClean = true → 1 ≤ s.spe.counters.made →
      s.spe.counters.clean = s.spe.counters.made → s.spe.counters.headerOnly = 0 → s.spe.counters.lost = 0 →
      ∀ n : Slot, a.step.next = some n → s.spe.slots[n] = none →
        let r : Raising := ⟨.stepInvalid, none, 0, 0, s.eu.tick⟩
        ∃ t : State, exec .stepCompletion s = .next t ∧ tornDown a s t ∧ t.bus = s.bus ∧
          t.spe = stoppedNow r s.spe ∧ t.lp = notified [sdon false, stoppedSaid r s])

/-- A learning step that ends its plan completes its learn first: with fewer than 192 bins filled the map stays,
and with more the new bins are the means, an empty bin taking the one below it, less the mean of all, clamped; and
the map result travels in STEP_DONE (R103 to R105, R122). -/
def Obligations.LearningStepCompletes : Prop :=
  ∀ (s : State) (a : ActiveStep), s.resetHeld = false → s.spe.active = some a → tailIsOver s →
    a.step.flags.learn = true → a.step.flags.haltAfter = false → a.step.flags.skipIfClean = false →
    a.step.next = none → s.spe.interjection = .none → s.spe.latch = none → s.lp.notices.length + 2 ≤ 32 →
    let acc := s.rm.acc
    let filled := (acc.counts.toList.filter fun n => decide (n ≠ 0)).length
    let ends (m : RunoutMap) (result : MapResult) := exec .stepCompletion s = .next { s with
      tu := tailsStopped s.tu, spe := planAtRest .idle s.spe, rm := m
      lp := { s.lp with notices := s.lp.notices ++
        [.stepDone a.slot a.step.tag a.runId s.spe.passesDone false s.spe.counters 0 (some result),
         .runDone a.slot a.step.tag a.runId] } }
    (filled < 192 → ends { s.rm with acc := accumulatorsAt none } ⟨true, filled, 0, s.rm.gen⟩) ∧
    (192 ≤ filled → ∃ mean : Fin 256 → Int,
      (∀ k : Fin 256, acc.counts[k] ≠ 0 → mean k = roundHalfAway acc.sums[k] acc.counts[k]) ∧
      (∀ k : Fin 256, acc.counts[k] = 0 → mean k = mean (k - 1)) ∧
      let all := roundHalfAway ((List.ofFn mean).sum) 256
      let saturated := ((List.finRange 256).filter fun k =>
        decide (mean k - all < -32768 ∨ 32767 < mean k - all)).length
      ends { s.rm with bins := Vector.ofFn fun k => max (-32768) (min 32767 (mean k - all))
                       state := .learned, radius := acc.radius.getD 0, gen := s.rm.gen + 1
                       acc := accumulatorsAt none }
        ⟨false, filled, saturated, s.rm.gen + 1⟩)

/-- An interjection: at the end of the interjection tail the context is saved to resume the passes, a learning step's
accumulators moving into the saved copy, and the requested slot is armed as the interjected step, or the halt of a
fault latched under HALT_AT_STEP_END is taken; a request that waits for the completion saves the decision; and before
the conditions of TAIL hold nothing happens (R102, R121, R131, R133 to R135, R137, R147). At the interjected step's
completion the context is restored by its phase: the main slot is armed again with the passes done and the counters of
the context and, for a learning step, with the saved accumulators in place of empty ones, or armed afresh, or the saved
decision is carried out, or the plan is HALTED again (R102, R138, log entries 16, 17 and 32). A completion completes the
learn of a learning step first, as LearningStepCompletes says of it (R122). -/
def Obligations.InterjectionSavesAndResumes : Prop :=
  ∀ (s : State) (a : ActiveStep), s.resetHeld = false → s.spe.active = some a →
    let notified (ns : List Notice) := { s.lp with notices := s.lp.notices ++ ns }
    let sdon (interjected : Bool) : Notice := stepDoneOf a interjected s
    let u := learnTaken a s
    (¬ tailIsOver s → exec .interjectionTailEnd s = .next s ∧ exec .stepCompletion s = .next s) ∧
    (tailIsOver s →
      (∀ slot : Slot, s.spe.interjection = .pending slot → s.spe.passesDone < a.step.passes →
        exec .stepCompletion s = .next s ∧
        (∀ p : ScanStep, s.spe.latch = none → s.spe.slots[slot] = some p → armableStep p s →
          let saved := if a.step.flags.learn then
              { s with rm := { s.rm with acc := accumulatorsAt none, saved := some s.rm.acc } }
            else s
          ∃ t : State, exec .interjectionTailEnd s = .next t ∧ armedAs slot p 0 ⟨0, 0, 0, 0, 0⟩ saved t ∧
            t.spe.interjection = .running ∧ t.lp = s.lp ∧
            t.spe.context =
              some ⟨a.slot, a.step.tag, a.runId, .resumePasses, s.spe.passesDone, s.spe.counters, none⟩) ∧
        ∀ r, s.spe.latch = some r → r.policy = .haltAtStepEnd → r.taken = false → s.lp.notices.length < 32 →
          exec .interjectionTailEnd s = .next { haltTaken r s with
            lp := notified [.faultHalted { r with taken := true } .faulted s.spe.secondary] }) ∧
      (∀ (slot : Slot) (p : ScanStep) (f : Option Slot), s.spe.interjection = .pending slot →
        a.step.passes ≤ s.spe.passesDone → s.spe.latch = none → followingSlot a s f → s.lp.notices.length < 32 →
        s.spe.slots[slot] = some p → armableStep p u →
        let decision : Decision := if a.step.flags.haltAfter then .halt f else f.elim .finish .arm
        ∃ t : State, exec .stepCompletion s = .next t ∧ armedAs slot p 0 ⟨0, 0, 0, 0, 0⟩ u t ∧
          t.spe.interjection = .running ∧ t.lp = notified [sdon false] ∧
          t.spe.context =
            some ⟨a.slot, a.step.tag, a.runId, .decided, s.spe.passesDone, s.spe.counters, some decision⟩) ∧
      (∀ c : Context, s.spe.interjection = .running → s.spe.context = some c → s.spe.latch = none →
        s.lp.notices.length + 2 ≤ 32 →
        let rearmed (armed : State → Prop) :=
          ∃ t : State, exec .stepCompletion s = .next t ∧ armed t ∧
            t.spe.interjection = .none ∧ t.spe.context = none ∧ t.lp = notified [sdon true]
        let afresh (slot : Slot) (p : ScanStep) := rearmed (armedAs slot p 0 ⟨0, 0, 0, 0, 0⟩ u)
        (∀ p : ScanStep, c.phase = .resumePasses → s.spe.slots[c.slot] = some p → armableStep p u →
          (p.flags.learn = false → rearmed (armedAs c.slot p c.passesDone c.counters u)) ∧
          (p.flags.learn = true → ∀ acc, s.rm.saved = some acc →
            rearmed (armedWith { u.rm with acc := acc, saved := none } c.slot p c.passesDone c.counters u))) ∧
        (∀ p : ScanStep, c.phase = .restart → s.spe.slots[c.slot] = some p → armableStep p u → afresh c.slot p) ∧
        (∀ (n : Slot) (p : ScanStep), c.phase = .decided → c.decision = some (.arm n) → s.spe.slots[n] = some p →
          armableStep p u → afresh n p) ∧
        (∀ p : ScanStep, c.phase = .decided → c.decision = some .finish → s.spe.slots[c.slot] = some p →
          exec .stepCompletion s = .next { u with
            tu := tailsStopped s.tu, spe := planAtRest .idle s.spe
            lp := notified [sdon true, .runDone c.slot c.tag c.runId] }) ∧
        ∀ (f : Option Slot) (p : ScanStep), (c.phase = .decided ∨ c.phase = .halted) →
          c.decision = some (.halt f) → s.spe.slots[c.slot] = some p →
          let top := s.bt.entries.length - 1
          let copy := if p.flags.learn then p else { p with first := min p.first top, last := min p.last top }
          exec .stepCompletion s = .next { u with
            tu := tailsStopped s.tu
            spe := { s.spe with
              state := .halted, pendingDecision := some f, interjection := .none, context := none
              active := some ⟨c.slot, { copy with tag := c.tag }, c.runId⟩, pass := c.passesDone
              passesDone := c.passesDone, counters := c.counters }
            lp := notified [sdon true] }))

/-- A raising that does not stop the run is counted and disposed of under its policy as it stands when the latch takes
it: reported; latched with its halt waiting for a step end; latched with its halt taken at once in IDLE and HALTED, the
first notice naming the plan state before it (log entry 12); or counted as a secondary fault, as every latching raising
is beside a record under STOP_NOW or one whose halt is taken. The notice and the record carry what the raising carried
(R141 to R143, R146 to R148, R152, log entry 5). -/
def Obligations.RaisingIsDisposed : Prop :=
  ∀ (s : State) (r : Raising) (rest : List Raising), s.resetHeld = false → s.bus.raisings = r :: rest →
    r.cls ≠ .stepInvalid → s.lp.notices.length + 2 ≤ 32 →
    let i := classIndex r.cls
    let bus := { s.bus with raisings := rest }
    let q := { s.spe with faultCounters := s.spe.faultCounters.set i (satInc s.spe.faultCounters[i]) }
    let falt (d : Disposition) (secondary : Nat) : Notice :=
      .faultRaised r.cls r.head r.tag r.pass r.tick d s.spe.state secondary 0
    let notified (ns : List Notice) := { s.lp with notices := s.lp.notices ++ ns }
    let latched (taken : Bool) : FaultRecord :=
      ⟨r.cls, r.head, r.tag, r.pass, r.tick, .haltAtStepEnd, taken⟩
    (s.spe.params.policies[i] = .report →
      exec (.faultRaise 0) s =
        .next { s with bus := bus, spe := q, lp := notified [falt .reported s.spe.secondary] }) ∧
    (s.spe.params.policies[i] = .haltAtStepEnd → s.spe.latch = none →
      s.spe.state ∈ [.settling, .armed, .acquiring, .tail] →
      exec (.faultRaise 0) s = .next { s with
        bus := bus, spe := { q with latch := some (latched false) }
        lp := notified [falt .latchedHalt s.spe.secondary] }) ∧
    (s.spe.params.policies[i] = .haltAtStepEnd → s.spe.latch = none →
      (s.spe.state = .idle ∨ s.spe.state = .halted) →
      exec (.faultRaise 0) s = .next { s with
        bus := bus, tu := tailsStopped s.tu, rm := { s.rm with acc := accumulatorsAt none, saved := none }
        spe := { planAtRest .faulted q with latch := some (latched true) }
        lp := notified [falt .latchedHalt s.spe.secondary, .faultHalted (latched true) .faulted s.spe.secondary] }) ∧
    (∀ held, s.spe.latch = some held →
      (s.spe.params.policies[i] = .haltAtStepEnd ∨
        s.spe.params.policies[i] = .stopNow ∧ (held.policy = .stopNow ∨ held.taken = true)) →
      exec (.faultRaise 0) s = .next { s with
        bus := bus, spe := { q with secondary := satInc s.spe.secondary }
        lp := notified [falt .secondary (satInc s.spe.secondary)] })

/-- A STOP, and a raising under STOP_NOW with the latch clear or with a halt pending, tear the run down at every block:
the plan goes IDLE with RSTP for the one, or FAULTED with the halt taken and RSTP and FALT when a halt was pending; and
for the other FAULTED with the record latched, or with the pending halt marked taken, and FALT; each notice with the
number of records closed ABORTED (R126, R127, R145, R146, R148, R152, log entries 5 and 15). In IDLE and FAULTED a STOP
is refused, and a raising under STOP_NOW in IDLE finds nothing to tear down. -/
def Obligations.RunIsTornDown : Prop :=
  ∀ s : State, s.resetHeld = false → s.lp.notices.length + 2 ≤ 32 →
    let n := (openInOrder s).length
    (∀ (tag b : Byte) (rest : List HostCommand), Offered .stop tag [b] rest s →
      let link (ns : List Notice) :=
        { s.lp with queue := rest, reply := some ⟨tag, keywordBytes .stop, .ok, []⟩, notices := s.lp.notices ++ ns }
      ((s.spe.state = .idle ∨ s.spe.state = .faulted) →
        exec .stop s = .next (replied .stop tag .wrongState [] rest s)) ∧
      (s.spe.state ≠ .idle → s.spe.state ≠ .faulted → ∀ a, s.spe.active = some a →
        ∃ t : State, exec .stop s = .next t ∧ tornDown a s t ∧ t.bus.raisings = s.bus.raisings ∧
          let rstp : Notice := .runStopped false a.slot a.step.tag a.runId s.spe.state s.spe.pass n
          (s.spe.latch = none → t.spe = { planAtRest .idle s.spe with drift := false } ∧ t.lp = link [rstp]) ∧
          ∀ r, s.spe.latch = some r →
            t.spe = { planAtRest .faulted s.spe with drift := false, latch := some { r with taken := true } } ∧
            t.lp = link [rstp, .faultHalted { r with taken := true } .faulted s.spe.secondary])) ∧
    (∀ (r : Raising) (rest : List Raising), s.bus.raisings = r :: rest → r.cls ≠ .stepInvalid →
      s.spe.params.policies[classIndex r.cls] = .stopNow →
      (∀ a, s.spe.active = some a → s.spe.latch = none →
        ∃ t : State, exec (.faultRaise 0) s = .next t ∧ tornDown a s t ∧ t.bus.raisings = rest ∧
          t.spe = stoppedNow r s.spe ∧ t.lp = { s.lp with notices := s.lp.notices ++ [stoppedSaid r s] }) ∧
      (s.spe.active = none → s.spe.latch = none → s.spe.state = .idle → n = 0 →
        ∃ t : State, exec (.faultRaise 0) s = .next t ∧ t.eu = s.eu ∧ t.bt = s.bt ∧ t.rs = s.rs ∧
          t.bus = { s.bus with raisings := rest } ∧ t.spe = stoppedNow r s.spe ∧
          t.lp = { s.lp with notices := s.lp.notices ++ [.faultRaised r.cls r.head r.tag r.pass r.tick .latchedStop
            .faulted s.spe.secondary 0] }) ∧
      (∀ (a : ActiveStep) (held : FaultRecord), s.spe.active = some a → s.spe.latch = some held →
        held.policy = .haltAtStepEnd → held.taken = false →
        let i := classIndex r.cls
        ∃ t : State, exec (.faultRaise 0) s = .next t ∧ tornDown a s t ∧ t.bus.raisings = rest ∧
          t.spe = { planAtRest .faulted s.spe with
            drift := false, faultCounters := s.spe.faultCounters.set i (satInc s.spe.faultCounters[i])
            latch := some { held with taken := true }, secondary := satInc s.spe.secondary } ∧
          t.lp = { s.lp with notices := s.lp.notices ++ [.faultRaised r.cls r.head r.tag r.pass r.tick .escalated
            .faulted (satInc s.spe.secondary) n] }))

/-! ## Host commands of the scan plan engine -/

/-- RUNP: refused for a slot outside 0..63, a held latch and a plan outside IDLE, in this order; and otherwise the
slot is armed, or, when it is EMPTY, or its step needs a blade table that is empty or scales a map of radius 0, raises
STEP_INVALID with the slot's tag, or 0, and with the reply OK all the same (R112 to R114, R141, R145, log entries 15 and
32). -/
def Obligations.RunpArmsSlot : Prop :=
  ∀ (s : State) (tag b : Byte) (rest : List HostCommand), Offered .runp tag [b] rest s →
    let answers (st : Status) := exec .runp s = .next (replied .runp tag st [] rest s)
    (64 ≤ b.toNat → answers .invalid) ∧
    (b.toNat < 64 → s.spe.latch ≠ none → answers .faultLatched) ∧
    (b.toNat < 64 → s.spe.latch = none → s.spe.state ≠ .idle → answers .wrongState) ∧
    (∀ slot : Slot, b.toNat = slot.val → s.spe.latch = none → s.spe.state = .idle →
      let link := { s.lp with queue := rest, reply := some ⟨tag, keywordBytes .runp, .ok, []⟩ }
      (∀ p : ScanStep, s.spe.slots[slot] = some p → armableStep p s →
        ∃ t : State, exec .runp s = .next t ∧ armedAs slot p 0 ⟨0, 0, 0, 0, 0⟩ s t ∧ t.lp = link) ∧
      ((∀ p : ScanStep, s.spe.slots[slot] = some p → ¬ armableStep p s) → s.lp.notices.length < 32 →
        let r : Raising := ⟨.stepInvalid, none, s.spe.slots[slot].elim 0 (·.tag), 0, s.eu.tick⟩
        ∃ t : State, exec .runp s = .next t ∧ t.eu = s.eu ∧ t.bt = s.bt ∧ t.rs = s.rs ∧
          t.spe.state = .faulted ∧ t.spe = stoppedNow r s.spe ∧
          t.lp = { link with notices := s.lp.notices ++ [stoppedSaid r s] }))

/-- CONT carries out the pending decision of HALTED, and is refused elsewhere; INTJ is refused, waits, or starts
at once by the plan state, in HALTED with the pending decision saved; FCLR clears the latch of FAULTED, and is refused
elsewhere (R124, R129, R131 to R133, R136, R150, log entry 32). -/
def Obligations.PlanCommandsAct : Prop :=
  ∀ (s : State) (tag b : Byte) (rest : List HostCommand),
    (Offered .cont tag [b] rest s →
      let link (ns : List Notice) :=
        { s.lp with queue := rest, reply := some ⟨tag, keywordBytes .cont, .ok, []⟩, notices := s.lp.notices ++ ns }
      (s.spe.state ≠ .halted → exec .cont s = .next (replied .cont tag .wrongState [] rest s)) ∧
      (∀ a, s.spe.state = .halted → s.spe.active = some a → s.spe.pendingDecision = some none →
        s.lp.notices.length < 32 →
        exec .cont s = .next { s with
          tu := tailsStopped s.tu, spe := planAtRest .idle s.spe
          lp := link [.runDone a.slot a.step.tag a.runId] }) ∧
      (∀ (n : Slot) (p : ScanStep), s.spe.state = .halted → s.spe.pendingDecision = some (some n) →
        s.spe.slots[n] = some p → armableStep p s →
        ∃ t : State, exec .cont s = .next t ∧ armedAs n p 0 ⟨0, 0, 0, 0, 0⟩ s t ∧ t.lp = link [])) ∧
    (Offered .intj tag [b] rest s →
      let answers (st : Status) := exec .intj s = .next (replied .intj tag st [] rest s)
      (64 ≤ b.toNat → answers .invalid) ∧
      (b.toNat < 64 → (s.spe.state = .idle ∨ s.spe.state = .faulted) → answers .wrongState) ∧
      (b.toNat < 64 → s.spe.state ≠ .idle → s.spe.state ≠ .faulted → s.spe.interjection ≠ .none →
        answers .interjectBusy) ∧
      (∀ (slot : Slot) (a : ActiveStep), b.toNat = slot.val → s.spe.interjection = .none → s.spe.active = some a →
        (takingSamples s.spe.state → exec .intj s =
          .next (replied .intj tag .ok [] rest { s with spe := { s.spe with interjection := .pending slot } })) ∧
        (∀ p : ScanStep, s.spe.slots[slot] = some p → armableStep p s →
          let starts (c : Context) :=
            ∃ t : State, exec .intj s = .next t ∧ armedAs slot p 0 ⟨0, 0, 0, 0, 0⟩ s t ∧
              t.spe.interjection = .running ∧ t.spe.context = some c ∧
              t.lp = { s.lp with queue := rest, reply := some ⟨tag, keywordBytes .intj, .ok, []⟩ }
          ((s.spe.state = .settling ∨ s.spe.state = .armed) →
            starts ⟨a.slot, a.step.tag, a.runId, .restart, 0, ⟨0, 0, 0, 0, 0⟩, none⟩) ∧
          ∀ f, s.spe.state = .halted → s.spe.pendingDecision = some f →
            starts ⟨a.slot, a.step.tag, a.runId, .halted, s.spe.passesDone, s.spe.counters, some (.halt f)⟩))) ∧
    (Offered .fclr tag [b] rest s →
      (s.spe.state ≠ .faulted → exec .fclr s = .next (replied .fclr tag .wrongState [] rest s)) ∧
      (s.spe.state = .faulted → exec .fclr s = .next (replied .fclr tag .ok [] rest
        { s with spe := { s.spe with latch := none, secondary := 0, state := .idle } })))

/-- STPR answers the mark EMPTY or the step as it is stored, INVALID for a slot outside 0..63, and changes nothing, in
every plan state (R110, 13.4); the mark of a step that is present is 1 (log entry 38), the windowed byte of a windowed step is
read back as 1 (log entry 14), and what follows the mark EMPTY is left open (log entry 15). -/
def Obligations.StprReadsSlot : Prop :=
  ∀ (s : State) (tag b : Byte) (rest : List HostCommand), Offered .stpr tag [b] rest s →
    (64 ≤ b.toNat → exec .stpr s = .next (replied .stpr tag .invalid [] rest s)) ∧
    ∀ slot : Slot, b.toNat = slot.val →
      (s.spe.slots[slot] = none →
        ∃ spare : List Byte, exec .stpr s = .next (replied .stpr tag .ok (0 :: spare) rest s)) ∧
      ∀ p : ScanStep, s.spe.slots[slot] = some p →
        exec .stpr s = .next (replied .stpr tag .ok (1 :: stepBytes p) rest s)

/-- STPW and BTMK act in every plan state: STPW stores the step that its bytes give, with CLAMPED for a value brought
to its range, and is refused with SLOT_BUSY for the slot of the active step or of the saved context and with INVALID
where R108 refuses it or, as the model has it, for a track head above 3 (log entry 13); the guard counts as clamped in
a step that is not windowed too (log entry 14), and the bits 4..7 of the head mask are disregarded (log entry 35), all
of which StoredStepsReadBack says of the bytes; BTMK
stages its marks, here one, and is refused with INVALID for an index beyond the table (R67, R108, R109). -/
def Obligations.SlotsAndMarksAreWritten : Prop :=
  ∀ (s : State) (tag b : Byte) (rest : List HostCommand),
    (∀ bs : List Byte, bs.length = 32 → Offered .stpw tag (b :: bs) rest s →
      let answers (st : Status) := exec .stpw s = .next (replied .stpw tag st [] rest s)
      ((64 ≤ b.toNat ∨ readStep bs = none) → answers .invalid) ∧
      ∀ (slot : Slot) (w : Written ScanStep), b.toNat = slot.val → readStep bs = some w →
        let busy := (∃ a, s.spe.active = some a ∧ a.slot = slot) ∨ ∃ c, s.spe.context = some c ∧ c.slot = slot
        (busy → answers .slotBusy) ∧
        (¬ busy → exec .stpw s = .next (replied .stpw tag (if w.clamped then .clamped else .ok) [] rest
          { s with spe := { s.spe with slots := s.spe.slots.set slot (some w.value) } }))) ∧
    (∀ (i : Byte) (m : Mark), Offered .btmk tag [1, i, if m = .exclude then 0 else 1] rest s →
      (s.bt.entries.length ≤ i.toNat → exec .btmk s = .next (replied .btmk tag .invalid [] rest s)) ∧
      ∀ e : BladeEntry, s.bt.entries[i.toNat]? = some e →
        exec .btmk s = .next (replied .btmk tag .ok [] rest { s with bt := { s.bt with
          entries := s.bt.entries.set i.toNat { e with pendingMark := some m } } }))

/-! ## Host commands of the other blocks -/

/-- IDNT answers the vendor, the part, the revision and the capacities, in every plan state, and changes nothing
(R170). -/
def Obligations.IdntIdentifiesPart : Prop :=
  ∀ (s : State) (tag b : Byte) (rest : List HostCommand), Offered .idnt tag [b] rest s →
    exec .idnt s = .next (replied .idnt tag .ok
      (ascii "Bramidor".toList ++ ascii "Orsuna 740".toList ++ [1] ++
        [4, 128, 64, 256, 512, 1024, 16, 256, 4, 32, 8, 2048].flatMap (natBytes 2)) rest s)

/-- STAT answers the controller as it stands and changes nothing: each item at its place in the ordinary form, and,
while the latch holds a record, the record, the secondary count and the fault counters after it (R151, R171, 13.5). The
line of each bit of the line levels is log entry 36, the mark of the halt taken for a record under STOP_NOW is log entry
15, and the 1 that the starvation flag and that mark send for yes is log entry 38. -/
def Obligations.StatReportsState : Prop :=
  ∀ (s : State) (tag b : Byte) (rest : List HostCommand), Offered .stat tag [b] rest s →
    let w := 4294967296
    ∃ d : List Byte, exec .stat s = .next (replied .stat tag .ok d rest s) ∧
      (natAt d 1 1 = planCode s.spe.state ∧
        natAt d 2 1 = s.spe.active.elim 255 (·.slot.val) ∧ natAt d 3 2 = s.spe.active.elim 0 (·.step.tag.toNat) ∧
        natAt d 5 1 = s.spe.pass % 256 ∧
        natAt d 6 1 = (match s.spe.interjection with
          | .none => 0
          | .pending _ => 1
          | .running => 2) ∧
        natAt d 7 1 = (match s.spe.interjection with
          | .pending slot => slot.val
          | _ => 255) ∧
        natAt d 8 1 = s.eu.referenced.toNat ∧ natAt d 9 4 = s.eu.count % w ∧ natAt d 13 4 = s.eu.revTime % w ∧
        natAt d 17 4 = radius s ∧ natAt d 21 2 = s.rs.credits % 65536 ∧ natAt d 23 2 = s.rs.frames.length % 65536 ∧
        natAt d 25 1 = s.rs.starved.toNat ∧ natAt d 26 1 = s.lp.notices.length % 256 ∧
        natAt d 27 4 = s.lp.counters.noticesLost % w ∧
        ∀ i : Fin 8, (natAt d 31 1).testBit i.val = lineHigh i s) ∧
      (s.spe.latch = none → natAt d 0 1 = 0 ∧ d.length = 32) ∧
      ∀ r : FaultRecord, s.spe.latch = some r → natAt d 0 1 = 1 ∧ d.length = 79 ∧
        natAt d 32 1 = (classIndex r.cls).val ∧ natAt d 33 1 = r.head.elim 255 headNum ∧
        natAt d 34 2 = r.tag.toNat ∧ natAt d 36 1 = r.pass % 256 ∧ natAt d 37 4 = r.tick.toNat ∧
        natAt d 41 1 = policyCode r.policy ∧ natAt d 42 1 = r.taken.toNat ∧ natAt d 43 4 = s.spe.secondary % w ∧
        ∀ i : Fin 8, natAt d (47 + 4 * i.val) 4 = s.spe.faultCounters[i] % w

/-- GETP answers every field of the group it names, in the order of chapter 13, or INVALID, in every plan state,
and changes nothing; a HEAD group's last field is the sequence counter (R173). -/
def Obligations.GetpReadsGroup : Prop :=
  ∀ (s : State) (tag g n : Byte) (rest : List HostCommand), Offered .getp tag [g, n] rest s →
    let answers (st : Status) (d : List Byte) := exec .getp s = .next (replied .getp tag st d rest s)
    (g = 0 → let p := s.eu.params
      answers .ok (natBytes 4 p.counts ++ [if p.indexCorrection then 1 else 0] ++ natBytes 1 p.indexTolerance ++
        natBytes 4 p.zeroOffset.toNat ++ intBytes 4 p.radialOffset ++ [if p.radialMinus then 1 else 0])) ∧
    (∀ h : Head, g = 1 → n.toNat = headNum h → let p := (s.hp.get h).params
      answers .ok ([if p.facing = .down then 0 else 1] ++ intBytes 4 p.reference ++ natBytes 4 p.latency ++
        natBytes 4 p.azimuth.toNat ++ natBytes 4 p.minSpacing ++ natBytes 4 p.timeout ++
        [if p.policy = .mark then 0 else if p.policy = .ignore then 1 else 2] ++ natBytes 1 p.priority ++
        natBytes 2 (s.tu.heads.get h).seq.toNat)) ∧
    (g = 2 → let p := s.bt.params
      answers .ok (natBytes 4 p.limit ++ natBytes 4 p.guard ++ natBytes 1 p.kMiss)) ∧
    (g = 3 → let p := s.spe.params
      answers .ok (natBytes 4 p.armTimeout ++ natBytes 1 p.interjectSlot.val ++
        p.policies.toList.map fun q => if q = .report then 0 else if q = .haltAtStepEnd then 1 else 2)) ∧
    ((3 < g.toNat ∨ g = 1 ∧ 3 < n.toNat) → answers .invalid [])

/-- BTRD, MPRD and CNTR read: the table's size, numbers, limit and entries from an index on; the map; and a set of
counters, which the clear option sets to 0 after they are read (R60, R99, R174, 13.4). The bits 3..7 of an entry's
pending byte are sent as 0 (log entry 39). -/
def Obligations.TablesAndCountersAreRead : Prop :=
  ∀ (s : State) (tag : Byte) (rest : List HostCommand),
    (∀ first count : Byte, Offered .btrd tag [first, count] rest s →
      let size := s.bt.entries.length
      (size ≤ first.toNat → exec .btrd s = .next (replied .btrd tag .invalid [] rest s)) ∧
      (first.toNat < size → size ≤ 128 → s.bt.params.limit ≤ 1048576 →
        let asked := max 1 (min 64 count.toNat)
        let n := min asked (size - first.toNat)
        let st := if asked = count.toNat then Status.ok else .clamped
        ∃ d : List Byte, exec .btrd s = .next (replied .btrd tag st d rest s) ∧ d.length = 9 + 28 * n ∧
          natAt d 0 1 = size ∧ natAt d 1 2 = s.bt.gen.toNat ∧ natAt d 3 2 = (s.bt.gen - 1).toNat ∧
          natAt d 5 3 = s.bt.params.limit ∧ natAt d 8 1 = n ∧
          ∀ i < n, ∃ e : BladeEntry, s.bt.entries[first.toNat + i]? = some e ∧
            bytesAt d (9 + 28 * i) 28 = entryBytes (first.toNat + i) e)) ∧
    (∀ b : Byte, Offered .mprd tag [b] rest s →
      ∃ d : List Byte, exec .mprd s = .next (replied .mprd tag .ok d rest s) ∧ d.length = 519 ∧
        natAt d 0 1 = mapStateCode s.rm.state ∧ natAt d 1 4 = s.rm.radius % 4294967296 ∧
        natAt d 5 2 = s.rm.gen.toNat ∧
        ∀ k : Fin 256, -32768 ≤ s.rm.bins[k] → s.rm.bins[k] ≤ 32767 → intAt d (7 + 2 * k.val) 2 = s.rm.bins[k]) ∧
    ∀ set n clear : Byte, Offered .cntr tag [set, n, clear] rest s →
      let reads (counters : List Nat) (cleared : State) := exec .cntr s =
        .next (replied .cntr tag .ok (counters.flatMap (natBytes 4)) rest (if clear = 0 then s else cleared))
      (∀ h : Head, set = 0 → n.toNat = headNum h →
        let k := (s.hp.get h).counters
        reads [k.issued, k.tooFast, k.overrun, k.noResponse, k.stray, k.corrupt, k.queueDrops, k.stale]
          { s with hp := s.hp.set h { s.hp.get h with counters := ⟨0, 0, 0, 0, 0, 0, 0, 0⟩ } }) ∧
      (set = 1 → reads [s.eu.quadErrors, s.eu.radialErrors]
        { s with eu := { s.eu with quadErrors := 0, radialErrors := 0 } }) ∧
      (set = 2 → reads s.spe.faultCounters.toList
        { s with spe := { s.spe with faultCounters := Vector.replicate 8 0 } }) ∧
      (set = 3 → let k := s.rs.counters
        reads [k.whole, k.headerOnly, k.lost, k.sent, k.episodes]
          { s with rs := { s.rs with counters := ⟨0, 0, 0, 0, 0⟩ } }) ∧
      (set = 4 → let k := s.lp.counters
        reads [k.commands, k.lengthDiscards, k.gapDiscards, k.checkDiscards, k.kindDiscards, k.overloads,
          k.noticesLost] { s with lp := { s.lp with counters := ⟨0, 0, 0, 0, 0, 0, 0⟩ } }) ∧
      ((4 < set.toNat ∨ set = 0 ∧ 3 < n.toNat) → exec .cntr s = .next (replied .cntr tag .invalid [] rest s))

/-- SETP of the ENCODER and of a HEAD group: LOCKED outside IDLE; in IDLE each named field takes its value,
clamped, each other field keeps its own, a change of N does what R18 says, and the reply tells of a clamp and
carries the group (R17, R18, R35, R37, R172). -/
def Obligations.SetpWritesEncoderAndHead : Prop :=
  ∀ (s : State) (tag g n : Byte) (args : List Byte) (rest : List HostCommand),
    Offered .setp tag (g :: n :: args) rest s →
    let m := natAt args 0 2
    let v := args.drop 2
    let num (i lo hi old new : Nat) : Nat := if m.testBit i then max lo (min hi new) else old
    let out (i lo hi new : Nat) : Prop := m.testBit i = true ∧ (new < lo ∨ hi < new)
    let sgn (i : Nat) (lo hi old new : Int) : Int := if m.testBit i then max lo (min hi new) else old
    let outSgn (i : Nat) (lo hi new : Int) : Prop := m.testBit i = true ∧ (new < lo ∨ hi < new)
    (g = 0 →
      let answers (st : Status) (d : List Byte) (t : State) :=
        exec .setpEncoder s = .next (replied .setp tag st d rest t)
      (args.length ≠ 17 → answers .badLength [] s) ∧
      (args.length = 17 → s.spe.state ≠ .idle → answers .locked [] s) ∧
      (args.length = 17 → s.spe.state = .idle →
        let o := s.eu.params
        let p : EncoderParams :=
          { counts := num 0 4096 1048576 o.counts (natAt v 0 4)
            indexCorrection := if m.testBit 1 then natAt v 4 1 != 0 else o.indexCorrection
            indexTolerance := num 2 0 15 o.indexTolerance (natAt v 5 1)
            zeroOffset := BitVec.ofNat 24 (num 3 0 16777215 o.zeroOffset.toNat (natAt v 6 4))
            radialOffset := sgn 4 (-16000000) 16000000 o.radialOffset (intAt v 10 4)
            radialMinus := if m.testBit 5 then natAt v 14 1 != 0 else o.radialMinus }
        let clamped := out 0 4096 1048576 (natAt v 0 4) ∨ out 1 0 1 (natAt v 4 1) ∨ out 2 0 15 (natAt v 5 1) ∨
          out 3 0 16777215 (natAt v 6 4) ∨ outSgn 4 (-16000000) 16000000 (intAt v 10 4) ∨ out 5 0 1 (natAt v 14 1)
        let e := if p.counts = o.counts then { s.eu with params := p } else
          { s.eu with
            params := p, count := 0, referenced := false, netRevs := 0, highWater := 0, lastRev := none, revTime := 0
            ring := [], stallStart := s.eu.tick, stallRaised := false }
        (clamped → answers .clamped (encoderBytes p) { s with eu := e }) ∧
        (¬ clamped → answers .ok (encoderBytes p) { s with eu := e }))) ∧
    (g = 1 →
      let answers (st : Status) (d : List Byte) (t : State) :=
        exec .setpHead s = .next (replied .setp tag st d rest t)
      (3 < n.toNat → answers .invalid [] s) ∧
      ∀ h : Head, n.toNat = headNum h →
        (args.length ≠ 27 → answers .badLength [] s) ∧
        (args.length = 27 → s.spe.state ≠ .idle → answers .locked [] s) ∧
        (args.length = 27 → s.spe.state = .idle →
          let o := (s.hp.get h).params
          let x := s.tu.heads.get h
          let p : HeadParams :=
            { facing := if m.testBit 0 then (if natAt v 0 1 = 0 then .down else .up) else o.facing
              reference := sgn 1 (-8388608) 8388607 o.reference (intAt v 1 4)
              latency := num 2 0 65535 o.latency (natAt v 5 4)
              azimuth := BitVec.ofNat 24 (num 3 0 16777215 o.azimuth.toNat (natAt v 9 4))
              minSpacing := num 4 2000 1000000 o.minSpacing (natAt v 13 4)
              timeout := num 5 1000 1000000 o.timeout (natAt v 17 4)
              policy := if m.testBit 6 then
                (if natAt v 21 1 = 0 then .mark else if natAt v 21 1 = 1 then .ignore else .fault) else o.policy
              priority := num 7 0 3 o.priority (natAt v 22 1) }
          let seq : Seq := BitVec.ofNat 12 (num 8 0 4095 x.seq.toNat (natAt v 23 2))
          let clamped := out 0 0 1 (natAt v 0 1) ∨ outSgn 1 (-8388608) 8388607 (intAt v 1 4) ∨
            out 2 0 65535 (natAt v 5 4) ∨ out 3 0 16777215 (natAt v 9 4) ∨ out 4 2000 1000000 (natAt v 13 4) ∨
            out 5 1000 1000000 (natAt v 17 4) ∨ out 6 0 2 (natAt v 21 1) ∨ out 7 0 3 (natAt v 22 1) ∨
            out 8 0 4095 (natAt v 23 2)
          let t := { s with
            hp := s.hp.set h { s.hp.get h with params := p }
            tu := { s.tu with heads := s.tu.heads.set h { x with seq := seq } } }
          (clamped → answers .clamped (headBytes p seq) t) ∧ (¬ clamped → answers .ok (headBytes p seq) t)))

/-- SETP of the TRACK and of the PLAN group: refused with BAD_LENGTH for arguments of another length than the group's
(R169, R172). Each named field takes its value, a scalar at the nearest end of its range, each other field keeps its own
and is not examined, and the reply, CLAMPED when a named value was brought to its range, carries the group. TRACK: a
write that names the tracking limit is LOCKED outside IDLE, the others are not; a new limit clamps the offsets beyond
it, which makes a generation, and each ACTIVE or MISSING blade it clamps becomes DISPLACED with a BLST notice of cause
LIMIT, in ascending index order (R70, R71, R172, log entry 28). PLAN: in every plan state; a policy code outside the
three is stored as STOP_NOW, and the policy of STEP_INVALID is STOP_NOW whatever is written, CLAMPED when another value
is (R128, R142, R172). -/
def Obligations.SetpWritesTrackAndPlan : Prop :=
  ∀ (s : State) (tag g n : Byte) (args : List Byte) (rest : List HostCommand),
    Offered .setp tag (g :: n :: args) rest s →
    let m := natAt args 0 2
    let v := args.drop 2
    let num (i lo hi old new : Nat) : Nat := if m.testBit i then max lo (min hi new) else old
    let out (i lo hi new : Nat) : Prop := m.testBit i = true ∧ (new < lo ∨ hi < new)
    (g = 2 → args.length ≠ 11 → exec .setpTrack s = .next (replied .setp tag .badLength [] rest s)) ∧
    (g = 3 → args.length ≠ 15 → exec .setpPlan s = .next (replied .setp tag .badLength [] rest s)) ∧
    (g = 2 → args.length = 11 →
      let o := s.bt.params
      let p : TrackParams := ⟨num 0 0 1048576 o.limit (natAt v 0 4), num 1 0 1048576 o.guard (natAt v 4 4),
        num 2 1 15 o.kMiss (natAt v 8 1)⟩
      let clamped := out 0 0 1048576 (natAt v 0 4) ∨ out 1 0 1048576 (natAt v 4 4) ∨ out 2 1 15 (natAt v 8 1)
      let answers (t : State) :=
        (clamped → exec .setpTrack s = .next (replied .setp tag .clamped (trackBytes p) rest t)) ∧
        (¬ clamped → exec .setpTrack s = .next (replied .setp tag .ok (trackBytes p) rest t))
      (m.testBit 0 = true → s.spe.state ≠ .idle →
        exec .setpTrack s = .next (replied .setp tag .locked [] rest s)) ∧
      ((m.testBit 0 = false ∨ s.spe.state = .idle) →
        (p.limit = o.limit ∨ ∀ e ∈ s.bt.entries, e.offset.natAbs ≤ p.limit) →
        answers { s with bt := { s.bt with params := p } }) ∧
      (m.testBit 0 = true → s.spe.state = .idle → p.limit ≠ o.limit →
        (∃ e ∈ s.bt.entries, p.limit < e.offset.natAbs) →
        let f (e : BladeEntry) : BladeEntry :=
          if e.offset.natAbs ≤ p.limit then e
          else { e with offset := if e.offset < 0 then -(p.limit : Int) else p.limit
                        state := if e.state = .excluded then .excluded else .displaced }
        let said := s.bt.entries.zipIdx.flatMap fun x => bladeSaid x.2 (s.bt.gen + 1) .limit x.1 (f x.1)
        s.lp.notices.length + said.length ≤ 32 →
        answers { s with
          bt := { s.bt with params := p, gen := s.bt.gen + 1, previous := s.bt.current
                            entries := s.bt.entries.map f, current := (s.bt.entries.map f).map windowOf }
          lp := { s.lp with notices := s.lp.notices ++ said } })) ∧
    (g = 3 → args.length = 15 →
      let o := s.spe.params
      let written (i : Nat) := natAt v (5 + i) 1
      let clamped := out 0 100 60000 (natAt v 0 4) ∨ out 1 0 63 (natAt v 4 1) ∨
        (∃ i < 7, out (2 + i) 0 2 (written i)) ∨ (m.testBit 9 = true ∧ written 7 ≠ 2)
      ∃ p : PlanParams,
        let answers (st : Status) := exec .setpPlan s =
          .next (replied .setp tag st (planBytes p) rest { s with spe := { s.spe with params := p } })
        (clamped → answers .clamped) ∧ (¬ clamped → answers .ok) ∧
        p.armTimeout = num 0 100 60000 o.armTimeout (natAt v 0 4) ∧
        p.interjectSlot.val = num 1 0 63 o.interjectSlot.val (natAt v 4 1) ∧ p.policies[7] = .stopNow ∧
        ∀ i : Fin 8, i.val < 7 → p.policies[i] =
          (if m.testBit (2 + i.val) then
            (if written i.val = 0 then .report else if written i.val = 1 then .haltAtStepEnd else .stopNow)
          else o.policies[i]))

/-- BTLD, MPLD and MPCL replace a table or a map whole in IDLE and are refused with LOCKED outside it: BTLD a
table that passes the tests of R58, into both window sets; MPLD a map with a learning radius in range; each under
the next number, which the reply carries (R58, R59, R97, R98). -/
def Obligations.TablesAreLoadedInIdle : Prop :=
  ∀ (s : State) (tag : Byte) (rest : List HostCommand),
    (∀ ls : List BladeLoad, ls.length < 256 → (∀ l ∈ ls, l.id < 65536 ∧ l.nominal < 4294967296 ∧ l.width < 16777216) →
      Offered .btld tag (natBytes 1 ls.length ++
        ls.flatMap fun l => natBytes 2 l.id ++ natBytes 4 l.nominal ++ natBytes 3 l.width) rest s →
      let ok := ls.length ≤ 128 ∧ (∀ l ∈ ls, l.nominal ≤ 16777215 ∧ 16 ≤ l.width ∧ l.width ≤ 4194304) ∧
        (∀ (i : Nat) (a b : BladeLoad), ls[i]? = some a → ls[i + 1]? = some b →
          a.nominal < b.nominal ∧ a.nominal + a.width ≤ b.nominal) ∧
        (ls.map (·.id)).Nodup ∧
        ∀ a z : BladeLoad, ls.head? = some a → ls.getLast? = some z → 2 ≤ ls.length →
          z.nominal + z.width ≤ a.nominal + 16777216
      let es := ls.map fun l => (⟨BitVec.ofNat 16 l.id, BitVec.ofNat 24 l.nominal, l.width, 0, 0, 0, .active, 0, none,
        none⟩ : BladeEntry)
      let ws := ls.map fun l => (⟨BitVec.ofNat 16 l.id, BitVec.ofNat 24 l.nominal, l.width, false⟩ : Window)
      (s.spe.state ≠ .idle → exec .btld s = .next (replied .btld tag .locked [] rest s)) ∧
      (s.spe.state = .idle → ¬ ok → exec .btld s = .next (replied .btld tag .invalid [] rest s)) ∧
      (s.spe.state = .idle → ok →
        exec .btld s = .next (replied .btld tag .ok (natBytes 2 (s.bt.gen + 1).toNat) rest { s with
          bt := { s.bt with entries := es, current := ws, previous := ws, gen := s.bt.gen + 1 } }))) ∧
    (∀ (r : Nat) (bins : Vector Int 256), r < 4294967296 → (∀ k : Fin 256, -32768 ≤ bins[k] ∧ bins[k] ≤ 32767) →
      Offered .mpld tag (natBytes 4 r ++ bins.toList.flatMap (intBytes 2)) rest s →
      (s.spe.state ≠ .idle → exec .mpld s = .next (replied .mpld tag .locked [] rest s)) ∧
      (s.spe.state = .idle → (r = 0 ∨ 8000000 < r) →
        exec .mpld s = .next (replied .mpld tag .invalid [] rest s)) ∧
      (s.spe.state = .idle → 1 ≤ r → r ≤ 8000000 →
        exec .mpld s = .next (replied .mpld tag .ok (natBytes 2 (s.rm.gen + 1).toNat) rest { s with
          rm := { s.rm with bins := bins, state := .loaded, radius := r, gen := s.rm.gen + 1 } }))) ∧
    ∀ b : Byte, Offered .mpcl tag [b] rest s →
      (s.spe.state ≠ .idle → exec .mpcl s = .next (replied .mpcl tag .locked [] rest s)) ∧
      (s.spe.state = .idle →
        exec .mpcl s = .next (replied .mpcl tag .ok (natBytes 2 (s.rm.gen + 1).toNat) rest { s with
          rm := { s.rm with bins := Vector.replicate 256 0, state := .empty, radius := 0, gen := s.rm.gen + 1 } }))

/-- GRNT raises the credit count, saturating at 4,095, and ends a starvation episode when it leaves credits; a
command whose keyword names none is answered UNKNOWN; RSET turns the commands behind it into OVERLOAD answers and
marks the reset that is awaited (R160, R161, R169, R177). -/
def Obligations.GrantsUnknownsAndResets : Prop :=
  ∀ (s : State) (tag : Byte) (rest : List HostCommand),
    (∀ hi lo : Byte, Offered .grnt tag [hi, lo] rest s →
      let sum := s.rs.credits + (hi.toNat * 256 + lo.toNat)
      let credits := min sum 4095
      exec .grnt s = .next (replied .grnt tag (if 4095 < sum then .clamped else .ok) (natBytes 2 credits) rest
        { s with rs := { s.rs with credits := credits, starved := if credits = 0 then s.rs.starved else false } })) ∧
    (∀ body : List Byte, s.resetHeld = false → s.lp.reply = none → s.lp.resetMark = false →
      s.lp.queue = ⟨tag, body⟩ :: rest → (∀ k : Keyword, keywordBytes k ≠ body.take 4) →
      exec .unknown s = .next { s with
        lp := { s.lp with queue := rest, reply := some ⟨tag, body.take 4, .unknown, []⟩ } }) ∧
    ∀ b : Byte, Offered .rset tag [b] rest s →
      exec .rset s = .next (replied .rset tag .ok [] [] { s with lp := { s.lp with
        resetMark := true
        overload := s.lp.overload ++ rest.map (fun c => ⟨c.tag, c.body.take 4⟩)
        counters := { s.lp.counters with overloads := satInc^[rest.length] s.lp.counters.overloads } } })

/-! ## Auxiliary lines -/

/-- AXAS gives a line its function and polarity, outside SETTLING with no other effect, and is refused with INVALID for
codes beyond its tables; AXWR sets the levels its mask names; each reply carries the lines' levels after it (R181,
R185, R186); that line i stands in bit i is the model's (log entry 36). -/
def Obligations.LinesAreAssignedAndWritten : Prop :=
  ∀ (s : State) (tag : Byte) (rest : List HostCommand),
    (∀ n f p : Byte, Offered .axas tag [n, f, p] rest s →
      ((8 ≤ n.toNat ∨ 16 ≤ f.toNat ∨ 2 ≤ p.toNat) →
        exec .axas s = .next (replied .axas tag .invalid [] rest s)) ∧
      ∀ (i : Fin 8) (fn : AuxFunction), n.toNat = i.val → f.toNat = auxFunctionCode fn → p.toNat < 2 →
        s.spe.state ≠ .settling →
        let t := { s with ax := { s.ax with lines := s.ax.lines.set i ⟨fn, p == 1, s.ax.lines[i].outside⟩ } }
        exec .axas s = .next (replied .axas tag .ok [n, f, p, if lineHigh i t then 1 else 0] rest t)) ∧
    ∀ mask levels : Byte, Offered .axwr tag [mask, levels] rest s →
      let general := Vector.ofFn fun i : Fin 8 => if mask.getLsbD i.val then levels.getLsbD i.val else s.ax.general[i]
      let t := { s with ax := { s.ax with general := general } }
      ∃ held high : Byte, exec .axwr s = .next (replied .axwr tag .ok [held, high] rest t) ∧
        ∀ i : Fin 8, held.getLsbD i.val = general[i] ∧ high.getLsbD i.val = lineHigh i t

/-- A line's level change: a line of no input function that acts by an edge or of INPOS_IN only takes the level; a
line of an edge function acts when the function goes active with no other line of it active: RADIAL_HOME_IN sets Cr to 0
outside SETTLING and ACQUIRING; STOP_IN tears the run down with RSTP, and is disregarded in IDLE and FAULTED;
INTERJECT_IN asks for the slot of the PLAN group; INDEX_IN brings an index; and a falling level, or one beside another
active line, makes no edge (R4 to R6, R14, R126, R127, R130, R182, log entry 5). -/
def Obligations.LineChangesMakeEdges : Prop :=
  ∀ (s : State) (after : Nat) (i : Fin 8) (high : Bool) (order : List Taker), s.resetHeld = false →
    let u := elapse after s
    let t := { u with ax := { s.ax with lines := s.ax.lines.set i { s.ax.lines[i] with outside := high } } }
    let line := s.ax.lines[i]
    let goesActive := line.outside = line.activeLow ∧ high ≠ line.activeLow ∧
      ∀ j : Fin 8, j ≠ i → s.ax.lines[j].function = line.function → s.ax.lines[j].outside = s.ax.lines[j].activeLow
    let moves := exec (.auxLineChange after i high order) s
    (line.function ∉ [.inposIn, .radialHomeIn, .stopIn, .interjectIn, .indexIn] → moves = .next t) ∧
    (line.function ≠ .inposIn → ¬ goesActive → moves = .next t) ∧
    (line.function = .inposIn → s.spe.state ≠ .settling → moves = .next t) ∧
    (line.function = .stopIn → (s.spe.state = .idle ∨ s.spe.state = .faulted) → moves = .next t) ∧
    (line.function = .stopIn → goesActive → s.spe.state ≠ .idle → s.spe.state ≠ .faulted → s.spe.latch = none →
      s.lp.notices.length < 32 → ∀ a, s.spe.active = some a →
      ∃ v : State, moves = .next v ∧ tornDown a t v ∧ v.bus.raisings = s.bus.raisings ∧
        v.spe = { planAtRest .idle s.spe with drift := false } ∧
        v.lp = { s.lp with notices := s.lp.notices ++
          [.runStopped true a.slot a.step.tag a.runId s.spe.state s.spe.pass (openInOrder s).length] }) ∧
    (line.function = .radialHomeIn → goesActive → s.spe.state ≠ .settling → s.spe.state ≠ .acquiring →
      moves = .next { t with eu := { u.eu with radial := 0 } }) ∧
    (line.function = .interjectIn → goesActive → takingSamples s.spe.state → s.spe.interjection = .none →
      s.spe.active ≠ none →
      moves = .next { t with spe := { s.spe with interjection := .pending s.spe.params.interjectSlot } }) ∧
    (line.function = .indexIn → goesActive →
      (s.eu.direction = .reverse → moves = .next t) ∧
      (s.eu.direction = .forward → s.eu.referenced = false → s.spe.state ≠ .settling → s.lp.notices.length < 32 →
        moves = .next { t with
          eu := { u.eu with count := 0, referenced := true }
          lp := { s.lp with notices := s.lp.notices ++ [.referenced u.eu.tick] } }) ∧
      (s.eu.direction = .forward → s.eu.referenced = true → 2 * s.eu.count < s.eu.params.counts →
        s.spe.state ≠ .tail →
        moves = .next { t with
          eu := { u.eu with count := if s.eu.params.indexCorrection then 0 else s.eu.count }
          bus := { s.bus with raisings := s.bus.raisings ++
            (if s.eu.params.indexTolerance < s.eu.count ∧ s.spe.state ≠ .idle then
              [raisingOf .indexSlip none u] else []) } }))
end

