-- ==== Sys2Proof/Laws/State.lean ====
section
/-! SUPPORT. The fields of State under the updates that the operations are made of: each lemma is true by unfolding,
so that no later proof unfolds a record update. -/

namespace Sys2Proof.Machine

/-! ## One value for each head -/

@[simp] theorem PerHead.get_set_self {α : Type} (v : PerHead α) (h : Head) (x : α) : (v.set h x).get h = x := by
  cases h <;> rfl

@[simp] theorem PerHead.get_set_ne {α : Type} (v : PerHead α) {g h : Head} (x : α) (hne : g ≠ h) :
    (v.set h x).get g = v.get g := by
  cases g <;> cases h <;> first | rfl | exact absurd rfl hne

theorem PerHead.get_set {α : Type} (v : PerHead α) (g h : Head) (x : α) :
    (v.set h x).get g = if g = h then x else v.get g := by
  by_cases e : g = h
  · subst e; simp
  · simp [e]

@[simp] theorem PerHead.get_map {α β : Type} (f : α → β) (v : PerHead α) (h : Head) : (v.map f).get h = f (v.get h) := by
  cases h <;> rfl

@[simp] theorem PerHead.get_all {α : Type} (x : α) (h : Head) : (PerHead.all x).get h = x := by
  cases h <;> rfl

@[simp] theorem PerHead.set_get_self {α : Type} (v : PerHead α) (h : Head) : v.set h (v.get h) = v := by
  cases h <;> rfl

@[simp] theorem PerHead.set_set {α : Type} (v : PerHead α) (h : Head) (x y : α) : (v.set h x).set h y = v.set h y := by
  cases h <;> rfl

/-- Two values for each head are equal when they agree at every head. -/
theorem PerHead.ext_get {α : Type} {v w : PerHead α} (e : ∀ h, v.get h = w.get h) : v = w := by
  have e0 := e .h0
  have e1 := e .h1
  have e2 := e .h2
  have e3 := e .h3
  cases v; cases w
  simp_all [PerHead.get]

theorem mem_heads (h : Head) : h ∈ heads := by cases h <;> decide

/-! ## The basic updates -/

@[simp] theorem elapse_eu (after : Nat) (s : State) :
    (elapse after s).eu = { s.eu with tick := s.eu.tick + BitVec.ofNat 32 after } := rfl

@[simp] theorem queueNotice_lp (n : Notice) (s : State) : (queueNotice n s).lp = linkNotice n s.lp := rfl

@[simp] theorem queueNotices_lp (ns : List Notice) (s : State) :
    (queueNotices ns s).lp = ns.foldl (fun l n => linkNotice n l) s.lp := rfl

@[simp] theorem sendRaising_bus (r : Raising) (s : State) :
    (sendRaising r s).bus = { s.bus with raisings := s.bus.raisings ++ [r] } := rfl

@[simp] theorem onPort_hp (h : Head) (f : HeadPort → HeadPort) (s : State) :
    (onPort h f s).hp = s.hp.set h (f (s.hp.get h)) := rfl

@[simp] theorem onCounters_hp (h : Head) (f : HeadCounters → HeadCounters) (s : State) :
    (onCounters h f s).hp = s.hp.set h { s.hp.get h with counters := f (s.hp.get h).counters } := rfl

@[simp] theorem onTrigger_tu (h : Head) (f : TriggerHead → TriggerHead) (s : State) :
    (onTrigger h f s).tu = { s.tu with heads := s.tu.heads.set h (f (s.tu.heads.get h)) } := rfl

@[simp] theorem onDetector_pe (h : Head) (f : Detector → Detector) (s : State) :
    (onDetector h f s).pe = { s.pe with detectors := s.pe.detectors.set h (f (s.pe.detectors.get h)) } := rfl

@[simp] theorem onPlan_spe (f : ScanPlan → ScanPlan) (s : State) : (onPlan f s).spe = f s.spe := rfl

@[simp] theorem onEncoder_eu (f : Encoder → Encoder) (s : State) : (onEncoder f s).eu = f s.eu := rfl

@[simp] theorem onLink_lp (f : LinkPort → LinkPort) (s : State) : (onLink f s).lp = f s.lp := rfl

@[simp] theorem onAcc_rm (f : Accumulators → Accumulators) (s : State) :
    (onAcc f s).rm = { s.rm with acc := f s.rm.acc } := rfl

@[simp] theorem onStoreCounters_rs (f : StoreCounters → StoreCounters) (s : State) :
    (onStoreCounters f s).rs = { s.rs with counters := f s.rs.counters } := rfl

@[simp] theorem onStepCounters_spe (f : StepCounters → StepCounters) (s : State) :
    (onStepCounters f s).spe = { s.spe with counters := f s.spe.counters } := rfl

@[simp] theorem onLine_ax (i : Fin 8) (f : AuxLine → AuxLine) (s : State) :
    (onLine i f s).ax = { s.ax with lines := s.ax.lines.set i (f s.ax.lines[i]) } := rfl

@[simp] theorem appendFrames_rs (fs : List DataFrame) (s : State) :
    (appendFrames fs s).rs = { s.rs with frames := s.rs.frames ++ fs } := rfl

@[simp] theorem reportAdmission_bus (o : Outcome3) (r : SectionRecord) (s : State) :
    (reportAdmission o r s).bus =
      { s.bus with stored := s.bus.stored ++ [⟨o, r.runId, hasFlag .aborted r.flags⟩] } := rfl

@[simp] theorem setGuards_bt (guard kMiss : Nat) (s : State) :
    (setGuards guard kMiss s).bt = { s.bt with params := { s.bt.params with guard := guard, kMiss := kMiss } } := rfl

@[simp] theorem withPending_pending (q : List Instr) (s : State) : (withPending q s).pending = q := rfl

@[simp] theorem stopTails_tu (s : State) :
    (stopTails s).tu = ⟨s.tu.heads.map fun t => { t with tail := .none }, none⟩ := rfl

@[simp] theorem emptyPorts_hp (s : State) :
    (emptyPorts s).hp = s.hp.map fun p => { p with outstanding := [], queue := [] } := rfl

/-! ## The form of a meaning -/

/-- What a command that a running controller takes answers. -/
theorem running_next (f : State → State) (s : State) (h : s.resetHeld = false) : running f s = .next (f s) := by
  simp [running, h]

/-- While the reset line is asserted, such a command changes nothing (R179). -/
theorem running_held (f : State → State) (s : State) (h : s.resetHeld = true) : running f s = .next s := by
  simp [running, h]

/-- An event takes place `after` ticks later. -/
theorem event_next (after : Nat) (f : State → State) (s : State) (h : s.resetHeld = false) :
    event after f s = .next (f (elapse after s)) := by
  simp [event, running, h]

/-- While the reset line is asserted, an event changes nothing (R179). -/
theorem event_held (after : Nat) (f : State → State) (s : State) (h : s.resetHeld = true) :
    event after f s = .next s := by
  simp [event, running, h]

end Sys2Proof.Machine
end

