-- ==== Sys2Proof/Laws/Exec.lean ====
section
/-! SUPPORT. What each command answers: for an event and for what the controller does on its own account, the operation
it is while the reset line is not asserted; for a host command, the reply to the command at the front of the queue. -/

namespace Sys2Proof.Machine

/-! ## Host commands -/

theorem keywordBytes_length (k : Keyword) : (keywordBytes k).length = 4 := by cases k <;> rfl

/-- A command's keyword is read back (R165, R169). -/
theorem commandNames_keyword (k : Keyword) (tag : Byte) (args : List Byte) :
    commandNames ⟨tag, keywordBytes k ++ args⟩ = some k := by
  have h : commandKeyword ⟨tag, keywordBytes k ++ args⟩ = keywordBytes k := by
    simp only [commandKeyword]
    rw [← keywordBytes_length k, List.take_left']
    rfl
  unfold commandNames
  rw [h]
  cases k <;> decide

theorem commandKeyword_keyword (k : Keyword) (tag : Byte) (args : List Byte) :
    commandKeyword ⟨tag, keywordBytes k ++ args⟩ = keywordBytes k := by
  simp only [commandKeyword]
  rw [← keywordBytes_length k, List.take_left']
  rfl

theorem commandArgs_keyword (k : Keyword) (tag : Byte) (args : List Byte) :
    commandArgs ⟨tag, keywordBytes k ++ args⟩ = args := by
  simp only [commandArgs]
  rw [← keywordBytes_length k, List.drop_left']
  rfl

/-- An offered command is executed on the state whose queue it has left, and its reply placed in the slot (R167,
R169). -/
theorem executeCommand_offered {k : Keyword} {tag : Byte} {args : List Byte} {rest : List HostCommand} {s : State}
    (mine : HostCommand → Bool) (f : List Byte → State → Executed) (ho : Offered k tag args rest s)
    (hm : mine ⟨tag, keywordBytes k ++ args⟩ = true) :
    running (executeCommand mine f) s =
      let e := f args (onLink (fun l => { l with queue := rest }) s)
      .next (onLink (fun l => { l with reply := some ⟨tag, keywordBytes k, e.status, e.data⟩ }) e.after) := by
  obtain ⟨h1, h2, h3, h4⟩ := ho
  rw [running_next _ _ h1]
  have hn : nextCommand s = some (⟨tag, keywordBytes k ++ args⟩, rest) := by simp [nextCommand, h2, h3, h4]
  simp only [executeCommand, hn, hm, replyTo, commandArgs_keyword, commandKeyword_keyword, if_true]

/-- The same for the row of the command's keyword. -/
theorem hostCommand_offered {k : Keyword} {tag : Byte} {args : List Byte} {rest : List HostCommand} {s : State}
    (f : List Byte → State → Executed) (ho : Offered k tag args rest s) :
    hostCommand k f s =
      let e := f args (onLink (fun l => { l with queue := rest }) s)
      .next (onLink (fun l => { l with reply := some ⟨tag, keywordBytes k, e.status, e.data⟩ }) e.after) :=
  executeCommand_offered _ f ho (by simp [commandNames_keyword])

/-! ## Events, and what the controller does on its own account -/

theorem exec_tableEdge (after : Nat) (edge : Transition) (order : List Taker) (s : State) (h : s.resetHeld = false) :
    exec (.tableEdge after edge order) s = .next (tableTransition edge order (elapse after s)) := event_next _ _ s h

theorem exec_index (after : Nat) (order : List Taker) (s : State) (h : s.resetHeld = false) :
    exec (.index after order) s = .next (dedicatedIndex order (elapse after s)) := event_next _ _ s h

theorem exec_ringExpiry (after : Nat) (s : State) (h : s.resetHeld = false) :
    exec (.ringExpiry after) s = .next (ringExpires (elapse after s)) := event_next _ _ s h

theorem exec_stall (after : Nat) (s : State) (h : s.resetHeld = false) :
    exec (.stall after) s = .next (stallExpires (elapse after s)) := event_next _ _ s h

theorem exec_radialEdge (after : Nat) (edge : Transition) (s : State) (h : s.resetHeld = false) :
    exec (.radialEdge after edge) s = .next (radialTransition edge (elapse after s)) := event_next _ _ s h

theorem exec_millisecondBoundary (after : Nat) (s : State) (h : s.resetHeld = false) :
    exec (.millisecondBoundary after) s = .next (millisecond (elapse after s)) := event_next _ _ s h

theorem exec_timeDueInstant (after : Nat) (s : State) (h : s.resetHeld = false) :
    exec (.timeDueInstant after) s = .next (timeDue (elapse after s)) := event_next _ _ s h

theorem exec_triggerPulseEnd (after : Nat) (head : Head) (s : State) (h : s.resetHeld = false) :
    exec (.triggerPulseEnd after head) s = .next (pulseOver head (elapse after s)) := event_next _ _ s h

theorem exec_lastTriggerExpiry (after : Nat) (head : Head) (s : State) (h : s.resetHeld = false) :
    exec (.lastTriggerExpiry after head) s = .next (forgetTrigger head (elapse after s)) := event_next _ _ s h

theorem exec_headWord (after : Nat) (head : Head) (bytes : List LineByte) (s : State) (h : s.resetHeld = false) :
    exec (.headWord after head bytes) s = .next (takeWordBytes head bytes (elapse after s)) := event_next _ _ s h

theorem exec_headWordGap (after : Nat) (head : Head) (s : State) (h : s.resetHeld = false) :
    exec (.headWordGap after head) s = .next (wordGapEnds head (elapse after s)) := event_next _ _ s h

theorem exec_responseTimeout (after : Nat) (head : Head) (s : State) (h : s.resetHeld = false) :
    exec (.responseTimeout after head) s = .next (frontTimesOut head (elapse after s)) := event_next _ _ s h

theorem exec_placementGrant (s : State) (h : s.resetHeld = false) :
    exec .placementGrant s = .next (grantSample s) := running_next _ s h

theorem exec_placementEnd (after : Nat) (s : State) (h : s.resetHeld = false) :
    exec (.placementEnd after) s = .next (endPlacement (elapse after s)) := event_next _ _ s h

theorem exec_trackingPost (s : State) (h : s.resetHeld = false) :
    exec .trackingPost s = .next (takePosted s) := running_next _ s h

theorem exec_recordReport (s : State) (h : s.resetHeld = false) :
    exec .recordReport s = .next (takeReport s) := running_next _ s h

theorem exec_recordAdmission (choice : Nat) (s : State) (h : s.resetHeld = false) :
    exec (.recordAdmission choice) s = .next (takeHanded choice s) := running_next _ s h

theorem exec_admissionReport (s : State) (h : s.resetHeld = false) :
    exec .admissionReport s = .next (takeAdmission s) := running_next _ s h

theorem exec_stepCompletion (s : State) (h : s.resetHeld = false) :
    exec .stepCompletion s = .next (completeStep s) := running_next _ s h

theorem exec_interjectionTailEnd (s : State) (h : s.resetHeld = false) :
    exec .interjectionTailEnd s = .next (finishInterjectionTail s) := running_next _ s h

theorem exec_faultRaise (choice : Nat) (s : State) (h : s.resetHeld = false) :
    exec (.faultRaise choice) s = .next (takeRaising choice s) := running_next _ s h

theorem exec_frameReceived (after : Nat) (bytes : List LineByte) (s : State) (h : s.resetHeld = false) :
    exec (.frameReceived after bytes) s = .next (takeLinkBytes bytes (elapse after s)) := event_next _ _ s h

theorem exec_linkGap (after : Nat) (s : State) (h : s.resetHeld = false) :
    exec (.linkGap after) s = .next (onLink (linkGapEnds (elapse after s).eu.tick) (elapse after s)) := event_next _ _ s h

theorem exec_frameSendStart (s : State) (h : s.resetHeld = false) :
    exec .frameSendStart s = .next (selectOutput s) := running_next _ s h

theorem exec_frameSendEnd (after : Nat) (s : State) (h : s.resetHeld = false) :
    exec (.frameSendEnd after) s = .next (endSending (elapse after s)) := event_next _ _ s h

theorem exec_auxPulseEnd (after : Nat) (output : PulsedOutput) (s : State) (h : s.resetHeld = false) :
    exec (.auxPulseEnd after output) s = .next (endPulse output (elapse after s)) := event_next _ _ s h

end Sys2Proof.Machine
end

