-- ==== Sys2Proof/Laws/Frames.lean ====
section
/-! SUPPORT. What each operation leaves alone: one lemma per operation, naming every block that it does not touch. -/

namespace Sys2Proof.Machine

/-- A property of the state that every step of a fold keeps is kept by the fold. -/
theorem foldl_frame {α β : Type} (g : State → β) (f : State → α → State) (hf : ∀ s x, g (f s x) = g s) (xs : List α)
    (s : State) : g (xs.foldl f s) = g s := by
  induction xs generalizing s with
  | nil => rfl
  | cons x xs ih => simp only [List.foldl_cons]; rw [ih, hf]

@[simp] theorem elapse_frame (after : Nat) (s : State) :
    (elapse after s).tu = s.tu ∧ (elapse after s).hp = s.hp ∧ (elapse after s).pe = s.pe ∧ (elapse after s).bt = s.bt ∧ (elapse after s).rm = s.rm ∧ (elapse after s).spe = s.spe ∧ (elapse after s).rs = s.rs ∧ (elapse after s).lp = s.lp ∧ (elapse after s).ax = s.ax ∧ (elapse after s).bus = s.bus ∧ (elapse after s).resetHeld = s.resetHeld ∧ (elapse after s).freeCount = s.freeCount ∧ (elapse after s).pending = s.pending := ⟨rfl, rfl, rfl, rfl, rfl, rfl, rfl, rfl, rfl, rfl, rfl, rfl, rfl⟩

@[simp] theorem queueNotice_frame (n : Notice) (s : State) :
    (queueNotice n s).eu = s.eu ∧ (queueNotice n s).tu = s.tu ∧ (queueNotice n s).hp = s.hp ∧ (queueNotice n s).pe = s.pe ∧ (queueNotice n s).bt = s.bt ∧ (queueNotice n s).rm = s.rm ∧ (queueNotice n s).spe = s.spe ∧ (queueNotice n s).rs = s.rs ∧ (queueNotice n s).ax = s.ax ∧ (queueNotice n s).bus = s.bus ∧ (queueNotice n s).resetHeld = s.resetHeld ∧ (queueNotice n s).freeCount = s.freeCount ∧ (queueNotice n s).pending = s.pending := ⟨rfl, rfl, rfl, rfl, rfl, rfl, rfl, rfl, rfl, rfl, rfl, rfl, rfl⟩

@[simp] theorem queueNotices_frame (ns : List Notice) (s : State) :
    (queueNotices ns s).eu = s.eu ∧ (queueNotices ns s).tu = s.tu ∧ (queueNotices ns s).hp = s.hp ∧ (queueNotices ns s).pe = s.pe ∧ (queueNotices ns s).bt = s.bt ∧ (queueNotices ns s).rm = s.rm ∧ (queueNotices ns s).spe = s.spe ∧ (queueNotices ns s).rs = s.rs ∧ (queueNotices ns s).ax = s.ax ∧ (queueNotices ns s).bus = s.bus ∧ (queueNotices ns s).resetHeld = s.resetHeld ∧ (queueNotices ns s).freeCount = s.freeCount ∧ (queueNotices ns s).pending = s.pending := ⟨rfl, rfl, rfl, rfl, rfl, rfl, rfl, rfl, rfl, rfl, rfl, rfl, rfl⟩

@[simp] theorem sendRaising_frame (r : Raising) (s : State) :
    (sendRaising r s).eu = s.eu ∧ (sendRaising r s).tu = s.tu ∧ (sendRaising r s).hp = s.hp ∧ (sendRaising r s).pe = s.pe ∧ (sendRaising r s).bt = s.bt ∧ (sendRaising r s).rm = s.rm ∧ (sendRaising r s).spe = s.spe ∧ (sendRaising r s).rs = s.rs ∧ (sendRaising r s).lp = s.lp ∧ (sendRaising r s).ax = s.ax ∧ (sendRaising r s).resetHeld = s.resetHeld ∧ (sendRaising r s).freeCount = s.freeCount ∧ (sendRaising r s).pending = s.pending := ⟨rfl, rfl, rfl, rfl, rfl, rfl, rfl, rfl, rfl, rfl, rfl, rfl, rfl⟩

@[simp] theorem onPort_frame (h : Head) (f : HeadPort → HeadPort) (s : State) :
    (onPort h f s).eu = s.eu ∧ (onPort h f s).tu = s.tu ∧ (onPort h f s).pe = s.pe ∧ (onPort h f s).bt = s.bt ∧ (onPort h f s).rm = s.rm ∧ (onPort h f s).spe = s.spe ∧ (onPort h f s).rs = s.rs ∧ (onPort h f s).lp = s.lp ∧ (onPort h f s).ax = s.ax ∧ (onPort h f s).bus = s.bus ∧ (onPort h f s).resetHeld = s.resetHeld ∧ (onPort h f s).freeCount = s.freeCount ∧ (onPort h f s).pending = s.pending := ⟨rfl, rfl, rfl, rfl, rfl, rfl, rfl, rfl, rfl, rfl, rfl, rfl, rfl⟩

@[simp] theorem onCounters_frame (h : Head) (f : HeadCounters → HeadCounters) (s : State) :
    (onCounters h f s).eu = s.eu ∧ (onCounters h f s).tu = s.tu ∧ (onCounters h f s).pe = s.pe ∧ (onCounters h f s).bt = s.bt ∧ (onCounters h f s).rm = s.rm ∧ (onCounters h f s).spe = s.spe ∧ (onCounters h f s).rs = s.rs ∧ (onCounters h f s).lp = s.lp ∧ (onCounters h f s).ax = s.ax ∧ (onCounters h f s).bus = s.bus ∧ (onCounters h f s).resetHeld = s.resetHeld ∧ (onCounters h f s).freeCount = s.freeCount ∧ (onCounters h f s).pending = s.pending := ⟨rfl, rfl, rfl, rfl, rfl, rfl, rfl, rfl, rfl, rfl, rfl, rfl, rfl⟩

@[simp] theorem onTrigger_frame (h : Head) (f : TriggerHead → TriggerHead) (s : State) :
    (onTrigger h f s).eu = s.eu ∧ (onTrigger h f s).hp = s.hp ∧ (onTrigger h f s).pe = s.pe ∧ (onTrigger h f s).bt = s.bt ∧ (onTrigger h f s).rm = s.rm ∧ (onTrigger h f s).spe = s.spe ∧ (onTrigger h f s).rs = s.rs ∧ (onTrigger h f s).lp = s.lp ∧ (onTrigger h f s).ax = s.ax ∧ (onTrigger h f s).bus = s.bus ∧ (onTrigger h f s).resetHeld = s.resetHeld ∧ (onTrigger h f s).freeCount = s.freeCount ∧ (onTrigger h f s).pending = s.pending := ⟨rfl, rfl, rfl, rfl, rfl, rfl, rfl, rfl, rfl, rfl, rfl, rfl, rfl⟩

@[simp] theorem onDetector_frame (h : Head) (f : Detector → Detector) (s : State) :
    (onDetector h f s).eu = s.eu ∧ (onDetector h f s).tu = s.tu ∧ (onDetector h f s).hp = s.hp ∧ (onDetector h f s).bt = s.bt ∧ (onDetector h f s).rm = s.rm ∧ (onDetector h f s).spe = s.spe ∧ (onDetector h f s).rs = s.rs ∧ (onDetector h f s).lp = s.lp ∧ (onDetector h f s).ax = s.ax ∧ (onDetector h f s).bus = s.bus ∧ (onDetector h f s).resetHeld = s.resetHeld ∧ (onDetector h f s).freeCount = s.freeCount ∧ (onDetector h f s).pending = s.pending := ⟨rfl, rfl, rfl, rfl, rfl, rfl, rfl, rfl, rfl, rfl, rfl, rfl, rfl⟩

@[simp] theorem flagOpen_frame (f : RecordFlag) (h : Head) (s : State) :
    (flagOpen f h s).eu = s.eu ∧ (flagOpen f h s).tu = s.tu ∧ (flagOpen f h s).hp = s.hp ∧ (flagOpen f h s).bt = s.bt ∧ (flagOpen f h s).rm = s.rm ∧ (flagOpen f h s).spe = s.spe ∧ (flagOpen f h s).rs = s.rs ∧ (flagOpen f h s).lp = s.lp ∧ (flagOpen f h s).ax = s.ax ∧ (flagOpen f h s).bus = s.bus ∧ (flagOpen f h s).resetHeld = s.resetHeld ∧ (flagOpen f h s).freeCount = s.freeCount ∧ (flagOpen f h s).pending = s.pending := ⟨rfl, rfl, rfl, rfl, rfl, rfl, rfl, rfl, rfl, rfl, rfl, rfl, rfl⟩

@[simp] theorem beginPulse_frame (p : PulsedOutput) (s : State) :
    (beginPulse p s).eu = s.eu ∧ (beginPulse p s).tu = s.tu ∧ (beginPulse p s).hp = s.hp ∧ (beginPulse p s).pe = s.pe ∧ (beginPulse p s).bt = s.bt ∧ (beginPulse p s).rm = s.rm ∧ (beginPulse p s).spe = s.spe ∧ (beginPulse p s).rs = s.rs ∧ (beginPulse p s).lp = s.lp ∧ (beginPulse p s).bus = s.bus ∧ (beginPulse p s).resetHeld = s.resetHeld ∧ (beginPulse p s).freeCount = s.freeCount ∧ (beginPulse p s).pending = s.pending := by
  cases p <;> exact ⟨rfl, rfl, rfl, rfl, rfl, rfl, rfl, rfl, rfl, rfl, rfl, rfl, rfl⟩

@[simp] theorem onAcc_frame (f : Accumulators → Accumulators) (s : State) :
    (onAcc f s).eu = s.eu ∧ (onAcc f s).tu = s.tu ∧ (onAcc f s).hp = s.hp ∧ (onAcc f s).pe = s.pe ∧ (onAcc f s).bt = s.bt ∧ (onAcc f s).spe = s.spe ∧ (onAcc f s).rs = s.rs ∧ (onAcc f s).lp = s.lp ∧ (onAcc f s).ax = s.ax ∧ (onAcc f s).bus = s.bus ∧ (onAcc f s).resetHeld = s.resetHeld ∧ (onAcc f s).freeCount = s.freeCount ∧ (onAcc f s).pending = s.pending := ⟨rfl, rfl, rfl, rfl, rfl, rfl, rfl, rfl, rfl, rfl, rfl, rfl, rfl⟩

@[simp] theorem onPlan_frame (f : ScanPlan → ScanPlan) (s : State) :
    (onPlan f s).eu = s.eu ∧ (onPlan f s).tu = s.tu ∧ (onPlan f s).hp = s.hp ∧ (onPlan f s).pe = s.pe ∧ (onPlan f s).bt = s.bt ∧ (onPlan f s).rm = s.rm ∧ (onPlan f s).rs = s.rs ∧ (onPlan f s).lp = s.lp ∧ (onPlan f s).ax = s.ax ∧ (onPlan f s).bus = s.bus ∧ (onPlan f s).resetHeld = s.resetHeld ∧ (onPlan f s).freeCount = s.freeCount ∧ (onPlan f s).pending = s.pending := ⟨rfl, rfl, rfl, rfl, rfl, rfl, rfl, rfl, rfl, rfl, rfl, rfl, rfl⟩

@[simp] theorem onEncoder_frame (f : Encoder → Encoder) (s : State) :
    (onEncoder f s).tu = s.tu ∧ (onEncoder f s).hp = s.hp ∧ (onEncoder f s).pe = s.pe ∧ (onEncoder f s).bt = s.bt ∧ (onEncoder f s).rm = s.rm ∧ (onEncoder f s).spe = s.spe ∧ (onEncoder f s).rs = s.rs ∧ (onEncoder f s).lp = s.lp ∧ (onEncoder f s).ax = s.ax ∧ (onEncoder f s).bus = s.bus ∧ (onEncoder f s).resetHeld = s.resetHeld ∧ (onEncoder f s).freeCount = s.freeCount ∧ (onEncoder f s).pending = s.pending := ⟨rfl, rfl, rfl, rfl, rfl, rfl, rfl, rfl, rfl, rfl, rfl, rfl, rfl⟩

@[simp] theorem onLink_frame (f : LinkPort → LinkPort) (s : State) :
    (onLink f s).eu = s.eu ∧ (onLink f s).tu = s.tu ∧ (onLink f s).hp = s.hp ∧ (onLink f s).pe = s.pe ∧ (onLink f s).bt = s.bt ∧ (onLink f s).rm = s.rm ∧ (onLink f s).spe = s.spe ∧ (onLink f s).rs = s.rs ∧ (onLink f s).ax = s.ax ∧ (onLink f s).bus = s.bus ∧ (onLink f s).resetHeld = s.resetHeld ∧ (onLink f s).freeCount = s.freeCount ∧ (onLink f s).pending = s.pending := ⟨rfl, rfl, rfl, rfl, rfl, rfl, rfl, rfl, rfl, rfl, rfl, rfl, rfl⟩

@[simp] theorem onLine_frame (i : Fin 8) (f : AuxLine → AuxLine) (s : State) :
    (onLine i f s).eu = s.eu ∧ (onLine i f s).tu = s.tu ∧ (onLine i f s).hp = s.hp ∧ (onLine i f s).pe = s.pe ∧ (onLine i f s).bt = s.bt ∧ (onLine i f s).rm = s.rm ∧ (onLine i f s).spe = s.spe ∧ (onLine i f s).rs = s.rs ∧ (onLine i f s).lp = s.lp ∧ (onLine i f s).bus = s.bus ∧ (onLine i f s).resetHeld = s.resetHeld ∧ (onLine i f s).freeCount = s.freeCount ∧ (onLine i f s).pending = s.pending := ⟨rfl, rfl, rfl, rfl, rfl, rfl, rfl, rfl, rfl, rfl, rfl, rfl, rfl⟩

@[simp] theorem onStoreCounters_frame (f : StoreCounters → StoreCounters) (s : State) :
    (onStoreCounters f s).eu = s.eu ∧ (onStoreCounters f s).tu = s.tu ∧ (onStoreCounters f s).hp = s.hp ∧ (onStoreCounters f s).pe = s.pe ∧ (onStoreCounters f s).bt = s.bt ∧ (onStoreCounters f s).rm = s.rm ∧ (onStoreCounters f s).spe = s.spe ∧ (onStoreCounters f s).lp = s.lp ∧ (onStoreCounters f s).ax = s.ax ∧ (onStoreCounters f s).bus = s.bus ∧ (onStoreCounters f s).resetHeld = s.resetHeld ∧ (onStoreCounters f s).freeCount = s.freeCount ∧ (onStoreCounters f s).pending = s.pending := ⟨rfl, rfl, rfl, rfl, rfl, rfl, rfl, rfl, rfl, rfl, rfl, rfl, rfl⟩

@[simp] theorem onStepCounters_frame (f : StepCounters → StepCounters) (s : State) :
    (onStepCounters f s).eu = s.eu ∧ (onStepCounters f s).tu = s.tu ∧ (onStepCounters f s).hp = s.hp ∧ (onStepCounters f s).pe = s.pe ∧ (onStepCounters f s).bt = s.bt ∧ (onStepCounters f s).rm = s.rm ∧ (onStepCounters f s).rs = s.rs ∧ (onStepCounters f s).lp = s.lp ∧ (onStepCounters f s).ax = s.ax ∧ (onStepCounters f s).bus = s.bus ∧ (onStepCounters f s).resetHeld = s.resetHeld ∧ (onStepCounters f s).freeCount = s.freeCount ∧ (onStepCounters f s).pending = s.pending := ⟨rfl, rfl, rfl, rfl, rfl, rfl, rfl, rfl, rfl, rfl, rfl, rfl, rfl⟩

@[simp] theorem setGuards_frame (guard kMiss : Nat) (s : State) :
    (setGuards guard kMiss s).eu = s.eu ∧ (setGuards guard kMiss s).tu = s.tu ∧ (setGuards guard kMiss s).hp = s.hp ∧ (setGuards guard kMiss s).pe = s.pe ∧ (setGuards guard kMiss s).rm = s.rm ∧ (setGuards guard kMiss s).spe = s.spe ∧ (setGuards guard kMiss s).rs = s.rs ∧ (setGuards guard kMiss s).lp = s.lp ∧ (setGuards guard kMiss s).ax = s.ax ∧ (setGuards guard kMiss s).bus = s.bus ∧ (setGuards guard kMiss s).resetHeld = s.resetHeld ∧ (setGuards guard kMiss s).freeCount = s.freeCount ∧ (setGuards guard kMiss s).pending = s.pending := ⟨rfl, rfl, rfl, rfl, rfl, rfl, rfl, rfl, rfl, rfl, rfl, rfl, rfl⟩

@[simp] theorem appendFrames_frame (fs : List DataFrame) (s : State) :
    (appendFrames fs s).eu = s.eu ∧ (appendFrames fs s).tu = s.tu ∧ (appendFrames fs s).hp = s.hp ∧ (appendFrames fs s).pe = s.pe ∧ (appendFrames fs s).bt = s.bt ∧ (appendFrames fs s).rm = s.rm ∧ (appendFrames fs s).spe = s.spe ∧ (appendFrames fs s).lp = s.lp ∧ (appendFrames fs s).ax = s.ax ∧ (appendFrames fs s).bus = s.bus ∧ (appendFrames fs s).resetHeld = s.resetHeld ∧ (appendFrames fs s).freeCount = s.freeCount ∧ (appendFrames fs s).pending = s.pending := ⟨rfl, rfl, rfl, rfl, rfl, rfl, rfl, rfl, rfl, rfl, rfl, rfl, rfl⟩

@[simp] theorem reportAdmission_frame (o : Outcome3) (r : SectionRecord) (s : State) :
    (reportAdmission o r s).eu = s.eu ∧ (reportAdmission o r s).tu = s.tu ∧ (reportAdmission o r s).hp = s.hp ∧ (reportAdmission o r s).pe = s.pe ∧ (reportAdmission o r s).bt = s.bt ∧ (reportAdmission o r s).rm = s.rm ∧ (reportAdmission o r s).spe = s.spe ∧ (reportAdmission o r s).rs = s.rs ∧ (reportAdmission o r s).lp = s.lp ∧ (reportAdmission o r s).ax = s.ax ∧ (reportAdmission o r s).resetHeld = s.resetHeld ∧ (reportAdmission o r s).freeCount = s.freeCount ∧ (reportAdmission o r s).pending = s.pending := ⟨rfl, rfl, rfl, rfl, rfl, rfl, rfl, rfl, rfl, rfl, rfl, rfl, rfl⟩

@[simp] theorem withPending_frame (q : List Instr) (s : State) :
    (withPending q s).eu = s.eu ∧ (withPending q s).tu = s.tu ∧ (withPending q s).hp = s.hp ∧ (withPending q s).pe = s.pe ∧ (withPending q s).bt = s.bt ∧ (withPending q s).rm = s.rm ∧ (withPending q s).spe = s.spe ∧ (withPending q s).rs = s.rs ∧ (withPending q s).lp = s.lp ∧ (withPending q s).ax = s.ax ∧ (withPending q s).bus = s.bus ∧ (withPending q s).resetHeld = s.resetHeld ∧ (withPending q s).freeCount = s.freeCount := ⟨rfl, rfl, rfl, rfl, rfl, rfl, rfl, rfl, rfl, rfl, rfl, rfl, rfl⟩

@[simp] theorem deliver_frame (h : Head) (r : OpenRecord) (s : State) :
    (deliver h r s).eu = s.eu ∧ (deliver h r s).tu = s.tu ∧ (deliver h r s).hp = s.hp ∧ (deliver h r s).pe = s.pe ∧ (deliver h r s).bt = s.bt ∧ (deliver h r s).rm = s.rm ∧ (deliver h r s).spe = s.spe ∧ (deliver h r s).rs = s.rs ∧ (deliver h r s).lp = s.lp ∧ (deliver h r s).ax = s.ax ∧ (deliver h r s).resetHeld = s.resetHeld ∧ (deliver h r s).freeCount = s.freeCount ∧ (deliver h r s).pending = s.pending := by
  unfold deliver; try dsimp only
  (repeat' split) <;> simp

@[simp] theorem deliverClosed_frame (h : Head) (r : Option OpenRecord) (s : State) :
    (deliverClosed h r s).eu = s.eu ∧ (deliverClosed h r s).tu = s.tu ∧ (deliverClosed h r s).hp = s.hp ∧ (deliverClosed h r s).pe = s.pe ∧ (deliverClosed h r s).bt = s.bt ∧ (deliverClosed h r s).rm = s.rm ∧ (deliverClosed h r s).spe = s.spe ∧ (deliverClosed h r s).rs = s.rs ∧ (deliverClosed h r s).lp = s.lp ∧ (deliverClosed h r s).ax = s.ax ∧ (deliverClosed h r s).resetHeld = s.resetHeld ∧ (deliverClosed h r s).freeCount = s.freeCount ∧ (deliverClosed h r s).pending = s.pending := by
  unfold deliverClosed; try dsimp only
  (repeat' split) <;> simp

@[simp] theorem closeHead_frame (aborted : Bool) (h : Head) (s : State) :
    (closeHead aborted h s).eu = s.eu ∧ (closeHead aborted h s).tu = s.tu ∧ (closeHead aborted h s).hp = s.hp ∧ (closeHead aborted h s).bt = s.bt ∧ (closeHead aborted h s).rm = s.rm ∧ (closeHead aborted h s).spe = s.spe ∧ (closeHead aborted h s).rs = s.rs ∧ (closeHead aborted h s).lp = s.lp ∧ (closeHead aborted h s).ax = s.ax ∧ (closeHead aborted h s).resetHeld = s.resetHeld ∧ (closeHead aborted h s).freeCount = s.freeCount ∧ (closeHead aborted h s).pending = s.pending := by simp [closeHead]

@[simp] theorem tailEndHead_frame (h : Head) (s : State) :
    (tailEndHead h s).eu = s.eu ∧ (tailEndHead h s).tu = s.tu ∧ (tailEndHead h s).hp = s.hp ∧ (tailEndHead h s).bt = s.bt ∧ (tailEndHead h s).rm = s.rm ∧ (tailEndHead h s).spe = s.spe ∧ (tailEndHead h s).rs = s.rs ∧ (tailEndHead h s).lp = s.lp ∧ (tailEndHead h s).ax = s.ax ∧ (tailEndHead h s).resetHeld = s.resetHeld ∧ (tailEndHead h s).freeCount = s.freeCount ∧ (tailEndHead h s).pending = s.pending := by
  unfold tailEndHead; try dsimp only
  (repeat' split) <;> simp

@[simp] theorem tailEnds_frame (s : State) :
    (tailEnds s).eu = s.eu ∧ (tailEnds s).tu = s.tu ∧ (tailEnds s).hp = s.hp ∧ (tailEnds s).bt = s.bt ∧ (tailEnds s).rm = s.rm ∧ (tailEnds s).spe = s.spe ∧ (tailEnds s).rs = s.rs ∧ (tailEnds s).lp = s.lp ∧ (tailEnds s).ax = s.ax ∧ (tailEnds s).resetHeld = s.resetHeld ∧ (tailEnds s).freeCount = s.freeCount ∧ (tailEnds s).pending = s.pending := by simp [tailEnds, heads]

@[simp] theorem bladesNewRevolution_frame (s : State) :
    (bladesNewRevolution s).eu = s.eu ∧ (bladesNewRevolution s).tu = s.tu ∧ (bladesNewRevolution s).hp = s.hp ∧ (bladesNewRevolution s).pe = s.pe ∧ (bladesNewRevolution s).rm = s.rm ∧ (bladesNewRevolution s).spe = s.spe ∧ (bladesNewRevolution s).rs = s.rs ∧ (bladesNewRevolution s).ax = s.ax ∧ (bladesNewRevolution s).bus = s.bus ∧ (bladesNewRevolution s).resetHeld = s.resetHeld ∧ (bladesNewRevolution s).freeCount = s.freeCount ∧ (bladesNewRevolution s).pending = s.pending := by
  unfold bladesNewRevolution; try dsimp only
  (repeat' split) <;> simp

@[simp] theorem changeBlade_frame (i : Nat) (cause : BladeCause) (f : BladeEntry → BladeEntry) (s : State) :
    (changeBlade i cause f s).eu = s.eu ∧ (changeBlade i cause f s).tu = s.tu ∧ (changeBlade i cause f s).hp = s.hp ∧ (changeBlade i cause f s).pe = s.pe ∧ (changeBlade i cause f s).rm = s.rm ∧ (changeBlade i cause f s).spe = s.spe ∧ (changeBlade i cause f s).rs = s.rs ∧ (changeBlade i cause f s).ax = s.ax ∧ (changeBlade i cause f s).bus = s.bus ∧ (changeBlade i cause f s).resetHeld = s.resetHeld ∧ (changeBlade i cause f s).freeCount = s.freeCount ∧ (changeBlade i cause f s).pending = s.pending := by
  unfold changeBlade; try dsimp only
  (repeat' split) <;> simp

@[simp] theorem takePost_frame (p : Post) (s : State) :
    (takePost p s).eu = s.eu ∧ (takePost p s).tu = s.tu ∧ (takePost p s).hp = s.hp ∧ (takePost p s).pe = s.pe ∧ (takePost p s).rm = s.rm ∧ (takePost p s).spe = s.spe ∧ (takePost p s).rs = s.rs ∧ (takePost p s).ax = s.ax ∧ (takePost p s).bus = s.bus ∧ (takePost p s).resetHeld = s.resetHeld ∧ (takePost p s).freeCount = s.freeCount ∧ (takePost p s).pending = s.pending := by
  unfold takePost; try dsimp only
  (repeat' split) <;> simp

@[simp] theorem setLimit_frame (limit : Nat) (s : State) :
    (setLimit limit s).eu = s.eu ∧ (setLimit limit s).tu = s.tu ∧ (setLimit limit s).hp = s.hp ∧ (setLimit limit s).pe = s.pe ∧ (setLimit limit s).rm = s.rm ∧ (setLimit limit s).spe = s.spe ∧ (setLimit limit s).rs = s.rs ∧ (setLimit limit s).ax = s.ax ∧ (setLimit limit s).bus = s.bus ∧ (setLimit limit s).resetHeld = s.resetHeld ∧ (setLimit limit s).freeCount = s.freeCount ∧ (setLimit limit s).pending = s.pending := by
  unfold setLimit; try dsimp only
  (repeat' split) <;> simp

@[simp] theorem stopTails_frame (s : State) :
    (stopTails s).eu = s.eu ∧ (stopTails s).hp = s.hp ∧ (stopTails s).pe = s.pe ∧ (stopTails s).bt = s.bt ∧ (stopTails s).rm = s.rm ∧ (stopTails s).spe = s.spe ∧ (stopTails s).rs = s.rs ∧ (stopTails s).lp = s.lp ∧ (stopTails s).ax = s.ax ∧ (stopTails s).bus = s.bus ∧ (stopTails s).resetHeld = s.resetHeld ∧ (stopTails s).freeCount = s.freeCount ∧ (stopTails s).pending = s.pending := ⟨rfl, rfl, rfl, rfl, rfl, rfl, rfl, rfl, rfl, rfl, rfl, rfl, rfl⟩

@[simp] theorem emptyPorts_frame (s : State) :
    (emptyPorts s).eu = s.eu ∧ (emptyPorts s).tu = s.tu ∧ (emptyPorts s).pe = s.pe ∧ (emptyPorts s).bt = s.bt ∧ (emptyPorts s).rm = s.rm ∧ (emptyPorts s).spe = s.spe ∧ (emptyPorts s).rs = s.rs ∧ (emptyPorts s).lp = s.lp ∧ (emptyPorts s).ax = s.ax ∧ (emptyPorts s).bus = s.bus ∧ (emptyPorts s).resetHeld = s.resetHeld ∧ (emptyPorts s).freeCount = s.freeCount ∧ (emptyPorts s).pending = s.pending := ⟨rfl, rfl, rfl, rfl, rfl, rfl, rfl, rfl, rfl, rfl, rfl, rfl, rfl⟩

@[simp] theorem abortRecords_frame (s : State) :
    (abortRecords s).eu = s.eu ∧ (abortRecords s).tu = s.tu ∧ (abortRecords s).hp = s.hp ∧ (abortRecords s).bt = s.bt ∧ (abortRecords s).rm = s.rm ∧ (abortRecords s).spe = s.spe ∧ (abortRecords s).rs = s.rs ∧ (abortRecords s).lp = s.lp ∧ (abortRecords s).ax = s.ax ∧ (abortRecords s).resetHeld = s.resetHeld ∧ (abortRecords s).freeCount = s.freeCount ∧ (abortRecords s).pending = s.pending := by simp [abortRecords, heads]

@[simp] theorem teardown_frame (st : PlanState) (s : State) :
    (teardown st s).eu = s.eu ∧ (teardown st s).bt = s.bt ∧ (teardown st s).rs = s.rs ∧ (teardown st s).lp = s.lp ∧ (teardown st s).resetHeld = s.resetHeld ∧ (teardown st s).freeCount = s.freeCount ∧ (teardown st s).pending = s.pending := by simp [teardown]

@[simp] theorem takeHalt_frame (s : State) :
    (takeHalt s).eu = s.eu ∧ (takeHalt s).hp = s.hp ∧ (takeHalt s).pe = s.pe ∧ (takeHalt s).bt = s.bt ∧ (takeHalt s).rs = s.rs ∧ (takeHalt s).ax = s.ax ∧ (takeHalt s).bus = s.bus ∧ (takeHalt s).resetHeld = s.resetHeld ∧ (takeHalt s).freeCount = s.freeCount ∧ (takeHalt s).pending = s.pending := by
  unfold takeHalt; try dsimp only
  (repeat' split) <;> simp

@[simp] theorem latchFirst_frame (r : FaultRecord) (s : State) :
    (latchFirst r s).eu = s.eu ∧ (latchFirst r s).bt = s.bt ∧ (latchFirst r s).rs = s.rs ∧ (latchFirst r s).resetHeld = s.resetHeld ∧ (latchFirst r s).freeCount = s.freeCount ∧ (latchFirst r s).pending = s.pending := by
  unfold latchFirst; try dsimp only
  (repeat' split) <;> simp

@[simp] theorem latchSecond_frame (held r : FaultRecord) (s : State) :
    (latchSecond held r s).eu = s.eu ∧ (latchSecond held r s).bt = s.bt ∧ (latchSecond held r s).rs = s.rs ∧ (latchSecond held r s).resetHeld = s.resetHeld ∧ (latchSecond held r s).freeCount = s.freeCount ∧ (latchSecond held r s).pending = s.pending := by
  unfold latchSecond; try dsimp only
  (repeat' split) <;> simp

@[simp] theorem raiseFault_frame (r : Raising) (s : State) :
    (raiseFault r s).eu = s.eu ∧ (raiseFault r s).bt = s.bt ∧ (raiseFault r s).rs = s.rs ∧ (raiseFault r s).resetHeld = s.resetHeld ∧ (raiseFault r s).freeCount = s.freeCount ∧ (raiseFault r s).pending = s.pending := by
  unfold raiseFault; try dsimp only
  (repeat' split) <;> simp

@[simp] theorem stopRun_frame (byLine : Bool) (s : State) :
    (stopRun byLine s).eu = s.eu ∧ (stopRun byLine s).bt = s.bt ∧ (stopRun byLine s).rs = s.rs ∧ (stopRun byLine s).resetHeld = s.resetHeld ∧ (stopRun byLine s).freeCount = s.freeCount ∧ (stopRun byLine s).pending = s.pending := by
  unfold stopRun; try dsimp only
  (repeat' split) <;> simp

@[simp] theorem endSettling_frame (p : ScanStep) (s : State) :
    (endSettling p s).eu = s.eu ∧ (endSettling p s).tu = s.tu ∧ (endSettling p s).hp = s.hp ∧ (endSettling p s).pe = s.pe ∧ (endSettling p s).bt = s.bt ∧ (endSettling p s).rs = s.rs ∧ (endSettling p s).lp = s.lp ∧ (endSettling p s).ax = s.ax ∧ (endSettling p s).bus = s.bus ∧ (endSettling p s).resetHeld = s.resetHeld ∧ (endSettling p s).freeCount = s.freeCount ∧ (endSettling p s).pending = s.pending := by
  unfold endSettling; try dsimp only
  (repeat' split) <;> simp

@[simp] theorem settleTest_frame (s : State) :
    (settleTest s).eu = s.eu ∧ (settleTest s).tu = s.tu ∧ (settleTest s).hp = s.hp ∧ (settleTest s).pe = s.pe ∧ (settleTest s).bt = s.bt ∧ (settleTest s).rs = s.rs ∧ (settleTest s).lp = s.lp ∧ (settleTest s).ax = s.ax ∧ (settleTest s).bus = s.bus ∧ (settleTest s).resetHeld = s.resetHeld ∧ (settleTest s).freeCount = s.freeCount ∧ (settleTest s).pending = s.pending := by
  unfold settleTest; try dsimp only
  (repeat' split) <;> simp

@[simp] theorem settleTick_frame (s : State) :
    (settleTick s).eu = s.eu ∧ (settleTick s).tu = s.tu ∧ (settleTick s).hp = s.hp ∧ (settleTick s).pe = s.pe ∧ (settleTick s).bt = s.bt ∧ (settleTick s).rs = s.rs ∧ (settleTick s).lp = s.lp ∧ (settleTick s).ax = s.ax ∧ (settleTick s).bus = s.bus ∧ (settleTick s).resetHeld = s.resetHeld ∧ (settleTick s).freeCount = s.freeCount ∧ (settleTick s).pending = s.pending := by
  unfold settleTick; try dsimp only
  (repeat' split) <;> simp

@[simp] theorem armTick_frame (s : State) :
    (armTick s).eu = s.eu ∧ (armTick s).bt = s.bt ∧ (armTick s).rs = s.rs ∧ (armTick s).resetHeld = s.resetHeld ∧ (armTick s).freeCount = s.freeCount ∧ (armTick s).pending = s.pending := by
  unfold armTick; try dsimp only
  (repeat' split) <;> simp

@[simp] theorem driftTest_frame (s : State) :
    (driftTest s).eu = s.eu ∧ (driftTest s).bt = s.bt ∧ (driftTest s).rs = s.rs ∧ (driftTest s).resetHeld = s.resetHeld ∧ (driftTest s).freeCount = s.freeCount ∧ (driftTest s).pending = s.pending := by
  unfold driftTest; try dsimp only
  (repeat' split) <;> simp

@[simp] theorem radiusMoved_frame (before : Nat) (s : State) :
    (radiusMoved before s).eu = s.eu ∧ (radiusMoved before s).bt = s.bt ∧ (radiusMoved before s).rs = s.rs ∧ (radiusMoved before s).resetHeld = s.resetHeld ∧ (radiusMoved before s).freeCount = s.freeCount ∧ (radiusMoved before s).pending = s.pending := by
  unfold radiusMoved; try dsimp only
  (repeat' split) <;> simp

@[simp] theorem stepInvalid_frame (tag : Id16) (s : State) :
    (stepInvalid tag s).eu = s.eu ∧ (stepInvalid tag s).bt = s.bt ∧ (stepInvalid tag s).rs = s.rs ∧ (stepInvalid tag s).resetHeld = s.resetHeld ∧ (stepInvalid tag s).freeCount = s.freeCount ∧ (stepInvalid tag s).pending = s.pending := raiseFault_frame _ s

@[simp] theorem armSlot_frame (how : Arming) (slot : Slot) (s : State) :
    (armSlot how slot s).bt = s.bt ∧ (armSlot how slot s).rs = s.rs ∧ (armSlot how slot s).resetHeld = s.resetHeld ∧ (armSlot how slot s).freeCount = s.freeCount ∧ (armSlot how slot s).pending = s.pending := by
  unfold armSlot; try dsimp only
  (repeat' split) <;> simp

@[simp] theorem startTail_frame (a : ActiveStep) (h : Head) (s : State) :
    (startTail a h s).eu = s.eu ∧ (startTail a h s).hp = s.hp ∧ (startTail a h s).pe = s.pe ∧ (startTail a h s).bt = s.bt ∧ (startTail a h s).rm = s.rm ∧ (startTail a h s).spe = s.spe ∧ (startTail a h s).rs = s.rs ∧ (startTail a h s).lp = s.lp ∧ (startTail a h s).ax = s.ax ∧ (startTail a h s).bus = s.bus ∧ (startTail a h s).resetHeld = s.resetHeld ∧ (startTail a h s).pending = s.pending := by
  unfold startTail; try dsimp only
  (repeat' split) <;> simp

@[simp] theorem enterTail_frame (a : ActiveStep) (s : State) :
    (enterTail a s).eu = s.eu ∧ (enterTail a s).hp = s.hp ∧ (enterTail a s).pe = s.pe ∧ (enterTail a s).bt = s.bt ∧ (enterTail a s).rm = s.rm ∧ (enterTail a s).rs = s.rs ∧ (enterTail a s).lp = s.lp ∧ (enterTail a s).bus = s.bus ∧ (enterTail a s).resetHeld = s.resetHeld ∧ (enterTail a s).pending = s.pending := by simp [enterTail, heads]

@[simp] theorem enterAcquiring_frame (a : ActiveStep) (s : State) :
    (enterAcquiring a s).bt = s.bt ∧ (enterAcquiring a s).rs = s.rs ∧ (enterAcquiring a s).resetHeld = s.resetHeld ∧ (enterAcquiring a s).freeCount = s.freeCount ∧ (enterAcquiring a s).pending = s.pending := by simp [enterAcquiring]

@[simp] theorem planNewRevolution_frame (s : State) :
    (planNewRevolution s).bt = s.bt ∧ (planNewRevolution s).rs = s.rs ∧ (planNewRevolution s).resetHeld = s.resetHeld ∧ (planNewRevolution s).pending = s.pending := by
  unfold planNewRevolution; try dsimp only
  (repeat' split) <;> simp

@[simp] theorem finishPlan_frame (s : State) :
    (finishPlan s).eu = s.eu ∧ (finishPlan s).hp = s.hp ∧ (finishPlan s).pe = s.pe ∧ (finishPlan s).bt = s.bt ∧ (finishPlan s).rm = s.rm ∧ (finishPlan s).rs = s.rs ∧ (finishPlan s).ax = s.ax ∧ (finishPlan s).bus = s.bus ∧ (finishPlan s).resetHeld = s.resetHeld ∧ (finishPlan s).freeCount = s.freeCount ∧ (finishPlan s).pending = s.pending := by
  unfold finishPlan; try dsimp only
  (repeat' split) <;> simp

@[simp] theorem carryOut_frame (d : Decision) (s : State) :
    (carryOut d s).bt = s.bt ∧ (carryOut d s).rs = s.rs ∧ (carryOut d s).resetHeld = s.resetHeld ∧ (carryOut d s).freeCount = s.freeCount ∧ (carryOut d s).pending = s.pending := by
  unfold carryOut; try dsimp only
  (repeat' split) <;> simp

@[simp] theorem startInterjection_frame (c : Context) (slot : Slot) (s : State) :
    (startInterjection c slot s).bt = s.bt ∧ (startInterjection c slot s).rs = s.rs ∧ (startInterjection c slot s).resetHeld = s.resetHeld ∧ (startInterjection c slot s).freeCount = s.freeCount ∧ (startInterjection c slot s).pending = s.pending := by simp [startInterjection]

@[simp] theorem requestInterjection_frame (slot : Slot) (s : State) :
    (requestInterjection slot s).bt = s.bt ∧ (requestInterjection slot s).rs = s.rs ∧ (requestInterjection slot s).resetHeld = s.resetHeld ∧ (requestInterjection slot s).freeCount = s.freeCount ∧ (requestInterjection slot s).pending = s.pending := by
  unfold requestInterjection; try dsimp only
  (repeat' split) <;> simp

@[simp] theorem holdMain_frame (c : Context) (s : State) :
    (holdMain c s).eu = s.eu ∧ (holdMain c s).tu = s.tu ∧ (holdMain c s).hp = s.hp ∧ (holdMain c s).pe = s.pe ∧ (holdMain c s).bt = s.bt ∧ (holdMain c s).rm = s.rm ∧ (holdMain c s).rs = s.rs ∧ (holdMain c s).lp = s.lp ∧ (holdMain c s).ax = s.ax ∧ (holdMain c s).bus = s.bus ∧ (holdMain c s).resetHeld = s.resetHeld ∧ (holdMain c s).freeCount = s.freeCount ∧ (holdMain c s).pending = s.pending := ⟨rfl, rfl, rfl, rfl, rfl, rfl, rfl, rfl, rfl, rfl, rfl, rfl, rfl⟩

@[simp] theorem restoreContext_frame (c : Context) (s : State) :
    (restoreContext c s).bt = s.bt ∧ (restoreContext c s).rs = s.rs ∧ (restoreContext c s).resetHeld = s.resetHeld ∧ (restoreContext c s).freeCount = s.freeCount ∧ (restoreContext c s).pending = s.pending := by
  unfold restoreContext; try dsimp only
  (repeat' split) <;> simp

@[simp] theorem reportStep_frame (a : ActiveStep) (s : State) :
    (reportStep a s).eu = s.eu ∧ (reportStep a s).tu = s.tu ∧ (reportStep a s).hp = s.hp ∧ (reportStep a s).pe = s.pe ∧ (reportStep a s).bt = s.bt ∧ (reportStep a s).spe = s.spe ∧ (reportStep a s).rs = s.rs ∧ (reportStep a s).ax = s.ax ∧ (reportStep a s).bus = s.bus ∧ (reportStep a s).resetHeld = s.resetHeld ∧ (reportStep a s).freeCount = s.freeCount ∧ (reportStep a s).pending = s.pending := by
  unfold reportStep; try dsimp only
  (repeat' split) <;> simp

@[simp] theorem afterStep_frame (a : ActiveStep) (s : State) :
    (afterStep a s).bt = s.bt ∧ (afterStep a s).rs = s.rs ∧ (afterStep a s).resetHeld = s.resetHeld ∧ (afterStep a s).freeCount = s.freeCount ∧ (afterStep a s).pending = s.pending := by
  unfold afterStep; try dsimp only
  (repeat' split) <;> simp

@[simp] theorem endInterjectionTail_frame (a : ActiveStep) (slot : Slot) (s : State) :
    (endInterjectionTail a slot s).bt = s.bt ∧ (endInterjectionTail a slot s).rs = s.rs ∧ (endInterjectionTail a slot s).resetHeld = s.resetHeld ∧ (endInterjectionTail a slot s).freeCount = s.freeCount ∧ (endInterjectionTail a slot s).pending = s.pending := by
  unfold endInterjectionTail; try dsimp only
  (repeat' split) <;> simp

@[simp] theorem issueTrigger_frame (a : ActiveStep) (h : Head) (s : State) :
    (issueTrigger a h s).eu = s.eu ∧ (issueTrigger a h s).pe = s.pe ∧ (issueTrigger a h s).bt = s.bt ∧ (issueTrigger a h s).rm = s.rm ∧ (issueTrigger a h s).spe = s.spe ∧ (issueTrigger a h s).rs = s.rs ∧ (issueTrigger a h s).lp = s.lp ∧ (issueTrigger a h s).ax = s.ax ∧ (issueTrigger a h s).bus = s.bus ∧ (issueTrigger a h s).resetHeld = s.resetHeld ∧ (issueTrigger a h s).freeCount = s.freeCount ∧ (issueTrigger a h s).pending = s.pending := by simp [issueTrigger]

@[simp] theorem attemptTrigger_frame (a : ActiveStep) (h : Head) (s : State) :
    (attemptTrigger a h s).eu = s.eu ∧ (attemptTrigger a h s).bt = s.bt ∧ (attemptTrigger a h s).rm = s.rm ∧ (attemptTrigger a h s).spe = s.spe ∧ (attemptTrigger a h s).rs = s.rs ∧ (attemptTrigger a h s).lp = s.lp ∧ (attemptTrigger a h s).ax = s.ax ∧ (attemptTrigger a h s).bus = s.bus ∧ (attemptTrigger a h s).resetHeld = s.resetHeld ∧ (attemptTrigger a h s).freeCount = s.freeCount ∧ (attemptTrigger a h s).pending = s.pending := by
  unfold attemptTrigger; try dsimp only
  (repeat' split) <;> simp

@[simp] theorem dueHead_frame (a : ActiveStep) (h : Head) (s : State) :
    (dueHead a h s).eu = s.eu ∧ (dueHead a h s).bt = s.bt ∧ (dueHead a h s).rm = s.rm ∧ (dueHead a h s).spe = s.spe ∧ (dueHead a h s).rs = s.rs ∧ (dueHead a h s).lp = s.lp ∧ (dueHead a h s).ax = s.ax ∧ (dueHead a h s).bus = s.bus ∧ (dueHead a h s).resetHeld = s.resetHeld ∧ (dueHead a h s).freeCount = s.freeCount ∧ (dueHead a h s).pending = s.pending := by
  unfold dueHead; try dsimp only
  (repeat' split) <;> simp

@[simp] theorem dueInstant_frame (a : ActiveStep) (s : State) :
    (dueInstant a s).eu = s.eu ∧ (dueInstant a s).bt = s.bt ∧ (dueInstant a s).rm = s.rm ∧ (dueInstant a s).spe = s.spe ∧ (dueInstant a s).rs = s.rs ∧ (dueInstant a s).lp = s.lp ∧ (dueInstant a s).ax = s.ax ∧ (dueInstant a s).bus = s.bus ∧ (dueInstant a s).resetHeld = s.resetHeld ∧ (dueInstant a s).freeCount = s.freeCount ∧ (dueInstant a s).pending = s.pending := by simp [dueInstant, heads]

@[simp] theorem angleDue_frame (s : State) :
    (angleDue s).eu = s.eu ∧ (angleDue s).bt = s.bt ∧ (angleDue s).rm = s.rm ∧ (angleDue s).spe = s.spe ∧ (angleDue s).rs = s.rs ∧ (angleDue s).lp = s.lp ∧ (angleDue s).ax = s.ax ∧ (angleDue s).bus = s.bus ∧ (angleDue s).resetHeld = s.resetHeld ∧ (angleDue s).freeCount = s.freeCount ∧ (angleDue s).pending = s.pending := by
  unfold angleDue; try dsimp only
  (repeat' split) <;> simp

@[simp] theorem timeDue_frame (s : State) :
    (timeDue s).eu = s.eu ∧ (timeDue s).bt = s.bt ∧ (timeDue s).rm = s.rm ∧ (timeDue s).spe = s.spe ∧ (timeDue s).rs = s.rs ∧ (timeDue s).lp = s.lp ∧ (timeDue s).ax = s.ax ∧ (timeDue s).resetHeld = s.resetHeld ∧ (timeDue s).freeCount = s.freeCount ∧ (timeDue s).pending = s.pending := by
  unfold timeDue; try dsimp only
  (repeat' split) <;> simp

@[simp] theorem pulseOver_frame (h : Head) (s : State) :
    (pulseOver h s).eu = s.eu ∧ (pulseOver h s).hp = s.hp ∧ (pulseOver h s).pe = s.pe ∧ (pulseOver h s).bt = s.bt ∧ (pulseOver h s).rm = s.rm ∧ (pulseOver h s).spe = s.spe ∧ (pulseOver h s).rs = s.rs ∧ (pulseOver h s).lp = s.lp ∧ (pulseOver h s).ax = s.ax ∧ (pulseOver h s).bus = s.bus ∧ (pulseOver h s).resetHeld = s.resetHeld ∧ (pulseOver h s).freeCount = s.freeCount ∧ (pulseOver h s).pending = s.pending := by
  unfold pulseOver; try dsimp only
  (repeat' split) <;> simp

@[simp] theorem forgetTrigger_frame (h : Head) (s : State) :
    (forgetTrigger h s).eu = s.eu ∧ (forgetTrigger h s).hp = s.hp ∧ (forgetTrigger h s).pe = s.pe ∧ (forgetTrigger h s).bt = s.bt ∧ (forgetTrigger h s).rm = s.rm ∧ (forgetTrigger h s).spe = s.spe ∧ (forgetTrigger h s).rs = s.rs ∧ (forgetTrigger h s).lp = s.lp ∧ (forgetTrigger h s).ax = s.ax ∧ (forgetTrigger h s).bus = s.bus ∧ (forgetTrigger h s).resetHeld = s.resetHeld ∧ (forgetTrigger h s).freeCount = s.freeCount ∧ (forgetTrigger h s).pending = s.pending := by
  unfold forgetTrigger; try dsimp only
  (repeat' split) <;> simp

@[simp] theorem strobeAt_frame (b : Option Nat) (s : State) :
    (strobeAt b s).eu = s.eu ∧ (strobeAt b s).tu = s.tu ∧ (strobeAt b s).hp = s.hp ∧ (strobeAt b s).pe = s.pe ∧ (strobeAt b s).bt = s.bt ∧ (strobeAt b s).rm = s.rm ∧ (strobeAt b s).spe = s.spe ∧ (strobeAt b s).rs = s.rs ∧ (strobeAt b s).lp = s.lp ∧ (strobeAt b s).bus = s.bus ∧ (strobeAt b s).resetHeld = s.resetHeld ∧ (strobeAt b s).freeCount = s.freeCount ∧ (strobeAt b s).pending = s.pending := by
  unfold strobeAt; try dsimp only
  (repeat' split) <;> simp

@[simp] theorem strobeEdge_frame (s : State) :
    (strobeEdge s).eu = s.eu ∧ (strobeEdge s).tu = s.tu ∧ (strobeEdge s).hp = s.hp ∧ (strobeEdge s).pe = s.pe ∧ (strobeEdge s).bt = s.bt ∧ (strobeEdge s).rm = s.rm ∧ (strobeEdge s).spe = s.spe ∧ (strobeEdge s).rs = s.rs ∧ (strobeEdge s).lp = s.lp ∧ (strobeEdge s).bus = s.bus ∧ (strobeEdge s).resetHeld = s.resetHeld ∧ (strobeEdge s).freeCount = s.freeCount ∧ (strobeEdge s).pending = s.pending := by
  unfold strobeEdge; try dsimp only
  (repeat' split) <;> simp

@[simp] theorem takeBy_frame (revolution edge : Bool) (k : Taker) (s : State) :
    (takeBy revolution edge s k).rs = s.rs ∧ (takeBy revolution edge s k).resetHeld = s.resetHeld ∧ (takeBy revolution edge s k).pending = s.pending := by
  cases k <;> simp only [takeBy] <;> split <;> simp

@[simp] theorem takeAll_frame (order : List Taker) (revolution edge : Bool) (s : State) :
    (takeAll order revolution edge s).rs = s.rs ∧ (takeAll order revolution edge s).resetHeld = s.resetHeld ∧ (takeAll order revolution edge s).pending = s.pending := by simp [takeAll, foldl_frame]

@[simp] theorem forwardEdge_frame (order : List Taker) (s : State) :
    (forwardEdge order s).rs = s.rs ∧ (forwardEdge order s).resetHeld = s.resetHeld ∧ (forwardEdge order s).pending = s.pending := by
  unfold forwardEdge; try dsimp only
  (repeat' split) <;> simp

@[simp] theorem reverseEdge_frame (s : State) :
    (reverseEdge s).tu = s.tu ∧ (reverseEdge s).hp = s.hp ∧ (reverseEdge s).pe = s.pe ∧ (reverseEdge s).bt = s.bt ∧ (reverseEdge s).rm = s.rm ∧ (reverseEdge s).spe = s.spe ∧ (reverseEdge s).rs = s.rs ∧ (reverseEdge s).lp = s.lp ∧ (reverseEdge s).ax = s.ax ∧ (reverseEdge s).resetHeld = s.resetHeld ∧ (reverseEdge s).freeCount = s.freeCount ∧ (reverseEdge s).pending = s.pending := by
  unfold reverseEdge; try dsimp only
  (repeat' split) <;> simp

@[simp] theorem tableTransition_frame (edge : Transition) (order : List Taker) (s : State) :
    (tableTransition edge order s).rs = s.rs ∧ (tableTransition edge order s).resetHeld = s.resetHeld ∧ (tableTransition edge order s).pending = s.pending := by
  unfold tableTransition; try dsimp only
  (repeat' split) <;> simp

@[simp] theorem checkedIndex_frame (order : List Taker) (s : State) :
    (checkedIndex order s).rs = s.rs ∧ (checkedIndex order s).resetHeld = s.resetHeld ∧ (checkedIndex order s).pending = s.pending := by
  unfold checkedIndex; try dsimp only
  (repeat' split) <;> simp

@[simp] theorem referencingIndex_frame (s : State) :
    (referencingIndex s).tu = s.tu ∧ (referencingIndex s).hp = s.hp ∧ (referencingIndex s).pe = s.pe ∧ (referencingIndex s).bt = s.bt ∧ (referencingIndex s).rs = s.rs ∧ (referencingIndex s).ax = s.ax ∧ (referencingIndex s).bus = s.bus ∧ (referencingIndex s).resetHeld = s.resetHeld ∧ (referencingIndex s).freeCount = s.freeCount ∧ (referencingIndex s).pending = s.pending := by simp [referencingIndex]

@[simp] theorem indexEdge_frame (order : List Taker) (s : State) :
    (indexEdge order s).rs = s.rs ∧ (indexEdge order s).resetHeld = s.resetHeld ∧ (indexEdge order s).pending = s.pending := by
  unfold indexEdge; try dsimp only
  (repeat' split) <;> simp

@[simp] theorem dedicatedIndex_frame (order : List Taker) (s : State) :
    (dedicatedIndex order s).rs = s.rs ∧ (dedicatedIndex order s).resetHeld = s.resetHeld ∧ (dedicatedIndex order s).pending = s.pending := by
  unfold dedicatedIndex; try dsimp only
  (repeat' split) <;> simp

@[simp] theorem ringExpires_frame (s : State) :
    (ringExpires s).tu = s.tu ∧ (ringExpires s).hp = s.hp ∧ (ringExpires s).pe = s.pe ∧ (ringExpires s).bt = s.bt ∧ (ringExpires s).rm = s.rm ∧ (ringExpires s).spe = s.spe ∧ (ringExpires s).rs = s.rs ∧ (ringExpires s).lp = s.lp ∧ (ringExpires s).ax = s.ax ∧ (ringExpires s).bus = s.bus ∧ (ringExpires s).resetHeld = s.resetHeld ∧ (ringExpires s).freeCount = s.freeCount ∧ (ringExpires s).pending = s.pending := by
  unfold ringExpires; try dsimp only
  (repeat' split) <;> simp

@[simp] theorem stallExpires_frame (s : State) :
    (stallExpires s).tu = s.tu ∧ (stallExpires s).hp = s.hp ∧ (stallExpires s).pe = s.pe ∧ (stallExpires s).bt = s.bt ∧ (stallExpires s).rm = s.rm ∧ (stallExpires s).spe = s.spe ∧ (stallExpires s).rs = s.rs ∧ (stallExpires s).lp = s.lp ∧ (stallExpires s).ax = s.ax ∧ (stallExpires s).resetHeld = s.resetHeld ∧ (stallExpires s).freeCount = s.freeCount ∧ (stallExpires s).pending = s.pending := by
  unfold stallExpires; try dsimp only
  (repeat' split) <;> simp

@[simp] theorem radialTransition_frame (edge : Transition) (s : State) :
    (radialTransition edge s).bt = s.bt ∧ (radialTransition edge s).rs = s.rs ∧ (radialTransition edge s).resetHeld = s.resetHeld ∧ (radialTransition edge s).freeCount = s.freeCount ∧ (radialTransition edge s).pending = s.pending := by
  unfold radialTransition; try dsimp only
  (repeat' split) <;> simp

@[simp] theorem millisecond_frame (s : State) :
    (millisecond s).eu = s.eu ∧ (millisecond s).bt = s.bt ∧ (millisecond s).rs = s.rs ∧ (millisecond s).resetHeld = s.resetHeld ∧ (millisecond s).freeCount = s.freeCount ∧ (millisecond s).pending = s.pending := by
  unfold millisecond; try dsimp only
  (repeat' split) <;> simp

@[simp] theorem enqueueSample_frame (h : Head) (x : Sample) (s : State) :
    (enqueueSample h x s).eu = s.eu ∧ (enqueueSample h x s).tu = s.tu ∧ (enqueueSample h x s).bt = s.bt ∧ (enqueueSample h x s).rm = s.rm ∧ (enqueueSample h x s).spe = s.spe ∧ (enqueueSample h x s).rs = s.rs ∧ (enqueueSample h x s).lp = s.lp ∧ (enqueueSample h x s).ax = s.ax ∧ (enqueueSample h x s).bus = s.bus ∧ (enqueueSample h x s).resetHeld = s.resetHeld ∧ (enqueueSample h x s).freeCount = s.freeCount ∧ (enqueueSample h x s).pending = s.pending := by
  unfold enqueueSample; try dsimp only
  (repeat' split) <;> simp

@[simp] theorem resolveSilent_frame (h : Head) (e : Outstanding) (s : State) :
    (resolveSilent h e s).eu = s.eu ∧ (resolveSilent h e s).tu = s.tu ∧ (resolveSilent h e s).bt = s.bt ∧ (resolveSilent h e s).rm = s.rm ∧ (resolveSilent h e s).spe = s.spe ∧ (resolveSilent h e s).rs = s.rs ∧ (resolveSilent h e s).lp = s.lp ∧ (resolveSilent h e s).ax = s.ax ∧ (resolveSilent h e s).resetHeld = s.resetHeld ∧ (resolveSilent h e s).freeCount = s.freeCount ∧ (resolveSilent h e s).pending = s.pending := by
  unfold resolveSilent; try dsimp only
  (repeat' split) <;> simp

@[simp] theorem matchWord_frame (h : Head) (w : HeadWord) (s : State) :
    (matchWord h w s).eu = s.eu ∧ (matchWord h w s).tu = s.tu ∧ (matchWord h w s).bt = s.bt ∧ (matchWord h w s).rm = s.rm ∧ (matchWord h w s).spe = s.spe ∧ (matchWord h w s).rs = s.rs ∧ (matchWord h w s).lp = s.lp ∧ (matchWord h w s).ax = s.ax ∧ (matchWord h w s).resetHeld = s.resetHeld ∧ (matchWord h w s).freeCount = s.freeCount ∧ (matchWord h w s).pending = s.pending := by
  unfold matchWord; try dsimp only
  (repeat' split) <;> simp [foldl_frame]

@[simp] theorem countCorrupt_frame (h : Head) (s : State) :
    (countCorrupt h s).eu = s.eu ∧ (countCorrupt h s).tu = s.tu ∧ (countCorrupt h s).pe = s.pe ∧ (countCorrupt h s).bt = s.bt ∧ (countCorrupt h s).rm = s.rm ∧ (countCorrupt h s).spe = s.spe ∧ (countCorrupt h s).rs = s.rs ∧ (countCorrupt h s).lp = s.lp ∧ (countCorrupt h s).ax = s.ax ∧ (countCorrupt h s).bus = s.bus ∧ (countCorrupt h s).resetHeld = s.resetHeld ∧ (countCorrupt h s).freeCount = s.freeCount ∧ (countCorrupt h s).pending = s.pending := by simp [countCorrupt]

@[simp] theorem wordGapEnds_frame (h : Head) (s : State) :
    (wordGapEnds h s).eu = s.eu ∧ (wordGapEnds h s).tu = s.tu ∧ (wordGapEnds h s).pe = s.pe ∧ (wordGapEnds h s).bt = s.bt ∧ (wordGapEnds h s).rm = s.rm ∧ (wordGapEnds h s).spe = s.spe ∧ (wordGapEnds h s).rs = s.rs ∧ (wordGapEnds h s).lp = s.lp ∧ (wordGapEnds h s).ax = s.ax ∧ (wordGapEnds h s).bus = s.bus ∧ (wordGapEnds h s).resetHeld = s.resetHeld ∧ (wordGapEnds h s).freeCount = s.freeCount ∧ (wordGapEnds h s).pending = s.pending := by
  unfold wordGapEnds; try dsimp only
  (repeat' split) <;> simp

@[simp] theorem completeWord_frame (h : Head) (word : List LineByte) (s : State) :
    (completeWord h word s).eu = s.eu ∧ (completeWord h word s).tu = s.tu ∧ (completeWord h word s).bt = s.bt ∧ (completeWord h word s).rm = s.rm ∧ (completeWord h word s).spe = s.spe ∧ (completeWord h word s).rs = s.rs ∧ (completeWord h word s).lp = s.lp ∧ (completeWord h word s).ax = s.ax ∧ (completeWord h word s).resetHeld = s.resetHeld ∧ (completeWord h word s).freeCount = s.freeCount ∧ (completeWord h word s).pending = s.pending := by
  unfold completeWord; try dsimp only
  (repeat' split) <;> simp

@[simp] theorem takeLineByte_frame (h : Head) (b : LineByte) (s : State) :
    (takeLineByte h b s).eu = s.eu ∧ (takeLineByte h b s).tu = s.tu ∧ (takeLineByte h b s).bt = s.bt ∧ (takeLineByte h b s).rm = s.rm ∧ (takeLineByte h b s).spe = s.spe ∧ (takeLineByte h b s).rs = s.rs ∧ (takeLineByte h b s).lp = s.lp ∧ (takeLineByte h b s).ax = s.ax ∧ (takeLineByte h b s).resetHeld = s.resetHeld ∧ (takeLineByte h b s).freeCount = s.freeCount ∧ (takeLineByte h b s).pending = s.pending := by
  unfold takeLineByte; try dsimp only
  (repeat' split) <;> simp

@[simp] theorem takeWordBytes_frame (h : Head) (bytes : List LineByte) (s : State) :
    (takeWordBytes h bytes s).eu = s.eu ∧ (takeWordBytes h bytes s).tu = s.tu ∧ (takeWordBytes h bytes s).bt = s.bt ∧ (takeWordBytes h bytes s).rm = s.rm ∧ (takeWordBytes h bytes s).spe = s.spe ∧ (takeWordBytes h bytes s).rs = s.rs ∧ (takeWordBytes h bytes s).lp = s.lp ∧ (takeWordBytes h bytes s).ax = s.ax ∧ (takeWordBytes h bytes s).resetHeld = s.resetHeld ∧ (takeWordBytes h bytes s).freeCount = s.freeCount ∧ (takeWordBytes h bytes s).pending = s.pending := by
  simp [takeWordBytes, foldl_frame]

@[simp] theorem frontTimesOut_frame (h : Head) (s : State) :
    (frontTimesOut h s).eu = s.eu ∧ (frontTimesOut h s).tu = s.tu ∧ (frontTimesOut h s).bt = s.bt ∧ (frontTimesOut h s).rm = s.rm ∧ (frontTimesOut h s).spe = s.spe ∧ (frontTimesOut h s).rs = s.rs ∧ (frontTimesOut h s).lp = s.lp ∧ (frontTimesOut h s).ax = s.ax ∧ (frontTimesOut h s).resetHeld = s.resetHeld ∧ (frontTimesOut h s).freeCount = s.freeCount ∧ (frontTimesOut h s).pending = s.pending := by
  unfold frontTimesOut; try dsimp only
  (repeat' split) <;> simp

@[simp] theorem grantSample_frame (s : State) :
    (grantSample s).eu = s.eu ∧ (grantSample s).tu = s.tu ∧ (grantSample s).bt = s.bt ∧ (grantSample s).rm = s.rm ∧ (grantSample s).spe = s.spe ∧ (grantSample s).rs = s.rs ∧ (grantSample s).lp = s.lp ∧ (grantSample s).ax = s.ax ∧ (grantSample s).bus = s.bus ∧ (grantSample s).resetHeld = s.resetHeld ∧ (grantSample s).freeCount = s.freeCount ∧ (grantSample s).pending = s.pending := by
  unfold grantSample; try dsimp only
  (repeat' split) <;> simp

@[simp] theorem discardStale_frame (h : Head) (x : Sample) (s : State) :
    (discardStale h x s).eu = s.eu ∧ (discardStale h x s).tu = s.tu ∧ (discardStale h x s).bt = s.bt ∧ (discardStale h x s).rm = s.rm ∧ (discardStale h x s).spe = s.spe ∧ (discardStale h x s).rs = s.rs ∧ (discardStale h x s).lp = s.lp ∧ (discardStale h x s).ax = s.ax ∧ (discardStale h x s).bus = s.bus ∧ (discardStale h x s).resetHeld = s.resetHeld ∧ (discardStale h x s).freeCount = s.freeCount ∧ (discardStale h x s).pending = s.pending := by simp [discardStale]

@[simp] theorem handOver_frame (a : ActiveStep) (ws : List Window) (h : Head) (x : Sample) (s : State) :
    (handOver a ws h x s).eu = s.eu ∧ (handOver a ws h x s).tu = s.tu ∧ (handOver a ws h x s).hp = s.hp ∧ (handOver a ws h x s).bt = s.bt ∧ (handOver a ws h x s).rm = s.rm ∧ (handOver a ws h x s).spe = s.spe ∧ (handOver a ws h x s).rs = s.rs ∧ (handOver a ws h x s).lp = s.lp ∧ (handOver a ws h x s).ax = s.ax ∧ (handOver a ws h x s).resetHeld = s.resetHeld ∧ (handOver a ws h x s).freeCount = s.freeCount ∧ (handOver a ws h x s).pending = s.pending := by simp [handOver]

@[simp] theorem learnFrom_frame (a : ActiveStep) (h : Head) (x : Sample) (s : State) :
    (learnFrom a h x s).eu = s.eu ∧ (learnFrom a h x s).tu = s.tu ∧ (learnFrom a h x s).hp = s.hp ∧ (learnFrom a h x s).pe = s.pe ∧ (learnFrom a h x s).bt = s.bt ∧ (learnFrom a h x s).spe = s.spe ∧ (learnFrom a h x s).rs = s.rs ∧ (learnFrom a h x s).lp = s.lp ∧ (learnFrom a h x s).ax = s.ax ∧ (learnFrom a h x s).bus = s.bus ∧ (learnFrom a h x s).resetHeld = s.resetHeld ∧ (learnFrom a h x s).freeCount = s.freeCount ∧ (learnFrom a h x s).pending = s.pending := by
  unfold learnFrom; try dsimp only
  (repeat' split) <;> simp

@[simp] theorem placeSample_frame (a : ActiveStep) (h : Head) (x : Sample) (s : State) :
    (placeSample a h x s).eu = s.eu ∧ (placeSample a h x s).tu = s.tu ∧ (placeSample a h x s).bt = s.bt ∧ (placeSample a h x s).spe = s.spe ∧ (placeSample a h x s).rs = s.rs ∧ (placeSample a h x s).lp = s.lp ∧ (placeSample a h x s).ax = s.ax ∧ (placeSample a h x s).resetHeld = s.resetHeld ∧ (placeSample a h x s).freeCount = s.freeCount ∧ (placeSample a h x s).pending = s.pending := by
  unfold placeSample; try dsimp only
  (repeat' split) <;> simp

@[simp] theorem endPlacement_frame (s : State) :
    (endPlacement s).eu = s.eu ∧ (endPlacement s).tu = s.tu ∧ (endPlacement s).bt = s.bt ∧ (endPlacement s).spe = s.spe ∧ (endPlacement s).rs = s.rs ∧ (endPlacement s).lp = s.lp ∧ (endPlacement s).ax = s.ax ∧ (endPlacement s).resetHeld = s.resetHeld ∧ (endPlacement s).freeCount = s.freeCount ∧ (endPlacement s).pending = s.pending := by
  unfold endPlacement; try dsimp only
  (repeat' split) <;> simp

@[simp] theorem starve_frame (s : State) :
    (starve s).eu = s.eu ∧ (starve s).tu = s.tu ∧ (starve s).hp = s.hp ∧ (starve s).pe = s.pe ∧ (starve s).bt = s.bt ∧ (starve s).rm = s.rm ∧ (starve s).spe = s.spe ∧ (starve s).ax = s.ax ∧ (starve s).bus = s.bus ∧ (starve s).resetHeld = s.resetHeld ∧ (starve s).freeCount = s.freeCount ∧ (starve s).pending = s.pending := by
  unfold starve; try dsimp only
  (repeat' split) <;> simp

@[simp] theorem admitRecord_frame (r : SectionRecord) (s : State) :
    (admitRecord r s).eu = s.eu ∧ (admitRecord r s).tu = s.tu ∧ (admitRecord r s).hp = s.hp ∧ (admitRecord r s).pe = s.pe ∧ (admitRecord r s).bt = s.bt ∧ (admitRecord r s).rm = s.rm ∧ (admitRecord r s).spe = s.spe ∧ (admitRecord r s).ax = s.ax ∧ (admitRecord r s).resetHeld = s.resetHeld ∧ (admitRecord r s).freeCount = s.freeCount ∧ (admitRecord r s).pending = s.pending := by
  unfold admitRecord; try dsimp only
  (repeat' split) <;> simp

@[simp] theorem takeHanded_frame (choice : Nat) (s : State) :
    (takeHanded choice s).eu = s.eu ∧ (takeHanded choice s).tu = s.tu ∧ (takeHanded choice s).hp = s.hp ∧ (takeHanded choice s).pe = s.pe ∧ (takeHanded choice s).bt = s.bt ∧ (takeHanded choice s).rm = s.rm ∧ (takeHanded choice s).spe = s.spe ∧ (takeHanded choice s).ax = s.ax ∧ (takeHanded choice s).resetHeld = s.resetHeld ∧ (takeHanded choice s).freeCount = s.freeCount ∧ (takeHanded choice s).pending = s.pending := by
  unfold takeHanded; try dsimp only
  (repeat' split) <;> simp

@[simp] theorem takePosted_frame (s : State) :
    (takePosted s).eu = s.eu ∧ (takePosted s).tu = s.tu ∧ (takePosted s).hp = s.hp ∧ (takePosted s).pe = s.pe ∧ (takePosted s).rm = s.rm ∧ (takePosted s).spe = s.spe ∧ (takePosted s).rs = s.rs ∧ (takePosted s).ax = s.ax ∧ (takePosted s).resetHeld = s.resetHeld ∧ (takePosted s).freeCount = s.freeCount ∧ (takePosted s).pending = s.pending := by
  unfold takePosted; try dsimp only
  (repeat' split) <;> simp

@[simp] theorem takeReport_frame (s : State) :
    (takeReport s).eu = s.eu ∧ (takeReport s).tu = s.tu ∧ (takeReport s).hp = s.hp ∧ (takeReport s).pe = s.pe ∧ (takeReport s).bt = s.bt ∧ (takeReport s).rm = s.rm ∧ (takeReport s).rs = s.rs ∧ (takeReport s).lp = s.lp ∧ (takeReport s).ax = s.ax ∧ (takeReport s).resetHeld = s.resetHeld ∧ (takeReport s).freeCount = s.freeCount ∧ (takeReport s).pending = s.pending := by
  unfold takeReport; try dsimp only
  (repeat' split) <;> simp

@[simp] theorem takeAdmission_frame (s : State) :
    (takeAdmission s).eu = s.eu ∧ (takeAdmission s).tu = s.tu ∧ (takeAdmission s).hp = s.hp ∧ (takeAdmission s).pe = s.pe ∧ (takeAdmission s).bt = s.bt ∧ (takeAdmission s).rm = s.rm ∧ (takeAdmission s).rs = s.rs ∧ (takeAdmission s).lp = s.lp ∧ (takeAdmission s).ax = s.ax ∧ (takeAdmission s).resetHeld = s.resetHeld ∧ (takeAdmission s).freeCount = s.freeCount ∧ (takeAdmission s).pending = s.pending := by
  unfold takeAdmission; try dsimp only
  (repeat' split) <;> simp

@[simp] theorem completeStep_frame (s : State) :
    (completeStep s).bt = s.bt ∧ (completeStep s).rs = s.rs ∧ (completeStep s).resetHeld = s.resetHeld ∧ (completeStep s).freeCount = s.freeCount ∧ (completeStep s).pending = s.pending := by
  unfold completeStep; try dsimp only
  (repeat' split) <;> simp

@[simp] theorem finishInterjectionTail_frame (s : State) :
    (finishInterjectionTail s).bt = s.bt ∧ (finishInterjectionTail s).rs = s.rs ∧ (finishInterjectionTail s).resetHeld = s.resetHeld ∧ (finishInterjectionTail s).freeCount = s.freeCount ∧ (finishInterjectionTail s).pending = s.pending := by
  unfold finishInterjectionTail; try dsimp only
  (repeat' split) <;> simp

@[simp] theorem takeRaising_frame (choice : Nat) (s : State) :
    (takeRaising choice s).eu = s.eu ∧ (takeRaising choice s).bt = s.bt ∧ (takeRaising choice s).rs = s.rs ∧ (takeRaising choice s).resetHeld = s.resetHeld ∧ (takeRaising choice s).freeCount = s.freeCount ∧ (takeRaising choice s).pending = s.pending := by
  unfold takeRaising; try dsimp only
  (repeat' split) <;> simp

@[simp] theorem takeLinkBytes_frame (bytes : List LineByte) (s : State) :
    (takeLinkBytes bytes s).eu = s.eu ∧ (takeLinkBytes bytes s).tu = s.tu ∧ (takeLinkBytes bytes s).hp = s.hp ∧ (takeLinkBytes bytes s).pe = s.pe ∧ (takeLinkBytes bytes s).bt = s.bt ∧ (takeLinkBytes bytes s).rm = s.rm ∧ (takeLinkBytes bytes s).spe = s.spe ∧ (takeLinkBytes bytes s).rs = s.rs ∧ (takeLinkBytes bytes s).ax = s.ax ∧ (takeLinkBytes bytes s).bus = s.bus ∧ (takeLinkBytes bytes s).resetHeld = s.resetHeld ∧ (takeLinkBytes bytes s).freeCount = s.freeCount ∧ (takeLinkBytes bytes s).pending = s.pending := ⟨rfl, rfl, rfl, rfl, rfl, rfl, rfl, rfl, rfl, rfl, rfl, rfl, rfl⟩

@[simp] theorem beginSending_frame (kind : FlightKind) (tag : Byte) (body : List Byte) (s : State) :
    (beginSending kind tag body s).eu = s.eu ∧ (beginSending kind tag body s).tu = s.tu ∧ (beginSending kind tag body s).hp = s.hp ∧ (beginSending kind tag body s).pe = s.pe ∧ (beginSending kind tag body s).bt = s.bt ∧ (beginSending kind tag body s).rm = s.rm ∧ (beginSending kind tag body s).spe = s.spe ∧ (beginSending kind tag body s).rs = s.rs ∧ (beginSending kind tag body s).ax = s.ax ∧ (beginSending kind tag body s).bus = s.bus ∧ (beginSending kind tag body s).resetHeld = s.resetHeld ∧ (beginSending kind tag body s).freeCount = s.freeCount ∧ (beginSending kind tag body s).pending = s.pending := ⟨rfl, rfl, rfl, rfl, rfl, rfl, rfl, rfl, rfl, rfl, rfl, rfl, rfl⟩

@[simp] theorem sendData_frame (f : DataFrame) (s : State) :
    (sendData f s).eu = s.eu ∧ (sendData f s).tu = s.tu ∧ (sendData f s).hp = s.hp ∧ (sendData f s).pe = s.pe ∧ (sendData f s).bt = s.bt ∧ (sendData f s).rm = s.rm ∧ (sendData f s).spe = s.spe ∧ (sendData f s).ax = s.ax ∧ (sendData f s).bus = s.bus ∧ (sendData f s).resetHeld = s.resetHeld ∧ (sendData f s).freeCount = s.freeCount ∧ (sendData f s).pending = s.pending := by simp [sendData]

@[simp] theorem selectOutput_frame (s : State) :
    (selectOutput s).eu = s.eu ∧ (selectOutput s).tu = s.tu ∧ (selectOutput s).hp = s.hp ∧ (selectOutput s).pe = s.pe ∧ (selectOutput s).bt = s.bt ∧ (selectOutput s).rm = s.rm ∧ (selectOutput s).spe = s.spe ∧ (selectOutput s).ax = s.ax ∧ (selectOutput s).bus = s.bus ∧ (selectOutput s).resetHeld = s.resetHeld ∧ (selectOutput s).freeCount = s.freeCount ∧ (selectOutput s).pending = s.pending := by
  unfold selectOutput; try dsimp only
  (repeat' split) <;> simp

@[simp] theorem releaseSent_frame (kind : FlightKind) (s : State) :
    (releaseSent kind s).eu = s.eu ∧ (releaseSent kind s).tu = s.tu ∧ (releaseSent kind s).hp = s.hp ∧ (releaseSent kind s).pe = s.pe ∧ (releaseSent kind s).bt = s.bt ∧ (releaseSent kind s).rm = s.rm ∧ (releaseSent kind s).spe = s.spe ∧ (releaseSent kind s).ax = s.ax ∧ (releaseSent kind s).bus = s.bus ∧ (releaseSent kind s).resetHeld = s.resetHeld ∧ (releaseSent kind s).freeCount = s.freeCount ∧ (releaseSent kind s).pending = s.pending := by
  unfold releaseSent; try dsimp only
  (repeat' split) <;> simp

@[simp] theorem risingEdge_frame (f : AuxFunction) (order : List Taker) (s : State) :
    (risingEdge f order s).rs = s.rs ∧ (risingEdge f order s).resetHeld = s.resetHeld ∧ (risingEdge f order s).pending = s.pending := by
  unfold risingEdge; try dsimp only
  (repeat' split) <;> simp

@[simp] theorem lineChange_frame (i : Fin 8) (high : Bool) (order : List Taker) (s : State) :
    (lineChange i high order s).rs = s.rs ∧ (lineChange i high order s).resetHeld = s.resetHeld ∧ (lineChange i high order s).pending = s.pending := by
  unfold lineChange; try dsimp only
  (repeat' split) <;> simp

@[simp] theorem endPulse_frame (p : PulsedOutput) (s : State) :
    (endPulse p s).eu = s.eu ∧ (endPulse p s).tu = s.tu ∧ (endPulse p s).hp = s.hp ∧ (endPulse p s).pe = s.pe ∧ (endPulse p s).bt = s.bt ∧ (endPulse p s).rm = s.rm ∧ (endPulse p s).spe = s.spe ∧ (endPulse p s).rs = s.rs ∧ (endPulse p s).lp = s.lp ∧ (endPulse p s).bus = s.bus ∧ (endPulse p s).resetHeld = s.resetHeld ∧ (endPulse p s).freeCount = s.freeCount ∧ (endPulse p s).pending = s.pending := by
  unfold endPulse; try dsimp only
  (repeat' split) <;> simp

@[simp] theorem clearCounters_frame (c : CounterSet) (s : State) :
    (clearCounters c s).tu = s.tu ∧ (clearCounters c s).pe = s.pe ∧ (clearCounters c s).bt = s.bt ∧ (clearCounters c s).rm = s.rm ∧ (clearCounters c s).ax = s.ax ∧ (clearCounters c s).bus = s.bus ∧ (clearCounters c s).resetHeld = s.resetHeld ∧ (clearCounters c s).freeCount = s.freeCount ∧ (clearCounters c s).pending = s.pending := by
  unfold clearCounters; try dsimp only
  (repeat' split) <;> simp

end Sys2Proof.Machine
end

