-- ==== Sys2Proof/Laws/Ops.lean ====
section
/-! SUPPORT. What a shared operation can do, said once for each: the cases a proof about it has, with their guards,
so that it need not be unfolded. -/

namespace Sys2Proof.Machine

/-! ## Queues -/

/-- A notice is queued while fewer than 32 wait, and otherwise only counted (R178). -/
theorem linkNotice_cases (n : Notice) (l : LinkPort) :
    (l.notices.length < 32 ∧ linkNotice n l = { l with notices := l.notices ++ [n] }) ∨
    (32 ≤ l.notices.length ∧
      linkNotice n l = { l with counters := { l.counters with noticesLost := satInc l.counters.noticesLost } }) := by
  unfold linkNotice Config.noticeLimit
  split
  · exact .inl ⟨‹_›, rfl⟩
  · exact .inr ⟨by omega, rfl⟩

/-- What a taking at place `k` answers: the element there, and the list without it. -/
theorem takeAt_some {α : Type} {k : Nat} {xs rest : List α} {x : α} (h : takeAt k xs = some (x, rest)) :
    xs[k]? = some x ∧ xs = xs.take k ++ x :: xs.drop (k + 1) ∧ rest = xs.take k ++ xs.drop (k + 1) := by
  induction xs generalizing k rest with
  | nil => simp [takeAt] at h
  | cons y ys ih =>
    cases k with
    | zero => simp [takeAt] at h; obtain ⟨rfl, rfl⟩ := h; simp
    | succ k =>
      simp only [takeAt, Option.map_eq_some_iff, Prod.mk.injEq] at h
      obtain ⟨⟨z, r⟩, hz, rfl, rfl⟩ := h
      obtain ⟨a, b, c⟩ := ih hz
      refine ⟨by simpa using a, ?_, ?_⟩
      · simpa using b
      · simpa using c

/-- An element is taken out of turn only when it may overtake each one before it (R148, R155). -/
theorem takeOvertaking_some {α : Type} {f : α → α → Bool} {k : Nat} {xs rest : List α} {x : α}
    (h : takeOvertaking f k xs = some (x, rest)) :
    xs[k]? = some x ∧ rest = xs.take k ++ xs.drop (k + 1) ∧ ∀ y ∈ xs.take k, f x y = true := by
  unfold takeOvertaking at h
  split at h
  · rename_i z r hz
    split at h
    · rename_i hall
      simp only [Option.some.injEq, Prod.mk.injEq] at h
      obtain ⟨rfl, rfl⟩ := h
      obtain ⟨a, -, c⟩ := takeAt_some hz
      exact ⟨a, c, fun y hy => List.all_eq_true.1 hall y hy⟩
    · cases h
  · cases h

/-! ## Host commands -/

/-- A host-command row changes nothing, or executes the command at the front of the queue into the empty reply slot
(R167, R169). -/
theorem executeCommand_cases (mine : HostCommand → Bool) (f : List Byte → State → Executed) (s : State) :
    executeCommand mine f s = s ∨
    ∃ c rest, s.lp.reply = none ∧ s.lp.resetMark = false ∧ s.lp.queue = c :: rest ∧ mine c = true ∧
      executeCommand mine f s = replyTo c (f (commandArgs c) (onLink (fun l => { l with queue := rest }) s)) := by
  unfold executeCommand nextCommand
  cases hq : s.lp.queue with
  | nil => left; split <;> simp_all
  | cons c rest =>
    by_cases hr : s.lp.reply.isNone ∧ s.lp.resetMark = false
    · simp only [hr, and_self, if_true]
      by_cases hm : mine c = true
      · exact .inr ⟨c, rest, by simpa using hr.1, trivial, rfl, hm, by simp [hm]⟩
      · exact .inl (by simp [hm])
    · exact .inl (by rw [if_neg hr])

/-- A slot byte names a slot exactly from 0 to 63. -/
theorem slotOfNat_eq_some {n : Nat} {slot : Slot} : slotOfNat n = some slot ↔ n = slot.val := by
  unfold slotOfNat
  split
  · rw [Option.some.injEq, Fin.ext_iff]
  · constructor
    · intro h; cases h
    · intro h; have := slot.isLt; omega

/-- A head byte names a head exactly by its number. -/
theorem headOfNat_eq_some {n : Nat} {h : Head} : headOfNat n = some h ↔ n = headNum h := by
  rcases n with _ | _ | _ | _ | n <;> cases h <;> simp [headOfNat, headNum]

/-! ## Settling, drift and arming -/

/-- The settle test ends SETTLING, sets the timer back, or changes nothing (R115). -/
theorem settleTest_cases (s : State) :
    settleTest s = s ∨
    ∃ a, s.spe.active = some a ∧ s.spe.state = .settling ∧
      ((settled a.step s = true ∧ a.step.settle ≤ s.spe.settleTimer.getD 0 ∧ settleTest s = endSettling a.step s) ∨
       (settled a.step s = false ∧ settleTest s = onPlan (fun q => { q with settleTimer := some 0 }) s)) := by
  unfold settleTest
  split
  · exact .inl rfl
  · rename_i a ha
    split
    · exact .inl rfl
    · rename_i hst
      simp only [ne_eq, Decidable.not_not] at hst
      split
      · rename_i hset
        split
        · exact .inr ⟨a, ha, hst, .inl ⟨hset, ‹_›, rfl⟩⟩
        · exact .inl rfl
      · rename_i hset
        exact .inr ⟨a, ha, hst, .inr ⟨by simpa using hset, rfl⟩⟩

/-- An ARM_TIMEOUT carries the pass 0 of R117 or the pass held of R141, and nothing else (log entry 11). -/
theorem armTimeoutPass_cases (s : State) : armTimeoutPass s = 0 ∨ armTimeoutPass s = s.spe.pass := by
  unfold armTimeoutPass
  split
  · exact .inl rfl
  · split
    · exact .inr rfl
    · exact .inl rfl

/-- The drift test sends RADIUS_DRIFT to the latch at the beginning of a drift episode, ends the episode, or changes nothing
(R119). -/
theorem driftTest_cases (s : State) :
    driftTest s = s ∨
    ∃ a, s.spe.active = some a ∧ s.spe.state = .acquiring ∧
      ((outOfTolerance a.step (radius s) = true ∧ s.spe.drift = false ∧
          driftTest s = sendRaising (raisedNow .radiusDrift none s) (onPlan (fun q => { q with drift := true }) s)) ∨
       (outOfTolerance a.step (radius s) = false ∧ driftTest s = onPlan (fun q => { q with drift := false }) s)) := by
  unfold driftTest
  split
  · exact .inl rfl
  · rename_i a ha
    split
    · exact .inl rfl
    · rename_i hst
      simp only [ne_eq, Decidable.not_not] at hst
      split
      · rename_i hout
        split
        · exact .inl rfl
        · rename_i hd
          exact .inr ⟨a, ha, hst, .inl ⟨hout, by simpa using hd, rfl⟩⟩
      · rename_i hout
        exact .inr ⟨a, ha, hst, .inr ⟨by simpa using hout, rfl⟩⟩

/-- The step that is armed stands in its slot, and has a table and a map radius where it needs them (R113). -/
theorem armable_some {slot : Slot} {s : State} {p : ScanStep} (h : armable slot s = some p) :
    s.spe.slots[slot] = some p ∧
    (p.flags.learn = true ∨ (s.bt.entries ≠ [] ∧ ¬(p.flags.scaleMap = true ∧ s.rm.radius = 0))) := by
  unfold armable at h
  split at h
  · cases h
  · rename_i q hq
    split at h
    · cases h; exact ⟨hq, .inl ‹_›⟩
    · split at h
      · cases h
      · rename_i he
        split at h
        · cases h
        · rename_i hm
          cases h
          exact ⟨hq, .inr ⟨by simpa using he, hm⟩⟩

/-- A head that has passed the first three checks is skipped as too fast, skipped for a full list, or triggered
(R22, R24). -/
theorem attemptTrigger_cases (a : ActiveStep) (h : Head) (s : State) :
    (spacingMet h s = false ∧
      attemptTrigger a h s = flagOpen .overrun h (onCounters h (fun c => { c with tooFast := satInc c.tooFast }) s)) ∨
    (spacingMet h s = true ∧ listHasRoom h s = false ∧
      attemptTrigger a h s = flagOpen .overrun h (onCounters h (fun c => { c with overrun := satInc c.overrun }) s)) ∨
    (spacingMet h s = true ∧ listHasRoom h s = true ∧ attemptTrigger a h s = issueTrigger a h s) := by
  unfold attemptTrigger
  cases spacingMet h s <;> cases listHasRoom h s <;> simp

/-- A new-revolution event starts the first pass, the next pass or the tail, or does nothing to the plan
(R116, R118, R133). -/
theorem planNewRevolution_cases (s : State) :
    planNewRevolution s = s ∨
    ∃ a, s.spe.active = some a ∧
      ((s.spe.state = .armed ∧ planNewRevolution s = enterAcquiring a s) ∨
       (s.spe.state = .acquiring ∧ s.spe.pass < a.step.passes ∧ interjectionPending s = false ∧
          planNewRevolution s = onPlan (fun q => { q with passesDone := s.spe.pass, pass := s.spe.pass + 1 }) s) ∨
       (s.spe.state = .acquiring ∧ (a.step.passes ≤ s.spe.pass ∨ interjectionPending s = true) ∧
          planNewRevolution s = enterTail a (onPlan (fun q => { q with passesDone := s.spe.pass }) s))) := by
  cases ha : s.spe.active with
  | none => left; simp only [planNewRevolution, ha]
  | some a =>
    cases hst : s.spe.state with
    | armed => exact .inr ⟨a, rfl, .inl ⟨rfl, by simp only [planNewRevolution, ha, hst]⟩⟩
    | acquiring =>
      right
      refine ⟨a, rfl, .inr ?_⟩
      have hp : ∀ q : ScanPlan → ScanPlan, (q s.spe).interjection = s.spe.interjection →
          interjectionPending (onPlan q s) = interjectionPending s := by
        intro q hq; simp only [interjectionPending, onPlan, hq]
      by_cases hc : s.spe.pass < a.step.passes ∧ interjectionPending s = false
      · refine .inl ⟨rfl, hc.1, hc.2, ?_⟩
        simp only [planNewRevolution, ha, hst]
        rw [if_pos (by rw [hp _ rfl]; simp [hc])]
        rfl
      · refine .inr ⟨rfl, ?_, ?_⟩
        · cases hi : interjectionPending s with
          | true => exact .inr rfl
          | false => exact .inl (Nat.le_of_not_lt fun h => hc ⟨h, hi⟩)
        · simp only [planNewRevolution, ha, hst]
          rw [if_neg (by rw [hp _ rfl]; simpa using hc)]
    | _ => left; simp only [planNewRevolution, ha, hst]

/-! ## Faults -/

/-- A pending halt is taken from the latch, and a clear latch has none to take (R147). -/
theorem takeHalt_cases (s : State) :
    (s.spe.latch = none ∧ takeHalt s = s) ∨
    ∃ r, s.spe.latch = some r ∧
      (takeHalt s).spe = { emptyPlan .faulted s.spe with latch := some { r with taken := true } } ∧
      (takeHalt s).lp = linkNotice (.faultHalted { r with taken := true } .faulted s.spe.secondary) s.lp ∧
      (takeHalt s).tu = (stopTails s).tu ∧ (takeHalt s).rm = dropAcc s.rm := by
  unfold takeHalt
  cases hl : s.spe.latch with
  | none => exact .inl ⟨rfl, rfl⟩
  | some r => exact .inr ⟨r, rfl, rfl, rfl, rfl, rfl⟩

/-- A raising is counted, and reported, latched or taken as secondary by the policy and the latch (R141, R143, R145,
R148). -/
theorem raiseFault_cases (x : Raising) (s : State) :
    let r := recordOf x (policyOf x.cls s)
    let t := onPlan (countFault x.cls) s
    (policyOf x.cls s = .report ∧ raiseFault x s = queueNotice (raisedNotice r .reported 0 t) t) ∨
    (policyOf x.cls s ≠ .report ∧ s.spe.latch = none ∧ raiseFault x s = latchFirst r t) ∨
    (policyOf x.cls s ≠ .report ∧ ∃ held, s.spe.latch = some held ∧ raiseFault x s = latchSecond held r t) := by
  have hl : (onPlan (countFault x.cls) s).spe.latch = s.spe.latch := rfl
  have hr (p : Policy) : (recordOf x p).policy = p := rfl
  by_cases hp : policyOf x.cls s = .report
  · exact .inl ⟨hp, by simp only [raiseFault, recordOf, hp, if_true]⟩
  · cases h : s.spe.latch with
    | none => exact .inr (.inl ⟨hp, rfl, by simp only [raiseFault, hr, hp, if_false, hl, h]⟩)
    | some held => exact .inr (.inr ⟨hp, held, rfl, by simp only [raiseFault, hr, hp, if_false, hl, h]⟩)

/-! ## Samples -/

/-- A sample joins its queue while fewer than 256 wait, and is otherwise dropped, counted and flagged (R30). -/
theorem enqueueSample_cases (h : Head) (x : Sample) (s : State) :
    ((s.hp.get h).queue.length < 256 ∧ enqueueSample h x s = onPort h (fun p => { p with queue := p.queue ++ [x] }) s) ∨
    (256 ≤ (s.hp.get h).queue.length ∧
      enqueueSample h x s = flagOpen .loss h (onCounters h (fun c => { c with queueDrops := satInc c.queueDrops }) s)) := by
  unfold enqueueSample Config.queueLimit
  split
  · exact .inl ⟨‹_›, rfl⟩
  · exact .inr ⟨by omega, rfl⟩

/-- The split at a sequence number: the first entry that carries it, and no entry before it does (R27). -/
theorem splitAtSeq_some {q : Seq} {xs older rest : List Outstanding} {e : Outstanding}
    (h : splitAtSeq q xs = some (older, e, rest)) :
    xs = older ++ e :: rest ∧ e.seq = q ∧ ∀ y ∈ older, y.seq ≠ q := by
  induction xs generalizing older with
  | nil => cases h
  | cons x xs ih =>
    unfold splitAtSeq at h
    split at h
    · cases h
      exact ⟨rfl, ‹_›, by simp⟩
    · rename_i hx
      simp only [Option.map_eq_some_iff, Prod.mk.injEq] at h
      obtain ⟨⟨o, e', r⟩, hr, rfl, rfl, rfl⟩ := h
      obtain ⟨a, b, c⟩ := ih hr
      refine ⟨by simpa using a, b, ?_⟩
      intro y hy
      rcases List.mem_cons.1 hy with rfl | hy
      · exact hx
      · exact c y hy

/-- No entry carries the sequence number of a stray word (R27). -/
theorem splitAtSeq_none {q : Seq} {xs : List Outstanding} (h : splitAtSeq q xs = none) : ∀ e ∈ xs, e.seq ≠ q := by
  induction xs with
  | nil => simp
  | cons x xs ih =>
    unfold splitAtSeq at h
    split at h
    · cases h
    · rename_i hx
      intro e he
      rcases List.mem_cons.1 he with rfl | he
      · exact hx
      · exact ih (by simpa using h) e he

/-! ## Record store -/

/-- The store becomes starved when a frame waits at a credit count of 0 while it is not, and otherwise is left as it
is (R161). -/
theorem starve_cases (s : State) :
    starve s = s ∨
    (s.rs.starved = false ∧ s.rs.credits = 0 ∧ waitingFrames s ≠ [] ∧
      (starve s).rs = { s.rs with
        starved := true, counters := { s.rs.counters with episodes := satInc s.rs.counters.episodes } } ∧
      (starve s).lp =
        linkNotice (.starved s.rs.frames.length (recordsAmong (waitingFrames s)) s.eu.tick) s.lp) := by
  unfold starve
  split
  · exact .inl rfl
  · rename_i h
    simp only [not_or, ne_eq, Decidable.not_not] at h
    exact .inr ⟨by simpa using h.1, h.2.1, h.2.2, rfl, rfl⟩

/-- The frames a starvation episode leaves are those it found (R161). -/
@[simp] theorem starve_frames (s : State) : (starve s).rs.frames = s.rs.frames := by
  unfold starve; split <;> rfl

end Sys2Proof.Machine
end

