-- ==== Sys2Proof/WellFormed.lean ====
section
/-! DEFINITION. Which command terms the outside can bring. `exec` gives every term a meaning, well-formed or not. -/

namespace Sys2Proof

/-- A stretch of time between two steps is shorter than one wrap of the tick counter (R16). -/
abbrev shortOfOneWrap (after : Nat) : Bool := decide (after < 4294967296)

/-- An order names no taker twice. -/
abbrev orderOk (order : List Taker) : Bool := decide order.Nodup

/-- The bytes of one arrival: at least one, and no more than one whole head word (R26). -/
abbrev wordBytesOk (bytes : List LineByte) : Bool := decide (1 ≤ bytes.length ∧ bytes.length ≤ 7)

/-- The bytes of one arrival on the link: at least one, and no more than the longest frame (R165). -/
abbrev frameBytesOk (bytes : List LineByte) : Bool := decide (1 ≤ bytes.length ∧ bytes.length ≤ 2055)

/-- The form of a command. The commands the controller carries out on its own account and the host commands have no
operand that could be ill formed. -/
def wellFormed : Instr → Bool
  | .tableEdge after _ order => shortOfOneWrap after && orderOk order
  | .index after order => shortOfOneWrap after && orderOk order
  | .ringExpiry after => shortOfOneWrap after
  | .stall after => shortOfOneWrap after
  | .radialEdge after _ => shortOfOneWrap after
  | .millisecondBoundary after => shortOfOneWrap after
  | .timeDueInstant after => shortOfOneWrap after
  | .triggerPulseEnd after _ => shortOfOneWrap after
  | .lastTriggerExpiry after _ => shortOfOneWrap after
  | .headWord after _ bytes => shortOfOneWrap after && wordBytesOk bytes
  | .headWordGap after _ => shortOfOneWrap after
  | .responseTimeout after _ => shortOfOneWrap after
  | .placementGrant => true
  | .placementEnd after => shortOfOneWrap after
  | .trackingPost => true
  | .recordReport => true
  | .recordAdmission _ => true
  | .admissionReport => true
  | .stepCompletion => true
  | .interjectionTailEnd => true
  | .faultRaise _ => true
  | .frameReceived after bytes => shortOfOneWrap after && frameBytesOk bytes
  | .linkGap after => shortOfOneWrap after
  | .frameSendStart => true
  | .frameSendEnd after => shortOfOneWrap after
  | .idnt => true
  | .stat => true
  | .setpEncoder => true
  | .setpHead => true
  | .setpTrack => true
  | .setpPlan => true
  | .getp => true
  | .cntr => true
  | .runp => true
  | .stop => true
  | .cont => true
  | .intj => true
  | .fclr => true
  | .grnt => true
  | .btld => true
  | .btrd => true
  | .btmk => true
  | .mpld => true
  | .mprd => true
  | .mpcl => true
  | .stpw => true
  | .stpr => true
  | .axas => true
  | .axwr => true
  | .rset => true
  | .unknown => true
  | .auxLineChange after _ _ order => shortOfOneWrap after && orderOk order
  | .auxPulseEnd after _ => shortOfOneWrap after
  | .powerOn => true
  | .resetLine => true
  | .resetRelease => true

end Sys2Proof
end

