-- ==== Sys2Proof/Tests/Slice0.lean ====
section
/-! SUPPORT. Tests of the model on the manual's own figures, ill-formed command terms, and for each statement with
hypotheses a concrete state that meets them. -/

open Sys2Proof Sys2Proof.Machine

namespace Sys2Proof.Tests

/-! ## Helpers -/

/-- The state after a command. -/
def after (c : Instr) (s : State) : State :=
  match exec c s with
  | .next t => t
  | .fault _ => s
  | .refused _ => s

/-- No flag. -/
def noFlags : StepFlags := ⟨false, false, false, false, false, false, false⟩

/-- A step of head 0 over blades 0 to 15, at radius 1,000, with two passes. -/
def plainStep : ScanStep :=
  { tag := 101, next := none, mask := ⟨true, false, false, false⟩, radius := 1000, tolerance := 100, settle := 2,
    passes := 2, mode := .angle 16, windowed := false, guard := 0, first := 0, last := 15, decimation := 0, kOn := 1,
    kOff := 1, threshold := 200, trackHead := .h0, flags := noFlags }

/-- The step in slot 5 and active under run id 12, in the plan state given, in pass 1, with the encoder referenced and
the carriage at radius 1,000. -/
def running (st : PlanState) (p : ScanStep) : State :=
  { State.reset with
    eu := { Encoder.reset with referenced := true, radial := 1000 }
    spe := { ScanPlan.reset with
      state := st, active := some ⟨5, p, 12⟩, runId := 12, pass := 1, firstPass := 1
      slots := ScanPlan.reset.slots.set 5 (some p) } }

/-- A blade entry at its nominal window. -/
def blade (id nominal width : Nat) : BladeEntry := loadedEntry ⟨id, nominal, width⟩

/-- The blade table with these entries in generation 17, the same windows in both sets. -/
def withBlades (es : List BladeEntry) (s : State) : State :=
  { s with bt := { s.bt with entries := es, current := es.map windowOf, previous := es.map windowOf, gen := 17 } }

/-- Head `h`'s port is changed. -/
def withPort (h : Head) (f : HeadPort → HeadPort) (s : State) : State := onPort h f s

/-- A command of tag 7 alone in the command queue. -/
def offered (k : Keyword) (args : List Byte) (s : State) : State :=
  { s with lp := { s.lp with queue := [⟨7, keywordBytes k ++ args⟩] } }

/-- The status and result data of the reply that a host command gives. -/
def answer (c : Instr) (s : State) : Option (Status × List Byte) := (after c s).lp.reply.map fun r => (r.status, r.data)

/-- An outstanding entry of a trigger at the tick `t`, with a stopped table. -/
def entry (seq : Seq) (t : Tick) : Outstanding :=
  { seq := seq, trigTick := t, count := 100000, edgeTick := 0, speed := none, pass := 1, gen := 17, runId := 12 }

/-- A head's answer with code OK. -/
def okAnswer (intensity : BitVec 12) (distance : BitVec 20) : Answer := ⟨.ok, intensity, distance⟩

/-- A closed record without points. -/
def closedRecord : SectionRecord :=
  { tag := 101, runId := 12, pass := 1, head := .h0, blade := 3, bladeId := 33, gen := 17, mapGen := 0, radius := 1000,
    openTick := 0, entry := some 40768, exit := some 50000, count := 0, dropouts := 0, saturated := 0, multiPeak := 0,
    heights := none, pointCount := 0, withheld := false, flags := 0, digest := none, points := [] }

/-- A data frame of the record with the number given. -/
def dataFrame (number : Id16) : DataFrame := wholeFrame number closedRecord []

/-! ## Checks of bytes (13.1, R187, R188) -/

theorem test_crc16_digits : crc16 (ascii "123456789".toList) = 0x29B1 := by decide +kernel

theorem test_crc32_digits : crc32 (ascii "123456789".toList) = 0xCBF43926 := by decide +kernel

/-! ## Placing a sample, by the cases of 3.9 and 3.10 -/

/-- The encoder of the worked cases, with the zero offset given. -/
def caseEncoder (zero : Angle) : EncoderParams := ⟨262144, true, 2, zero, 0, false⟩

/-- The head of the worked cases: DOWN, reference 150,000, latency 2,500, azimuth 0. -/
def caseHead : HeadParams := { HeadParams.default with reference := 150000, latency := 2500 }

theorem test_exposure_one_revolution_per_second :
    (exposureAngle (caseEncoder 1000000) caseHead
      { entry 0 120 with count := 100000, speed := some 97656 }).toNat = 5400439 := by decide

theorem test_exposure_across_zero :
    (exposureAngle (caseEncoder 20000) caseHead
      { entry 0 30 with count := 262140, speed := some 9764 }).toNat = 16761205 := by decide

/-- A loaded map with two bins set. -/
def caseMap (i j : Fin 256) (a b : Int) : RunoutMap :=
  { RunoutMap.reset with state := .loaded, radius := 1200000, bins := (RunoutMap.reset.bins.set i a).set j b }

theorem test_correction_floors : interpolated (caseMap 82 83 12 (-4)) 5400439 = 6 := by decide

theorem test_correction_wraps_bins : interpolated (caseMap 255 0 (-20) 10) 16761205 = 3 := by decide

theorem test_correction_scaled :
    correctionAt { plainStep with flags := { noFlags with scaleMap := true } } 1850000 (caseMap 82 83 12 (-4)) 5400439 =
      9 := by decide

theorem test_advance_saturates : advanceOf 65535 { entry 0 30 with speed := some 9764 } = (65535, true) := by
  decide

/-! ## One blade crossing with decimation, by 5.10 -/

/-- Head 0's step in 5.10. -/
def crossingStep : ScanStep := { plainStep with kOn := 3, kOff := 2, decimation := 1, threshold := 200 }

/-- A placed sample of 5.10: in blade 4's window of 20,000 au, or beyond it in none. -/
def placed (seq : Seq) (u : Nat) (surface : Option (Int × BitVec 12 × HeadCode × Bool)) : Placed :=
  { seq := seq, pass := 1, runId := 12, gen := 17, trigTick := 0, angle := 2000000 + BitVec.ofNat 24 u
    window := if u < 20000 then some (4, ⟨44, 2000000, 20000, false⟩) else none
    enabled := true, placeholder := false, surface := surface, mapGen := 0, clamped := false }

/-- A measured surface. -/
def measured (z : Int) (i : BitVec 12) : Option (Int × BitVec 12 × HeadCode × Bool) := some (z, i, .ok, true)

/-- The twenty samples of 5.10, but for the last. -/
def crossing : List Placed :=
  [placed 100 1000 none, placed 101 2024 none, placed 102 3048 (some (126490, 0, .saturated, false)),
   placed 103 4072 (measured 126500 900), placed 104 5096 (measured 126510 850), placed 105 6120 (measured 126520 880),
   placed 106 6080 (measured 126530 870), placed 107 8168 none, placed 108 9192 (measured 126540 860),
   placed 110 11240 (measured 126550 840), placed 111 12264 (some (126560, 0, .multiPeak, false)),
   placed 112 13288 none, placed 113 14312 none, placed 114 15336 (measured 126000 900), placed 115 16360 none,
   placed 116 17384 (measured 126000 910), placed 117 18408 (measured 126000 905), placed 118 19432 (measured 126000 900)]

/-- The detector after them, and its closed record after the sample that lies outside the window. -/
def crossed : Detector × Option OpenRecord :=
  let e : Surroundings := ⟨crossingStep, 1000, 0, 1⟩
  let d := crossing.foldl (fun d p => (arrive e p d).1) { Detector.reset with lastSeq := some 99 }
  arrive e (placed 119 20456 (measured 126000 890)) d

theorem test_crossing_edges :
    crossed.2.map (fun r => (r.entry, r.exit, r.points.map fun p => (p.u, p.z))) =
      some (some 3048, some 12264,
        [(3048, 126490), (5096, 126510), (6120, 126530), (11240, 126550), (12264, 126560)]) := by decide

theorem test_crossing_statistics :
    crossed.2.map (fun r => (r.stats.count, r.stats.sum, r.stats.range)) =
      some (6, 759150, some (126500, 126550)) := by decide

theorem test_crossing_marks :
    crossed.2.map (fun r => (r.stats.dropouts, r.stats.saturated, r.stats.multiPeak, r.flags)) =
      some (1, 1, 1, 0b000000010100) := by decide

/-! ## The encoder unit -/

theorem test_tableEdge_crosses :
    let s := { running .settling plainStep with
      eu := { (running .settling plainStep).eu with count := 262143, netRevs := 40, highWater := 40 } }
    ((after (.tableEdge 1 .forward []) s).eu.count, (after (.tableEdge 1 .forward []) s).eu.netRevs) = (0, 41) := by
  decide

theorem test_tableEdge_reversal_in_acquiring :
    let s := { running .acquiring plainStep with
      eu := { (running .acquiring plainStep).eu with count := 150000, netRevs := 42 } }
    (after (.tableEdge 1 .reverse []) s).bus.raisings = [⟨.direction, none, 101, 1, 1⟩] := by decide

theorem test_index_references :
    (after (.index 3 []) State.reset).lp.notices = [.referenced 3] := by decide

theorem test_index_slips :
    let s := { running .acquiring plainStep with eu := { (running .acquiring plainStep).eu with count := 9 } }
    ((after (.index 3 []) s).eu.count, (after (.index 3 []) s).bus.raisings) =
      (0, [⟨.indexSlip, none, 101, 1, 3⟩]) := by decide

theorem test_ringExpiry_holds_at_the_period :
    (after (.ringExpiry 16777216) { State.reset with eu := { Encoder.reset with ring := [0] } }).eu.ring = [0] := by
  decide

theorem test_ringExpiry_empties :
    (after (.ringExpiry 16777217) { State.reset with eu := { Encoder.reset with ring := [0] } }).eu.ring = [] := by
  decide

theorem test_stall_raised :
    (after (.stall 16777217) (running .acquiring plainStep)).bus.raisings = [⟨.stall, none, 101, 1, 16777217⟩] := by
  decide

theorem test_stall_not_in_tail : (after (.stall 16777217) (running .tail plainStep)).bus.raisings = [] := by
  decide

theorem test_radialEdge_wraps : (after (.radialEdge 1 .reverse) State.reset).eu.radial = 0xFFFFFFFF := by
  decide

theorem test_radialEdge_counts_errors : (after (.radialEdge 1 .both) State.reset).eu.radialErrors = 1 := by
  decide

/-- In SETTLING with the settle timer at 1 and the arm timer as given. -/
def settling (arm : Nat) : State :=
  let s := running .settling plainStep
  { s with spe := { s.spe with pass := 0, settleTimer := some 1, armTimer := some arm, armLimit := 100 } }

theorem test_millisecond_settles : (after (.millisecondBoundary 100000) (settling 1)).spe.state = .armed := by
  decide

/-- R117: "with no head named, the step's tag and pass 0". -/
theorem test_millisecond_arm_timeout :
    (after (.millisecondBoundary 100000) (settling 99)).spe.latch.map (fun r => (r.cls, r.head, r.tag, r.pass)) =
      some (.armTimeout, none, 101, 0) := by decide

/-! ## Triggers and head ports -/

/-- Acquiring in TIME mode every 20,000 ticks, the period begun at tick 0, head 0's counter at 4,095. -/
def timed : State :=
  let s := running .acquiring { plainStep with mode := .time 20000 }
  { s with tu := ⟨(PerHead.all TriggerHead.reset).set .h0 { TriggerHead.reset with seq := 4095 }, some 0⟩ }

theorem test_timeDue_triggers :
    let t := after (.timeDueInstant 20000) timed
    ((t.hp.get .h0).outstanding.map (·.seq), (t.tu.heads.get .h0).seq, t.tu.period) = ([4095], 0, some 20000) := by
  decide

theorem test_timeDue_waits : (after (.timeDueInstant 19999) timed).tu.period = some 0 := by decide

/-- Head 0's trigger line went active at tick 0. -/
def pulsing : State :=
  { State.reset with
    tu := ⟨(PerHead.all TriggerHead.reset).set .h0 { TriggerHead.reset with lastTrigger := some 0, pulse := some 0 },
      none⟩ }

theorem test_triggerPulse_ends : ((after (.triggerPulseEnd 100 .h0) pulsing).tu.heads.get .h0).pulse = none := by
  decide

theorem test_triggerPulse_lasts : ((after (.triggerPulseEnd 99 .h0) pulsing).tu.heads.get .h0).pulse = some 0 := by
  decide

theorem test_lastTrigger_held :
    ((after (.lastTriggerExpiry 1000000 .h0) pulsing).tu.heads.get .h0).lastTrigger = some 0 := by decide

theorem test_lastTrigger_let_go :
    ((after (.lastTriggerExpiry 1000001 .h0) pulsing).tu.heads.get .h0).lastTrigger = none := by decide

/-- Head 1 of 2.9 at tick 40,000: 4,093 to 4,095 outstanding. -/
def matching : State :=
  withPort .h1 (fun p => { p with outstanding := [entry 4093 0, entry 4094 20000, entry 4095 40000] })
    (running .acquiring plainStep)

/-- The seven bytes of 13.2 for sequence 4,094, code OK, intensity 0x3E8, distance 0x05BA0; spare bits 0. -/
def word4094 : List Byte := [0xFF, 0xE0, 0x3E, 0x80, 0x5B, 0xA0, 0xFF ^^^ 0xE0 ^^^ 0x3E ^^^ 0x80 ^^^ 0x5B ^^^ 0xA0 ^^^ 0x5A]

theorem test_headWord_fields : readWord word4094 = ⟨4094, okAnswer 0x3E8 0x05BA0⟩ := by decide +kernel

theorem test_headWord_matches :
    let p := (after (.headWord 52000 .h1 (cleanly word4094)) matching).hp.get .h1
    (p.outstanding.map (·.seq), p.queue.map (fun x => (x.entry.seq, x.answer.isSome)), p.counters.noResponse) =
      ([4095], [(4093, false), (4094, true)], 1) := by decide +kernel

/-- A partial word whose latest byte came at tick 0. -/
def partly : State := withPort .h1 (fun p => { p with partialWord := [⟨0xFF, false⟩] }) State.reset

theorem test_wordGap_holds : ((after (.headWordGap 2000 .h1) partly).hp.get .h1).counters.corrupt = 0 := by
  decide

theorem test_wordGap_ends : ((after (.headWordGap 2001 .h1) partly).hp.get .h1).counters.corrupt = 1 := by
  decide

theorem test_responseTimeout_holds :
    ((after (.responseTimeout 100000 .h1) matching).hp.get .h1).outstanding.length = 3 := by decide

theorem test_responseTimeout_leaves_placeholder :
    ((after (.responseTimeout 100001 .h1) matching).hp.get .h1).queue = [⟨entry 4093 0, none⟩] := by decide

/-- Heads 0 and 2 each with a sample waiting, at the priorities given. -/
def waiting (p0 p2 : Nat) : State :=
  withPort .h0 (fun p => { p with queue := [⟨entry 1 0, none⟩], params := { p.params with priority := p0 } })
    (withPort .h2 (fun p => { p with queue := [⟨entry 2 0, none⟩], params := { p.params with priority := p2 } })
      { State.reset with pe := { State.reset.pe with lastServed := .h0 } })

theorem test_grant_in_turn : (after .placementGrant (waiting 1 1)).pe.lastServed = .h2 := by decide

theorem test_grant_by_priority : (after .placementGrant (waiting 2 1)).pe.lastServed = .h0 := by decide

/-- The sample of 3.9 granted, with blade 9 of the case alone in the table. -/
def placing39 : State :=
  let s := withBlades [blade 90 5300000 250000] (running .acquiring plainStep)
  let e := { entry 8 120 with speed := some 97656 }
  { withPort .h0 (fun p => { p with params := caseHead }) s with
    eu := { s.eu with params := caseEncoder 1000000 }
    rm := caseMap 82 83 12 (-4)
    pe := { s.pe with busy := some (.h0, ⟨e, some (okAnswer 900 23456)⟩) } }

theorem test_placement_opens_record :
    (((after (.placementEnd 0) placing39).pe.detectors.get .h0).record.map fun r =>
      (r.entry, r.points.map fun p => (p.u, p.z))) = some (some 100439, [(100439, 126538)]) := by decide

theorem test_placement_stale :
    let s := { placing39 with bt := { placing39.bt with gen := 19 } }
    ((after (.placementEnd 0) s).hp.get .h0).counters.stale = 1 := by decide

/-! ## Records on their way, and the store -/

/-- A post for blade 9 with its entry at `u`, the table of 4.9. -/
def posted (u : Nat) : State :=
  let s := withBlades [blade 90 5300000 250000, { blade 100 5560000 240000 with offset := -5000 }] State.reset
  { s with bus := { s.bus with posts := [⟨if u = 40768 then 0 else 1, some u, false⟩] } }

theorem test_trackingPost_follows :
    (after .trackingPost (posted 40768)).bt.entries[0]?.map (fun e => (e.pendingOffset, e.smoothed, e.seen)) =
      some (some 1000, 1000, 1) := by decide

theorem test_trackingPost_follows_back :
    (after .trackingPost (posted 8768)).bt.entries[1]?.map (fun e => (e.pendingOffset, e.smoothed)) =
      some (some (-8000), -3000) := by decide

/-- Blades 9 and 10 of 4.9 with these offsets and pending offsets, at a new-revolution event. -/
def revolving (o9 o10 p9 p10 : Int) : State :=
  let s := withBlades [{ blade 90 5300000 250000 with offset := o9, pendingOffset := some p9 },
    { blade 100 5560000 240000 with offset := o10, pendingOffset := some p10 }] State.reset
  { s with bt := { s.bt with params := ⟨65536, 32768, 3⟩ }, eu := { s.eu with referenced := true, count := 262143 } }

theorem test_generation_applies_both :
    (after (.tableEdge 1 .forward []) (revolving 0 (-5000) 1000 (-8000))).bt.current.map (·.start.toNat) =
      [5301000, 5552000] := by decide

theorem test_generation_refuses_both :
    let t := after (.tableEdge 1 .forward []) (revolving 1000 (-8000) 1875 (-10625))
    (t.bt.entries.map fun e => (e.offset, e.state)) = [(1000, .displaced), (-8000, .displaced)] := by decide

/-- A record report with these flags is on its way from the run in progress. -/
def reported (flags : BitVec 12) : State :=
  let s := running .acquiring plainStep
  { s with bus := { s.bus with reports := [⟨flags, 12, 3, true, emptyStats⟩] } }

theorem test_recordReport_counts_clean : (after .recordReport (reported 0)).spe.counters = ⟨1, 1, 0, 0, 0⟩ := by decide

theorem test_recordReport_disregards_aborted :
    (after .recordReport (reported 0x400)).spe.counters = ⟨0, 0, 0, 0, 0⟩ := by decide

/-- 509 of the store's slots hold frames, and a record of 300 points waits. -/
def filling (n points : Nat) : State :=
  let r := { closedRecord with pointCount := points, points := List.replicate points ⟨0, 0, 0, .ok⟩ }
  { State.reset with
    rs := { RecordStore.reset with frames := List.replicate n (dataFrame 0), recordNumber := 300, starved := true }
    bus := { State.reset.bus with handed := [⟨r, 0⟩] } }

theorem test_admission_header_only :
    let t := after (.recordAdmission 0) (filling 509 1024)
    (t.rs.frames.length, t.rs.recordNumber, t.bus.stored) = (510, 301, [⟨.headerOnly, 12, false⟩]) := by decide +kernel

theorem test_admission_two_frames :
    ((after (.recordAdmission 0) (filling 510 300)).rs.frames.drop 510).map (fun f => (f.kind, f.points.length)) =
      [(.first, 240), (.last, 60)] := by decide +kernel

theorem test_records_of_one_number_are_counted_apart : recordsAmong [dataFrame 5, dataFrame 5] = 2 := by decide

theorem test_discarded_record_reports_statistics :
    let s := running .acquiring { plainStep with flags := { noFlags with discard := true } }
    let r := { newRecord ⟨plainStep, 1000, 0, 1⟩ false (placed 1 0 none) 4 ⟨44, 0, 20000, false⟩ with
      stats := ⟨6, 759150, some (126500, 126550), 1, 1, 1⟩ }
    ((deliver .h0 r s).bus.handed, (deliver .h0 r s).bus.reports.map (·.statistics)) =
      ([], [⟨6, 759150, some (126500, 126550), 1, 1, 1⟩]) := by decide

/-- The store's report of a lost record is on its way. -/
def lost : State :=
  let s := running .acquiring plainStep
  { s with bus := { s.bus with stored := [⟨.lost, 12, false⟩] } }

theorem test_admissionReport_counts_lost : (after .admissionReport lost).spe.counters.lost = 1 := by decide

/-! ## The plan -/

/-- In TAIL after all passes, with every tail ended and nothing left to place. -/
def tailEnded (p : ScanStep) (done : Nat) (s : State) : State :=
  let r := running .tail p
  { s with
    eu := r.eu
    tu := ⟨PerHead.all { TriggerHead.reset with tail := .ended }, none⟩
    spe := { r.spe with pass := done, passesDone := done } }

theorem test_stepCompletion_ends_plan :
    let t := after .stepCompletion (tailEnded plainStep 2 State.reset)
    (t.spe.state, t.lp.notices.map noticeKeyword) =
      (.idle, [ascii "SDON".toList, ascii "RDON".toList]) := by decide

/-- The accumulators of 6.6 after three passes. -/
def accumulated : Accumulators :=
  { sums := ((Vector.ofFn fun k : Fin 256 => if k.val < 128 then 126520 else 126480).set 39 1518246).set 40 0
    counts := (((Vector.replicate 256 1).set 39 12).set 40 0)
    radius := some 1500000 }

theorem test_learn_fills_empty_bin :
    let m := (completeLearn { RunoutMap.reset with gen := 4, acc := accumulated }).1
    (m.bins[(38 : Fin 256)], m.bins[(39 : Fin 256)], m.bins[(40 : Fin 256)], m.bins[(200 : Fin 256)]) =
      (20, 21, 21, -20) := by decide +kernel

/-- Slot 12's interjection tail of 8.6 is over: two passes of four done, slot 20 requested, 20 records made. -/
def interjecting : State :=
  let s := tailEnded { plainStep with passes := 4 } 2 (withBlades [blade 9 0 1000] State.reset)
  { s with spe := { s.spe with
      interjection := .pending 20, runId := 40, counters := ⟨20, 19, 0, 0, 0x10⟩
      slots := s.spe.slots.set 20 (some { plainStep with flags := { noFlags with learn := true } }) } }

theorem test_interjectionTailEnd_saves :
    let q := (after .interjectionTailEnd interjecting).spe
    (q.context.map (fun c => (c.phase, c.passesDone, c.counters.made)), q.runId, q.interjection) =
      (some (.resumePasses, 2, 20), 41, .running) := by decide

/-- Head 1's entry has timed out in pass 2 of 9.7. -/
def silent : State :=
  let s := running .acquiring plainStep
  { s with spe := { s.spe with pass := 2 }, bus := { s.bus with raisings := [⟨.headSilent, some .h1, 101, 2, 0⟩] } }

theorem test_faultRaise_latches :
    (after (.faultRaise 0) silent).spe.latch = some ⟨.headSilent, some .h1, 101, 2, 0, .haltAtStepEnd, false⟩ := by
  decide

theorem test_faultRaise_escalates :
    let t := after (.faultRaise 0) silent
    let u := after (.faultRaise 0) { t with bus := { t.bus with raisings := [⟨.indexSlip, none, 101, 2, 0⟩] } }
    (u.spe.state, u.spe.latch.map (fun r => (r.cls, r.taken)), u.spe.secondary) =
      (.faulted, some (.headSilent, true), 1) := by decide

theorem test_faultRaise_keeps_what_was_sent :
    let s := { silent with eu := { silent.eu with tick := 500 }, spe := { silent.spe with pass := 3 } }
    (after (.faultRaise 0) s).spe.latch.map (fun r => (r.pass, r.tick)) = some (2, 0) := by decide

/-- In ACQUIRING the carriage drifted and an index slipped at one tick, the slip sent first. -/
def slippedAndDrifted : State :=
  let s := running .acquiring plainStep
  { s with bus := { s.bus with raisings := [⟨.indexSlip, none, 101, 1, 0⟩, ⟨.radiusDrift, none, 101, 1, 0⟩] } }

theorem test_faultRaise_takes_either_first :
    ([0, 1].map fun k => (after (.faultRaise k) slippedAndDrifted).bus.raisings.map (·.cls)) =
      [[.radiusDrift], [.indexSlip]] := by decide

/-! ## The link -/

/-- The frame of a STAT with tag 0x31, written out from R165 and 13.1. -/
def statFrame : List LineByte :=
  let checked : List Byte := [0x00, 0x05, 0x01, 0x31, 0x53, 0x54, 0x41, 0x54, 0x00]
  cleanly (0xA5 :: checked ++ [BitVec.ofNat 8 ((crc16 checked).toNat / 256), BitVec.ofNat 8 (crc16 checked).toNat])

theorem test_frameReceived_queues :
    (after (.frameReceived 5 statFrame) State.reset).lp.queue = [⟨0x31, [0x53, 0x54, 0x41, 0x54, 0x00]⟩] := by
  decide +kernel

/-- Four commands wait. -/
def fourWaiting : State :=
  { State.reset with lp := { LinkPort.reset with queue := List.replicate 4 ⟨1, keywordBytes .stat ++ [0]⟩ } }

theorem test_frameReceived_overloads :
    let t := after (.frameReceived 5 statFrame) fourWaiting
    (t.lp.queue.length, t.lp.overload, t.lp.counters.overloads) = (4, [⟨0x31, [0x53, 0x54, 0x41, 0x54]⟩], 1) := by
  decide +kernel

/-- A frame begun at tick 0. -/
def receiving : State := { State.reset with lp := { LinkPort.reset with receiving := some [] } }

theorem test_linkGap_holds : (after (.linkGap 100000) receiving).lp.receiving = some [] := by decide

theorem test_linkGap_discards : (after (.linkGap 100001) receiving).lp.counters.gapDiscards = 1 := by decide

/-- Two credits, two frames waiting and a notice. -/
def output : State :=
  { State.reset with
    rs := { RecordStore.reset with frames := [dataFrame 1, dataFrame 2], credits := 1 }
    lp := { LinkPort.reset with notices := [.referenced 0] } }

theorem test_frameSendStart_notice_first :
    (after .frameSendStart output).lp.sending.map (·.kind) = some .notice := by decide

theorem test_frameSendStart_last_credit_starves :
    let t := after .frameSendStart { output with lp := LinkPort.reset }
    (t.lp.sending.map (·.kind), t.rs.credits, t.rs.starved, t.lp.notices) =
      (some .data, 0, true, [.starved 2 1 0]) := by decide

/-- A frame of the kind given is being sent. -/
def sending (k : FlightKind) : State := { output with lp := { LinkPort.reset with sending := some ⟨k, []⟩ } }

theorem test_frameSendEnd_frees_slot :
    let t := after (.frameSendEnd 10) (sending .data)
    (t.rs.frames, t.rs.counters.sent, t.lp.sending) = ([dataFrame 2], 1, none) := by decide

theorem test_frameSendEnd_after_rset :
    let s := sending .reply
    (after (.frameSendEnd 10) { s with lp := { s.lp with resetMark := true } }).rs.credits = 0 := by decide

/-! ## Host commands -/

theorem test_idnt_vendor :
    ((answer .idnt (offered .idnt [0] State.reset)).map fun r => r.2.take 8) =
      some [0x42, 0x72, 0x61, 0x6D, 0x69, 0x64, 0x6F, 0x72] := by decide

theorem test_idnt_bad_length : answer .idnt (offered .idnt [] State.reset) = some (.badLength, []) := by decide

theorem test_stat_forms :
    ((answer .stat (offered .stat [0] State.reset)).map fun r => r.2.length,
     (answer .stat (offered .stat [0] (after (.faultRaise 0) silent))).map fun r => r.2.length) =
      (some 32, some 79) := by decide

/-- SETP arguments: group, head, mask and values. -/
def setp (group head : Byte) (mask : Nat) (values : List Byte) : List Byte := [group, head] ++ natBytes 2 mask ++ values

theorem test_setpEncoder_clamps :
    let s := offered .setp (setp 0 0 1 (natBytes 4 100 ++ List.replicate 11 0)) State.reset
    ((after .setpEncoder s).eu.params.counts, (answer .setpEncoder s).map (·.1)) = (4096, some .clamped) := by
  decide

theorem test_setpEncoder_locked :
    answer .setpEncoder (offered .setp (setp 0 0 1 (List.replicate 15 0)) (running .armed plainStep)) =
      some (.locked, []) := by decide

theorem test_setpHead_next_sequence :
    let s := offered .setp (setp 1 2 0x100 (List.replicate 23 0 ++ [0x0F, 0xFD])) State.reset
    ((after .setpHead s).tu.heads.get .h2).seq = 4093 := by decide

theorem test_setpHead_no_such_head :
    answer .setpHead (offered .setp (setp 1 4 0 (List.replicate 25 0)) State.reset) = some (.invalid, []) := by decide

theorem test_setpTrack_limit_clamps_offsets :
    let s := withBlades [{ blade 90 5300000 250000 with offset := -5000 }] State.reset
    ((after .setpTrack (offered .setp (setp 2 0 1 (natBytes 4 4000 ++ List.replicate 5 0)) s)).bt.entries.map
      fun e => (e.offset, e.state)) = [(-4000, .displaced)] := by decide

theorem test_setpPlan_keeps_stop_now :
    let s := offered .setp (setp 3 0 0x200 (List.replicate 13 0)) State.reset
    ((after .setpPlan s).spe.params.policies[7], (answer .setpPlan s).map (·.1)) = (.stopNow, some .clamped) := by
  decide

theorem test_getp_track :
    answer .getp (offered .getp [2, 0] State.reset) = some (.ok, [0, 1, 0, 0, 0, 0, 0x80, 0, 3]) := by decide

theorem test_cntr_clears :
    let s := { State.reset with eu := { Encoder.reset with quadErrors := 258, radialErrors := 1 } }
    (answer .cntr (offered .cntr [1, 0, 1] s), (after .cntr (offered .cntr [1, 0, 1] s)).eu.quadErrors) =
      (some (.ok, [0, 0, 1, 2, 0, 0, 0, 1]), 0) := by decide

/-- Slot 5 holds the plain step and the plan is IDLE, with one blade. -/
def ready : State :=
  withBlades [blade 9 0 1000]
    { State.reset with spe := { ScanPlan.reset with slots := ScanPlan.reset.slots.set 5 (some plainStep), runId := 11 } }

theorem test_runp_arms :
    let q := (after .runp (offered .runp [5] ready)).spe
    (q.state, q.runId, q.active.map fun a => (a.slot, a.step.last)) = (.settling, 12, some (5, 0)) := by decide

theorem test_runp_empty_slot :
    let t := after .runp (offered .runp [6] ready)
    (t.spe.state, t.spe.latch.map (·.cls), t.lp.reply.map (·.status)) = (.faulted, some .stepInvalid, some .ok) := by
  decide

theorem test_stop_notice :
    (after .stop (offered .stop [0] (running .armed plainStep))).lp.notices =
      [.runStopped false 5 101 12 .armed 1 0] := by decide

theorem test_stop_idle : answer .stop (offered .stop [0] State.reset) = some (.wrongState, []) := by decide

/-- HALTED with the following slot END. -/
def halted : State :=
  let s := running .halted plainStep
  { s with spe := { s.spe with pendingDecision := some none } }

theorem test_cont_ends_plan : (after .cont (offered .cont [0] halted)).lp.notices = [.runDone 5 101 12] := by decide

theorem test_intj_waits :
    (after .intj (offered .intj [20] (running .acquiring plainStep))).spe.interjection = .pending 20 := by decide

theorem test_intj_busy :
    let s := running .acquiring plainStep
    answer .intj (offered .intj [20] { s with spe := { s.spe with interjection := .pending 3 } }) =
      some (.interjectBusy, []) := by decide

/-- FAULTED by an index slip. -/
def faulted : State :=
  { State.reset with spe := { ScanPlan.reset with
      state := .faulted, latch := some ⟨.indexSlip, none, 101, 1, 9, .stopNow, false⟩, secondary := 2 } }

theorem test_fclr_clears :
    let q := (after .fclr (offered .fclr [0] faulted)).spe
    (q.state, q.latch, q.secondary) = (.idle, none, 0) := by decide

theorem test_grnt_saturates :
    let s := { State.reset with rs := { RecordStore.reset with credits := 4000 } }
    answer .grnt (offered .grnt [0, 200] s) = some (.clamped, [0x0F, 0xFF]) := by decide

theorem test_grnt_ends_starvation :
    (after .grnt (offered .grnt [0, 2] (filling 1 0))).rs.starved = false := by decide

/-- Two loads: ID 1 at 0 for 1,000 au, ID 2 at 1,000 for 1,000 au, the second width as given. -/
def loads (width : Nat) : List Byte :=
  [2] ++ natBytes 2 1 ++ natBytes 4 0 ++ natBytes 3 1000 ++ natBytes 2 2 ++ natBytes 4 1000 ++ natBytes 3 width

theorem test_btld_loads :
    (after .btld (offered .btld (loads 1000) State.reset)).bt.previous.map (fun w => (w.id, w.start, w.width)) =
      [(1, 0, 1000), (2, 1000, 1000)] := by decide

theorem test_btld_narrow_window : answer .btld (offered .btld (loads 15) State.reset) = some (.invalid, []) := by
  decide

theorem test_btrd_reads :
    ((answer .btrd (offered .btrd [0, 0] ready)).map fun r => (r.1, r.2.take 10)) =
      some (.clamped, [1, 0, 17, 0, 16, 1, 0, 0, 1, 0]) := by decide

theorem test_btmk_stages :
    (after .btmk (offered .btmk [1, 0, 0] ready)).bt.entries.map (·.pendingMark) = [some .exclude] := by decide

theorem test_btmk_beyond_table : answer .btmk (offered .btmk [1, 1, 0] ready) = some (.invalid, []) := by decide

/-- The arguments of an MPLD: radius 1,500,000 and every bin −2. -/
def mapArgs : List Byte := natBytes 4 1500000 ++ (List.replicate 256 [0xFF, 0xFE]).flatten

theorem test_mpld_loads :
    let m := (after .mpld (offered .mpld mapArgs State.reset)).rm
    (m.state, m.radius, m.gen, m.bins[(255 : Fin 256)]) = (.loaded, 1500000, 1, -2) := by decide +kernel

theorem test_mprd_length :
    ((answer .mprd (offered .mprd [0] State.reset)).map fun r => r.2.length) = some 519 := by decide +kernel

theorem test_mpcl_clears :
    let s := { State.reset with rm := caseMap 82 83 12 (-4) }
    ((after .mpcl (offered .mpcl [0] s)).rm.state, (after .mpcl (offered .mpcl [0] s)).rm.radius) = (.empty, 0) := by
  decide

/-- The 32 bytes of a step by 13.4: tag 101, END, head 0, radius 1,000, tolerance 100, settle 2, 2 passes, ANGLE 16,
blades 0 to 15, K_on and K_off 1, threshold 200. -/
def stepWord : List Byte :=
  [0, 101, 0xFF, 1, 0, 0, 0x03, 0xE8, 0, 100, 0, 2, 2, 0, 0, 0, 0, 16, 0, 0, 0, 0, 0, 0, 15, 0, 1, 1, 0, 200, 0, 0]

theorem test_stpw_stores :
    (after .stpw (offered .stpw (5 :: stepWord) State.reset)).spe.slots[(5 : Fin 64)] = some plainStep := by
  decide +kernel

theorem test_stpr_reads : answer .stpr (offered .stpr [5] ready) = some (.ok, 1 :: stepWord) := by decide

theorem test_axas_output_drives :
    answer .axas (offered .axas [7, 11, 1] State.reset) = some (.ok, [7, 11, 1, 1]) := by decide

theorem test_axas_no_such_line : answer .axas (offered .axas [8, 0, 0] State.reset) = some (.invalid, []) := by decide

theorem test_axwr_masks :
    answer .axwr (offered .axwr [0x03, 0xFE] State.reset) = some (.ok, [0x02, 0x00]) := by decide

theorem test_rset_turns_queue_away :
    let s := { State.reset with lp := { LinkPort.reset with
      queue := [⟨3, keywordBytes .rset ++ [0]⟩, ⟨4, keywordBytes .stat ++ [0]⟩, ⟨5, keywordBytes .stat ++ [0]⟩] } }
    let l := (after .rset s).lp
    (l.queue, l.overload.map (·.tag), l.resetMark) = ([], [4, 5], true) := by decide

theorem test_unknown_keyword :
    answer .unknown { State.reset with lp := { LinkPort.reset with queue := [⟨7, [0, 0, 0, 0, 0]⟩] } } =
      some (.unknown, []) := by decide

/-! ## Auxiliary lines and resets -/

/-- STOP_IN on line 2 and, active low, on line 5, which reads high, in the plan state given (12.6). -/
def stopLines (low5 : Bool) : State :=
  let s := running .acquiring plainStep
  { s with ax := { s.ax with lines := (s.ax.lines.set 2 ⟨.stopIn, false, false⟩).set 5 ⟨.stopIn, true, !low5⟩ } }

theorem test_auxLine_stops :
    (after (.auxLineChange 1 5 false []) (stopLines false)).lp.notices =
      [.runStopped true 5 101 12 .acquiring 1 0] := by decide

theorem test_auxLine_second_line_makes_no_edge :
    (after (.auxLineChange 1 2 true []) (stopLines true)).spe.state = .acquiring := by decide

theorem test_auxPulse_ends :
    (after (.auxPulseEnd 100 .passEnd) { State.reset with ax := { AuxUnit.reset with passEnd := some 0 } }).ax.passEnd =
      none := by decide

theorem test_powerOn_resets : (after .powerOn (running .tail plainStep)).spe.state = .idle := by decide

theorem test_resetLine_holds :
    let s := after .resetLine (running .tail plainStep)
    (s.resetHeld, (after (.radialEdge 1 .forward) s).eu.radial) = (true, 0) := by decide

theorem test_resetRelease_starts :
    (after (.radialEdge 1 .forward) (after .resetRelease (after .resetLine State.reset))).eu.radial = 1 := by decide

theorem test_step_runs_front :
    (match step { State.reset with pending := [.radialEdge 1 .forward, .powerOn] } with
      | .next t => (t.eu.radial, t.pending)
      | .fault _ => (0, [])
      | .refused _ => (0, [])) = (1, [.powerOn]) := by decide

theorem test_no_word_spells_a_command : decodeTableWord 8 0xA5 = none := by decide

/-! ## Ill-formed terms -/

theorem test_illFormed_after :
    (List.map wellFormed
      [.tableEdge 4294967296 .forward [], .index 4294967296 [], .ringExpiry 4294967296, .stall 4294967296,
       .radialEdge 4294967296 .forward, .millisecondBoundary 4294967296, .timeDueInstant 4294967296,
       .triggerPulseEnd 4294967296 .h0, .lastTriggerExpiry 4294967296 .h0, .headWord 4294967296 .h0 [⟨0, false⟩],
       .headWordGap 4294967296 .h0, .responseTimeout 4294967296 .h0, .placementEnd 4294967296,
       .frameReceived 4294967296 [⟨0, false⟩], .linkGap 4294967296, .frameSendEnd 4294967296,
       .auxLineChange 4294967296 0 true [], .auxPulseEnd 4294967296 .passEnd]) = List.replicate 18 false := by decide

theorem test_illFormed_order :
    (wellFormed (.tableEdge 1 .forward [.due, .plan, .due]), wellFormed (.index 1 [.plan, .plan]),
     wellFormed (.auxLineChange 1 0 true [.blades, .blades])) = (false, false, false) := by decide

theorem test_illFormed_headWord :
    (wellFormed (.headWord 1 .h0 []), wellFormed (.headWord 1 .h0 (List.replicate 8 ⟨0, false⟩))) = (false, false) := by
  decide

theorem test_illFormed_frame :
    (wellFormed (.frameReceived 1 []), wellFormed (.frameReceived 1 (List.replicate 2056 ⟨0, false⟩))) =
      (false, false) := by decide +kernel

theorem test_wellFormed_at_the_bounds :
    (wellFormed (.tableEdge 4294967295 .forward [.due, .plan]), wellFormed (.headWord 0 .h0 (List.replicate 7 ⟨0, false⟩)),
     wellFormed (.frameReceived 0 (List.replicate 2055 ⟨0, false⟩))) = (true, true, true) := by decide +kernel

/-! ## Witnesses: for each statement with hypotheses, states and operands that meet them -/

/-- What holds of each of the four heads holds of every head. -/
theorem forall_head {p : Head → Prop} (h0 : p .h0) (h1 : p .h1) (h2 : p .h2) (h3 : p .h3) (h : Head) : p h := by
  cases h <;> assumption

theorem witness_StepRunsFrontCommand :
    (∃ (s : State) (c : Instr) (rest : List Instr), s.pending = c :: rest) ∧
    (∃ s : State, s.pending = [] ∧ s.resetHeld = false) ∧ ∃ s : State, s.pending = [] ∧ s.resetHeld = true :=
  ⟨⟨{ State.reset with pending := [.placementGrant, .powerOn] }, .placementGrant, [.powerOn], rfl⟩,
   ⟨State.reset, rfl, rfl⟩, ⟨{ State.reset with resetHeld := true }, rfl, rfl⟩⟩

theorem witness_HeldWhileResetAsserted :
    (∃ (c : Instr) (s : State), s.resetHeld = true ∧ c ≠ .powerOn ∧ c ≠ .resetLine ∧ c ≠ .resetRelease) ∧
    ∃ (after : Nat) (i : Fin 8) (order : List Taker) (s : State), s.resetHeld = true ∧
      Instr.auxLineChange after i true order ≠ .powerOn ∧ Instr.auxLineChange after i true order ≠ .resetLine ∧
      Instr.auxLineChange after i true order ≠ .resetRelease :=
  ⟨⟨.placementGrant, { State.reset with resetHeld := true }, by decide⟩,
   ⟨1, 7, [], { State.reset with resetHeld := true }, by decide⟩⟩

/-- The plain step in ACQUIRING with a table of one blade, and a radial transition waiting. -/
def acquiring : State :=
  { withBlades [blade 9 0 1000] (running .acquiring plainStep) with pending := [.radialEdge 1 .forward] }

theorem witness_StepKeepsBounds : ∃ s t : State, WithinBounds s ∧ step s = .next t :=
  ⟨acquiring, _, ⟨by decide, by decide, by decide, forall_head (by decide) (by decide) (by decide) (by decide),
    forall_head (by decide) (by decide) (by decide) (by decide), by decide, by decide, by decide, by decide⟩,
    exec_radialEdge _ _ _ rfl⟩

theorem witness_StepKeepsPlanCoherent : ∃ s t : State, PlanCoherent s ∧ step s = .next t := by
  refine ⟨acquiring, _, ⟨by decide, ?_, ?_, ?_, ?_, by decide, ?_, ?_, ?_, ?_⟩, exec_radialEdge _ _ _ rfl⟩
  · intro r h; cases h
  · exact ⟨fun h => (by cases h), fun h => (by cases h <;> contradiction)⟩
  · intro a h; cases h; decide
  · intro c h; cases h
  · intro slot h; cases h
  · intro h; cases h <;> contradiction
  · intro h; exact absurd (Or.inl rfl) h
  · exact fun _ => forall_head rfl rfl rfl rfl

theorem witness_StepKeepsWindowsApart : ∃ s t : State, WindowsApart s ∧ step s = .next t := by
  refine ⟨acquiring, _, ⟨⟨by simp [acquiring, withBlades], ?_⟩, ⟨by simp [acquiring, withBlades], ?_⟩, rfl, ?_⟩,
    exec_radialEdge _ _ _ rfl⟩
  · intro a z ha hz; cases ha; cases hz; unfold apart; decide
  · intro a z ha hz; cases ha; cases hz; unfold apart; decide
  · intro a i j v w hi hj _ _
    have hlen : acquiring.bt.previous.length = 1 := rfl
    have h1 := (List.getElem?_eq_some_iff.mp hi).1
    have h2 := (List.getElem?_eq_some_iff.mp hj).1
    omega

/-- A record open in SEEKING at offset 100, with one candidate. -/
def seeking : Detector :=
  { Detector.reset with
    state := .seeking, prevOffset := 100, presentRun := 1, candidates := [⟨⟨100, 126490, 900, .ok⟩, true⟩]
    record := some { tag := 101, runId := 12, pass := 1, blade := 0, bladeId := 9, start := 0, width := 1000, gen := 17,
                     mapGen := 0, radius := 1000, openTick := 0, entry := none, exit := none, points := [],
                     stats := emptyStats, flags := 0 } }

theorem witness_StepKeepsDetectorsSound : ∃ s t : State, DetectorsSound s ∧ step s = .next t := by
  have sound : DetectorSound seeking := by
    refine ⟨fun h => (by cases h), fun h => absurd rfl h, fun r h => ?_⟩
    cases h
    refine ⟨by decide, by decide, ?_⟩
    intro p hp
    simp only [pointsInHand, seeking, Detector.reset] at hp
    simp only [Option.toList_none, List.map_nil, List.append_nil, List.nil_append, List.map_cons, List.mem_cons,
      List.not_mem_nil, or_false] at hp
    subst hp
    exact ⟨by decide, by unfold heightInRange; decide⟩
  have bare : DetectorSound Detector.reset :=
    ⟨fun _ => by decide, fun _ => rfl, fun r h => by cases h⟩
  refine ⟨{ acquiring with pe := { acquiring.pe with detectors := acquiring.pe.detectors.set .h0 seeking } }, _, ?_,
    exec_radialEdge _ _ _ rfl⟩
  exact forall_head sound bare bare bare

theorem stepStored_plainStep : StepStored plainStep := by
  unfold StepStored
  exact ⟨by simp only [modeInRange, plainStep]; decide, by decide⟩

theorem witness_StepKeepsStepsStored : ∃ s t : State, StepsStored s ∧ step s = .next t := by
  refine ⟨acquiring, _, ⟨?_, ?_⟩, exec_radialEdge _ _ _ rfl⟩
  · intro i p h
    have e : ∀ i : Fin 64, acquiring.spe.slots[i] = none ∨ acquiring.spe.slots[i] = some plainStep := by decide
    rcases e i with h' | h'
    · rw [h'] at h; cases h
    · rw [h'] at h; cases h; exact stepStored_plainStep
  · intro a h; cases h; exact stepStored_plainStep

theorem witness_RefusedCommandChangesNothing :
    (∃ (c : Instr) (s t : State) (r : Reply), exec c s = .next t ∧ s.lp.reply = none ∧ t.lp.reply = some r ∧
      r.status ≠ .ok ∧ r.status ≠ .clamped) ∧
    (∀ x ∈ [(Instr.idnt, Keyword.idnt, 1), (.stat, .stat, 1), (.getp, .getp, 2), (.cntr, .cntr, 3), (.runp, .runp, 1),
        (.stop, .stop, 1), (.cont, .cont, 1), (.intj, .intj, 1), (.fclr, .fclr, 1), (.grnt, .grnt, 2),
        (.btrd, .btrd, 2), (.mpld, .mpld, 516), (.mprd, .mprd, 1), (.mpcl, .mpcl, 1), (.stpw, .stpw, 33),
        (.stpr, .stpr, 1), (.axas, .axas, 3), (.axwr, .axwr, 2), (.rset, .rset, 1)],
      ∃ (s : State) (args : List Byte), Offered x.2.1 7 args [] s ∧ args.length = x.2.2 + 1) ∧
    ∀ args ∈ [[], [1]], ∀ k ∈ [Keyword.btld, .btmk], ∃ s : State, Offered k 7 args [] s ∧
      (args = [] ∨ args.length ≠ 1 + 9 * natAt args 0 1) ∧ (args = [] ∨ args.length ≠ 1 + 2 * natAt args 0 1) :=
  ⟨⟨.stop, offered .stop [0] State.reset, after .stop (offered .stop [0] State.reset),
     ⟨7, keywordBytes .stop, .wrongState, []⟩, rfl, rfl, by decide, by decide, by decide⟩,
   fun x _ => ⟨offered x.2.1 (List.replicate (x.2.2 + 1) 0) State.reset, _, ⟨rfl, rfl, rfl, rfl⟩, List.length_replicate⟩,
   fun args h k _ => ⟨offered k args State.reset, ⟨rfl, rfl, rfl, rfl⟩, by revert args; decide⟩⟩

theorem witness_LockedOutsideIdle :
    ∃ (c : Instr) (s t : State) (a : ActiveStep), notReset c s ∧ s.spe.state ≠ .idle ∧ exec c s = .next t ∧
      s.spe.active = some a :=
  ⟨.stop, offered .stop [0] (running .armed plainStep), after .stop (offered .stop [0] (running .armed plainStep)),
   ⟨5, plainStep, 12⟩, trivial, by decide, rfl, rfl⟩

theorem witness_LatchedRecordStays :
    ∃ (c : Instr) (s t : State) (r : FaultRecord), notReset c s ∧ c ≠ .fclr ∧ s.spe.latch = some r ∧
      exec c s = .next t :=
  ⟨.stop, offered .stop [0] faulted, after .stop (offered .stop [0] faulted),
   ⟨.indexSlip, none, 101, 1, 9, .stopNow, false⟩, trivial, by decide, rfl, rfl⟩

theorem witness_CommandFrameIsReceived :
    (∃ (s : State) (body : List Byte), s.resetHeld = false ∧ s.lp.receiving = none ∧ body.length = 5 ∧
      s.lp.queue.length < 4 ∧ s.lp.resetMark = false) ∧
    ∃ (s : State) (body : List Byte), s.resetHeld = false ∧ s.lp.receiving = none ∧ body.length = 2048 ∧
      ¬ (s.lp.queue.length < 4 ∧ s.lp.resetMark = false) :=
  ⟨⟨State.reset, keywordBytes .stat ++ [0], by decide⟩,
   ⟨fourWaiting, List.replicate 2048 0, rfl, rfl, List.length_replicate, by decide⟩⟩

/-- The frame that carries five zero bytes as the kind given, after its start character. -/
def zeros (kind : Byte) : List LineByte := (cleanly (frameBytes kind 0 [0, 0, 0, 0, 0])).tail

theorem witness_FrameIsJudged :
    let len (f : List LineByte) := natAt (f.map (·.byte)) 0 2
    let bad (f : List LineByte) := (∃ b ∈ f, b.framingError = true) ∨
      natAt (f.map (·.byte)) (len f + 4) 2 ≠ (crc16 ((f.map (·.byte)).take (len f + 4))).toNat
    (∃ s : State, s.resetHeld = false ∧ s.lp.receiving = none) ∧
    (∃ f : List LineByte, f.length = 2 ∧ len f = 4) ∧ (∃ f : List LineByte, f.length = 2 ∧ len f = 2049) ∧
    (∃ f : List LineByte, len f = 5 ∧ f.length = len f + 6 ∧ bad f) ∧
    (∃ f : List LineByte, len f = 5 ∧ f.length = len f + 6 ∧ ¬ bad f ∧ bytesAt (f.map (·.byte)) 2 1 ≠ [0x01]) ∧
    (∃ f : List LineByte, len f = 2048 ∧ 2 ≤ f.length ∧ f.length < len f + 6) ∧
    (∃ s : State, s.resetHeld = false ∧ s.lp.receiving ≠ none ∧
      100000 < ((elapse 100001 s).eu.tick - s.lp.lastByte).toNat) ∧
    ∃ s : State, s.resetHeld = false ∧ s.lp.receiving ≠ none ∧
      ((elapse 100000 s).eu.tick - s.lp.lastByte).toNat ≤ 100000 :=
  ⟨⟨State.reset, rfl, rfl⟩, ⟨cleanly [0, 4], by decide⟩, ⟨cleanly [8, 1], by decide⟩,
   ⟨(zeros 1).take 9 ++ cleanly [0, 0], by decide +kernel⟩, ⟨zeros 2, by decide +kernel⟩,
   ⟨cleanly [8, 0], by decide⟩, ⟨receiving, by decide⟩, ⟨receiving, by decide⟩⟩

/-- The bytes of the plain step with the byte at `off` replaced. -/
def stepWordWith (off : Nat) (b : Byte) : List Byte := stepWord.set off b

theorem test_readStep_clamps_to_nearest_end :
    ([(4, 0xFF), (19, 0xFF), (23, 0), (24, 0xFF), (25, 8), (26, 0), (26, 16), (27, 15), (28, 0x10)].map fun x =>
      (readStep (stepWordWith x.1 x.2)).map fun w =>
        (w.clamped, [w.value.radius, w.value.guard, w.value.last, w.value.decimation, w.value.kOn, w.value.kOff,
          w.value.threshold])) =
      [some (true, [8000000, 0, 15, 0, 1, 1, 200]), some (true, [1000, 1048576, 15, 0, 1, 1, 200]),
       some (false, [1000, 0, 15, 0, 1, 1, 200]), some (true, [1000, 0, 127, 0, 1, 1, 200]),
       some (true, [1000, 0, 15, 7, 1, 1, 200]), some (true, [1000, 0, 15, 0, 1, 1, 200]),
       some (true, [1000, 0, 15, 0, 15, 1, 200]), some (false, [1000, 0, 15, 0, 1, 15, 200]),
       some (true, [1000, 0, 15, 0, 1, 1, 4095])] := by decide +kernel

theorem test_readStep_refuses :
    ([(13, 2), (2, 64), (2, 0xFE), (3, 0), (3, 0xF0), (12, 0), (23, 16), (30, 4)].map fun x =>
      readStep (stepWordWith x.1 x.2)) = List.replicate 8 none ∧
    readStep ((stepWordWith 3 3).set 31 8) = none ∧ readStep ((stepWordWith 30 1).set 31 16) = none ∧
    (readStep (stepWordWith 2 63)).map (·.value.next) = some (some 63) := by decide +kernel

theorem witness_StoredStepsReadBack :
    (∃ p : ScanStep, StepStored p) ∧
    ∀ clamped ∈ [false, true], ∃ (bs : List Byte) (w : Written ScanStep), readStep bs = some w ∧ w.clamped = clamped := by
  refine ⟨⟨plainStep, stepStored_plainStep⟩, fun clamped h => ?_⟩
  simp only [List.mem_cons, List.not_mem_nil, or_false] at h
  rcases h with rfl | rfl
  · exact ⟨stepWord, ⟨plainStep, false⟩, by decide +kernel⟩
  · exact ⟨stepWordWith 25 8, ⟨{ plainStep with decimation := 7 }, true⟩, by decide +kernel⟩

/-- The encoder of a state is changed. -/
def withEncoder (f : Encoder → Encoder) (s : State) : State := { s with eu := f s.eu }

/-- One count short of the zero crossing, with these net counts. -/
def crossingNext (net high : Int) (s : State) : State :=
  withEncoder (fun e => { e with referenced := true, count := 262143, netRevs := net, highWater := high }) s

/-- A set of one window holds no angle twice. -/
theorem atMostOne_single (w : Window) : AtMostOne [w] := by
  intro a i j v v' hi hj _ _
  have h1 := (List.getElem?_eq_some_iff.mp hi).1
  have h2 := (List.getElem?_eq_some_iff.mp hj).1
  simp only [List.length_cons, List.length_nil] at h1 h2
  omega

/-- Acquiring with one blade of 1,000 au at the start given, and the strobe window given. -/
def strobing (p : ScanStep) (start : Nat) (strobe : Option Nat) : State :=
  let s := withBlades [blade 9 start 1000] (running .acquiring p)
  { s with ax := { s.ax with strobeWindow := strobe } }

theorem witness_ForwardEdgeCounts :
    (∃ s : State, s.resetHeld = false ∧ ¬ takingSamples s.spe.state ∧ ¬ edgeCrosses s) ∧
    (∃ s : State, (s.resetHeld = false ∧ edgeCrosses s ∧ ¬ takingSamples s.spe.state ∧ s.spe.state ≠ .armed ∧
      (∀ e ∈ s.bt.entries, e.pendingOffset = none ∧ e.pendingMark = none) ∧ s.eu.netRevs < 2147483647) ∧
      s.eu.netRevs + 1 = s.eu.highWater) ∧
    (∃ s : State, (s.resetHeld = false ∧ edgeCrosses s ∧ ¬ takingSamples s.spe.state ∧ s.spe.state ≠ .armed ∧
      (∀ e ∈ s.bt.entries, e.pendingOffset = none ∧ e.pendingMark = none) ∧ s.eu.netRevs < 2147483647) ∧
      s.eu.highWater = s.eu.netRevs) ∧
    (∀ p start strobe, let s := strobing p start strobe
      s.resetHeld = false ∧ s.spe.state = .acquiring ∧ s.spe.active = some ⟨5, p, 12⟩ ∧ ¬ edgeCrosses s ∧
      AtMostOne s.bt.current) ∧
    (∀ high ∈ [40, 41], ∃ (s : State) (a : ActiveStep), s.resetHeld = false ∧ s.spe.state = .acquiring ∧
      s.spe.active = some a ∧ AtMostOne s.bt.current ∧ edgeCrosses s ∧ s.eu.netRevs = 40 ∧ s.eu.highWater = high ∧
      s.spe.pass < a.step.passes ∧ s.spe.interjection = .none ∧
      ∀ e ∈ s.bt.entries, e.pendingOffset = none ∧ e.pendingMark = none) ∧
    ∀ x ∈ [(64, some 0, true), (64, none, true), (65, some 0, false)], ∃ s : State,
      s = strobing plainStep x.1 x.2.1 ∧ s.ax.strobeWindow = x.2.1 ∧
      let angle := BitVec.ofNat 24 (1 * 16777216 / s.eu.params.counts) + (s.hp.get .h0).params.azimuth -
        s.eu.params.zeroOffset
      x.2.2 = decide (∃ w ∈ s.bt.current[0]?, w.excluded = false ∧ (angle - w.start).toNat < w.width) := by
  refine ⟨⟨State.reset, by unfold takingSamples edgeCrosses; decide⟩,
    ⟨crossingNext 40 41 ready, by unfold takingSamples edgeCrosses; decide⟩,
    ⟨crossingNext 41 41 ready, by unfold takingSamples edgeCrosses; decide⟩,
    fun p start strobe => ⟨rfl, rfl, rfl, fun h => absurd h.2 (by show ¬ (0 + 1) % 262144 = 0; decide), ?_⟩,
    fun high _ => ⟨crossingNext 40 high (strobing plainStep 0 none), _, rfl, rfl, rfl, atMostOne_single _,
      ⟨rfl, by show (262143 + 1) % 262144 = 0; decide⟩, rfl, rfl, by show 1 < 2; decide, rfl,
      by show ∀ e ∈ [blade 9 0 1000], _; decide⟩, ?_⟩
  · exact atMostOne_single _
  · intro x hx
    simp only [List.mem_cons, List.not_mem_nil, or_false] at hx
    rcases hx with rfl | rfl | rfl
    · exact ⟨_, rfl, rfl, by decide⟩
    · exact ⟨_, rfl, rfl, by decide⟩
    · exact ⟨_, rfl, rfl, by decide⟩

theorem witness_ReverseEdgeCounts :
    (∃ s : State, s.resetHeld = false ∧ s.eu.count < s.eu.params.counts ∧ s.eu.count = 0 ∧ s.eu.direction = .forward ∧
      s.spe.state = .acquiring) ∧
    ∃ s : State, s.resetHeld = false ∧ s.eu.count < s.eu.params.counts ∧ s.eu.count = 262143 :=
  ⟨⟨running .acquiring plainStep, by decide⟩, ⟨crossingNext 0 0 State.reset, by decide⟩⟩

theorem witness_TransitionsCount :
    ∃ s : State, s.resetHeld = false ∧ s.spe.state ≠ .settling ∧ s.spe.state ≠ .acquiring :=
  ⟨running .armed plainStep, by decide⟩

theorem witness_NewRevolutionMakesGeneration :
    ∀ s ∈ [revolving 0 (-5000) 1000 (-8000), revolving 1000 (-8000) 1875 (-10625), revolving 0 0 65536 65537],
      s.resetHeld = false ∧ edgeCrosses s ∧ s.eu.netRevs < 2147483647 ∧ s.eu.highWater < s.eu.netRevs + 1 ∧
      (∃ e ∈ s.bt.entries, e.pendingOffset ≠ none ∨ e.pendingMark ≠ none) ∧
      (∀ e ∈ s.bt.entries, e.offset.natAbs ≤ s.bt.params.limit) ∧ s.lp.notices.length + 4 ≤ 32 := by
  intro s hs
  simp only [List.mem_cons, List.not_mem_nil, or_false] at hs
  rcases hs with rfl | rfl | rfl <;> (unfold edgeCrosses; decide)

/-- A step is active in the plan state given, one edge before a new revolution. -/
def beforeRevolution (st : PlanState) (pass : Nat) : State :=
  let s := crossingNext 3 3 (withBlades [blade 9 0 1000] (running st plainStep))
  { s with spe := { s.spe with pass := pass } }

theorem witness_NewRevolutionsRunPasses :
    (∃ (s : State) (a : ActiveStep), s.resetHeld = false ∧ edgeCrosses s ∧ s.eu.netRevs < 2147483647 ∧
      s.eu.highWater < s.eu.netRevs + 1 ∧ s.spe.state = .armed ∧ s.spe.active = some a ∧
      ((radius s : Int) - a.step.radius).natAbs ≤ a.step.tolerance) ∧
    (∃ (s : State) (a : ActiveStep), s.resetHeld = false ∧ edgeCrosses s ∧ s.eu.netRevs < 2147483647 ∧
      s.eu.highWater < s.eu.netRevs + 1 ∧ s.spe.state = .acquiring ∧ s.spe.active = some a ∧
      s.spe.pass + 1 = a.step.passes ∧ s.spe.interjection = .none) ∧
    ∃ (s : State) (a : ActiveStep), s.resetHeld = false ∧ edgeCrosses s ∧ s.eu.netRevs < 2147483647 ∧
      s.eu.highWater < s.eu.netRevs + 1 ∧ s.spe.state = .acquiring ∧ s.spe.active = some a ∧
      s.spe.pass = a.step.passes :=
  ⟨⟨beforeRevolution .armed 0, ⟨5, plainStep, 12⟩, by unfold edgeCrosses; decide⟩,
   ⟨beforeRevolution .acquiring 1, ⟨5, plainStep, 12⟩, by unfold edgeCrosses; decide⟩,
   ⟨beforeRevolution .acquiring 2, ⟨5, plainStep, 12⟩, by unfold edgeCrosses; decide⟩⟩

/-- The upper half of the last revolution of the last pass, with the blades given. -/
def beforeIndex (es : List BladeEntry) : State :=
  let s := withBlades es (running .acquiring plainStep)
  { withEncoder (fun e => { e with count := 131072 }) s with spe := { s.spe with pass := 2 } }

theorem witness_TailsStartAtPassEnd :
    ∀ es ∈ [[], [blade 9 0 1000], [blade 9 1 1000]],
      ∃ (s : State) (a : ActiveStep), s.bt.entries = es ∧ s.resetHeld = false ∧ s.eu.direction = .forward ∧
        (∀ i : Fin 8, s.ax.lines[i].function ≠ .indexIn) ∧ s.eu.referenced = true ∧
        s.eu.params.indexCorrection = true ∧ s.eu.params.counts ≤ 2 * s.eu.count ∧ s.eu.netRevs < 2147483647 ∧
        s.eu.highWater < s.eu.netRevs + 1 ∧ s.spe.state = .acquiring ∧ s.spe.active = some a ∧
        a.step.passes ≤ s.spe.pass ∧ ∀ e ∈ s.bt.entries, e.pendingOffset = none ∧ e.pendingMark = none := by
  intro es hes
  simp only [List.mem_cons, List.not_mem_nil, or_false] at hes
  rcases hes with rfl | rfl | rfl
  · exact ⟨beforeIndex [], ⟨5, plainStep, 12⟩, by decide⟩
  · exact ⟨beforeIndex [blade 9 0 1000], ⟨5, plainStep, 12⟩, by decide⟩
  · exact ⟨beforeIndex [blade 9 1 1000], ⟨5, plainStep, 12⟩, by decide⟩

theorem witness_IndexIsHandled :
    (∃ s : State, s.resetHeld = false ∧ ∃ i : Fin 8, s.ax.lines[i].function = .indexIn) ∧
    (∃ s : State, s.resetHeld = false ∧ s.eu.direction = .reverse) ∧
    (∃ s : State, s.resetHeld = false ∧ (∀ i : Fin 8, s.ax.lines[i].function ≠ .indexIn) ∧
      s.eu.direction = .forward ∧ s.eu.referenced = false ∧ s.spe.state ≠ .settling ∧ s.lp.notices.length < 32) ∧
    (∀ c ∈ [2, 3, 131071], ∃ s : State, s.resetHeld = false ∧ (∀ i : Fin 8, s.ax.lines[i].function ≠ .indexIn) ∧
      s.eu.direction = .forward ∧ s.eu.referenced = true ∧ s.eu.count = c ∧ 2 * s.eu.count < s.eu.params.counts ∧
      s.spe.state = .acquiring) ∧
    ∀ c ∈ [131072, 262141, 262142], ∀ correction, ∀ st ∈ [PlanState.idle, .settling, .halted], ∃ s : State,
      s.resetHeld = false ∧ (∀ i : Fin 8, s.ax.lines[i].function ≠ .indexIn) ∧ s.eu.direction = .forward ∧
      s.eu.referenced = true ∧ s.eu.count = c ∧ s.eu.params.counts ≤ 2 * s.eu.count ∧ s.eu.count < s.eu.params.counts ∧
      s.eu.params.indexCorrection = correction ∧ s.spe.state = st ∧
      (∀ e ∈ s.bt.entries, e.pendingOffset = none ∧ e.pendingMark = none) ∧ s.eu.netRevs < 2147483647 := by
  refine ⟨⟨{ State.reset with ax := { AuxUnit.reset with lines := AuxUnit.reset.lines.set 7 ⟨.indexIn, false, false⟩ } }, rfl,
      7, by decide⟩,
    ⟨withEncoder (fun e => { e with direction := .reverse }) State.reset, rfl, rfl⟩, ⟨State.reset, by decide⟩,
    fun c hc => ⟨withEncoder (fun e => { e with count := c }) (running .acquiring plainStep), rfl, ?_, rfl, rfl, rfl, ?_,
      rfl⟩,
    fun c hc correction st _ => ⟨withEncoder
      (fun e => { e with count := c, params := { e.params with indexCorrection := correction } }) (running st plainStep),
      rfl, ?_, rfl, rfl, rfl, ?_, ?_, rfl, rfl, fun e he => (by cases he), by show (0 : Int) < 2147483647; decide⟩⟩
  · show ∀ i : Fin 8, AuxUnit.reset.lines[i].function ≠ .indexIn
    decide
  · show 2 * c < 262144
    revert c; decide
  · show ∀ i : Fin 8, AuxUnit.reset.lines[i].function ≠ .indexIn
    decide
  · show 262144 ≤ 2 * c
    revert c; decide
  · show c < 262144
    revert c; decide

theorem witness_TimersExpire :
    (∃ s : State, s.resetHeld = false ∧ ∃ newest ∈ s.eu.ring.getLast?,
      ((elapse 16777217 s).eu.tick - newest).toNat = 16777217 ∧ ((elapse 16777216 s).eu.tick - newest).toNat = 16777216) ∧
    (∃ s : State, s.resetHeld = false ∧ s.spe.state = .acquiring ∧ s.eu.stallRaised = false ∧
      ((elapse 16777217 s).eu.tick - s.eu.stallStart).toNat = 16777217 ∧
      ((elapse 16777216 s).eu.tick - s.eu.stallStart).toNat = 16777216) ∧
    (∃ (s : State) (begun : Tick), s.resetHeld = false ∧ (s.tu.heads.get .h0).pulse = some begun ∧
      (s.tu.heads.get .h0).lastTrigger = some begun ∧
      [100, 99, 1000001, 1000000].map (fun n => ((elapse n s).eu.tick - begun).toNat) = [100, 99, 1000001, 1000000]) ∧
    ∃ (s : State) (begun : Tick), s.resetHeld = false ∧ s.ax.passEnd = some begun ∧ s.ax.strobe = some begun ∧
      [100, 99].map (fun n => ((elapse n s).eu.tick - begun).toNat) = [100, 99] :=
  ⟨⟨{ State.reset with eu := { Encoder.reset with ring := [0] } }, rfl, 0, by decide⟩,
   ⟨running .acquiring plainStep, by decide⟩, ⟨pulsing, 0, by decide⟩,
   ⟨{ State.reset with ax := { AuxUnit.reset with passEnd := some 0, strobe := some 0 } }, 0, by decide⟩⟩

/-- In ACQUIRING with the carriage 100 beyond the target, RADIUS_DRIFT under REPORT, and the drift mark given. -/
def drifting (drift : Bool) (radial : BitVec 32) : State :=
  let s := withEncoder (fun e => { e with radial := radial }) (running .acquiring plainStep)
  { s with spe := { s.spe with drift := drift } }

theorem witness_RadiusIsTested :
    (∀ learn : Bool, ∀ x ∈ [(1, true), (0, true), (1, false)],
      ∃ (s : State) (a : ActiveStep) (n m : Nat), (s.resetHeld = false ∧ s.spe.state = .settling ∧
        s.spe.active = some a ∧ s.spe.settleTimer = some n ∧ s.spe.armTimer = some m ∧ m + 1 < s.spe.armLimit ∧
        100000 ≤ ((elapse 100000 s).eu.tick - s.spe.msMark).toNat) ∧ a.step.flags.learn = learn ∧
        (settleConditionMet a.step s ↔ x.2 = true) ∧ a.step.settle = 2 ∧ n = x.1) ∧
    (∀ policy ∈ [Policy.report, .stopNow], ∀ pass ∈ [0, 2], ∃ (s : State) (a : ActiveStep) (m : Nat),
      s.resetHeld = false ∧ s.spe.pass = pass ∧ s.spe.state = .armed ∧ s.spe.active = some a ∧ s.spe.armTimer = some m ∧ s.spe.armLimit = m + 1 ∧
      s.lp.notices.length < 32 ∧ 100000 = ((elapse 100000 s).eu.tick - s.spe.msMark).toNat ∧
      s.spe.params.policies[4] = policy ∧ s.spe.latch = none) ∧
    ∀ x ∈ [(1100, false), (1100, true), (1099, true)], ∃ (s : State) (a : ActiveStep), s.resetHeld = false ∧
      s.spe.state = .acquiring ∧ s.spe.active = some a ∧ s.spe.drift = x.2 ∧
      let t := { elapse 1 s with eu := { (elapse 1 s).eu with radial := s.eu.radial + 1 } }
      radius t ≠ radius s ∧ ((radius t : Int) - a.step.radius).natAbs = x.1 - 999 := by
  refine ⟨fun learn x hx => ?_, fun policy hp pass _ => ?_, fun x hx => ?_⟩
  · let p : ScanStep := { plainStep with flags := { noFlags with learn := learn } }
    let s := running .settling p
    refine ⟨{ s with
        eu := { s.eu with referenced := x.2 }
        spe := { s.spe with settleTimer := some x.1, armTimer := some 1, armLimit := 100 } }, ⟨5, p, 12⟩, x.1, 1,
      ⟨rfl, rfl, rfl, rfl, rfl, (by show 2 < 100; decide),
        (by show 100000 ≤ ((0 : Tick) + BitVec.ofNat 32 100000 - 0).toNat; decide)⟩, rfl,
      ⟨fun h => h.1, fun h => ⟨h, (by show ((1000 : Int) - 1000).natAbs ≤ 100; decide), Or.inl ?_⟩⟩, rfl, rfl⟩
    show ∀ i : Fin 8, AuxUnit.reset.lines[i].function ≠ .inposIn
    decide
  · let s := running .armed plainStep
    refine ⟨{ s with spe := { s.spe with
        armTimer := some 99, armLimit := 100, pass := pass
        params := { s.spe.params with policies := s.spe.params.policies.set 4 policy } } }, ⟨5, plainStep, 12⟩, 99, rfl, rfl,
      rfl, rfl, rfl, rfl, (by show 0 < 32; decide),
      (by show 100000 = ((0 : Tick) + BitVec.ofNat 32 100000 - 0).toNat; decide), ?_, rfl⟩
    simp only [List.mem_cons, List.not_mem_nil, or_false] at hp
    rcases hp with rfl | rfl <;> rfl
  · simp only [List.mem_cons, List.not_mem_nil, or_false] at hx
    rcases hx with rfl | rfl | rfl
    · exact ⟨drifting false 1100, ⟨5, plainStep, 12⟩, by decide⟩
    · exact ⟨drifting true 1100, ⟨5, plainStep, 12⟩, by decide⟩
    · exact ⟨drifting true 1099, ⟨5, plainStep, 12⟩, by decide⟩

/-- A TIME due instant falls: head 0 with the last trigger and the list length given. -/
def judged (last : Option Tick) (n : Nat) : State :=
  let s := withPort .h0 (fun p => { p with outstanding := List.replicate n (entry 1 0) }) timed
  { s with tu := { s.tu with heads := s.tu.heads.set .h0 { TriggerHead.reset with lastTrigger := last } } }

/-- In TAIL, head 0's tail running on blade 0, whose window holds its angle or does not. -/
def tailing (start : Nat) : State :=
  let s := withBlades [blade 9 start 1000] (running .tail { plainStep with mode := .time 20000 })
  { s with tu := ⟨(PerHead.all { TriggerHead.reset with tail := .ended }).set .h0
      { TriggerHead.reset with tail := .running 0 }, some 0⟩ }

theorem witness_DueInstantJudgesHeads :
    let a : ActiveStep := ⟨5, { plainStep with mode := .time 20000 }, 12⟩
    (∀ last n, (judged last n).resetHeld = false ∧ (judged last n).spe.state = .acquiring ∧
      (judged last n).spe.active = some a ∧ a.step.mode = .time 20000 ∧ (judged last n).tu.period = some 0 ∧
      ((elapse 20000 (judged last n)).eu.tick - 0).toNat = 20000) ∧
    (∀ h : Head, h = .h0 → ∀ last n, a.step.mask.get h = true ∧ (judged last n).eu.direction = .forward ∧
      lineConditionMet .gateIn (judged last n) ∧ a.step.windowed = false) ∧ a.step.mask.get .h1 = false ∧
    (∃ last : Tick, ∃ s : State, (s.tu.heads.get .h0).lastTrigger = some last ∧ s = judged (some last) 0 ∧
      ((elapse 20000 s).eu.tick - last).toNat + 1 = (s.hp.get .h0).params.minSpacing) ∧
    (∃ s : State, s = judged none 16 ∧ (s.hp.get .h0).outstanding.length = 16) ∧
    (∃ s : State, s = judged none 15 ∧ (s.hp.get .h0).outstanding.length = 15) ∧
    (∀ start ∈ [0, 1], ∃ (s : State) (w : Window), s.resetHeld = false ∧ s.spe.state = .tail ∧
      s.spe.active = some a ∧ s.tu.period = some 0 ∧ (s.tu.heads.get .h0).tail = .running 0 ∧
      s.bt.current[0]? = some w ∧ (s.tu.heads.get .h1).tail = .ended ∧
      let angle := BitVec.ofNat 24 (s.eu.count * 16777216 / s.eu.params.counts) + (s.hp.get .h0).params.azimuth -
        s.eu.params.zeroOffset
      if start = 0 then (angle - w.start).toNat < w.width else w.width ≤ (angle - w.start).toNat) ∧
    ∀ c ∈ [14, 15], ∃ s : State, s.resetHeld = false ∧ s.spe.state = .acquiring ∧
      s.spe.active = some ⟨5, plainStep, 12⟩ ∧ plainStep.mode = .angle 16 ∧ ¬ edgeCrosses s ∧
      (edgeTaken (elapse 1 s).eu).count = c + 1 := by
  refine ⟨fun last n => ⟨rfl, rfl, rfl, rfl, rfl,
      (by show ((0 : Tick) + BitVec.ofNat 32 20000 - 0).toNat = 20000; decide)⟩,
    fun h e last n => ⟨by subst e; rfl, rfl, Or.inl ?_, rfl⟩, rfl, ?_, ?_, ?_, ?_, ?_⟩
  · show ∀ i : Fin 8, AuxUnit.reset.lines[i].function ≠ .gateIn
    decide
  · exact ⟨18001, judged (some 18001) 0, by decide, rfl, by decide⟩
  · exact ⟨judged none 16, rfl, by decide⟩
  · exact ⟨judged none 15, rfl, by decide⟩
  · intro start hs
    simp only [List.mem_cons, List.not_mem_nil, or_false] at hs
    rcases hs with rfl | rfl
    · exact ⟨tailing 0, _, rfl, rfl, rfl, rfl, rfl, rfl, rfl, by decide⟩
    · exact ⟨tailing 1, _, rfl, rfl, rfl, rfl, rfl, rfl, rfl, by decide⟩
  · intro c hc
    simp only [List.mem_cons, List.not_mem_nil, or_false] at hc
    rcases hc with rfl | rfl
    · exact ⟨withEncoder (fun e => { e with count := 14 }) (running .acquiring plainStep), by unfold edgeCrosses; decide⟩
    · exact ⟨withEncoder (fun e => { e with count := 15 }) (running .acquiring plainStep), by unfold edgeCrosses; decide⟩

/-- The same list under the policy given, with `n` samples in the queue. -/
def matchingBeside (policy : SilencePolicy) (n : Nat) : State :=
  withPort .h1 (fun p => { p with queue := List.replicate n ⟨entry 1 0, none⟩, params := { p.params with policy := policy } })
    matching

theorem test_headWord_under_policies :
    ([.mark, .ignore, .fault].map fun policy =>
      let t := after (.headWord 52000 .h1 (cleanly word4094)) (matchingBeside policy 0)
      ((t.hp.get .h1).queue.map (·.entry.seq), (t.hp.get .h1).counters.noResponse, t.bus.raisings.map (·.head))) =
      [([4093, 4094], 1, []), ([4094], 1, []), ([4094], 1, [some .h1])] := by decide +kernel

theorem test_headWord_at_full_queue :
    ([255, 256].map fun n =>
      let p := (after (.headWord 52000 .h1 (cleanly word4094)) (matchingBeside .mark n)).hp.get .h1
      (p.queue.length, p.counters.queueDrops)) = [(256, 1), (256, 2)] := by decide +kernel

theorem witness_WordMatchesUnderMark :
    ∀ policy ∈ [SilencePolicy.mark, .ignore, .fault], ∀ n ∈ [0, 254, 255, 256], ∃ (s : State) (w : HeadWord)
      (older later : List Outstanding) (e : Outstanding), s.resetHeld = false ∧ s.spe.state ≠ .tail ∧
      (s.hp.get .h1).partialWord = [] ∧ (s.hp.get .h1).params.policy = policy ∧ (s.hp.get .h1).queue.length = n ∧
      (s.hp.get .h1).outstanding = older ++ e :: later ∧ (∀ x ∈ older, x.seq ≠ w.seq) ∧ e.seq = w.seq ∧ older ≠ [] :=
  fun policy _ n _ => ⟨matchingBeside policy n, ⟨4094, okAnswer 1000 23456⟩, [entry 4093 0], [entry 4095 40000],
    entry 4094 20000, rfl, by show PlanState.acquiring ≠ .tail; decide, rfl, rfl, List.length_replicate, rfl, by decide,
    by decide, by decide⟩

theorem witness_OtherWordsAreCounted :
    (∃ (s : State) (w : HeadWord), s.resetHeld = false ∧ s.spe.state ≠ .tail ∧ (s.hp.get .h1).partialWord = [] ∧
      ∀ x ∈ (s.hp.get .h1).outstanding, x.seq ≠ w.seq) ∧
    (∃ bs : List LineByte, bs.length = 7 ∧ ∃ b ∈ bs, b.framingError = true) ∧
    (∃ bs : List LineByte, bs.length = 7 ∧
      (bs.drop 6).map (·.byte) ≠ [((bs.take 6).map (·.byte)).foldl (fun x b => x ^^^ b) 0x5A]) ∧
    (∃ bs : List LineByte, 0 < bs.length ∧ bs.length = 6) ∧
    ∃ s : State, s.resetHeld = false ∧ (s.hp.get .h1).partialWord ≠ [] ∧
      ((elapse 2001 s).eu.tick - (s.hp.get .h1).lastByte).toNat = 2001 ∧
      ((elapse 2000 s).eu.tick - (s.hp.get .h1).lastByte).toNat = 2000 :=
  ⟨⟨matching, ⟨7, okAnswer 1000 23456⟩, by decide⟩, ⟨List.replicate 7 ⟨0, true⟩, by decide⟩,
   ⟨List.replicate 7 ⟨0, false⟩, by decide⟩, ⟨List.replicate 6 ⟨0, false⟩, by decide⟩, ⟨partly, by decide⟩⟩

/-- Head 1's front entry waits since tick 0, with the policy and the queue length given. -/
def silentHead (policy : SilencePolicy) (n : Nat) : State :=
  withPort .h1 (fun p => { p with outstanding := [entry 1 0], queue := List.replicate n ⟨entry 1 0, none⟩,
                                  params := { p.params with policy := policy } }) (running .acquiring plainStep)

theorem witness_ResponseTimeoutResolves :
    ∀ x ∈ [(SilencePolicy.mark, 255), (.mark, 256), (.ignore, 0), (.fault, 0)],
      ∃ (s : State) (e : Outstanding) (rest : List Outstanding), s.resetHeld = false ∧ s.spe.state ≠ .tail ∧
        (s.hp.get .h1).outstanding = e :: rest ∧ (s.hp.get .h1).params.policy = x.1 ∧ (s.hp.get .h1).queue.length = x.2 ∧
        ((elapse 100000 s).eu.tick - e.trigTick).toNat = (s.hp.get .h1).params.timeout ∧
        (s.hp.get .h1).params.timeout + 1 = ((elapse 100001 s).eu.tick - e.trigTick).toNat := by
  intro x hx
  simp only [List.mem_cons, List.not_mem_nil, or_false] at hx
  rcases hx with rfl | rfl | rfl | rfl
  · exact ⟨silentHead .mark 255, entry 1 0, [], by decide +kernel⟩
  · exact ⟨silentHead .mark 256, entry 1 0, [], by decide +kernel⟩
  · exact ⟨silentHead .ignore 0, entry 1 0, [], by decide⟩
  · exact ⟨silentHead .fault 0, entry 1 0, [], by decide⟩

theorem witness_ArbiterGrantsByPriority :
    (∃ s : State, s.resetHeld = false ∧ s.pe.busy ≠ none) ∧
    (∃ s : State, s.resetHeld = false ∧ ∀ h : Head, (s.hp.get h).queue = []) ∧
    ∃ s : State, s.resetHeld = false ∧ s.pe.busy = none ∧ (s.hp.get .h0).queue ≠ [] ∧ (s.hp.get .h2).queue ≠ [] :=
  ⟨⟨placing39, by decide⟩, ⟨State.reset, rfl, forall_head rfl rfl rfl rfl⟩, ⟨waiting 1 1, by decide⟩⟩

theorem witness_ExposureAngleFormed :
    ∃ (p : EncoderParams) (e : Outstanding), 4096 ≤ p.counts ∧ p.counts ≤ 1048576 ∧ e.count < p.counts ∧
      e.speed = some 97656 :=
  ⟨caseEncoder 1000000, { entry 0 120 with speed := some 97656 }, by decide⟩

/-- A learning step that places a sample of head 0. -/
def learning (answer : Option Answer) : State :=
  let s := running .acquiring { plainStep with flags := { noFlags with learn := true } }
  { s with pe := { s.pe with busy := some (.h0, ⟨entry 8 120, answer⟩) } }

theorem witness_SamplesThatJoinNoRecord :
    (∃ (s : State) (a : ActiveStep) (x : Sample), s.resetHeld = false ∧ s.spe.state ≠ .tail ∧ s.spe.active = some a ∧
      a.step.flags.learn = false ∧ s.pe.busy = some (.h0, x) ∧ x.entry.gen ≠ s.bt.gen ∧ x.entry.gen ≠ s.bt.gen - 1) ∧
    (∃ (s : State) (a : ActiveStep) (x : Sample) (q : Answer), s.resetHeld = false ∧ s.spe.state ≠ .tail ∧
      s.spe.active = some a ∧ a.step.flags.learn = true ∧ s.pe.busy = some (.h0, x) ∧ x.answer = some q ∧
      q.code = .ok ∧ a.step.threshold = q.intensity.toNat ∧ ∀ k : Fin 256, s.rm.acc.counts[k] < 4294967295) ∧
    ∃ (s : State) (a : ActiveStep) (x : Sample), s.resetHeld = false ∧ s.spe.state ≠ .tail ∧ s.spe.active = some a ∧
      a.step.flags.learn = true ∧ s.pe.busy = some (.h0, x) ∧
      ∃ q : Answer, x.answer = some q ∧ q.intensity.toNat + 1 = a.step.threshold := by
  let a : ActiveStep := ⟨5, { plainStep with flags := { noFlags with learn := true } }, 12⟩
  refine ⟨⟨{ placing39 with bt := { placing39.bt with gen := 19 } }, ⟨5, plainStep, 12⟩, _, rfl, by decide, rfl, rfl,
      rfl, by decide, by decide⟩, ?_, ?_⟩
  · exact ⟨learning (some (okAnswer 200 5)), a, _, okAnswer 200 5, rfl, by decide, rfl, rfl, rfl, rfl, rfl, by decide,
      by decide +kernel⟩
  · exact ⟨learning (some (okAnswer 199 5)), a, _, rfl, by decide, rfl, rfl, rfl, okAnswer 199 5, rfl, by decide⟩

/-- Head 0's sample at the angle 64, in blade 0's window of 1,000 au at the start given, with the step and the detector
given. -/
def placingAt (start : Nat) (p : ScanStep) (answer : Option Answer) (d : Detector) : State :=
  let s := withBlades [blade 9 start 1000] (running .acquiring p)
  { s with pe := { s.pe with
      busy := some (.h0, ⟨{ entry 8 120 with count := 1, gen := 17 }, answer⟩)
      detectors := s.pe.detectors.set .h0 d } }

/-- The same for the plain step, in the window [1, 1001). -/
def arriving (answer : Option Answer) (d : Detector) : State := placingAt 1 plainStep answer d

theorem witness_SampleOpensRecord :
    (∀ (start : Nat) (answer : Option Answer) (d : Detector), d.record = none →
      let s := placingAt start plainStep answer d
      ∃ (x : Sample) (w : Window), s.resetHeld = false ∧ s.spe.state ≠ .tail ∧ s.spe.active = some ⟨5, plainStep, 12⟩ ∧
        s.pe.busy = some (.h0, x) ∧ x.answer = answer ∧ x.entry.gen = s.bt.gen ∧ x.entry.pass = s.spe.firstPass ∧
        AtMostOne s.bt.current ∧ s.bt.current[0]? = some w ∧ w.excluded = false ∧
        (s.pe.detectors.get .h0) = d ∧ (s.pe.detectors.get .h0).record = none) ∧
    (∀ start ∈ [0, 1], ∃ w : Window, (placingAt start plainStep none Detector.reset).bt.current[0]? = some w ∧
      ((64 : Angle) - w.start).toNat < w.width ∧ (((0 : Angle) - w.start).toNat < w.width ↔ start = 0)) ∧
    ∀ d ∈ [Detector.reset, { Detector.reset with runIn := true }, { Detector.reset with runIn := true, runInWindow := some 0 }],
      d.record = none ∧ d.state = .outside ∧ d.presentRun = 0 ∧ d.candidates = [] ∧
      ∀ pass : Nat, d.recorded[0]? ≠ some (some pass) := by
  refine ⟨fun start answer d h => ⟨_, _, rfl, by show PlanState.acquiring ≠ .tail; decide, rfl, rfl, rfl, rfl, rfl,
    atMostOne_single _, rfl, rfl, rfl, h⟩, ?_, ?_⟩
  · intro start hs
    simp only [List.mem_cons, List.not_mem_nil, or_false] at hs
    rcases hs with rfl | rfl
    · exact ⟨_, rfl, by decide⟩
    · exact ⟨_, rfl, by decide⟩
  · intro d hd
    simp only [List.mem_cons, List.not_mem_nil, or_false] at hd
    rcases hd with rfl | rfl | rfl <;> exact ⟨rfl, rfl, rfl, rfl, fun pass h => by simp [Detector.reset] at h⟩

/-- The angle at which the sample of `placingAt` is placed, 64. -/
def placedAngle : Angle :=
  exposureAngle State.reset.eu.params (State.reset.hp.get .h0).params { entry 8 120 with count := 1, gen := 17 }

/-- A detector in the state given, with an open record of blade 0, the last sequence number 7 and the runs given. -/
def opened (st : DetectorState) (present absent : Nat) : Detector :=
  { seeking with
    state := st, candidates := [], presentRun := present, absentRun := absent, prevOffset := 10, lastSeq := some 7
    lastPresent := if st = .onSurface then some ⟨⟨10, 0, 900, .ok⟩, 0, true⟩ else none
    record := seeking.record.map fun r => { r with start := 1, entry := some 10 } }

theorem witness_SampleExtendsSurface :
    (∀ (p : ScanStep) (answer : Option Answer) (st : DetectorState) (present absent : Nat), p.flags.learn = false →
      ∃ (x : Sample) (r : OpenRecord),
        joinsRecord ⟨5, p, 12⟩ .h0 x r 63 (placingAt 1 p answer (opened st present absent)) ∧ x.answer = answer ∧
        (placingAt 1 p answer (opened st present absent)).pe.detectors.get .h0 = opened st present absent ∧
        r.points.length + (opened st present absent).candidates.length < 1024) ∧
    (∀ i ∈ [199, 200], ∃ q : Answer, q.code = .ok ∧ q.intensity.toNat = i ∧ plainStep.threshold = 200) ∧
    (∀ code ∈ [HeadCode.saturated, .multiPeak], ∃ q : Answer, q.code = code ∧ q.intensity.toNat = 0) ∧
    (∃ l : LastPresent, (opened .onSurface 0 0).state = .onSurface ∧ (opened .onSurface 0 0).lastPresent = some l) ∧
    (∃ p : ScanStep, p.flags.learn = false ∧ p.kOn = 2 ∧ p.kOff = 2 ∧ p.decimation = 0) ∧
    ∀ st ∈ [DetectorState.seeking, .onSurface, .afterExit], (opened st 0 0).state = st ∧
      (opened st 0 0).presentRun + 1 < 2 ∧ 2 ≤ (opened st 1 1).presentRun + 1 ∧ (opened st 0 0).absentRun + 1 < 2 ∧
      2 ≤ (opened st 1 1).absentRun + 1 := by
  refine ⟨fun p answer st present absent hl => ⟨_, _, ⟨rfl, by show PlanState.acquiring ≠ .tail; decide, rfl, hl, rfl,
      Or.inl rfl, rfl, by show some (7 : Seq) = some (8 - 1); decide, ?_, ?_, ?_⟩, rfl, rfl, by show 0 + 0 < 1024; decide⟩,
    fun i hi => ?_, fun code _ => ⟨⟨code, 0, 5⟩, rfl, rfl⟩, ⟨_, rfl, rfl⟩, ⟨{ plainStep with kOn := 2, kOff := 2 }, by decide⟩, by decide⟩
  · show (placedAngle - 1).toNat < 1000
    decide
  · show 10 ≤ (placedAngle - 1).toNat + 64
    decide
  · show 63 = max (placedAngle - 1).toNat 10
    decide
  · simp only [List.mem_cons, List.not_mem_nil, or_false] at hi
    rcases hi with rfl | rfl
    · exact ⟨okAnswer 199 5, by decide⟩
    · exact ⟨okAnswer 200 5, by decide⟩

theorem test_unmeasured_samples_become_points :
    ([HeadCode.saturated, .multiPeak].map fun code =>
      ((after (.placementEnd 0) (arriving (some ⟨code, 100, 5⟩) (opened .onSurface 0 2))).pe.detectors.get .h0).record.map
        fun r => (r.points.map fun p => (p.u, p.code), r.stats)) =
      [some ([(63, .saturated)], ⟨0, 0, none, 2, 1, 0⟩), some ([(63, .multiPeak)], ⟨0, 0, none, 2, 0, 1⟩)] := by
  decide +kernel

/-- In TAIL, head 0's tail ended and its last trigger outstanding under IGNORE, with the detector given. -/
def lastOutstanding (d : Detector) : State :=
  let s := withPort .h0 (fun p => { p with outstanding := [entry 8 0], params := { p.params with policy := .ignore } })
    (withBlades [blade 9 1 1000] (running .tail plainStep))
  { s with
    tu := ⟨PerHead.all { TriggerHead.reset with tail := .ended }, none⟩
    pe := { s.pe with detectors := s.pe.detectors.set .h0 d } }

theorem witness_SampleOutsideClosesRecord :
    (∀ st ∈ [DetectorState.seeking, .onSurface, .afterExit], ∀ x ∈ [(100, 10), (4, 320)], ∃ (s : State) (a : ActiveStep)
      (y : Sample) (r : OpenRecord), s.resetHeld = false ∧ s.spe.state ≠ .tail ∧ s.spe.active = some a ∧
      a.step.flags.learn = false ∧ s.pe.busy = some (.h0, y) ∧ y.entry.gen = s.bt.gen ∧
      let angle := exposureAngle s.eu.params (s.hp.get .h0).params y.entry
      let d := s.pe.detectors.get .h0
      d.record = some r ∧ d.state = st ∧ (d.state = .onSurface → d.lastPresent ≠ none) ∧
      d.lastSeq = some (y.entry.seq - 1) ∧ hasFlag .aborted r.flags = false ∧
      if x.1 = 100 then r.width ≤ (angle - r.start).toNat ∧ ∀ w ∈ s.bt.current, w.width ≤ (angle - w.start).toNat
      else (angle - r.start).toNat < r.width ∧ (angle - r.start).toNat + 65 = d.prevOffset) ∧
    ∀ st ∈ [DetectorState.seeking, .onSurface, .afterExit], ∃ (s : State) (a : ActiveStep) (e : Outstanding)
      (r : OpenRecord), s.resetHeld = false ∧ s.spe.state = .tail ∧ s.spe.active = some a ∧
      a.step.flags.learn = false ∧ s.pe.busy = none ∧ (s.tu.heads.get .h0).tail = .ended ∧
      (s.hp.get .h0).outstanding = [e] ∧ (s.hp.get .h0).queue = [] ∧ (s.hp.get .h0).params.policy = .ignore ∧
      (s.hp.get .h0).params.timeout < ((elapse 100001 s).eu.tick - e.trigTick).toNat ∧
      (s.pe.detectors.get .h0).record = some r ∧ (s.pe.detectors.get .h0).state = st ∧
      ((s.pe.detectors.get .h0).state = .onSurface → (s.pe.detectors.get .h0).lastPresent ≠ none) ∧
      hasFlag .aborted r.flags = false ∧ ∀ g : Head, g ≠ .h0 → (s.pe.detectors.get g).record = none := by
  refine ⟨fun st hst x hx => ?_, fun st hst => ?_⟩
  · let d : Detector := { opened st 0 0 with prevOffset := x.2 }
    refine ⟨{ arriving none d with
        pe := { (arriving none d).pe with busy := some (.h0, ⟨{ entry 8 120 with count := x.1 }, none⟩) } },
      ⟨5, plainStep, 12⟩, _, _, rfl, by show PlanState.acquiring ≠ .tail; decide, rfl, rfl, rfl, rfl, rfl, rfl, ?_,
      by show some (7 : Seq) = some (8 - 1); decide, by show hasFlag .aborted 0 = false; decide, ?_⟩
    · show st = .onSurface → (opened st 0 0).lastPresent ≠ none
      intro h; subst h; decide
    · simp only [List.mem_cons, List.not_mem_nil, or_false] at hx hst
      rcases hx with rfl | rfl <;> rcases hst with rfl | rfl | rfl <;> decide
  · refine ⟨lastOutstanding (opened st 0 0), ⟨5, plainStep, 12⟩, entry 8 0, _, rfl, rfl, rfl, rfl, rfl, rfl, rfl, rfl, rfl,
      by show 100000 < ((0 : Tick) + BitVec.ofNat 32 100001 - 0).toNat; decide, rfl, rfl, ?_,
      by show hasFlag .aborted 0 = false; decide, ?_⟩
    · show st = .onSurface → (opened st 0 0).lastPresent ≠ none
      intro h; subst h; decide
    · intro g hg
      cases g <;> first | exact absurd rfl hg | rfl

/-- A record of `n` points. -/
def recordOfPoints (n : Nat) : SectionRecord :=
  { closedRecord with pointCount := n, points := List.replicate n ⟨0, 0, 0, .ok⟩ }

theorem witness_FramesOfRecord :
    (∃ r : SectionRecord, r.withheld = true ∧ (r.withheld = false → r.pointCount = r.points.length)) ∧
    ∀ n ∈ [240, 241, 1024], ∃ r : SectionRecord, r.withheld = false ∧ r.pointCount = n ∧
      r.pointCount = r.points.length :=
  ⟨⟨{ closedRecord with withheld := true }, rfl, fun h => by cases h⟩,
   fun n _ => ⟨recordOfPoints n, rfl, rfl, List.length_replicate.symm⟩⟩

theorem witness_StoreAdmitsRecord :
    ∀ x ∈ [(509, 2), (511, 2), (512, 1)], ∀ y ∈ [(0, false), (0, true), (1, false)], ∃ (s : State) (h : Handed),
      s.resetHeld = false ∧ s.bus.handed = [h] ∧ s.rs.starved = y.2 ∧ s.rs.credits = y.1 ∧ s.rs.frames.length = x.1 ∧
      (framesOf s.rs.recordNumber h.record).length = x.2 ∧ s.lp.sending = none ∧ s.lp.notices.length < 32 := by
  intro x hx y _
  let s (n points : Nat) : State :=
    { filling n points with rs := { (filling n points).rs with starved := y.2, credits := y.1 } }
  have waits : 0 < 32 := by decide
  have framed (points k : Nat)
      (h : (framesOf 300 { closedRecord with pointCount := points, points := List.replicate points ⟨0, 0, 0, .ok⟩ }).length =
        k) :
      (framesOf (s 0 points).rs.recordNumber
        { closedRecord with pointCount := points, points := List.replicate points ⟨0, 0, 0, .ok⟩ }).length = k := h
  simp only [List.mem_cons, List.not_mem_nil, or_false] at hx
  rcases hx with rfl | rfl | rfl
  · exact ⟨s 509 300, _, rfl, rfl, rfl, rfl, List.length_replicate, framed 300 _ (by decide), rfl, waits⟩
  · exact ⟨s 511 300, _, rfl, rfl, rfl, rfl, List.length_replicate, framed 300 _ (by decide), rfl, waits⟩
  · exact ⟨s 512 10, _, rfl, rfl, rfl, rfl, List.length_replicate, framed 10 _ (by decide), rfl, waits⟩

/-- A post for blade 0 in the table of one entry, in the state given. -/
def postedTo (st : BladeState) (u : Option Nat) : State :=
  let s := withBlades [{ blade 90 5300000 250000 with state := st, misses := 2 }] State.reset
  { s with bus := { s.bus with posts := [⟨0, u, u.isNone⟩] } }

theorem witness_RecordResultsAreTaken :
    (∀ x ∈ [(BladeState.excluded, none), (.missing, some 40768), (.active, none)],
      ∃ (s : State) (p : Post) (rest : List Post) (e : BladeEntry), s.resetHeld = false ∧ s.bus.posts = p :: rest ∧
        s.bt.entries[p.blade]? = some e ∧ e.state = x.1 ∧ p.entry = x.2 ∧ p.missingEntry = x.2.isNone ∧
        s.lp.notices.length < 32) ∧
    (∀ x ∈ [(0x400, 12), (0, 13), (0, 12)], ∃ (s : State) (a : ActiveStep) (r : RecordReport)
      (rest : List RecordReport), s.resetHeld = false ∧ s.bus.reports = r :: rest ∧ s.spe.active = some a ∧
        r.flags = x.1 ∧ a.runId = 12 ∧ r.runId = x.2) ∧
    ∀ o ∈ [Outcome3.whole, .headerOnly, .lost], ∃ (s : State) (a : ActiveStep) (r : AdmissionReport)
      (rest : List AdmissionReport), s.resetHeld = false ∧ s.bus.stored = r :: rest ∧ s.spe.active = some a ∧
        a.runId = r.runId ∧ r.aborted = false ∧ r.outcome = o := by
  refine ⟨?_, ?_, ?_⟩
  · intro x _
    exact ⟨postedTo x.1 x.2, ⟨0, x.2, x.2.isNone⟩, [], _, rfl, rfl, rfl, rfl, rfl, rfl, Nat.zero_lt_succ 31⟩
  · intro x _
    exact ⟨{ reported 0 with bus := { (reported 0).bus with reports := [⟨x.1, x.2, 3, true, emptyStats⟩] } }, ⟨5, plainStep, 12⟩, _,
      [], rfl, rfl, rfl, rfl, rfl, rfl⟩
  · intro o _
    exact ⟨{ lost with bus := { lost.bus with stored := [⟨o, 12, false⟩] } }, ⟨5, plainStep, 12⟩, _, [], rfl, rfl, rfl,
      rfl, rfl, rfl⟩

/-- The free transmitter with this overload list, this reply, these notices, these frames and these credits. -/
def selecting (o : List OverloadEntry) (r : Option Reply) (ns : List Notice) (fs : List DataFrame) (credits : Nat) :
    State :=
  { State.reset with
    lp := { LinkPort.reset with overload := o, reply := r, notices := ns }
    rs := { RecordStore.reset with frames := fs, credits := credits } }

theorem witness_SelectorTakesFirstReady :
    (∃ s : State, s.resetHeld = false ∧ s.lp.sending ≠ none) ∧
    (∃ s : State, s.resetHeld = false ∧ s.lp.sending = none ∧ ∃ e rest, s.lp.overload = e :: rest) ∧
    (∃ s : State, s.resetHeld = false ∧ s.lp.sending = none ∧ s.lp.overload = [] ∧ ∃ r, s.lp.reply = some r) ∧
    (∃ s : State, s.resetHeld = false ∧ s.lp.sending = none ∧ s.lp.overload = [] ∧ s.lp.reply = none ∧
      ∃ n rest, s.lp.notices = n :: rest) ∧
    (∀ credits ∈ [0, 1, 2], ∀ rest ∈ [[], [dataFrame 2]], ∃ s : State, s.resetHeld = false ∧ s.lp.sending = none ∧
      s.lp.overload = [] ∧ s.lp.reply = none ∧ s.lp.notices = [] ∧ s.rs.starved = false ∧ s.rs.credits = credits ∧
      ∃ f, s.rs.frames = f :: rest) ∧
    ∃ s : State, s.resetHeld = false ∧ s.lp.sending = none ∧ s.lp.overload = [] ∧ s.lp.reply = none ∧
      s.lp.notices = [] ∧ s.rs.frames = [] :=
  ⟨⟨sending .notice, rfl, by decide⟩, ⟨selecting [⟨6, keywordBytes .cntr⟩] none [] [] 0, rfl, rfl, _, _, rfl⟩,
   ⟨selecting [] (some ⟨1, keywordBytes .stat, .ok, []⟩) [] [] 0, rfl, rfl, rfl, _, rfl⟩,
   ⟨selecting [] none [.referenced 0] [] 0, rfl, rfl, rfl, rfl, _, _, rfl⟩,
   fun credits _ rest _ => ⟨selecting [] none [] (dataFrame 1 :: rest) credits, rfl, rfl, rfl, rfl, rfl, rfl, rfl, _, rfl⟩,
   ⟨State.reset, rfl, rfl, rfl, rfl, rfl, rfl⟩⟩

theorem witness_SendingEnds :
    let resets (s : State) (f : Flight) := s.lp.resetMark = true ∧ s.lp.overload = [] ∧
      (f.kind = .reply ∨ s.lp.reply = none)
    let owed := OverloadEntry.mk 4 (keywordBytes .stat)
    let waits := Reply.mk 1 (keywordBytes .rset) .ok []
    (∀ k : FlightKind, ∃ (s : State) (f : Flight), s.resetHeld = false ∧ s.lp.sending = some f ∧
      s.lp.resetMark = false ∧ ¬ resets s f ∧ f.kind = k) ∧
    (∀ k : FlightKind, ∃ (s : State) (f : Flight), s.resetHeld = false ∧ s.lp.sending = some f ∧
      s.lp.resetMark = true ∧ s.lp.overload = [owed] ∧ ¬ resets s f ∧ f.kind = k) ∧
    (∀ k ∈ [FlightKind.overload, .notice, .data], ∃ (s : State) (f : Flight), s.resetHeld = false ∧
      s.lp.sending = some f ∧ s.lp.resetMark = true ∧ s.lp.overload = [] ∧ s.lp.reply = some waits ∧ ¬ resets s f ∧
      f.kind = k) ∧
    ∀ x ∈ [(FlightKind.reply, some waits), (.overload, none)], ∃ (s : State) (f : Flight), s.resetHeld = false ∧
      s.lp.sending = some f ∧ resets s f ∧ f.kind = x.1 ∧ s.lp.reply = x.2 := by
  intro resets owed waits
  let s (k : FlightKind) (mark : Bool) (o : List OverloadEntry) (r : Option Reply) : State :=
    { sending k with lp := { (sending k).lp with resetMark := mark, overload := o, reply := r } }
  refine ⟨fun k => ⟨s k false [] none, ⟨k, []⟩, rfl, rfl, rfl, fun h => (by cases h.1), rfl⟩,
    fun k => ⟨s k true [owed] none, ⟨k, []⟩, rfl, rfl, rfl, rfl, fun h => (by cases h.2.1), rfl⟩, fun k hk => ?_,
    fun x hx => ?_⟩
  · refine ⟨s k true [] (some waits), ⟨k, []⟩, rfl, rfl, rfl, rfl, rfl, fun h => ?_, rfl⟩
    rcases h.2.2 with h' | h'
    · change k = .reply at h'
      subst h'
      exact absurd hk (by decide)
    · cases h'
  · simp only [List.mem_cons, List.not_mem_nil, or_false] at hx
    rcases hx with rfl | rfl
    · exact ⟨s .reply true [] (some waits), ⟨.reply, []⟩, rfl, rfl, ⟨rfl, rfl, Or.inl rfl⟩, rfl, rfl⟩
    · exact ⟨s .overload true [] none, ⟨.overload, []⟩, rfl, rfl, ⟨rfl, rfl, Or.inr rfl⟩, rfl, rfl⟩

/-- The conditions on which TAIL ends, for a state that differs from reset in the plan and the tails alone. -/
theorem tailIsOver_ended (s : State) (h1 : s.spe.state = .tail) (h2 : s.pe = State.reset.pe) (h3 : s.bus = State.reset.bus)
    (h4 : s.hp = State.reset.hp) (h5 : s.tu.heads = PerHead.all { TriggerHead.reset with tail := .ended }) :
    tailIsOver s := by
  refine ⟨h1, by rw [h2]; rfl, by rw [h3]; rfl, by rw [h3]; rfl, by rw [h3]; rfl, fun h => ?_⟩
  rw [h2, h4, h5]
  cases h <;> exact ⟨rfl, rfl, rfl, rfl⟩

/-- The plain step ended its tail, with the next slot given, which holds the plain step too. -/
def completing (next : Option Slot) (haltAfter : Bool) : State :=
  let s := tailEnded { plainStep with next := next, flags := { noFlags with haltAfter := haltAfter } } 2
    (withBlades [blade 9 0 1000] State.reset)
  { s with spe := { s.spe with slots := s.spe.slots.set 6 (some plainStep) } }

/-- A head's silence in pass 1, latched under HALT_AT_STEP_END, its halt pending. -/
def pendingHalt : FaultRecord := ⟨.headSilent, some .h1, 101, 1, 0, .haltAtStepEnd, false⟩

theorem witness_StepCompletes :
    (∀ s ∈ [running .acquiring plainStep, running .tail plainStep], ∃ a : ActiveStep, s.resetHeld = false ∧
      s.spe.active = some a ∧ ¬ tailIsOver s) ∧
    (∃ (s : State) (a : ActiveStep), (s.resetHeld = false ∧ s.spe.active = some a ∧ tailIsOver s ∧
      a.step.flags.learn = false ∧ s.spe.interjection = .none ∧ s.spe.latch = none ∧ followingSlot a s (some 6) ∧
      s.lp.notices.length + 2 ≤ 32) ∧ a.step.flags.haltAfter = true) ∧
    (∃ (s : State) (a : ActiveStep), (s.resetHeld = false ∧ s.spe.active = some a ∧ tailIsOver s ∧
      a.step.flags.learn = false ∧ s.spe.interjection = .none ∧ s.spe.latch = none ∧ followingSlot a s none ∧
      s.lp.notices.length + 2 ≤ 32) ∧ a.step.flags.haltAfter = false) ∧
    (∃ (s : State) (a : ActiveStep) (p : ScanStep), (s.resetHeld = false ∧ s.spe.active = some a ∧ tailIsOver s ∧
      a.step.flags.learn = false ∧ s.spe.interjection = .none ∧ s.spe.latch = none ∧ followingSlot a s (some 6) ∧
      s.lp.notices.length + 2 ≤ 32) ∧ a.step.flags.haltAfter = false ∧ s.spe.slots[(6 : Slot)] = some p ∧
      armableStep p s) ∧
    (∀ i ∈ [Interjection.none, .running], ∃ (s : State) (a : ActiveStep) (r : FaultRecord), s.resetHeld = false ∧
      s.spe.active = some a ∧ tailIsOver s ∧ a.step.flags.learn = false ∧ s.spe.interjection = i ∧
      (∀ slot, s.spe.interjection ≠ .pending slot) ∧ s.lp.notices.length + 2 ≤ 32 ∧ s.spe.latch = some r ∧
      r.policy = .haltAtStepEnd ∧ r.taken = false) ∧
    ∃ (s : State) (a : ActiveStep) (n : Slot), s.resetHeld = false ∧ s.spe.active = some a ∧ tailIsOver s ∧
      a.step.flags.learn = false ∧ s.spe.interjection = .none ∧ s.spe.latch = none ∧ s.lp.notices.length + 2 ≤ 32 ∧
      a.step.flags.skipIfClean = true ∧ 1 = s.spe.counters.made ∧ s.spe.counters.clean = s.spe.counters.made ∧
      s.spe.counters.headerOnly = 0 ∧ s.spe.counters.lost = 0 ∧ a.step.next = some n ∧ s.spe.slots[n] = none := by
  have ended (next : Option Slot) (halt : Bool) : tailIsOver (completing next halt) := tailIsOver_ended _ rfl rfl rfl rfl rfl
  have follow (next : Option Slot) (halt : Bool) :
      followingSlot ⟨5, { plainStep with next := next, flags := { noFlags with haltAfter := halt } }, 12⟩
        (completing next halt) next :=
    ⟨fun _ => rfl, fun h => absurd h.1 (by intro h; cases h)⟩
  refine ⟨fun s hs => ?_,
    ⟨completing (some 6) true, _, ⟨rfl, rfl, ended _ _, rfl, rfl, rfl, follow _ _, by decide⟩, rfl⟩,
    ⟨completing none false, _, ⟨rfl, rfl, ended _ _, rfl, rfl, rfl, follow _ _, by decide⟩, rfl⟩,
    ⟨completing (some 6) false, _, plainStep, ⟨rfl, rfl, ended _ _, rfl, rfl, rfl, follow _ _, by decide⟩, rfl, by decide,
      Or.inr ⟨by decide, fun h => by cases h⟩⟩, fun i hi => ?_, ?_⟩
  · simp only [List.mem_cons, List.not_mem_nil, or_false] at hs
    rcases hs with rfl | rfl
    · exact ⟨_, rfl, rfl, fun h => by cases h.1⟩
    · exact ⟨_, rfl, rfl, fun h => by cases (h.2.2.2.2.2 .h0).1⟩
  · refine ⟨{ completing none false with
        spe := { (completing none false).spe with interjection := i, latch := some pendingHalt } }, _, pendingHalt, rfl,
      rfl, tailIsOver_ended _ rfl rfl rfl rfl rfl, rfl, rfl, fun slot h => ?_, by show 0 + 2 ≤ 32; decide, rfl, rfl, rfl⟩
    change i = .pending slot at h
    subst h
    simp at hi
  · let s := tailEnded { plainStep with next := some 7, flags := { noFlags with skipIfClean := true } } 2 State.reset
    exact ⟨{ s with spe := { s.spe with counters := ⟨1, 1, 0, 0, 0⟩ } }, _, 7, rfl, rfl,
      tailIsOver_ended _ rfl rfl rfl rfl rfl, rfl, rfl, rfl, by decide, rfl, rfl, rfl, rfl, rfl, rfl, by decide⟩

/-- A learning step ended its tail with `n` bins filled. -/
def learned (n : Nat) : State :=
  let s := tailEnded { plainStep with flags := { noFlags with learn := true } } 2 (withBlades [] State.reset)
  { s with rm := { s.rm with acc :=
      ⟨Vector.replicate 256 5, Vector.ofFn fun k : Fin 256 => if k.val < n then 1 else 0, some 1000⟩ } }

theorem witness_LearningStepCompletes :
    ∀ n ∈ [191, 192], ∃ (s : State) (a : ActiveStep), s.resetHeld = false ∧ s.spe.active = some a ∧ tailIsOver s ∧
      a.step.flags.learn = true ∧ a.step.flags.haltAfter = false ∧ a.step.flags.skipIfClean = false ∧
      a.step.next = none ∧ s.spe.interjection = .none ∧ s.spe.latch = none ∧ s.lp.notices.length + 2 ≤ 32 ∧
      (s.rm.acc.counts.toList.filter fun n => decide (n ≠ 0)).length = n := by
  intro n hn
  have ended : tailIsOver (learned n) := tailIsOver_ended _ rfl rfl rfl rfl rfl
  simp only [List.mem_cons, List.not_mem_nil, or_false] at hn
  rcases hn with rfl | rfl
  · exact ⟨learned 191, _, rfl, rfl, ended, rfl, rfl, rfl, rfl, rfl, rfl, by decide, by decide +kernel⟩
  · exact ⟨learned 192, _, rfl, rfl, ended, rfl, rfl, rfl, rfl, rfl, rfl, by decide, by decide +kernel⟩

/-- The interjected step ended its tail; slot 6 holds the main step, whose context is as given. -/
def returning (phase : Phase) (decision : Option Decision) : State :=
  let s := completing none false
  { s with spe := { s.spe with
      interjection := .running, context := some ⟨6, 101, 11, phase, 1, ⟨2, 2, 0, 0, 0⟩, decision⟩ } }

/-- The main step ended its tail with slot 6 requested, the passes done and the latch given. -/
def requested (done : Nat) (latch : Option FaultRecord) : State :=
  let s := completing none false
  { s with spe := { s.spe with interjection := .pending 6, passesDone := done, latch := latch } }

/-- A learning step of two passes. -/
def learningStep : ScanStep := { plainStep with flags := { noFlags with learn := true } }

/-- The active step learns; slot 6 holds a learning step too, and the saved copy holds accumulators. -/
def learningBeside (s : State) : State :=
  { s with
    spe := { s.spe with
      active := some ⟨5, learningStep, 12⟩, slots := s.spe.slots.set 6 (some learningStep) }
    rm := { s.rm with acc := accumulatorsAt (some 1000), saved := some (accumulatorsAt (some 2000)) } }

theorem test_interjection_saves_accumulators :
    let m := (after .interjectionTailEnd (learningBeside (requested 1 none))).rm
    (m.saved.map (·.radius), m.acc.radius) = (some (some 1000), none) := by decide +kernel

theorem test_resumption_restores_accumulators :
    let m := (after .stepCompletion (learningBeside (returning .resumePasses none))).rm
    (m.saved.isNone, m.acc.radius) = (true, some 2000) := by decide +kernel

theorem witness_InterjectionSavesAndResumes :
    (∃ (s : State) (a : ActiveStep), s.resetHeld = false ∧ s.spe.active = some a ∧ s.spe.state = .tail ∧
      ¬ tailIsOver s) ∧
    (∀ x ∈ [(1, none), (1, some pendingHalt), (2, none)], ∃ (s : State) (a : ActiveStep) (slot : Slot) (p : ScanStep),
      s.resetHeld = false ∧ s.spe.active = some a ∧ a.step.flags.learn = true ∧ tailIsOver s ∧ s.spe.latch = x.2 ∧
      s.spe.interjection = .pending slot ∧ s.spe.passesDone = x.1 ∧ a.step.passes = 2 ∧ followingSlot a s none ∧
      s.spe.slots[slot] = some p ∧ armableStep p (learnTaken a s) ∧ s.lp.notices.length < 32) ∧
    (∃ (s : State) (a : ActiveStep) (c : Context) (p : ScanStep) (acc : Accumulators), s.resetHeld = false ∧
      s.spe.active = some a ∧ a.step.flags.learn = true ∧ tailIsOver s ∧ s.spe.latch = none ∧
      s.spe.interjection = .running ∧ s.spe.context = some c ∧ c.phase = .resumePasses ∧
      s.spe.slots[c.slot] = some p ∧ p.flags.learn = true ∧ s.rm.saved = some acc ∧ armableStep p (learnTaken a s) ∧
      s.lp.notices.length + 2 ≤ 32) ∧
    (∀ x ∈ [(1, none), (1, some pendingHalt), (2, none)], ∃ (s : State) (a : ActiveStep) (slot : Slot) (p : ScanStep),
      s.resetHeld = false ∧ s.spe.active = some a ∧ a.step.flags.learn = false ∧ tailIsOver s ∧ s.spe.latch = x.2 ∧
      s.spe.interjection = .pending slot ∧ s.spe.passesDone = x.1 ∧ a.step.passes = 2 ∧ followingSlot a s none ∧
      s.spe.slots[slot] = some p ∧ armableStep p s ∧ s.lp.notices.length < 32) ∧
    ∀ x ∈ [(Phase.resumePasses, none), (.restart, none), (.decided, some (Decision.arm 6)), (.decided, some .finish),
        (.decided, some (.halt none)), (.halted, some (.halt (some 6)))],
      ∃ (s : State) (a : ActiveStep) (c : Context) (p : ScanStep), s.resetHeld = false ∧ s.spe.active = some a ∧
        a.step.flags.learn = false ∧ tailIsOver s ∧ s.spe.latch = none ∧ s.spe.interjection = .running ∧
        s.spe.context = some c ∧ c.phase = x.1 ∧ c.decision = x.2 ∧ c.slot = 6 ∧ s.spe.slots[(6 : Slot)] = some p ∧
        p.flags.learn = false ∧ armableStep p s ∧ s.lp.notices.length + 2 ≤ 32 := by
  refine ⟨⟨running .tail plainStep, _, rfl, rfl, rfl, fun h => by cases (h.2.2.2.2.2 .h0).1⟩,
    fun x _ => ⟨learningBeside (requested x.1 x.2), _, 6, learningStep, rfl, rfl, rfl,
      tailIsOver_ended _ rfl rfl rfl rfl rfl, rfl, rfl, rfl, rfl,
      ⟨fun _ => rfl, fun h => absurd h.1 (by intro h; cases h)⟩, rfl, Or.inl rfl, by show 0 < 32; decide⟩,
    ⟨learningBeside (returning .resumePasses none), _, _, learningStep, accumulatorsAt (some 2000), rfl, rfl, rfl,
      tailIsOver_ended _ rfl rfl rfl rfl rfl, rfl, rfl, rfl, rfl, rfl, rfl, rfl, Or.inl rfl, by show 0 + 2 ≤ 32; decide⟩,
    fun x hx => ?_, fun x _ => ?_⟩
  · exact ⟨requested x.1 x.2, _, 6, plainStep, rfl, rfl, rfl, tailIsOver_ended _ rfl rfl rfl rfl rfl, rfl, rfl, rfl, rfl,
      ⟨fun _ => rfl, fun h => absurd h.1 (by intro h; cases h)⟩, rfl,
      Or.inr ⟨by show [_] ≠ []; exact List.cons_ne_nil _ _, fun h => by cases h⟩, by show 0 < 32; decide⟩
  · exact ⟨returning x.1 x.2, _, _, plainStep, rfl, rfl, rfl, tailIsOver_ended _ rfl rfl rfl rfl rfl, rfl, rfl, rfl, rfl,
      rfl, rfl, rfl, rfl, Or.inr ⟨by show [_] ≠ []; exact List.cons_ne_nil _ _, fun h => by cases h⟩,
      by show 0 + 2 ≤ 32; decide⟩

/-- A raising of the class is on its way, in the plan state given, with the latch given. -/
def raising (cls : FaultClass) (st : PlanState) (latch : Option FaultRecord) : State :=
  let s := if st = .idle then State.reset else running st plainStep
  { s with spe := { s.spe with latch := latch }, bus := { s.bus with raisings := [⟨cls, none, 101, 1, 0⟩] } }

/-- A record under STOP_NOW, and one whose halt is taken. -/
def stoppedRecord : FaultRecord := ⟨.stall, none, 101, 1, 0, .stopNow, false⟩

def takenHalt : FaultRecord := { pendingHalt with taken := true }

theorem test_stopNow_beside_a_finished_record :
    ([stoppedRecord, takenHalt].map fun held =>
      let t := after (.faultRaise 0) (raising .direction .faulted (some held))
      (t.spe.latch, t.spe.secondary, t.lp.notices.map noticeContents |>.map (·[11]?))) =
      [(some stoppedRecord, 1, [some 6]), (some takenHalt, 1, [some 6])] := by decide +kernel

theorem witness_RaisingIsDisposed :
    ∀ x ∈ [(FaultClass.radiusDrift, PlanState.idle, none, Policy.report), (.headSilent, .settling, none, .haltAtStepEnd),
        (.headSilent, .tail, none, .haltAtStepEnd), (.headSilent, .idle, none, .haltAtStepEnd),
        (.headSilent, .halted, none, .haltAtStepEnd), (.headSilent, .acquiring, some pendingHalt, .haltAtStepEnd),
        (.direction, .faulted, some stoppedRecord, .stopNow), (.direction, .faulted, some takenHalt, .stopNow)],
      ∃ (s : State) (r : Raising) (rest : List Raising), s.resetHeld = false ∧ s.bus.raisings = r :: rest ∧
        r.cls ≠ .stepInvalid ∧ s.lp.notices.length + 2 ≤ 32 ∧ s.spe.params.policies[classIndex r.cls] = x.2.2.2 ∧
        s.spe.state = x.2.1 ∧ s.spe.latch = x.2.2.1 := by
  intro x hx
  simp only [List.mem_cons, List.not_mem_nil, or_false] at hx
  rcases hx with rfl | rfl | rfl | rfl | rfl | rfl | rfl | rfl
  · exact ⟨raising .radiusDrift .idle none, _, [], rfl, rfl, by decide⟩
  · exact ⟨raising .headSilent .settling none, _, [], rfl, rfl, by decide⟩
  · exact ⟨raising .headSilent .tail none, _, [], rfl, rfl, by decide⟩
  · exact ⟨raising .headSilent .idle none, _, [], rfl, rfl, by decide⟩
  · exact ⟨raising .headSilent .halted none, _, [], rfl, rfl, by decide⟩
  · exact ⟨raising .headSilent .acquiring (some pendingHalt), _, [], rfl, rfl, by decide⟩
  · exact ⟨raising .direction .faulted (some stoppedRecord), _, [], rfl, rfl, by decide⟩
  · exact ⟨raising .direction .faulted (some takenHalt), _, [], rfl, rfl, by decide⟩

theorem witness_RunIsTornDown :
    (∀ s ∈ [State.reset, faulted], Offered .stop 7 [0] [] (offered .stop [0] s) ∧
      (offered .stop [0] s).lp.notices.length + 2 ≤ 32 ∧
      ((offered .stop [0] s).spe.state = .idle ∨ (offered .stop [0] s).spe.state = .faulted)) ∧
    (∀ latch ∈ [none, some pendingHalt], ∃ (s : State) (a : ActiveStep), s.resetHeld = false ∧
      s.lp.notices.length + 2 ≤ 32 ∧ Offered .stop 7 [0] [] s ∧ s.spe.state ≠ .idle ∧ s.spe.state ≠ .faulted ∧
      s.spe.latch = latch ∧ s.spe.active = some a) ∧
    (∀ latch ∈ [none, some pendingHalt], ∃ (s : State) (r : Raising) (a : ActiveStep), s.resetHeld = false ∧
      s.lp.notices.length + 2 ≤ 32 ∧ s.bus.raisings = [r] ∧ r.cls ≠ .stepInvalid ∧
      s.spe.params.policies[classIndex r.cls] = .stopNow ∧ s.spe.latch = latch ∧ s.spe.active = some a) ∧
    (pendingHalt.policy = .haltAtStepEnd ∧ pendingHalt.taken = false) ∧
    ∃ (s : State) (r : Raising), s.resetHeld = false ∧ s.lp.notices.length + 2 ≤ 32 ∧ s.bus.raisings = [r] ∧
      r.cls ≠ .stepInvalid ∧ s.spe.params.policies[classIndex r.cls] = .stopNow ∧ s.spe.latch = none ∧
      s.spe.active = none ∧ s.spe.state = .idle ∧ (openInOrder s).length = 0 := by
  refine ⟨?_, fun latch _ => ?_, fun latch _ => ?_, ⟨rfl, rfl⟩,
    ⟨raising .direction .idle none, _, rfl, by decide, rfl, by decide, by decide, rfl, rfl, rfl, by decide⟩⟩
  · intro s hs
    simp only [List.mem_cons, List.not_mem_nil, or_false] at hs
    rcases hs with rfl | rfl
    · exact ⟨⟨rfl, rfl, rfl, rfl⟩, by decide, Or.inl rfl⟩
    · exact ⟨⟨rfl, rfl, rfl, rfl⟩, by decide, Or.inr rfl⟩
  · exact ⟨offered .stop [0] (raising .headSilent .settling latch), ⟨5, plainStep, 12⟩, rfl, by show 0 + 2 ≤ 32; decide,
      ⟨rfl, rfl, rfl, rfl⟩, by show PlanState.settling ≠ .idle; decide, by show PlanState.settling ≠ .faulted; decide, rfl,
      rfl⟩
  · exact ⟨raising .direction .acquiring latch, _, ⟨5, plainStep, 12⟩, rfl, by show 0 + 2 ≤ 32; decide, rfl,
      by show FaultClass.direction ≠ .stepInvalid; decide, rfl, rfl, rfl⟩

theorem witness_RunpArmsSlot :
    (∃ s : State, Offered .runp 7 [64] [] s) ∧
    (∃ s : State, Offered .runp 7 [63] [] s ∧ s.spe.latch ≠ none) ∧
    (∃ s : State, Offered .runp 7 [63] [] s ∧ s.spe.latch = none ∧ s.spe.state ≠ .idle) ∧
    (∃ (s : State) (p : ScanStep), Offered .runp 7 [5] [] s ∧ s.spe.latch = none ∧ s.spe.state = .idle ∧
      s.spe.slots[(5 : Slot)] = some p ∧ armableStep p s) ∧
    (∃ s : State, Offered .runp 7 [63] [] s ∧ s.spe.latch = none ∧ s.spe.state = .idle ∧
      s.spe.slots[(63 : Slot)] = none ∧ s.lp.notices.length < 32) ∧
    ∃ s : State, Offered .runp 7 [5] [] s ∧ s.spe.latch = none ∧ s.spe.state = .idle ∧
      (∀ p : ScanStep, s.spe.slots[(5 : Slot)] = some p → ¬ armableStep p s) ∧ s.lp.notices.length < 32 := by
  refine ⟨⟨offered .runp [64] State.reset, rfl, rfl, rfl, rfl⟩,
    ⟨offered .runp [63] faulted, ⟨rfl, rfl, rfl, rfl⟩, by decide⟩,
    ⟨offered .runp [63] halted, ⟨rfl, rfl, rfl, rfl⟩, rfl, by decide⟩,
    ⟨offered .runp [5] ready, plainStep, ⟨rfl, rfl, rfl, rfl⟩, rfl, rfl, by decide,
      Or.inr ⟨by decide, fun h => by cases h⟩⟩,
    ⟨offered .runp [63] ready, ⟨rfl, rfl, rfl, rfl⟩, rfl, rfl, by decide, by decide⟩,
    ⟨offered .runp [5] (withBlades [] ready), ⟨rfl, rfl, rfl, rfl⟩, rfl, rfl, fun p h => ?_, by decide⟩⟩
  cases h
  rintro (h | h)
  · cases h
  · exact h.1 rfl

/-- HALTED with the following slot 5, which can be armed. -/
def haltedBefore : State :=
  let s := withBlades [blade 9 0 1000] (running .halted plainStep)
  { s with spe := { s.spe with pendingDecision := some (some 5) } }

theorem witness_PlanCommandsAct :
    (∃ s : State, Offered .cont 7 [0] [] s ∧ s.spe.state ≠ .halted) ∧
    (∃ (s : State) (a : ActiveStep), Offered .cont 7 [0] [] s ∧ s.spe.state = .halted ∧ s.spe.active = some a ∧
      s.spe.pendingDecision = some none ∧ s.lp.notices.length < 32) ∧
    (∃ (s : State) (p : ScanStep), Offered .cont 7 [0] [] s ∧ s.spe.state = .halted ∧
      s.spe.pendingDecision = some (some 5) ∧ s.spe.slots[(5 : Slot)] = some p ∧ armableStep p s) ∧
    (∃ s : State, Offered .intj 7 [64] [] s) ∧
    (∃ s : State, Offered .intj 7 [63] [] s ∧ (s.spe.state = .idle ∨ s.spe.state = .faulted)) ∧
    (∃ s : State, Offered .intj 7 [63] [] s ∧ s.spe.state ≠ .idle ∧ s.spe.state ≠ .faulted ∧
      s.spe.interjection ≠ .none) ∧
    (∃ (s : State) (a : ActiveStep), Offered .intj 7 [5] [] s ∧ s.spe.interjection = .none ∧ s.spe.active = some a ∧
      takingSamples s.spe.state) ∧
    (∀ st ∈ [PlanState.settling, .armed, .halted], ∃ (s : State) (a : ActiveStep) (p : ScanStep),
      Offered .intj 7 [5] [] s ∧ s.spe.interjection = .none ∧ s.spe.active = some a ∧ s.spe.state = st ∧
      s.spe.pendingDecision = some (some 5) ∧ s.spe.slots[(5 : Slot)] = some p ∧ armableStep p s) ∧
    (∃ s : State, Offered .fclr 7 [0] [] s ∧ s.spe.state ≠ .faulted) ∧
    ∃ s : State, Offered .fclr 7 [0] [] s ∧ s.spe.state = .faulted :=
  ⟨⟨offered .cont [0] State.reset, ⟨rfl, rfl, rfl, rfl⟩, by decide⟩,
   ⟨offered .cont [0] halted, ⟨5, plainStep, 12⟩, ⟨rfl, rfl, rfl, rfl⟩, rfl, rfl, rfl, by decide⟩,
   ⟨offered .cont [0] haltedBefore, plainStep, ⟨rfl, rfl, rfl, rfl⟩, rfl, rfl, by decide,
     Or.inr ⟨by decide, fun h => by cases h⟩⟩,
   ⟨offered .intj [64] State.reset, rfl, rfl, rfl, rfl⟩,
   ⟨offered .intj [63] State.reset, ⟨rfl, rfl, rfl, rfl⟩, Or.inl rfl⟩,
   ⟨offered .intj [63] interjecting, ⟨rfl, rfl, rfl, rfl⟩, by decide⟩,
   ⟨offered .intj [5] (running .tail plainStep), ⟨5, plainStep, 12⟩, ⟨rfl, rfl, rfl, rfl⟩, rfl, rfl, Or.inr rfl⟩,
   fun st _ => ⟨offered .intj [5] { haltedBefore with spe := { haltedBefore.spe with state := st } }, ⟨5, plainStep, 12⟩,
     plainStep, ⟨rfl, rfl, rfl, rfl⟩, rfl, rfl, rfl, rfl, rfl,
     Or.inr ⟨by show [_] ≠ []; exact List.cons_ne_nil _ _, fun h => by cases h⟩⟩,
   ⟨offered .fclr [0] State.reset, ⟨rfl, rfl, rfl, rfl⟩, by decide⟩, ⟨offered .fclr [0] faulted, ⟨rfl, rfl, rfl, rfl⟩, rfl⟩⟩

theorem witness_StprReadsSlot :
    (∃ s : State, Offered .stpr 7 [64] [] s) ∧
    (∃ s : State, Offered .stpr 7 [63] [] s ∧ s.spe.slots[(63 : Slot)] = none) ∧
    ∃ (s : State) (p : ScanStep), Offered .stpr 7 [5] [] s ∧ s.spe.slots[(5 : Slot)] = some p :=
  ⟨⟨offered .stpr [64] ready, rfl, rfl, rfl, rfl⟩, ⟨offered .stpr [63] ready, ⟨rfl, rfl, rfl, rfl⟩, by decide⟩,
   ⟨offered .stpr [5] ready, plainStep, ⟨rfl, rfl, rfl, rfl⟩, by decide⟩⟩

theorem witness_SlotsAndMarksAreWritten :
    (∃ (s : State) (bs : List Byte), bs.length = 32 ∧ Offered .stpw 7 (64 :: bs) [] s) ∧
    (∃ (s : State) (bs : List Byte), bs.length = 32 ∧ Offered .stpw 7 (63 :: bs) [] s ∧ readStep bs = none) ∧
    (∃ (s : State) (bs : List Byte) (w : Written ScanStep) (a : ActiveStep), bs.length = 32 ∧
      Offered .stpw 7 (5 :: bs) [] s ∧ readStep bs = some w ∧ s.spe.active = some a ∧ a.slot = 5) ∧
    (∃ (s : State) (bs : List Byte) (w : Written ScanStep), bs.length = 32 ∧ Offered .stpw 7 (63 :: bs) [] s ∧
      readStep bs = some w ∧ s.spe.active = none ∧ s.spe.context = none) ∧
    (∃ s : State, Offered .btmk 7 [1, 1, if Mark.exclude = .exclude then 0 else 1] [] s ∧ s.bt.entries.length = 1) ∧
    ∃ (s : State) (e : BladeEntry), Offered .btmk 7 [1, 0, if Mark.include = .exclude then 0 else 1] [] s ∧
      s.bt.entries[0]? = some e :=
  ⟨⟨offered .stpw (64 :: stepWord) ready, stepWord, rfl, rfl, rfl, rfl, rfl⟩,
   ⟨offered .stpw (63 :: List.replicate 32 0) ready, List.replicate 32 0, rfl, ⟨rfl, rfl, rfl, rfl⟩, by decide⟩,
   ⟨offered .stpw (5 :: stepWord) halted, stepWord, ⟨plainStep, false⟩, ⟨5, plainStep, 12⟩, rfl, ⟨rfl, rfl, rfl, rfl⟩,
     by decide +kernel, rfl, rfl⟩,
   ⟨offered .stpw (63 :: stepWord) ready, stepWord, ⟨plainStep, false⟩, rfl, ⟨rfl, rfl, rfl, rfl⟩, by decide +kernel, rfl,
     rfl⟩,
   ⟨offered .btmk [1, 1, 0] ready, ⟨rfl, rfl, rfl, rfl⟩, rfl⟩, ⟨offered .btmk [1, 0, 1] ready, _, ⟨rfl, rfl, rfl, rfl⟩, rfl⟩⟩

theorem witness_IdntIdentifiesPart : ∃ s : State, Offered .idnt 7 [0] [] s :=
  ⟨offered .idnt [0] State.reset, rfl, rfl, rfl, rfl⟩

theorem witness_StatReportsState :
    (∃ s : State, Offered .stat 7 [0] [] s ∧ s.spe.latch = none) ∧
    ∃ (s : State) (r : FaultRecord), Offered .stat 7 [0] [] s ∧ s.spe.latch = some r :=
  ⟨⟨offered .stat [0] State.reset, ⟨rfl, rfl, rfl, rfl⟩, rfl⟩,
   ⟨offered .stat [0] faulted, _, ⟨rfl, rfl, rfl, rfl⟩, rfl⟩⟩

theorem witness_GetpReadsGroup :
    ∀ x ∈ [(0, 0), (1, 3), (2, 0), (3, 0), (1, 4), (4, 0)], ∃ s : State, Offered .getp 7 [x.1, x.2] [] s :=
  fun x _ => ⟨offered .getp [x.1, x.2] State.reset, rfl, rfl, rfl, rfl⟩

theorem witness_TablesAndCountersAreRead :
    (∃ s : State, Offered .btrd 7 [1, 0] [] s ∧ s.bt.entries.length = 1) ∧
    (∃ s : State, Offered .btrd 7 [0, 65] [] s ∧ s.bt.entries.length = 1 ∧ s.bt.params.limit ≤ 1048576) ∧
    (∃ s : State, Offered .mprd 7 [0] [] s) ∧
    ∀ x ∈ [(0, 3), (0, 4), (1, 0), (2, 0), (3, 0), (4, 0), (5, 0)], ∃ s : State, Offered .cntr 7 [x.1, x.2, 1] [] s :=
  ⟨⟨offered .btrd [1, 0] ready, ⟨rfl, rfl, rfl, rfl⟩, rfl⟩,
   ⟨offered .btrd [0, 65] ready, ⟨rfl, rfl, rfl, rfl⟩, rfl, by decide⟩,
   ⟨offered .mprd [0] State.reset, rfl, rfl, rfl, rfl⟩,
   fun x _ => ⟨offered .cntr [x.1, x.2, 1] State.reset, rfl, rfl, rfl, rfl⟩⟩

theorem witness_SetpWritesEncoderAndHead :
    (∀ g ∈ [(0, 16), (0, 17), (1, 26), (1, 27)], ∀ st ∈ [PlanState.idle, .armed], ∃ (s : State) (args : List Byte),
      Offered .setp 7 (g.1 :: 3 :: args) [] s ∧ args.length = g.2 ∧ s.spe.state = st) ∧
    ∃ (s : State) (args : List Byte), Offered .setp 7 (1 :: 4 :: args) [] s ∧ args.length = 27 := by
  refine ⟨fun g _ st _ => ?_, ?_⟩
  · exact ⟨offered .setp (g.1 :: 3 :: List.replicate g.2 0) { State.reset with spe := { ScanPlan.reset with state := st } },
      List.replicate g.2 0, ⟨rfl, rfl, rfl, rfl⟩, List.length_replicate, rfl⟩
  · exact ⟨offered .setp (1 :: 4 :: List.replicate 27 0) State.reset, List.replicate 27 0, ⟨rfl, rfl, rfl, rfl⟩, rfl⟩

/-- Arguments of a SETP of the TRACK group that name the limit and write 4,000, guard 0 and K_miss 1. -/
def trackArgs (mask : Nat) : List Byte := natBytes 2 mask ++ natBytes 4 4000 ++ natBytes 4 0 ++ [1]

/-- Arguments of a SETP of the PLAN group with every field named: 100 ms, slot 63, every policy STOP_NOW. -/
def planArgs : List Byte := natBytes 2 0x3FF ++ natBytes 4 100 ++ [63] ++ List.replicate 8 2

theorem test_setp_track_clamps_offsets :
    let s := withBlades [{ blade 90 5300000 250000 with offset := -5000 }] State.reset
    let t := after .setpTrack (offered .setp (2 :: 0 :: trackArgs 1) s)
    (t.bt.entries.map fun e => (e.offset, e.state), t.bt.gen, t.lp.notices, t.lp.reply.map (·.status)) =
      ([(-4000, .displaced)], 18, [.bladeChanged 0 90 .active .displaced .limit (-4000) 0 18], some .ok) := by
  decide +kernel

theorem test_setp_plan_clamps_policies :
    let args := natBytes 2 0x3FF ++ natBytes 4 99 ++ [64, 0, 1, 2, 3, 255, 0, 1, 0]
    let t := after .setpPlan (offered .setp (3 :: 0 :: args) State.reset)
    (t.spe.params.armTimeout, t.spe.params.interjectSlot, t.spe.params.policies.toList, t.lp.reply.map (·.status)) =
      (100, 63, [.report, .haltAtStepEnd, .stopNow, .stopNow, .stopNow, .report, .haltAtStepEnd, .stopNow],
       some .clamped) := by decide +kernel

theorem witness_SetpWritesTrackAndPlan :
    (∀ x ∈ [(0, PlanState.armed, 5000), (1, .armed, 5000), (1, .idle, 5000), (1, .idle, 0)], ∃ (s : State) (args : List Byte),
      Offered .setp 7 (2 :: 0 :: args) [] s ∧ args.length = 11 ∧ natAt (args.drop 2) 0 4 = 4000 ∧
      natAt (args.drop 2) 8 1 = 1 ∧ (natAt args 0 2).testBit 0 = (x.1 == 1) ∧
      s.spe.state = x.2.1 ∧ natAt (args.drop 2) 0 4 ≠ s.bt.params.limit ∧
      (∃ e ∈ s.bt.entries, e.offset.natAbs = x.2.2) ∧ s.bt.entries.length = 1 ∧ s.lp.notices = []) ∧
    ∃ (s : State) (args : List Byte), Offered .setp 7 (3 :: 0 :: args) [] s ∧ args.length = 15 := by
  let table (o : Int) (st : PlanState) (mask : Nat) : State :=
    offered .setp (2 :: 0 :: trackArgs mask)
      (withBlades [{ blade 90 5300000 250000 with offset := o }]
        { State.reset with spe := { ScanPlan.reset with state := st } })
  refine ⟨fun x hx => ?_, ⟨offered .setp (3 :: 0 :: planArgs) State.reset, planArgs, ⟨rfl, rfl, rfl, rfl⟩, by decide⟩⟩
  simp only [List.mem_cons, List.not_mem_nil, or_false] at hx
  rcases hx with rfl | rfl | rfl | rfl
  · exact ⟨table (-5000) .armed 0, trackArgs 0, ⟨rfl, rfl, rfl, rfl⟩, by decide⟩
  · exact ⟨table (-5000) .armed 1, trackArgs 1, ⟨rfl, rfl, rfl, rfl⟩, by decide⟩
  · exact ⟨table (-5000) .idle 1, trackArgs 1, ⟨rfl, rfl, rfl, rfl⟩, by decide⟩
  · exact ⟨table 0 .idle 1, trackArgs 1, ⟨rfl, rfl, rfl, rfl⟩, by decide⟩

theorem witness_TablesAreLoadedInIdle :
    (∀ ls ∈ [[], [BladeLoad.mk 1 0 1000, ⟨2, 1000, 1000⟩], [⟨1, 0, 1000⟩, ⟨2, 999, 1000⟩]], ∀ st ∈ [PlanState.idle, .armed],
      ∃ s : State, ls.length < 256 ∧ (∀ l ∈ ls, l.id < 65536 ∧ l.nominal < 4294967296 ∧ l.width < 16777216) ∧
        s.spe.state = st ∧ Offered .btld 7 (natBytes 1 ls.length ++
          ls.flatMap fun l => natBytes 2 l.id ++ natBytes 4 l.nominal ++ natBytes 3 l.width) [] s) ∧
    (∀ r ∈ [0, 1, 8000000, 8000001], ∃ (s : State) (bins : Vector Int 256), r < 4294967296 ∧
      (∀ k : Fin 256, -32768 ≤ bins[k] ∧ bins[k] ≤ 32767) ∧ s.spe.state = .idle ∧
      Offered .mpld 7 (natBytes 4 r ++ bins.toList.flatMap (intBytes 2)) [] s) ∧
    ∀ st ∈ [PlanState.idle, .armed], ∃ s : State, s.spe.state = st ∧ Offered .mpcl 7 [0] [] s := by
  let inState (st : PlanState) : State := { State.reset with spe := { ScanPlan.reset with state := st } }
  refine ⟨fun ls hls st _ => ?_, fun r hr => ?_, fun st _ => ⟨offered .mpcl [0] (inState st), rfl, rfl, rfl, rfl, rfl⟩⟩
  · refine ⟨offered .btld _ (inState st), ?_, ?_, rfl, rfl, rfl, rfl, rfl⟩
    · simp only [List.mem_cons, List.not_mem_nil, or_false] at hls
      rcases hls with rfl | rfl | rfl <;> decide
    · simp only [List.mem_cons, List.not_mem_nil, or_false] at hls
      rcases hls with rfl | rfl | rfl <;> decide
  · refine ⟨offered .mpld _ (inState .idle), Vector.replicate 256 (-32768), ?_, ?_, rfl, rfl, rfl, rfl, rfl⟩
    · simp only [List.mem_cons, List.not_mem_nil, or_false] at hr
      rcases hr with rfl | rfl | rfl | rfl <;> decide
    · intro k; simp

theorem witness_GrantsUnknownsAndResets :
    (∀ x ∈ [(0, 0), (15, 0), (15, 1)], ∃ (s : State) (hi lo : Byte), Offered .grnt 7 [hi, lo] [] s ∧
      (hi.toNat, lo.toNat) = x ∧ s.rs.credits = 255) ∧
    (∃ (s : State) (body : List Byte), s.resetHeld = false ∧ s.lp.reply = none ∧ s.lp.resetMark = false ∧
      s.lp.queue = [⟨7, body⟩] ∧ ∀ k : Keyword, keywordBytes k ≠ body.take 4) ∧
    ∃ (s : State) (rest : List HostCommand), Offered .rset 7 [0] rest s ∧ rest.length = 3 := by
  refine ⟨fun x hx => ?_, ?_, ?_⟩
  · simp only [List.mem_cons, List.not_mem_nil, or_false] at hx
    let s (args : List Byte) : State :=
      offered .grnt args { State.reset with rs := { RecordStore.reset with credits := 255 } }
    rcases hx with rfl | rfl | rfl
    · exact ⟨s [0, 0], 0, 0, ⟨rfl, rfl, rfl, rfl⟩, rfl, rfl⟩
    · exact ⟨s [15, 0], 15, 0, ⟨rfl, rfl, rfl, rfl⟩, rfl, rfl⟩
    · exact ⟨s [15, 1], 15, 1, ⟨rfl, rfl, rfl, rfl⟩, rfl, rfl⟩
  · refine ⟨{ State.reset with lp := { LinkPort.reset with queue := [⟨7, [0, 0, 0, 0, 0]⟩] } }, _, rfl, rfl, rfl, rfl, ?_⟩
    intro k; cases k <;> decide
  · exact ⟨{ State.reset with lp := { LinkPort.reset with
        queue := ⟨7, keywordBytes .rset ++ [0]⟩ :: List.replicate 3 ⟨1, keywordBytes .stat ++ [0]⟩ } },
      List.replicate 3 ⟨1, keywordBytes .stat ++ [0]⟩, ⟨rfl, rfl, rfl, rfl⟩, rfl⟩

theorem witness_LinesAreAssignedAndWritten :
    (∀ x ∈ [(8, 0, 0), (7, 16, 0), (7, 15, 2)], ∃ (s : State) (n f p : Byte), Offered .axas 7 [n, f, p] [] s ∧
      (n.toNat, f.toNat, p.toNat) = x) ∧
    (∃ (s : State) (n f p : Byte) (i : Fin 8) (fn : AuxFunction), Offered .axas 7 [n, f, p] [] s ∧ n.toNat = i.val ∧
      f.toNat = auxFunctionCode fn ∧ p.toNat < 2 ∧ s.spe.state ≠ .settling) ∧
    ∃ s : State, Offered .axwr 7 [255, 254] [] s := by
  refine ⟨fun x hx => ?_, ⟨offered .axas [7, 15, 1] State.reset, 7, 15, 1, 7, .settlingOut, ⟨rfl, rfl, rfl, rfl⟩, rfl,
    by decide, by decide, by decide⟩, ⟨offered .axwr [255, 254] State.reset, rfl, rfl, rfl, rfl⟩⟩
  simp only [List.mem_cons, List.not_mem_nil, or_false] at hx
  rcases hx with rfl | rfl | rfl
  · exact ⟨offered .axas [8, 0, 0] State.reset, 8, 0, 0, ⟨rfl, rfl, rfl, rfl⟩, rfl⟩
  · exact ⟨offered .axas [7, 16, 0] State.reset, 7, 16, 0, ⟨rfl, rfl, rfl, rfl⟩, rfl⟩
  · exact ⟨offered .axas [7, 15, 2] State.reset, 7, 15, 2, ⟨rfl, rfl, rfl, rfl⟩, rfl⟩

/-- Line 3 holds a function, active high and low outside. -/
def oneLine (f : AuxFunction) (s : State) : State :=
  { s with ax := { s.ax with lines := s.ax.lines.set 3 ⟨f, false, false⟩ } }

theorem witness_LineChangesMakeEdges :
    (∃ s : State, s.resetHeld = false ∧ s.ax.lines[3].function = .generalIn) ∧
    (∃ s : State, s.resetHeld = false ∧ s.ax.lines[2].function = .stopIn ∧ s.ax.lines[5].function = .stopIn ∧
      s.ax.lines[5].outside ≠ s.ax.lines[5].activeLow) ∧
    (∃ s : State, s.resetHeld = false ∧ s.ax.lines[3].function = .inposIn ∧ s.spe.state ≠ .settling) ∧
    (∃ s : State, s.resetHeld = false ∧ s.ax.lines[3].function = .stopIn ∧ s.spe.state = .idle) ∧
    (∀ f ∈ [AuxFunction.radialHomeIn, .interjectIn, .stopIn, .indexIn], ∃ s : State, s.resetHeld = false ∧
      s.ax.lines[3].function = f ∧ (s.ax.lines[3].outside = s.ax.lines[3].activeLow ∧ true ≠ s.ax.lines[3].activeLow ∧
        ∀ j : Fin 8, j ≠ 3 → s.ax.lines[j].function = s.ax.lines[3].function →
          s.ax.lines[j].outside = s.ax.lines[j].activeLow) ∧ s.spe.interjection = .none ∧ s.spe.active ≠ none ∧
      takingSamples s.spe.state ∧ s.spe.state ≠ .settling ∧ s.spe.state ≠ .acquiring ∧ s.spe.state ≠ .idle ∧
      s.spe.state ≠ .faulted ∧ s.spe.latch = none ∧ s.lp.notices.length < 32) ∧
    ∀ e ∈ [Encoder.reset, { Encoder.reset with direction := .reverse },
        { Encoder.reset with referenced := true, count := 131071 }], ∃ s : State, s.resetHeld = false ∧ s.eu = e ∧
      s.ax.lines[3].function = .indexIn ∧ s.spe.state ≠ .settling ∧ s.spe.state ≠ .tail ∧
      2 * s.eu.count < s.eu.params.counts ∧ s.lp.notices.length < 32 ∧
      (s.ax.lines[3].outside = s.ax.lines[3].activeLow ∧ true ≠ s.ax.lines[3].activeLow ∧
        ∀ j : Fin 8, j ≠ 3 → s.ax.lines[j].function ≠ .indexIn) := by
  refine ⟨⟨State.reset, by decide⟩, ⟨stopLines true, by decide⟩, ⟨oneLine .inposIn State.reset, by decide⟩,
    ⟨oneLine .stopIn State.reset, by decide⟩, fun f hf => ?_, fun e he => ?_⟩
  · simp only [List.mem_cons, List.not_mem_nil, or_false] at hf
    rcases hf with rfl | rfl | rfl | rfl
    · exact ⟨oneLine .radialHomeIn (running .tail plainStep), by unfold takingSamples; decide⟩
    · exact ⟨oneLine .interjectIn (running .tail plainStep), by unfold takingSamples; decide⟩
    · exact ⟨oneLine .stopIn (running .tail plainStep), by unfold takingSamples; decide⟩
    · exact ⟨oneLine .indexIn (running .tail plainStep), by unfold takingSamples; decide⟩
  · refine ⟨withEncoder (fun _ => e) (oneLine .indexIn State.reset), rfl, rfl, rfl, by show PlanState.idle ≠ .settling; decide,
      by show PlanState.idle ≠ .tail; decide, ?_, by show 0 < 32; decide, rfl, by show true ≠ false; decide, ?_⟩
    · simp only [List.mem_cons, List.not_mem_nil, or_false] at he
      rcases he with rfl | rfl | rfl <;> decide
    · show ∀ j : Fin 8, j ≠ 3 → (oneLine .indexIn State.reset).ax.lines[j].function ≠ .indexIn
      decide

end Sys2Proof.Tests
end

