-- ==== Sys2Proof/Proofs/RecordFrames.lean ====
section
/-! PROOF. The data frames that carry a record (R154). -/

open Sys2Proof Sys2Proof.Machine

namespace Sys2Proof.Proofs

/-! ## How many frames a record needs -/

theorem framesNeeded_of_fits {r : SectionRecord} (h : r.withheld = true ∨ r.pointCount ≤ 240) :
    framesNeeded r = 1 := if_pos h

theorem framesNeeded_of_exceeds {r : SectionRecord} (hw : r.withheld = false) (hc : 240 < r.pointCount) :
    framesNeeded r = (r.pointCount + 239) / 240 := by
  have hnot : ¬ (r.withheld = true ∨ r.pointCount ≤ 240) := by simp [hw, hc]
  exact if_neg hnot

theorem framesOf_of_fits (number : Id16) {r : SectionRecord} (h : r.withheld = true ∨ r.pointCount ≤ 240) :
    framesOf number r = [wholeFrame number r r.points] := if_pos (framesNeeded_of_fits h)

theorem framesOf_of_exceeds (number : Id16) {r : SectionRecord} (hw : r.withheld = false)
    (hc : 240 < r.pointCount) :
    framesOf number r =
      splitFrames number r ((r.pointCount + 239) / 240) ((r.pointCount + 239) / 240) 0 r.points := by
  have hneeded := framesNeeded_of_exceeds hw hc
  have hseveral : framesNeeded r ≠ 1 := by omega
  rw [framesOf, if_neg hseveral, hneeded]

/-! ## The frames of a record of several frames -/

/-- Frame `i` of the `n` frames of a record, carrying the first 240 of the points that are left. -/
def partFrame (number : Id16) (r : SectionRecord) (n i : Nat) (ps : List Point) : DataFrame where
  number := number
  kind := if i = 0 then .first else if i + 1 = n then .last else .middle
  index := i
  header := if i = 0 then some { r with points := [] } else none
  points := ps.take 240

section
variable (number : Id16) (r : SectionRecord) (n : Nat)

@[simp] theorem splitFrames_zero (i : Nat) (ps : List Point) : splitFrames number r n 0 i ps = [] := rfl

@[simp] theorem splitFrames_succ (left i : Nat) (ps : List Point) :
    splitFrames number r n (left + 1) i ps =
      partFrame number r n i ps :: splitFrames number r n left (i + 1) (ps.drop 240) := rfl

@[simp] theorem length_splitFrames (left i : Nat) (ps : List Point) :
    (splitFrames number r n left i ps).length = left := by
  induction left generalizing i ps with
  | zero => rfl
  | succ left ih => simp [ih]

/-- Frame `k` of the sequence starts after the 240 points of each frame before it. -/
theorem getElem?_splitFrames (left i k : Nat) (ps : List Point) (hk : k < left) :
    (splitFrames number r n left i ps)[k]? = some (partFrame number r n (i + k) (ps.drop (240 * k))) := by
  induction left generalizing i k ps with
  | zero => exact absurd hk k.not_lt_zero
  | succ left ih =>
    cases k with
    | zero => simp
    | succ k =>
      have hindex : i + 1 + k = i + (k + 1) := by omega
      have hskipped : 240 + 240 * k = 240 * (k + 1) := by omega
      rw [splitFrames_succ, List.getElem?_cons_succ, ih _ _ _ (by omega), List.drop_drop, hindex, hskipped]

theorem flatMap_points_splitFrames (left i : Nat) (ps : List Point) :
    (splitFrames number r n left i ps).flatMap (·.points) = ps.take (240 * left) := by
  induction left generalizing i ps with
  | zero => simp
  | succ left ih =>
    have htaken : 240 * (left + 1) = 240 + 240 * left := by omega
    rw [splitFrames_succ, List.flatMap_cons, ih, htaken, List.take_add]
    rfl

end

/-! ## The obligation -/

/-- Settles O37: a record that fits one frame is its WHOLE frame, and of a longer one the frames are told by the
lemmas about `splitFrames`; the count rounded up covers every point and leaves no frame empty. -/
theorem framesOfRecord : Obligations.FramesOfRecord := by
  intro number r hcount
  refine ⟨framesOf_of_fits number, fun hw hc => ?_⟩
  have hpoints := hcount hw
  simp only [framesOf_of_exceeds number hw hc, length_splitFrames, flatMap_points_splitFrames]
  refine ⟨trivial, by omega, List.take_of_length_le (by omega), fun i f hf => ?_⟩
  have hi : i < (r.pointCount + 239) / 240 := by
    simpa using (List.getElem?_eq_some_iff.mp hf).1
  obtain rfl : partFrame number r _ i (r.points.drop (240 * i)) = f := by
    simpa [getElem?_splitFrames _ _ _ _ _ _ _ hi] using hf
  have hnonempty : 1 ≤ ((r.points.drop (240 * i)).take 240).length := by
    rw [List.length_take, List.length_drop]
    omega
  exact ⟨rfl, rfl, rfl, rfl, rfl, hnonempty⟩

end Sys2Proof.Proofs
end

