-- ==== Sys2Proof/Proofs/IdentityAndGroups.lean ====
section
/-! PROOF. The host commands that only read: the identity of the part (R170) and the parameter groups (R173). -/

open Sys2Proof Sys2Proof.Machine

namespace Sys2Proof.Proofs

/-! ## Commands that only read -/

/-- A command of the right length whose execution leaves the state it finds is answered in the reply slot, and nothing
else changes. -/
theorem hostCommand_of_reads {k : Keyword} {tag : Byte} {args : List Byte} {rest : List HostCommand} {s : State}
    {n : Nat} {f : List Byte → State → Executed} {st : Status} {d : List Byte} (ho : Offered k tag args rest s)
    (hlen : args.length = n)
    (hf : f args (onLink (fun l => { l with queue := rest }) s) =
      ⟨st, d, onLink (fun l => { l with queue := rest }) s⟩) :
    hostCommand k (withLength n f) s = .next (replied k tag st d rest s) := by
  simp only [hostCommand_offered _ ho, withLength, if_pos hlen, hf]
  rfl

/-! ## IDNT (R170) -/

theorem exec_idnt (s : State) : exec .idnt s = execIdnt s := rfl

theorem identityBytes_eq :
    identityBytes = ascii "Bramidor".toList ++ ascii "Orsuna 740".toList ++ [1] ++
      [4, 128, 64, 256, 512, 1024, 16, 256, 4, 32, 8, 2048].flatMap (natBytes 2) := by
  decide

/-- Settles O51: IDNT only reads, and the identity it reads does not depend on the state. -/
theorem idntIdentifiesPart : Obligations.IdntIdentifiesPart := by
  intro s tag b rest ho
  rw [exec_idnt, execIdnt, ← identityBytes_eq]
  exact hostCommand_of_reads ho rfl rfl

/-! ## Single bytes -/

theorem natAt_zero_one (b : Byte) (bs : List Byte) : natAt (b :: bs) 0 1 = b.toNat := by
  simp [natAt, bytesAt, beNat]

theorem natAt_cons_succ (b : Byte) (bs : List Byte) (off len : Nat) :
    natAt (b :: bs) (off + 1) len = natAt bs off len := rfl

theorem natBytes_one_facingCode (f : Facing) : natBytes 1 (facingCode f) = [if f = .down then 0 else 1] := by
  cases f <;> rfl

theorem natBytes_one_silenceCode (p : SilencePolicy) :
    natBytes 1 (silenceCode p) = [if p = .mark then 0 else if p = .ignore then 1 else 2] := by
  cases p <;> rfl

theorem natBytes_one_policyCode (q : Policy) :
    natBytes 1 (policyCode q) = [if q = .report then 0 else if q = .haltAtStepEnd then 1 else 2] := by
  cases q <;> rfl

/-! ## The group that GETP names (13.4) -/

theorem groupOf_head (h : Head) : groupOf 1 (headNum h) = some (.head h) := by
  cases h <;> rfl

theorem headOfNat_eq_none {n : Nat} (h : 3 < n) : headOfNat n = none := by
  refine Option.eq_none_iff_forall_ne_some.mpr fun x hx => ?_
  have hnum := headOfNat_eq_some.mp hx
  cases x <;> simp only [headNum] at hnum <;> omega

/-- No group is named by a code above 3, nor by the code of the HEAD groups with a head byte above 3. -/
theorem groupOf_eq_none {code head : Nat} (h : 3 < code ∨ code = 1 ∧ 3 < head) : groupOf code head = none := by
  rcases h with hcode | ⟨rfl, hhead⟩
  · obtain ⟨k, rfl⟩ := Nat.exists_eq_add_of_lt hcode
    rw [show 3 + k + 1 = k + 4 by omega]
    rfl
  · simp only [groupOf, headOfNat_eq_none hhead, Option.map_none]

/-! ## What GETP answers (R173) -/

theorem exec_getp (s : State) : exec .getp s = execGetp s := rfl

/-- The parameter groups stand outside the link port. -/
theorem groupBytes_onLink (g : Group) (f : LinkPort → LinkPort) (s : State) :
    groupBytes g (onLink f s) = groupBytes g s := by
  cases g <;> rfl

theorem readGroup_of_some {g n : Byte} {x : Group} (s : State) (h : groupOf g.toNat n.toNat = some x) :
    readGroup [g, n] s = done (groupBytes x s) s := by
  simp only [readGroup, natAt_cons_succ, natAt_zero_one, h]

theorem readGroup_of_none {g n : Byte} (s : State) (h : groupOf g.toNat n.toNat = none) :
    readGroup [g, n] s = refuse .invalid s := by
  simp only [readGroup, natAt_cons_succ, natAt_zero_one, h]

section
variable {s : State} {tag g n : Byte} {rest : List HostCommand}

theorem exec_getp_of_some {x : Group} (ho : Offered .getp tag [g, n] rest s)
    (h : groupOf g.toNat n.toNat = some x) :
    exec .getp s = .next (replied .getp tag .ok (groupBytes x s) rest s) := by
  rw [exec_getp, execGetp]
  refine hostCommand_of_reads ho rfl ?_
  rw [readGroup_of_some _ h, groupBytes_onLink]
  rfl

theorem exec_getp_of_none (ho : Offered .getp tag [g, n] rest s) (h : groupOf g.toNat n.toNat = none) :
    exec .getp s = .next (replied .getp tag .invalid [] rest s) := by
  rw [exec_getp, execGetp]
  exact hostCommand_of_reads ho rfl (readGroup_of_none _ h)

end

/-! ## The bytes of the coded groups (13.4) -/

theorem headBytes_eq (p : HeadParams) (seq : Seq) :
    headBytes p seq = [if p.facing = .down then 0 else 1] ++ intBytes 4 p.reference ++ natBytes 4 p.latency ++
      natBytes 4 p.azimuth.toNat ++ natBytes 4 p.minSpacing ++ natBytes 4 p.timeout ++
      [if p.policy = .mark then 0 else if p.policy = .ignore then 1 else 2] ++ natBytes 1 p.priority ++
      natBytes 2 seq.toNat := by
  rw [headBytes, natBytes_one_facingCode, natBytes_one_silenceCode]

theorem planBytes_eq (p : PlanParams) :
    planBytes p = natBytes 4 p.armTimeout ++ natBytes 1 p.interjectSlot.val ++
      p.policies.toList.map fun q => if q = .report then 0 else if q = .haltAtStepEnd then 1 else 2 := by
  simp only [planBytes, natBytes_one_policyCode]
  rw [List.map_eq_flatMap]

/-! ## The obligation -/

/-- Settles O53: the codes and the head byte name a group, which GETP reads, or none, which it refuses; either way
it leaves the state it finds. -/
theorem getpReadsGroup : Obligations.GetpReadsGroup := by
  intro s tag g n rest ho
  refine ⟨?encoder, ?head, ?track, ?plan, ?unnamed⟩
  case encoder =>
    rintro rfl
    exact exec_getp_of_some ho rfl
  case head =>
    rintro h rfl hn
    have hgroup : groupOf (1 : Byte).toNat n.toNat = some (.head h) := by rw [hn]; exact groupOf_head h
    simpa only [groupBytes, headBytes_eq] using exec_getp_of_some ho hgroup
  case track =>
    rintro rfl
    exact exec_getp_of_some ho rfl
  case plan =>
    rintro rfl
    simpa only [groupBytes, planBytes_eq] using exec_getp_of_some ho (x := .plan) rfl
  case unnamed =>
    intro hunnamed
    refine exec_getp_of_none ho (groupOf_eq_none (hunnamed.imp_right ?_))
    rintro ⟨rfl, hhead⟩
    exact ⟨rfl, hhead⟩

end Sys2Proof.Proofs
end

