-- ==== Sys2Proof/Proofs/Bytes.lean ====
section
/-! PROOF. Fields of bytes: what is written in a field is read back from it (R187). -/

open Sys2Proof Sys2Proof.Machine

namespace Sys2Proof.Proofs

/-! ## Unsigned fields -/

@[simp] theorem length_natBytes (n v : Nat) : (natBytes n v).length = n := by
  induction n with
  | zero => rfl
  | succ n ih => simp [natBytes, ih]

theorem foldl_be (bs : List Byte) (v : Nat) :
    bs.foldl (fun v b => v * 256 + b.toNat) v = v * 256 ^ bs.length + beNat bs := by
  induction bs generalizing v with
  | nil => simp [beNat]
  | cons b bs ih =>
    rw [beNat, List.foldl_cons, List.foldl_cons, ih, ih (0 * 256 + b.toNat), List.length_cons, Nat.pow_succ]
    ring

theorem beNat_cons (b : Byte) (bs : List Byte) : beNat (b :: bs) = b.toNat * 256 ^ bs.length + beNat bs := by
  rw [beNat, List.foldl_cons, foldl_be]
  ring

theorem beNat_append (xs ys : List Byte) : beNat (xs ++ ys) = beNat xs * 256 ^ ys.length + beNat ys := by
  rw [beNat, List.foldl_append, foldl_be]
  rfl

theorem beNat_lt (bs : List Byte) : beNat bs < 256 ^ bs.length := by
  induction bs with
  | nil => exact Nat.one_pos
  | cons b bs ih =>
    rw [beNat_cons, List.length_cons, Nat.pow_succ]
    have := b.isLt
    nlinarith

/-- The low bytes of a value are read as what is left of it. -/
theorem beNat_natBytes (n v : Nat) : beNat (natBytes n v) = v % 256 ^ n := by
  induction n with
  | zero => simp [natBytes, beNat, Nat.mod_one]
  | succ n ih =>
    have hsplit : v % 256 ^ (n + 1) = v % 256 ^ n + 256 ^ n * (v / 256 ^ n % 256) := Nat.mod_mul
    rw [natBytes, beNat_cons, ih, length_natBytes, BitVec.toNat_ofNat, hsplit]
    ring

theorem beNat_natBytes_of_lt {n v : Nat} (h : v < 256 ^ n) : beNat (natBytes n v) = v := by
  rw [beNat_natBytes, Nat.mod_eq_of_lt h]

/-- The bytes of a list are the bytes of the value they give. -/
theorem natBytes_beNat (bs : List Byte) : natBytes bs.length (beNat bs) = bs := by
  induction bs with
  | nil => rfl
  | cons b bs ih =>
    have hlt := beNat_lt bs
    have hhigh : beNat (b :: bs) / 256 ^ bs.length = b.toNat := by
      rw [beNat_cons, Nat.mul_comm, Nat.mul_add_div (by positivity), Nat.div_eq_of_lt hlt, Nat.add_zero]
    have hlow (n : Nat) (k v : Nat) (hn : n ≤ k) : natBytes n (v % 256 ^ k) = natBytes n v := by
      induction n with
      | zero => rfl
      | succ n ihn =>
        rw [natBytes, natBytes, ihn (by omega)]
        congr 1
        apply BitVec.eq_of_toNat_eq
        rw [BitVec.toNat_ofNat, BitVec.toNat_ofNat, show k = n + 1 + (k - (n + 1)) by omega, Nat.pow_add]
        rw [show (2 : Nat) ^ 8 = 256 by rfl, Nat.pow_succ, Nat.mul_assoc, Nat.mod_mul_right_div_self,
          Nat.mod_mul_right_mod]
    have hrest : natBytes bs.length (beNat (b :: bs)) = bs := by
      rw [← hlow bs.length bs.length _ le_rfl, beNat_cons, Nat.mul_comm, Nat.mul_add_mod, Nat.mod_eq_of_lt hlt, ih]
    rw [List.length_cons, natBytes, hhigh, hrest, BitVec.ofNat_toNat, BitVec.setWidth_eq]

/-! ## Fields at their offsets -/

theorem natAt_lt (bs : List Byte) (off len : Nat) : natAt bs off len < 256 ^ len :=
  (beNat_lt _).trans_le (Nat.pow_le_pow_right (by decide) (List.length_take_le _ _))

theorem bytesAt_append_of_le {xs ys : List Byte} {off len : Nat} (h : xs.length ≤ off) :
    bytesAt (xs ++ ys) off len = bytesAt ys (off - xs.length) len := by
  rw [bytesAt, bytesAt, List.drop_append, List.drop_eq_nil_of_le h, List.nil_append]

theorem bytesAt_append_of_ge {xs ys : List Byte} {off len : Nat} (h : off + len ≤ xs.length) :
    bytesAt (xs ++ ys) off len = bytesAt xs off len := by
  rw [bytesAt, bytesAt, List.drop_append_of_le_length (by omega), List.take_append_of_le_length]
  rw [List.length_drop]
  omega

theorem natAt_append_of_le {xs ys : List Byte} {off len : Nat} (h : xs.length ≤ off) :
    natAt (xs ++ ys) off len = natAt ys (off - xs.length) len := by
  rw [natAt, bytesAt_append_of_le h, natAt]

theorem natAt_append_of_ge {xs ys : List Byte} {off len : Nat} (h : off + len ≤ xs.length) :
    natAt (xs ++ ys) off len = natAt xs off len := by
  rw [natAt, bytesAt_append_of_ge h, natAt]

/-- A whole list is its field at 0. -/
theorem bytesAt_all (bs : List Byte) : bytesAt bs 0 bs.length = bs := by
  rw [bytesAt, List.drop_zero, List.take_length]

theorem natAt_natBytes (n v : Nat) : natAt (natBytes n v) 0 n = v % 256 ^ n := by
  have h := bytesAt_all (natBytes n v)
  rw [length_natBytes] at h
  rw [natAt, h, beNat_natBytes]

theorem natAt_singleton (b : Byte) : natAt [b] 0 1 = b.toNat := by
  simp [natAt, bytesAt, beNat]

@[simp] theorem length_boolByte (b : Bool) : (boolByte b).length = 1 := by cases b <;> rfl

theorem natAt_boolByte (b : Bool) : natAt (boolByte b) 0 1 = b.toNat := by cases b <;> rfl

@[simp] theorem length_slotByte (p : Option Slot) : (slotByte p).length = 1 := by cases p <;> rfl

theorem natAt_slotByte (p : Option Slot) : natAt (slotByte p) 0 1 = p.elim 255 (·.val) := by
  cases p with
  | none => rfl
  | some i =>
    have hi := i.isLt
    rw [slotByte, natAt_natBytes]
    exact Nat.mod_eq_of_lt (by omega)

end Sys2Proof.Proofs
end

