-- ==== Sys2Proof/Proofs/StoredSteps.lean ====
section
/-! PROOF. The 32 bytes of a step (13.4): a stored step is read back from them (R107), and what they give when they are
read is in its ranges or nothing (R108). -/

open Sys2Proof Sys2Proof.Machine

namespace Sys2Proof.Proofs

/-! ## The codes of a step's fields -/

theorem headOfNat_headNum (h : Head) : headOfNat (headNum h) = some h := headOfNat_eq_some.2 rfl

theorem readNext_elim (n : Option Slot) : readNext (n.elim 255 (·.val)) = some n := by
  cases n with
  | none => rfl
  | some i =>
    have hi := i.isLt
    have hslot : slotOfNat i.val = some i := slotOfNat_eq_some.2 rfl
    rw [Option.elim_some, readNext, if_neg (by omega), hslot]
    rfl

theorem readNext_eq_some {n : Nat} {next : Option Slot} : readNext n = some next ↔ n = next.elim 255 (·.val) := by
  constructor
  · intro h
    unfold readNext at h
    split at h
    · cases h; assumption
    · obtain ⟨i, hi, rfl⟩ := Option.map_eq_some_iff.1 h
      exact slotOfNat_eq_some.1 hi
  · rintro rfl
    exact readNext_elim next

theorem readNext_eq_none {n : Nat} : readNext n = none ↔ 63 < n ∧ n ≠ 255 := by
  unfold readNext slotOfNat
  split
  · simp only [reduceCtorEq, false_iff]; omega
  · split
    · simp only [Option.map_some, reduceCtorEq, false_iff]; omega
    · simp only [Option.map_none, true_iff]; omega

theorem headOfNat_eq_none_iff {n : Nat} : headOfNat n = none ↔ 3 < n := by
  refine ⟨fun h => ?_, headOfNat_eq_none⟩
  by_contra hle
  obtain rfl | rfl | rfl | rfl : n = 0 ∨ n = 1 ∨ n = 2 ∨ n = 3 := by omega
  all_goals cases h

theorem maskOf_maskByte (m : PerHead Bool) : maskOf (maskByte m) = m := by
  obtain ⟨a, b, c, d⟩ := m
  revert a b c d
  decide

theorem stepFlagsOf_stepFlagsByte (f : StepFlags) : stepFlagsOf (stepFlagsByte f) = f := by
  obtain ⟨a, b, c, d, e, g, h⟩ := f
  revert a b c d e g h
  decide

theorem maskByte_lt (m : PerHead Bool) : maskByte m < 256 := by
  obtain ⟨a, b, c, d⟩ := m
  revert a b c d
  decide

theorem stepFlagsByte_lt (f : StepFlags) : stepFlagsByte f < 256 := by
  obtain ⟨a, b, c, d, e, g, h⟩ := f
  revert a b c d e g h
  decide

theorem get_maskOf (n : Nat) (h : Head) : (maskOf n).get h = n.testBit (headNum h) := by cases h <;> rfl

theorem clampNat_of_mem {lo hi x : Nat} (hlo : lo ≤ x) (hhi : x ≤ hi) : clampNat lo hi x = x := by
  rw [clampNat, Nat.min_eq_right hhi, Nat.max_eq_right hlo]

/-- The trigger mode of a code and a spacing (R107, R108). -/
theorem readMode_modeFields {m : TriggerMode} (h : modeInRange m) :
    readMode (modeFields m).1 (modeFields m).2 = some ⟨m, false⟩ := by
  cases m <;> simp [readMode, modeFields, clampNat_of_mem h.1 h.2]

theorem readMode_eq_none {code spacing : Nat} : readMode code spacing = none ↔ 1 < code := by
  rcases code with _ | _ | code
  · simp [readMode]
  · simp [readMode]
  · simp [readMode]

/-- The nearest spacing in the range of the code's mode (R107, R108). -/
theorem readMode_eq_some {code spacing : Nat} {w : Written TriggerMode} (h : readMode code spacing = some w) :
    modeInRange w.value ∧
    w.value = (if code = 0 then
      .angle (max (if code = 0 then 1 else 2000) (min (if code = 0 then 65535 else 1000000) spacing))
      else .time (max (if code = 0 then 1 else 2000) (min (if code = 0 then 65535 else 1000000) spacing))) ∧
    (w.clamped = true ↔ spacing < (if code = 0 then 1 else 2000) ∨ (if code = 0 then 65535 else 1000000) < spacing) := by
  rcases code with _ | _ | code
  · cases h
    simp only [modeInRange, clampNat, if_true, bne_iff_ne, ne_eq, true_and]
    omega
  · cases h
    simp only [modeInRange, clampNat, if_neg (Nat.succ_ne_zero _), bne_iff_ne, ne_eq, true_and]
    omega
  · cases h

/-! ## A step from its bytes -/

/-- The step that 32 bytes give, its scalars clamped, beside the fields that are read by code (R108 parts 2 and 3). -/
def stepRead (bs : List Byte) (mode : TriggerMode) (next : Option Slot) (trackHead : Head) : ScanStep :=
  { tag := BitVec.ofNat 16 (natAt bs 0 2), next := next, mask := maskOf (natAt bs 3 1),
    radius := clampNat 0 8000000 (natAt bs 4 4), tolerance := natAt bs 8 2, settle := clampNat 0 10000 (natAt bs 10 2),
    passes := natAt bs 12 1, mode := mode, windowed := natAt bs 18 1 != 0, guard := clampNat 0 1048576 (natAt bs 19 4),
    first := clampNat 0 127 (natAt bs 23 1), last := clampNat 0 127 (natAt bs 24 1),
    decimation := clampNat 0 7 (natAt bs 25 1), kOn := clampNat 1 15 (natAt bs 26 1),
    kOff := clampNat 1 15 (natAt bs 27 1), threshold := clampNat 0 4095 (natAt bs 28 2), trackHead := trackHead,
    flags := stepFlagsOf (natAt bs 31 1) }

/-- A scalar of those bytes is brought to its range. -/
def scalarClamped (bs : List Byte) (p : ScanStep) : Bool :=
  p.radius != natAt bs 4 4 || p.settle != natAt bs 10 2 || p.guard != natAt bs 19 4 || p.first != natAt bs 23 1 ||
  p.last != natAt bs 24 1 || p.decimation != natAt bs 25 1 || p.kOn != natAt bs 26 1 || p.kOff != natAt bs 27 1 ||
  p.threshold != natAt bs 28 2

/-- What `readStep` answers when the three coded fields name something. -/
theorem readStep_of_some {bs : List Byte} {mode : Written TriggerMode} {next : Option Slot} {trackHead : Head}
    (hmode : readMode (natAt bs 13 1) (natAt bs 14 4) = some mode) (hnext : readNext (natAt bs 2 1) = some next)
    (htrack : headOfNat (natAt bs 30 1) = some trackHead) :
    readStep bs =
      let p := stepRead bs mode.value next trackHead
      if stepFormOk p then some ⟨p, mode.clamped || scalarClamped bs p⟩ else none := by
  simp only [readStep, hmode, hnext, htrack, stepRead, scalarClamped, Bool.or_assoc]

theorem readStep_eq_some {bs : List Byte} {w : Written ScanStep} (h : readStep bs = some w) :
    ∃ mode next trackHead, readMode (natAt bs 13 1) (natAt bs 14 4) = some mode ∧ readNext (natAt bs 2 1) = some next ∧
      headOfNat (natAt bs 30 1) = some trackHead ∧ w.value = stepRead bs mode.value next trackHead ∧
      stepFormOk w.value = true ∧ w.clamped = (mode.clamped || scalarClamped bs w.value) := by
  cases hmode : readMode (natAt bs 13 1) (natAt bs 14 4) with
  | none => simp only [readStep, hmode, reduceCtorEq] at h
  | some mode =>
    cases hnext : readNext (natAt bs 2 1) with
    | none => simp only [readStep, hmode, hnext, reduceCtorEq] at h
    | some next =>
      cases htrack : headOfNat (natAt bs 30 1) with
      | none => simp only [readStep, hmode, hnext, htrack, reduceCtorEq] at h
      | some trackHead =>
        simp only [readStep_of_some hmode hnext htrack] at h
        split at h
        · rename_i hform
          cases h
          exact ⟨mode, next, trackHead, rfl, rfl, rfl, rfl, hform, rfl⟩
        · cases h

/-- A step that is read is within the ranges of R107 and passes the tests of R108. -/
theorem readStep_stored {bs : List Byte} {w : Written ScanStep} (h : readStep bs = some w) : StepStored w.value := by
  obtain ⟨mode, next, trackHead, hmode, -, -, hvalue, hform, -⟩ := readStep_eq_some h
  have htolerance := natAt_lt bs 8 2
  have hpasses := natAt_lt bs 12 1
  have hmode' := (readMode_eq_some hmode).1
  rw [hvalue] at hform ⊢
  refine ⟨hmode', ?_, ?_, ?_, ?_, ?_, ?_, ?_, ?_, ?_, ?_, ?_, ?_, ?_, hform⟩ <;>
    simp only [stepRead, clampNat] <;> omega

/-! ## A stored step is read back -/

/-- The fields of the 32 bytes of a step, each at its offset (13.4). -/
theorem natAt_stepBytes (p : ScanStep) :
    natAt (stepBytes p) 0 2 = p.tag.toNat % 65536 ∧ natAt (stepBytes p) 2 1 = p.next.elim 255 (·.val) ∧
    natAt (stepBytes p) 3 1 = maskByte p.mask % 256 ∧ natAt (stepBytes p) 4 4 = p.radius % 4294967296 ∧
    natAt (stepBytes p) 8 2 = p.tolerance % 65536 ∧ natAt (stepBytes p) 10 2 = p.settle % 65536 ∧
    natAt (stepBytes p) 12 1 = p.passes % 256 ∧ natAt (stepBytes p) 13 1 = (modeFields p.mode).1 % 256 ∧
    natAt (stepBytes p) 14 4 = (modeFields p.mode).2 % 4294967296 ∧ natAt (stepBytes p) 18 1 = p.windowed.toNat ∧
    natAt (stepBytes p) 19 4 = p.guard % 4294967296 ∧ natAt (stepBytes p) 23 1 = p.first % 256 ∧
    natAt (stepBytes p) 24 1 = p.last % 256 ∧ natAt (stepBytes p) 25 1 = p.decimation % 256 ∧
    natAt (stepBytes p) 26 1 = p.kOn % 256 ∧ natAt (stepBytes p) 27 1 = p.kOff % 256 ∧
    natAt (stepBytes p) 28 2 = p.threshold % 65536 ∧ natAt (stepBytes p) 30 1 = headNum p.trackHead % 256 ∧
    natAt (stepBytes p) 31 1 = stepFlagsByte p.flags % 256 := by
  delta stepBytes
  simp only [List.append_assoc]
  refine ⟨?_, ?_, ?_, ?_, ?_, ?_, ?_, ?_, ?_, ?_, ?_, ?_, ?_, ?_, ?_, ?_, ?_, ?_, ?_⟩ <;>
    simp only [natAt_append_of_le, natAt_append_of_ge, natAt_natBytes, natAt_boolByte, natAt_slotByte,
      length_natBytes, length_boolByte, length_slotByte, Nat.reduceAdd, Nat.reduceLeDiff,
      Nat.reduceSub, Nat.reducePow, le_refl]

theorem toNat_bne_zero (b : Bool) : (b.toNat != 0) = b := by cases b <;> rfl

/-- The 32 bytes of a stored step give it back, with nothing clamped. -/
theorem readStep_stepBytes {p : ScanStep} (h : StepStored p) : readStep (stepBytes p) = some ⟨p, false⟩ := by
  obtain ⟨hmode, hr, ht, hse, hp, hg, hf, hl, hd, hkon, hkon', hkoff, hkoff', hth, hform⟩ := h
  obtain ⟨etag, enext, emask, eradius, etol, esettle, epasses, ecode, espacing, ewindowed, eguard, efirst, elast, edec,
    ekon, ekoff, ethr, etrack, eflags⟩ := natAt_stepBytes p
  have hcode : (modeFields p.mode).1 < 256 := by cases p.mode <;> simp [modeFields]
  have hspacing : (modeFields p.mode).2 < 4294967296 := by
    cases hm : p.mode <;> rw [hm] at hmode <;> exact lt_of_le_of_lt hmode.2 (by decide)
  have htrack : headNum p.trackHead < 256 := by cases p.trackHead <;> decide
  rw [Nat.mod_eq_of_lt p.tag.isLt] at etag
  rw [Nat.mod_eq_of_lt (maskByte_lt _)] at emask
  rw [Nat.mod_eq_of_lt (stepFlagsByte_lt _)] at eflags
  rw [Nat.mod_eq_of_lt (by omega)] at eradius etol esettle epasses ecode espacing eguard efirst elast edec ekon ekoff ethr etrack
  have hread : stepRead (stepBytes p) p.mode p.next p.trackHead = p := by
    simp only [stepRead, etag, emask, eradius, etol, esettle, epasses, ewindowed, eguard, efirst, elast, edec, ekon,
      ekoff, ethr, eflags, maskOf_maskByte, stepFlagsOf_stepFlagsByte, BitVec.ofNat_toNat, BitVec.setWidth_eq,
      clampNat_of_mem (Nat.zero_le _) hr, clampNat_of_mem (Nat.zero_le _) hse, clampNat_of_mem (Nat.zero_le _) hg,
      clampNat_of_mem (Nat.zero_le _) hf, clampNat_of_mem (Nat.zero_le _) hl, clampNat_of_mem (Nat.zero_le _) hd,
      clampNat_of_mem hkon hkon', clampNat_of_mem hkoff hkoff', clampNat_of_mem (Nat.zero_le _) hth, toNat_bne_zero]
  have hclamped : scalarClamped (stepBytes p) p = false := by
    simp [scalarClamped, eradius, esettle, eguard, efirst, elast, edec, ekon, ekoff, ethr]
  rw [readStep_of_some (by rw [ecode, espacing]; exact readMode_modeFields hmode) (by rw [enext]; exact readNext_elim _)
    (by rw [etrack]; exact headOfNat_headNum _)]
  simp only [hread, hclamped, hform, if_true, Bool.or_false]

/-! ## What other bytes give -/

theorem bool_toNat_pos (b : Bool) : 0 < b.toNat ↔ b = true := by cases b <;> decide

theorem maskSize_maskOf_eq_zero (n : Nat) : ¬ 0 < maskSize (maskOf n) ↔ ∀ i < 4, n.testBit i = false := by
  simp only [maskSize, maskOf, Nat.not_lt, Nat.le_zero, Nat.add_eq_zero_iff, Bool.toNat_eq_zero]
  constructor
  · rintro ⟨⟨⟨h0, h1⟩, h2⟩, h3⟩ i hi
    obtain rfl | rfl | rfl | rfl : i = 0 ∨ i = 1 ∨ i = 2 ∨ i = 3 := by omega
    all_goals assumption
  · intro h
    exact ⟨⟨⟨h 0 (by decide), h 1 (by decide)⟩, h 2 (by decide)⟩, h 3 (by decide)⟩

/-- Two of four places, pair by pair. -/
theorem exists_lt_four_iff (b : Nat → Bool) :
    (∃ i j : Nat, i < j ∧ j < 4 ∧ b i = true ∧ b j = true) ↔
      (b 0 && b 1 || b 0 && b 2 || b 0 && b 3 || b 1 && b 2 || b 1 && b 3 || b 2 && b 3) = true := by
  simp only [Bool.or_eq_true, Bool.and_eq_true, or_assoc]
  constructor
  · rintro ⟨i, j, hij, hj, hi, hj'⟩
    have hpair : (i = 0 ∧ j = 1) ∨ (i = 0 ∧ j = 2) ∨ (i = 0 ∧ j = 3) ∨ (i = 1 ∧ j = 2) ∨ (i = 1 ∧ j = 3) ∨ i = 2 ∧ j = 3 := by
      omega
    refine hpair.imp ?_ (Or.imp ?_ (Or.imp ?_ (Or.imp ?_ (Or.imp ?_ ?_))))
    all_goals
      rintro ⟨rfl, rfl⟩
      exact ⟨hi, hj'⟩
  · rintro (h | h | h | h | h | h)
    exacts [⟨0, 1, by decide, by decide, h⟩, ⟨0, 2, by decide, by decide, h⟩, ⟨0, 3, by decide, by decide, h⟩,
      ⟨1, 2, by decide, by decide, h⟩, ⟨1, 3, by decide, by decide, h⟩, ⟨2, 3, by decide, by decide, h⟩]

theorem one_lt_maskSize_maskOf (n : Nat) :
    ¬ maskSize (maskOf n) ≤ 1 ↔ ∃ i j : Nat, i < j ∧ j < 4 ∧ n.testBit i = true ∧ n.testBit j = true := by
  have hbits : ∀ a b c d : Bool, ¬ a.toNat + b.toNat + c.toNat + d.toNat ≤ 1 ↔
      (a && b || a && c || a && d || b && c || b && d || c && d) = true := by decide
  rw [exists_lt_four_iff]
  exact hbits _ _ _ _

/-- Which tests of R108 part 4 a step that is read fails. -/
theorem stepFormOk_stepRead (bs : List Byte) (mode : TriggerMode) (next : Option Slot) (trackHead : Head) :
    stepFormOk (stepRead bs mode next trackHead) = false ↔
      (∀ i < 4, (natAt bs 3 1).testBit i = false) ∨ natAt bs 12 1 = 0 ∨
      min 127 (natAt bs 24 1) < min 127 (natAt bs 23 1) ∨
      ((natAt bs 31 1).testBit 3 = true ∧ ∃ i j : Nat, i < j ∧ j < 4 ∧ (natAt bs 3 1).testBit i = true ∧
        (natAt bs 3 1).testBit j = true) ∨
      ((natAt bs 31 1).testBit 4 = true ∧ (natAt bs 3 1).testBit (headNum trackHead) = false) := by
  rw [← maskSize_maskOf_eq_zero, ← one_lt_maskSize_maskOf, ← get_maskOf]
  simp only [stepFormOk, stepRead, stepFlagsOf, clampNat, Nat.zero_max, Bool.and_eq_false_iff, Bool.or_eq_false_iff,
    decide_eq_false_iff_not, Bool.not_eq_false', Nat.not_lt, Nat.not_le, or_assoc, Nat.le_zero]

/-- No step is read exactly where R108, or the track head byte, says so. -/
theorem readStep_eq_none (bs : List Byte) :
    readStep bs = none ↔
      1 < natAt bs 13 1 ∨ (63 < natAt bs 2 1 ∧ natAt bs 2 1 ≠ 255) ∨ 3 < natAt bs 30 1 ∨
      (∀ i < 4, (natAt bs 3 1).testBit i = false) ∨ natAt bs 12 1 = 0 ∨
      min 127 (natAt bs 24 1) < min 127 (natAt bs 23 1) ∨
      ((natAt bs 31 1).testBit 3 = true ∧ ∃ i j : Nat, i < j ∧ j < 4 ∧ (natAt bs 3 1).testBit i = true ∧
        (natAt bs 3 1).testBit j = true) ∨
      ((natAt bs 31 1).testBit 4 = true ∧ (natAt bs 3 1).testBit (natAt bs 30 1) = false) := by
  rw [← readMode_eq_none (spacing := natAt bs 14 4), ← readNext_eq_none, ← headOfNat_eq_none_iff]
  cases hmode : readMode (natAt bs 13 1) (natAt bs 14 4) with
  | none => simp only [readStep, hmode, true_or]
  | some mode =>
    cases hnext : readNext (natAt bs 2 1) with
    | none => simp only [readStep, hmode, hnext, true_or, or_true]
    | some next =>
      cases htrack : headOfNat (natAt bs 30 1) with
      | none => simp only [readStep, hmode, hnext, htrack, true_or, or_true]
      | some trackHead =>
        have hnone : readStep bs = none ↔ stepFormOk (stepRead bs mode.value next trackHead) = false := by
          rw [readStep_of_some hmode hnext htrack]
          dsimp only
          split <;> simp_all
        rw [hnone, stepFormOk_stepRead, headOfNat_eq_some.1 htrack]
        simp only [reduceCtorEq, false_or]

theorem clampNat_bne {lo hi x : Nat} (h : lo ≤ hi) : (clampNat lo hi x != x) = true ↔ x < lo ∨ hi < x := by
  rw [clampNat, bne_iff_ne]
  omega

/-- A scalar is brought to its range exactly when it lies outside it. -/
theorem scalarClamped_stepRead (bs : List Byte) (mode : TriggerMode) (next : Option Slot) (trackHead : Head) :
    scalarClamped bs (stepRead bs mode next trackHead) = true ↔
      8000000 < natAt bs 4 4 ∨ 10000 < natAt bs 10 2 ∨ 1048576 < natAt bs 19 4 ∨
      127 < natAt bs 23 1 ∨ 127 < natAt bs 24 1 ∨ 7 < natAt bs 25 1 ∨ natAt bs 26 1 < 1 ∨ 15 < natAt bs 26 1 ∨
      natAt bs 27 1 < 1 ∨ 15 < natAt bs 27 1 ∨ 4095 < natAt bs 28 2 := by
  simp only [scalarClamped, stepRead, Bool.or_eq_true, clampNat_bne (Nat.zero_le _),
    clampNat_bne (show 1 ≤ 15 by decide), Nat.not_lt_zero, false_or, or_assoc]

theorem clampNat_zero (hi x : Nat) : clampNat 0 hi x = min hi x := Nat.zero_max _

/-- Settles O16: the fields of the 32 bytes are told by `natAt_stepBytes`, and what is read from other bytes by
`readStep_eq_none` and `readStep_eq_some`. -/
theorem storedStepsReadBack : Obligations.StoredStepsReadBack := by
  refine ⟨fun p hp => readStep_stepBytes hp, fun bs => ⟨readStep_eq_none bs, fun w hw => ?_⟩⟩
  obtain ⟨mode, next, trackHead, hmode, hnext, htrack, hvalue, -, hclamped⟩ := readStep_eq_some hw
  obtain ⟨-, hmodeValue, hmodeClamped⟩ := readMode_eq_some hmode
  have htag : (BitVec.ofNat 16 (natAt bs 0 2)).toNat = natAt bs 0 2 := by
    rw [BitVec.toNat_ofNat]
    exact Nat.mod_eq_of_lt (natAt_lt bs 0 2)
  refine ⟨readStep_stored hw, ?_⟩
  rw [hclamped, Bool.or_eq_true, hmodeClamped, hvalue, scalarClamped_stepRead]
  refine ⟨htag, (readNext_eq_some.1 hnext).symm, get_maskOf _, clampNat_zero _ _, rfl, clampNat_zero _ _, rfl, hmodeValue,
    rfl, clampNat_zero _ _, clampNat_zero _ _, clampNat_zero _ _, clampNat_zero _ _, rfl, rfl, clampNat_zero _ _,
    (headOfNat_eq_some.1 htrack).symm, rfl, ?_⟩
  rw [or_left_comm, or_left_comm (a := _ ∨ _), or_assoc]

end Sys2Proof.Proofs
end

