-- ==== Sys2Proof/Proofs/Changes.lean ====
section
/-! PROOF. What every change of the running controller keeps, block by block: each operation is a `Change`, and the
invariants and frame statements of the whole machine are read off it. -/

open Sys2Proof Sys2Proof.Machine

namespace Sys2Proof.Proofs

/-! ## The share of each block in the invariants -/

/-- The share of the encoder unit in `WithinBounds`. -/
def EncoderWithin (e : Encoder) : Prop :=
  (4096 ≤ e.params.counts ∧ e.params.counts ≤ 1048576 ∧ e.count < e.params.counts) ∧
  (-2147483648 ≤ e.netRevs ∧ e.netRevs ≤ 2147483647) ∧ e.ring.length ≤ 65

/-- The share of a head port. -/
def PortWithin (p : HeadPort) : Prop :=
  p.outstanding.length ≤ 16 ∧ p.queue.length ≤ 256 ∧ p.partialWord.length ≤ 6

/-- The share of an edge detector. -/
def DetectorWithin (d : Detector) : Prop := ∀ r, d.record = some r → r.points.length ≤ 1024

/-- The share of the record store. -/
def StoreWithin (r : RecordStore) : Prop := r.frames.length ≤ 512 ∧ r.credits ≤ 4095

/-- The share of the link port. -/
def LinkWithin (l : LinkPort) : Prop := l.queue.length ≤ 4 ∧ l.notices.length ≤ 32

theorem withinBounds_iff (s : State) :
    WithinBounds s ↔ EncoderWithin s.eu ∧ (∀ h, PortWithin (s.hp.get h)) ∧
      (∀ h, DetectorWithin (s.pe.detectors.get h)) ∧ StoreWithin s.rs ∧ LinkWithin s.lp := by
  constructor
  · rintro ⟨hcount, hnet, hring, hports, hpoints, hframes, hcredits, hqueue, hnotices⟩
    exact ⟨⟨hcount, hnet, hring⟩, hports, hpoints, ⟨hframes, hcredits⟩, hqueue, hnotices⟩
  · rintro ⟨⟨hcount, hnet, hring⟩, hports, hpoints, ⟨hframes, hcredits⟩, hqueue, hnotices⟩
    exact ⟨hcount, hnet, hring, hports, hpoints, hframes, hcredits, hqueue, hnotices⟩

/-- `WindowsApart` speaks of the blade table alone. -/
def TableApart (b : BladeTable) : Prop :=
  Separated (fun _ => 0) b.entries ∧ Separated (fun e => e.offset) b.entries ∧
  b.current = b.entries.map windowOf ∧ AtMostOne b.previous

theorem windowsApart_iff (s : State) : WindowsApart s ↔ TableApart s.bt := Iff.rfl

/-- The slots hold steps as STPW stores them. -/
def SlotsStored (q : ScanPlan) : Prop := ∀ (i : Fin 64) (p : ScanStep), q.slots[i] = some p → StepStored p

/-- The active-step copy is such a step. -/
def ActiveStored (q : ScanPlan) : Prop := ∀ a, q.active = some a → StepStored a.step

theorem stepsStored_iff (s : State) : StepsStored s ↔ SlotsStored s.spe ∧ ActiveStored s.spe := Iff.rfl

/-! ## The change of each block -/

/-- The parameters stay, and the bounds are kept. -/
structure EncoderChange (e f : Encoder) : Prop where
  params : f.params = e.params
  within : EncoderWithin e → EncoderWithin f

/-- The parameters stay, and the bounds are kept. -/
structure PortChange (p q : HeadPort) : Prop where
  params : q.params = p.params
  within : PortWithin p → PortWithin q

/-- The bounds and the soundness are kept. -/
structure DetectorChange (d e : Detector) : Prop where
  within : DetectorWithin d → DetectorWithin e
  sound : DetectorSound d → DetectorSound e

/-- What BTLD loaded and the parameters stay, and the windows are kept apart. -/
structure TableChange (b c : BladeTable) : Prop where
  params : c.params = b.params
  loaded : c.entries.map (fun e => (e.id, e.nominal, e.width)) = b.entries.map fun e => (e.id, e.nominal, e.width)
  apart : TableApart b → TableApart c

/-- The slots stay, the active-step copy is kept in its ranges, and a latched record stays but for the mark of its halt
(R144, R147, R148). -/
structure PlanChange (p q : ScanPlan) : Prop where
  slots : q.slots = p.slots
  active : SlotsStored p → ActiveStored p → ActiveStored q
  latch : ∀ r, p.latch = some r → q.latch = some r ∨ q.latch = some { r with taken := true }
  secondary : p.secondary ≤ q.secondary

/-- The bounds are kept, and no reply is placed. -/
structure LinkChange (l m : LinkPort) : Prop where
  reply : m.reply = l.reply ∨ m.reply = none
  within : LinkWithin l → LinkWithin m

/-- A change of the running controller that no parameter write, STPW, BTLD, FCLR or full reset makes. -/
structure Change (s t : State) : Prop where
  pending : t.pending = s.pending
  encoder : EncoderChange s.eu t.eu
  ports : ∀ h, PortChange (s.hp.get h) (t.hp.get h)
  detectors : ∀ h, DetectorChange (s.pe.detectors.get h) (t.pe.detectors.get h)
  table : TableChange s.bt t.bt
  plan : PlanChange s.spe t.spe
  store : StoreWithin s.rs → StoreWithin t.rs
  link : LinkChange s.lp t.lp

theorem EncoderChange.refl (e : Encoder) : EncoderChange e e := ⟨rfl, id⟩
theorem PortChange.refl (p : HeadPort) : PortChange p p := ⟨rfl, id⟩
theorem DetectorChange.refl (d : Detector) : DetectorChange d d := ⟨id, id⟩
theorem TableChange.refl (b : BladeTable) : TableChange b b := ⟨rfl, rfl, id⟩
theorem PlanChange.refl (p : ScanPlan) : PlanChange p p := ⟨rfl, fun _ h => h, fun _ h => .inl h, le_rfl⟩
theorem LinkChange.refl (l : LinkPort) : LinkChange l l := ⟨.inl rfl, id⟩

theorem EncoderChange.trans {e f g : Encoder} (a : EncoderChange e f) (b : EncoderChange f g) : EncoderChange e g :=
  ⟨b.params.trans a.params, b.within ∘ a.within⟩

theorem PortChange.trans {p q r : HeadPort} (a : PortChange p q) (b : PortChange q r) : PortChange p r :=
  ⟨b.params.trans a.params, b.within ∘ a.within⟩

theorem DetectorChange.trans {d e f : Detector} (a : DetectorChange d e) (b : DetectorChange e f) :
    DetectorChange d f :=
  ⟨b.within ∘ a.within, b.sound ∘ a.sound⟩

theorem TableChange.trans {b c d : BladeTable} (x : TableChange b c) (y : TableChange c d) : TableChange b d :=
  ⟨y.params.trans x.params, y.loaded.trans x.loaded, y.apart ∘ x.apart⟩

theorem SlotsStored.of_slots_eq {p q : ScanPlan} (h : q.slots = p.slots) (hp : SlotsStored p) : SlotsStored q := by
  intro i x hx
  exact hp i x (h ▸ hx)

theorem PlanChange.trans {p q r : ScanPlan} (a : PlanChange p q) (b : PlanChange q r) : PlanChange p r where
  slots := b.slots.trans a.slots
  active hs ha := b.active (hs.of_slots_eq a.slots) (a.active hs ha)
  latch x hx := by
    rcases a.latch x hx with h | h
    · exact b.latch x h
    · exact .inr ((b.latch _ h).elim id id)
  secondary := a.secondary.trans b.secondary

theorem LinkChange.trans {l m n : LinkPort} (a : LinkChange l m) (b : LinkChange m n) : LinkChange l n where
  reply := by
    rcases b.reply with h | h
    · rw [h]; exact a.reply
    · exact .inr h
  within := b.within ∘ a.within

theorem Change.refl (s : State) : Change s s :=
  ⟨rfl, .refl _, fun _ => .refl _, fun _ => .refl _, .refl _, .refl _, id, .refl _⟩

theorem Change.trans {s t u : State} (a : Change s t) (b : Change t u) : Change s u :=
  ⟨b.pending.trans a.pending, a.encoder.trans b.encoder, fun h => (a.ports h).trans (b.ports h), fun h => (a.detectors h).trans (b.detectors h),
    a.table.trans b.table, a.plan.trans b.plan, b.store ∘ a.store, a.link.trans b.link⟩

/-- A fold of changes is a change. -/
theorem Change.foldl {α : Type} {f : State → α → State} (hf : ∀ s x, Change s (f s x)) (xs : List α) (s : State) :
    Change s (xs.foldl f s) := by
  induction xs generalizing s with
  | nil => exact .refl s
  | cons x xs ih => exact (hf s x).trans (ih _)

/-- A change that happens only under a condition. -/
theorem Change.ite {c : Prop} [Decidable c] {s t u : State} (ht : Change s t) (hu : Change s u) :
    Change s (if c then t else u) := by
  split
  · exact ht
  · exact hu

/-! ## A change of one block -/

theorem Change.of_encoder {s : State} {e : Encoder} (h : EncoderChange s.eu e) : Change s { s with eu := e } :=
  { Change.refl s with encoder := h }

theorem Change.of_ports {s : State} {p : PerHead HeadPort} (h : ∀ g, PortChange (s.hp.get g) (p.get g)) :
    Change s { s with hp := p } :=
  { Change.refl s with ports := h }

theorem Change.of_engine {s : State} {p : Placement}
    (h : ∀ g, DetectorChange (s.pe.detectors.get g) (p.detectors.get g)) : Change s { s with pe := p } :=
  { Change.refl s with detectors := h }

theorem Change.of_table {s : State} {b : BladeTable} (h : TableChange s.bt b) : Change s { s with bt := b } :=
  { Change.refl s with table := h }

theorem Change.of_plan {s : State} {q : ScanPlan} (h : PlanChange s.spe q) : Change s { s with spe := q } :=
  { Change.refl s with plan := h }

theorem Change.of_store {s : State} {r : RecordStore} (h : StoreWithin s.rs → StoreWithin r) :
    Change s { s with rs := r } :=
  { Change.refl s with store := h }

theorem Change.of_link {s : State} {l : LinkPort} (h : LinkChange s.lp l) : Change s { s with lp := l } :=
  { Change.refl s with link := h }

/-- The trigger unit, the runout map, the auxiliary lines, the messages between blocks and the counter of free values
are free. -/
theorem Change.of_others (s : State) (tu : TriggerUnit) (rm : RunoutMap) (ax : AuxUnit) (bus : InFlight) (n : Nat) :
    Change s { s with tu := tu, rm := rm, ax := ax, bus := bus, freeCount := n } :=
  { Change.refl s with }

theorem PortChange.set {v : PerHead HeadPort} {h : Head} {p : HeadPort} (c : PortChange (v.get h) p) (g : Head) :
    PortChange (v.get g) ((v.set h p).get g) := by
  rw [PerHead.get_set]
  split
  · subst g; exact c
  · exact .refl _

theorem DetectorChange.set {v : PerHead Detector} {h : Head} {d : Detector} (c : DetectorChange (v.get h) d)
    (g : Head) : DetectorChange (v.get g) ((v.set h d).get g) := by
  rw [PerHead.get_set]
  split
  · subst g; exact c
  · exact .refl _

/-! ## The basic updates -/

theorem encoderWithin_tick {e : Encoder} {t : Tick} (h : EncoderWithin e) : EncoderWithin { e with tick := t } := h

theorem elapse_change (after : Nat) (s : State) : Change s (elapse after s) := .of_encoder ⟨rfl, encoderWithin_tick⟩

theorem linkNotice_change (n : Notice) (l : LinkPort) : LinkChange l (linkNotice n l) := by
  rcases linkNotice_cases n l with ⟨hroom, e⟩ | ⟨-, e⟩ <;> rw [e]
  · exact ⟨.inl rfl, fun h => ⟨h.1, by simp only [List.length_append, List.length_singleton]; omega⟩⟩
  · exact ⟨.inl rfl, id⟩

theorem queueNotice_change (n : Notice) (s : State) : Change s (queueNotice n s) := .of_link (linkNotice_change n s.lp)

theorem queueNotices_change (ns : List Notice) (s : State) : Change s (queueNotices ns s) := by
  refine .of_link ?_
  suffices ∀ l : LinkPort, LinkChange l (ns.foldl (fun l n => linkNotice n l) l) from this s.lp
  induction ns with
  | nil => exact .refl
  | cons n ns ih => exact fun l => (linkNotice_change n l).trans (ih _)

theorem sendRaising_change (r : Raising) (s : State) : Change s (sendRaising r s) :=
  .of_others s s.tu s.rm s.ax _ s.freeCount

theorem onPort_change {h : Head} {f : HeadPort → HeadPort} {s : State} (c : PortChange (s.hp.get h) (f (s.hp.get h))) :
    Change s (onPort h f s) := .of_ports c.set

theorem onCounters_change (h : Head) (f : HeadCounters → HeadCounters) (s : State) : Change s (onCounters h f s) :=
  onPort_change ⟨rfl, id⟩

theorem onTrigger_change (h : Head) (f : TriggerHead → TriggerHead) (s : State) : Change s (onTrigger h f s) :=
  .of_others s _ s.rm s.ax s.bus s.freeCount

theorem onDetector_change {h : Head} {f : Detector → Detector} {s : State}
    (c : DetectorChange (s.pe.detectors.get h) (f (s.pe.detectors.get h))) : Change s (onDetector h f s) :=
  .of_engine c.set

theorem onPlan_change {f : ScanPlan → ScanPlan} {s : State} (c : PlanChange s.spe (f s.spe)) : Change s (onPlan f s) :=
  .of_plan c

theorem onEncoder_change {f : Encoder → Encoder} {s : State} (c : EncoderChange s.eu (f s.eu)) :
    Change s (onEncoder f s) := .of_encoder c

theorem onLink_change {f : LinkPort → LinkPort} {s : State} (c : LinkChange s.lp (f s.lp)) : Change s (onLink f s) :=
  .of_link c

theorem onAcc_change (f : Accumulators → Accumulators) (s : State) : Change s (onAcc f s) :=
  .of_others s s.tu _ s.ax s.bus s.freeCount

theorem beginPulse_change (p : PulsedOutput) (s : State) : Change s (beginPulse p s) := by
  cases p <;> exact .of_others s s.tu s.rm _ s.bus s.freeCount

/-- A change of the plan that leaves the slots, the active step, the latch and the secondary count is one. -/
theorem PlanChange.of_eq {p q : ScanPlan} (hs : q.slots = p.slots) (ha : q.active = p.active) (hl : q.latch = p.latch)
    (hn : q.secondary = p.secondary) : PlanChange p q where
  slots := hs
  active _ h a e := h a (ha ▸ e)
  latch _ hr := .inl (hl.trans hr)
  secondary := hn.ge

end Sys2Proof.Proofs
end

