-- ==== Sys2Proof/Proofs/Detectors.lean ====
section
/-! PROOF. The edge detectors: every arrival, close and mark keeps a detector sound and its record within 1,024 points
(R52, R73, R80 to R83). -/

open Sys2Proof Sys2Proof.Machine

namespace Sys2Proof.Proofs

/-! ## Points in hand -/

/-- Points in order of offset, none beyond `u`, at heights in range. -/
def PointsOrdered (u : Nat) (ps : List Point) : Prop :=
  (ps.map (·.u)).Pairwise (· ≤ ·) ∧ ∀ p ∈ ps, p.u ≤ u ∧ heightInRange p.z

theorem PointsOrdered.sublist {u : Nat} {ps qs : List Point} (h : PointsOrdered u ps) (hs : qs.Sublist ps) :
    PointsOrdered u qs :=
  ⟨h.1.sublist (hs.map _), fun p hp => h.2 p (hs.subset hp)⟩

theorem PointsOrdered.mono {u v : Nat} {ps : List Point} (h : PointsOrdered u ps) (huv : u ≤ v) : PointsOrdered v ps :=
  ⟨h.1, fun p hp => ⟨(h.2 p hp).1.trans huv, (h.2 p hp).2⟩⟩

theorem PointsOrdered.append_point {u : Nat} {ps : List Point} {p : Point} (h : PointsOrdered u ps) (hu : p.u = u)
    (hz : heightInRange p.z) : PointsOrdered u (ps ++ [p]) := by
  constructor
  · rw [List.map_append, List.pairwise_append]
    refine ⟨h.1, List.pairwise_singleton _ _, fun a ha b hb => ?_⟩
    obtain ⟨x, hx, rfl⟩ := List.mem_map.1 ha
    obtain rfl : b = p.u := by simpa using hb
    exact hu ▸ (h.2 x hx).1
  · intro x hx
    rcases List.mem_append.1 hx with hx | hx
    · exact h.2 x hx
    · obtain rfl := List.mem_singleton.1 hx
      exact ⟨hu.le, hz⟩

/-- A point may stand twice: as one of the record and as the last present sample. -/
theorem PointsOrdered.duplicate {u : Nat} {ps qs : List Point} {p : Point} (h : PointsOrdered u (ps ++ p :: qs)) :
    PointsOrdered u (ps ++ p :: p :: qs) := by
  constructor
  · have := h.1
    simp only [List.map_append, List.map_cons, List.pairwise_append, List.pairwise_cons, List.mem_cons] at this ⊢
    obtain ⟨hps, ⟨hp, hqs⟩, hpq⟩ := this
    exact ⟨hps, ⟨fun a ha => ha.elim (fun e => e.ge) (hp a), hp, hqs⟩, fun a ha b hb => hpq a ha b (by tauto)⟩
  · intro x hx
    exact h.2 x (by simp only [List.mem_append, List.mem_cons] at hx ⊢; tauto)

theorem detectorSound_of_record {d : Detector} {r : OpenRecord} (hr : d.record = some r)
    (hc : d.state ≠ .seeking → d.candidates = []) (hw : d.prevOffset < r.width)
    (hp : PointsOrdered d.prevOffset (pointsInHand d r)) : DetectorSound d := by
  refine ⟨fun h => absurd (hr.symm.trans h) (by simp), hc, fun q hq => ?_⟩
  obtain rfl : r = q := by rw [hr] at hq; exact Option.some.inj hq
  exact ⟨hw, hp.1, hp.2⟩

theorem ordered_of_sound {d : Detector} {r : OpenRecord} (h : DetectorSound d) (hr : d.record = some r) :
    PointsOrdered d.prevOffset (pointsInHand d r) := (h.2.2 r hr).2

theorem prevOffset_lt_of_sound {d : Detector} {r : OpenRecord} (h : DetectorSound d) (hr : d.record = some r) :
    d.prevOffset < r.width := (h.2.2 r hr).1

/-! ## Points of a record -/

/-- The record is as it was, but for its points, to which `p` may have been appended below the limit (R82, R83), and
what no invariant reads. -/
def MayAppend (p : Point) (r q : OpenRecord) : Prop :=
  q.width = r.width ∧ (q.points = r.points ∨ (r.points.length < 1024 ∧ q.points = r.points ++ [p]))

theorem appendPoint_mayAppend (p : Point) (r : OpenRecord) : MayAppend p r (appendPoint p r) := by
  unfold appendPoint Config.pointLimit
  split
  · exact ⟨rfl, .inr ⟨‹_›, rfl⟩⟩
  · exact ⟨rfl, .inl rfl⟩

theorem mayAppend_ite (keep : Prop) [Decidable keep] (p : Point) (r : OpenRecord) :
    MayAppend p r (if keep then appendPoint p r else r) := by
  split
  · exact appendPoint_mayAppend p r
  · exact ⟨rfl, .inl rfl⟩

theorem MayAppend.length_le {p : Point} {r q : OpenRecord} (h : MayAppend p r q) (hr : r.points.length ≤ 1024) :
    q.points.length ≤ 1024 := by
  rcases h.2 with h | ⟨hlt, h⟩ <;> rw [h]
  · exact hr
  · simp only [List.length_append, List.length_singleton]; omega

/-- The points of a record that may have taken `p`, and then `p` once more, are in order when they were so with `p`. -/
theorem MayAppend.ordered {p : Point} {r q : OpenRecord} {u : Nat} {qs : List Point} (h : MayAppend p r q)
    (hr : PointsOrdered u (r.points ++ p :: qs)) : PointsOrdered u (q.points ++ p :: qs) := by
  rcases h.2 with h | ⟨-, h⟩ <;> rw [h]
  · exact hr
  · simpa using hr.duplicate

theorem takeSurface_record {dec : Nat} {d : Detector} {r : OpenRecord} (c : Surface) (hr : d.record = some r) :
    ∃ (q : OpenRecord) (l : LastPresent), MayAppend c.point r q ∧ l.point = c.point ∧
      takeSurface dec d c = { d with record := some q, lastPresent := some l, absentRun := 0 } := by
  unfold takeSurface
  rw [hr]
  refine ⟨_, _, ?_, ?_, rfl⟩
  · exact ⟨(mayAppend_ite (_ % 2 ^ dec = 0) c.point r).1, (mayAppend_ite _ c.point r).2⟩
  · rfl

theorem makeExit_record (d : Detector) (r : OpenRecord) :
    (makeExit d r).width = r.width ∧
      ((makeExit d r).points = r.points ∨ ∃ l, d.lastPresent = some l ∧ MayAppend l.point r (makeExit d r)) := by
  unfold makeExit
  split
  · exact ⟨rfl, .inl rfl⟩
  · rename_i l hl
    split
    · exact ⟨rfl, .inl rfl⟩
    · have := appendPoint_mayAppend l.point { r with exit := some l.point.u }
      exact ⟨this.1, .inr ⟨l, hl, this⟩⟩

/-! ## One sample -/

/-- A run of present samples taken by ON_SURFACE, one after the other (R81, R82). -/
theorem foldl_takeSurface_sound {dec : Nat} {run : List Surface} {d : Detector} {r : OpenRecord}
    (hr : d.record = some r) (hst : d.state = .onSurface) (hc : d.candidates = []) (hw : d.prevOffset < r.width)
    (hp : PointsOrdered d.prevOffset
      (r.points ++ d.lastPresent.toList.map (·.point) ++ run.map (·.point))) :
    DetectorSound (run.foldl (takeSurface dec) d) := by
  induction run generalizing d r with
  | nil => exact detectorSound_of_record hr (fun _ => hc) hw (by simpa [pointsInHand, hc] using hp)
  | cons c run ih =>
    obtain ⟨q, l, hq, hl, e⟩ := takeSurface_record (dec := dec) c hr
    rw [List.foldl_cons, e]
    refine ih rfl hst hc (hq.1 ▸ hw) ?_
    have hsub : PointsOrdered d.prevOffset (r.points ++ c.point :: run.map (·.point)) :=
      hp.sublist (by simp [List.append_assoc])
    simpa [hl] using hq.ordered hsub

theorem foldl_takeSurface_within {dec : Nat} {run : List Surface} {d : Detector} (h : DetectorWithin d) :
    DetectorWithin (run.foldl (takeSurface dec) d) := by
  induction run generalizing d with
  | nil => exact h
  | cons c run ih =>
    refine ih ?_
    cases hr : d.record with
    | none => simpa [takeSurface, hr] using h
    | some r =>
      obtain ⟨q, l, hq, -, e⟩ := takeSurface_record (dec := dec) c hr
      rw [e]
      rintro x hx
      obtain rfl : q = x := Option.some.inj hx
      exact hq.length_le (h r hr)

theorem makeExit_within {d : Detector} {r : OpenRecord} (h : r.points.length ≤ 1024) :
    (makeExit d r).points.length ≤ 1024 := by
  rcases (makeExit_record d r).2 with e | ⟨l, -, hm⟩
  · rw [e]; exact h
  · exact hm.length_le h

theorem makeExit_ordered {d : Detector} {r : OpenRecord} {u : Nat} (h : PointsOrdered u (pointsInHand d r)) :
    PointsOrdered u (makeExit d r).points := by
  unfold pointsInHand at h
  rcases (makeExit_record d r).2 with e | ⟨l, hl, hm⟩
  · rw [e]; exact h.sublist (by simp [List.append_assoc])
  · have hsub : PointsOrdered u (r.points ++ l.point :: []) := h.sublist (by simp [hl])
    exact (hm.ordered hsub).sublist (by simp)

/-- An open record takes a sample at the previous offset (R81 to R84). -/
theorem takeSample_sound {p : ScanStep} {d : Detector} {c : Option Surface} (h : DetectorSound d)
    (hc : ∀ x ∈ c, x.point.u = d.prevOffset ∧ heightInRange x.point.z) : DetectorSound (takeSample p d c) := by
  unfold takeSample
  split
  · exact h
  rename_i r hr
  have hw := prevOffset_lt_of_sound h hr
  have ho := ordered_of_sound h hr
  split
  · rename_i x hst
    obtain ⟨hu, hz⟩ := hc x rfl
    have hrun := ho.append_point hu hz
    unfold seekPresent
    dsimp only
    split
    · refine foldl_takeSurface_sound rfl rfl rfl hw (hrun.sublist ?_)
      simp [pointsInHand]
    · refine detectorSound_of_record (r := r) hr (fun e => absurd hst e) hw ?_
      simpa [pointsInHand] using hrun
  · exact detectorSound_of_record (r := r) hr (fun _ => rfl) hw (ho.sublist (by simp [pointsInHand]))
  · rename_i x hst
    obtain ⟨hu, hz⟩ := hc x rfl
    have hcand : d.candidates = [] := h.2.1 (by simp [hst])
    have hrun : PointsOrdered d.prevOffset
        (r.points ++ d.lastPresent.toList.map (·.point) ++ [x].map (·.point)) := by
      simpa [pointsInHand, hcand] using ho.append_point hu hz
    exact foldl_takeSurface_sound (run := [x]) hr hst hcand hw hrun
  · rename_i hst
    have hcand : d.candidates = [] := h.2.1 (by simp [hst])
    split
    · refine detectorSound_of_record rfl (fun _ => hcand) ((makeExit_record d r).1 ▸ hw) ?_
      simpa [pointsInHand, hcand] using makeExit_ordered ho
    · exact detectorSound_of_record (r := r) hr (fun _ => hcand) hw ho
  · rename_i hst
    have hcand : d.candidates = [] := h.2.1 (by simp [hst])
    split
    · exact detectorSound_of_record rfl (fun _ => hcand) hw ho
    · exact detectorSound_of_record (r := r) hr (fun _ => hcand) hw ho
  · rename_i hst
    exact detectorSound_of_record (r := r) hr (fun _ => h.2.1 (by simp [hst])) hw ho
  · exact h

theorem takeSample_within {p : ScanStep} {d : Detector} {c : Option Surface} (h : DetectorWithin d) :
    DetectorWithin (takeSample p d c) := by
  unfold takeSample
  split
  · exact h
  rename_i r hr
  have hlen := h r hr
  split
  · unfold seekPresent
    dsimp only
    split
    · refine foldl_takeSurface_within ?_
      rintro x hx
      obtain rfl := Option.some.inj hx
      exact hlen
    · exact h
  · exact h
  · exact foldl_takeSurface_within (run := [_]) h
  · split
    · rintro x hx
      obtain rfl := Option.some.inj hx
      exact makeExit_within hlen
    · exact h
  · split
    · rintro x hx
      obtain rfl := Option.some.inj hx
      exact hlen
    · exact h
  · exact h
  · exact h

/-! ## Marks, closes and arrivals -/

theorem flagDetector_change (f : RecordFlag) (d : Detector) : DetectorChange d (flagDetector f d) where
  within h r hr := by
    obtain ⟨q, hq, rfl⟩ := Option.map_eq_some_iff.1 hr
    exact h q hq
  sound h := by
    refine ⟨fun hn => h.1 (by simpa [flagDetector] using hn), h.2.1, fun r hr => ?_⟩
    obtain ⟨q, hq, rfl⟩ := Option.map_eq_some_iff.1 hr
    exact h.2.2 q hq

/-- The number of the latest sample placed is no part of the invariants. -/
theorem lastSeq_change (d : Detector) (q : Option Seq) : DetectorChange d { d with lastSeq := q } := ⟨id, id⟩

theorem toOutside_sound (d : Detector) : DetectorSound (toOutside d) :=
  ⟨fun _ => ⟨rfl, rfl, rfl, rfl, rfl⟩, fun _ => rfl, fun _ hr => by cases hr⟩

theorem toOutside_change (d : Detector) : DetectorChange d (toOutside d) :=
  ⟨fun _ => nofun, fun _ => toOutside_sound d⟩

theorem armDetector_change (d : Detector) : DetectorChange d (armDetector d) :=
  ⟨fun _ => nofun, fun _ => toOutside_sound d⟩

theorem closeOpen_none {aborted reversed : Bool} {d : Detector} (h : d.record = none) :
    closeOpen aborted reversed d = (d, none) := by
  simp [closeOpen, h]

theorem closeOpen_some {aborted reversed : Bool} {d : Detector} {r : OpenRecord} (h : d.record = some r) :
    closeOpen aborted reversed d =
      (toOutside d, some { finishRecord d aborted r with
        flags := withFlagIf reversed .reversed (withFlagIf aborted .aborted (finishRecord d aborted r).flags) }) := by
  simp [closeOpen, h]

theorem closeOpen_change (aborted reversed : Bool) (d : Detector) :
    DetectorChange d (closeOpen aborted reversed d).1 := by
  cases hr : d.record with
  | none => rw [closeOpen_none hr]; exact .refl d
  | some r => rw [closeOpen_some hr]; exact toOutside_change d

/-- A placed sample has a window that holds its angle, and a height in range (R52, R53). -/
def PlacedSound (p : Placed) : Prop :=
  (∀ b w, p.window = some (b, w) → localOffset w p.angle < w.width) ∧ ∀ q ∈ p.surface, heightInRange q.1

theorem PlacedSound.surfaceAt {p : Placed} (h : PlacedSound p) (u : Nat) :
    ∀ x ∈ surfaceAt u p, x.point.u = u ∧ heightInRange x.point.z := by
  intro x hx
  obtain ⟨q, hq, rfl⟩ := Option.map_eq_some_iff.1 hx
  exact ⟨rfl, h.2 q hq⟩

theorem marks_change (p : Placed) (d : Detector) :
    DetectorChange d (if p.placeholder then
      flagDetector .noResponse (if p.clamped then flagDetector .clamped d else d)
      else (if p.clamped then flagDetector .clamped d else d)) := by
  have hclamped : DetectorChange d (if p.clamped then flagDetector .clamped d else d) := by
    split
    · exact flagDetector_change _ _
    · exact .refl _
  split
  · exact hclamped.trans (flagDetector_change _ _)
  · exact hclamped

theorem joinRecord_within {e : Surroundings} {u : Nat} {p : Placed} {d : Detector} (h : DetectorWithin d) :
    DetectorWithin (joinRecord e u p d) := by
  have htaken := takeSample_within (p := e.step) (d := { d with prevOffset := u }) (c := surfaceAt u p) h
  exact (marks_change p _).within htaken

theorem joinRecord_sound {e : Surroundings} {u : Nat} {p : Placed} {d : Detector} (hp : PlacedSound p)
    (h : DetectorSound { d with prevOffset := u }) : DetectorSound (joinRecord e u p d) :=
  (marks_change p _).sound (takeSample_sound h (hp.surfaceAt u))

/-- The detector has left the run-in (R77). -/
theorem leaveRunIn_change (d : Detector) : DetectorChange d { d with runIn := false, runInWindow := none } := ⟨id, id⟩

theorem tryOpening_within {e : Surroundings} {gap : Bool} {p : Placed} {d : Detector} (h : DetectorWithin d) :
    DetectorWithin (tryOpening e gap p d) := by
  unfold tryOpening
  split
  · exact h
  dsimp only
  split
  · split
    · refine joinRecord_within ?_
      rintro x hx
      obtain rfl := Option.some.inj hx
      exact Nat.zero_le _
    · exact h
  · exact h

theorem tryOpening_sound {e : Surroundings} {gap : Bool} {p : Placed} {d : Detector} (hp : PlacedSound p)
    (hr : d.record = none) (h : DetectorSound d) : DetectorSound (tryOpening e gap p d) := by
  obtain ⟨-, -, hcand, -, hlast⟩ := h.1 hr
  unfold tryOpening
  split
  · exact h
  dsimp only
  split
  · rename_i b w hw
    split
    · refine joinRecord_sound hp (detectorSound_of_record rfl (fun _ => hcand) (hp.1 b w hw) ?_)
      simp [pointsInHand, newRecord, hcand, hlast, PointsOrdered]
    · exact h
  · exact h

/-- The number of the arriving sample is held, and a gap before it marks the open record (R75). -/
theorem gap_change (p : Placed) (d : Detector) :
    DetectorChange d (if seqGap d p.seq then flagDetector .loss { d with lastSeq := some p.seq }
      else { d with lastSeq := some p.seq }) := by
  split
  · exact (lastSeq_change d _).trans (flagDetector_change _ _)
  · exact lastSeq_change d _

theorem arrive_change (e : Surroundings) {p : Placed} (hp : PlacedSound p) (d : Detector) :
    DetectorChange d (arrive e p d).1 := by
  unfold arrive
  dsimp only
  refine (gap_change p d).trans ?_
  generalize (if seqGap d p.seq = true then flagDetector .loss { d with lastSeq := some p.seq }
    else { d with lastSeq := some p.seq }) = d'
  split
  · rename_i hr
    exact ⟨tryOpening_within, tryOpening_sound hp hr⟩
  · rename_i r hr
    split
    · rw [closeOpen_some hr]
      exact ⟨fun _ => tryOpening_within ((toOutside_change d').within ‹_›),
        fun _ => tryOpening_sound hp rfl (toOutside_sound d')⟩
    · rename_i hin
      split
      · exact closeOpen_change false true d'
      · refine ⟨joinRecord_within, fun h => joinRecord_sound hp ?_⟩
        refine detectorSound_of_record (r := r) hr h.2.1 ?_ ((ordered_of_sound h hr).mono (le_max_right _ _))
        have := prevOffset_lt_of_sound h hr
        simp only
        omega

end Sys2Proof.Proofs
end

