-- ==== Sys2Proof/Proofs/Blades.lean ====
section
/-! PROOF. The blade table: a set whose entries are separated holds no angle twice (R53), and every change of the table
keeps its entries separated (R57, R58, R66, R71). -/

open Sys2Proof Sys2Proof.Machine

namespace Sys2Proof.Proofs

/-! ## Separation by index -/

theorem isChain_iff_getElem? {α : Type} {R : α → α → Prop} {xs : List α} :
    xs.IsChain R ↔ ∀ (i : Nat) (a b : α), xs[i]? = some a → xs[i + 1]? = some b → R a b := by
  rw [List.isChain_iff_getElem]
  constructor
  · intro h i a b ha hb
    obtain ⟨hi, rfl⟩ := List.getElem?_eq_some_iff.1 ha
    obtain ⟨hj, rfl⟩ := List.getElem?_eq_some_iff.1 hb
    exact h i hj
  · intro h i hi
    exact h i _ _ (List.getElem?_eq_getElem _) (List.getElem?_eq_getElem _)

/-- Separation, neighbour by neighbour. -/
theorem separated_iff {o : BladeEntry → Int} {es : List BladeEntry} :
    Separated o es ↔
      (∀ (i : Nat) (a b : BladeEntry), es[i]? = some a → es[i + 1]? = some b → apart o 0 a b) ∧
      ∀ a z : BladeEntry, es[0]? = some a → es[es.length - 1]? = some z → apart o 1 z a := by
  rw [Separated, isChain_iff_getElem?, List.head?_eq_getElem?, List.getLast?_eq_getElem?]

/-- Two tables of the same positions and widths, entry by entry, are separated alike. -/
theorem separated_of_map_eq {o o' : BladeEntry → Int} {es fs : List BladeEntry}
    (h : fs.map (fun e => (e.nominal, e.width, o' e)) = es.map fun e => (e.nominal, e.width, o e))
    (hs : Separated o es) : Separated o' fs := by
  have hlen : fs.length = es.length := by simpa using congrArg List.length h
  have hentry : ∀ {i : Nat} {f : BladeEntry}, fs[i]? = some f →
      ∃ e, es[i]? = some e ∧ e.nominal = f.nominal ∧ e.width = f.width ∧ o e = o' f := by
    intro i f hf
    have hi := congrArg (·[i]?) h
    simp only [List.getElem?_map, hf, Option.map_some] at hi
    obtain ⟨e, he, heq⟩ := Option.map_eq_some_iff.1 hi.symm
    simp only [Prod.mk.injEq] at heq
    exact ⟨e, he, heq⟩
  rw [separated_iff] at hs ⊢
  constructor
  · intro i a b ha hb
    obtain ⟨a', ha', hna, hwa, hoa⟩ := hentry ha
    obtain ⟨b', hb', hnb, hwb, hob⟩ := hentry hb
    have := hs.1 i a' b' ha' hb'
    simpa only [apart, beginsAt, hna, hwa, hoa, hnb, hwb, hob] using this
  · intro a z ha hz
    obtain ⟨a', ha', hna, hwa, hoa⟩ := hentry ha
    obtain ⟨z', hz', hnz, hwz, hoz⟩ := hentry hz
    have := hs.2 a' z' ha' (hlen ▸ hz')
    simpa only [apart, beginsAt, hna, hwa, hoa, hnz, hwz, hoz] using this

/-- An entry ends before each later one begins. -/
theorem separated_apart_of_lt {o : BladeEntry → Int} {es : List BladeEntry} (hs : Separated o es) {i j : Nat}
    {a b : BladeEntry} (hij : i < j) (ha : es[i]? = some a) (hb : es[j]? = some b) : apart o 0 a b := by
  rw [separated_iff] at hs
  induction j generalizing b with
  | zero => omega
  | succ j ih =>
    rcases Nat.lt_succ_iff_lt_or_eq.1 hij with hlt | rfl
    · have hj := (List.getElem?_eq_some_iff.1 hb).1
      obtain ⟨c, hc⟩ : ∃ c, es[j]? = some c := ⟨_, List.getElem?_eq_getElem (by omega)⟩
      have hac := ih hlt hc
      have hcb := hs.1 j c b hc hb
      unfold apart beginsAt at *
      omega
    · exact hs.1 i a b ha hb

/-- An entry ends before each earlier one begins a revolution on. -/
theorem separated_apart_wrap {o : BladeEntry → Int} {es : List BladeEntry} (hs : Separated o es) {i j : Nat}
    {a b : BladeEntry} (ha : es[i]? = some a) (hb : es[j]? = some b) (hij : i ≤ j) : apart o 1 b a := by
  have hj := (List.getElem?_eq_some_iff.1 hb).1
  obtain ⟨x, hx⟩ : ∃ x, es[0]? = some x := ⟨_, List.getElem?_eq_getElem (by omega)⟩
  obtain ⟨z, hz⟩ : ∃ z, es[es.length - 1]? = some z := ⟨_, List.getElem?_eq_getElem (by omega)⟩
  have hzx := (separated_iff.1 hs).2 x z hx hz
  have hxa : beginsAt 0 x (o x) ≤ beginsAt 0 a (o a) := by
    rcases Nat.eq_zero_or_pos i with rfl | hi
    · rw [hx] at ha; cases ha; exact le_rfl
    · have := separated_apart_of_lt hs hi hx ha
      unfold apart at this; omega
  have hbz : beginsAt 0 b (o b) + b.width ≤ beginsAt 0 z (o z) + z.width := by
    rcases Nat.lt_or_ge j (es.length - 1) with hlt | hge
    · have := separated_apart_of_lt hs hlt hb hz
      unfold apart at this; omega
    · obtain rfl : j = es.length - 1 := by omega
      rw [hz] at hb; cases hb; exact le_rfl
  unfold apart beginsAt at *
  omega

/-! ## An angle in at most one window (R53) -/

/-- The local offset in a tracked window, counted from where the window begins. -/
theorem toNat_sub_trackedStart (a : Angle) (e : BladeEntry) (o : Int) :
    ((a - trackedStart e o).toNat : Int) = ((a.toNat : Int) - beginsAt 0 e o) % 16777216 := by
  unfold trackedStart beginsAt
  rw [BitVec.toNat_sub, BitVec.toNat_add, BitVec.toNat_ofInt]
  have ha := a.isLt
  have hn := e.nominal.isLt
  norm_num at *
  omega

theorem inSpan_zero_windowOf {e : BladeEntry} {a : Angle} (h : inSpan 0 (windowOf e) a = true) :
    ((a.toNat : Int) - beginsAt 0 e e.offset) % 16777216 < e.width := by
  have hlt : (a - trackedStart e e.offset).toNat < e.width := by simpa [inSpan, windowOf] using h
  rw [← toNat_sub_trackedStart]
  omega

theorem atMostOne_of_separated {es : List BladeEntry} (hs : Separated (fun e => e.offset) es) :
    AtMostOne (es.map windowOf) := by
  have hnot : ∀ (a : Angle) (i j : Nat) (v w : Window), i < j → (es.map windowOf)[i]? = some v →
      (es.map windowOf)[j]? = some w → inSpan 0 v a = true → inSpan 0 w a = true → False := by
    intro a i j v w hij hv hw hav haw
    simp only [List.getElem?_map, Option.map_eq_some_iff] at hv hw
    obtain ⟨e, he, rfl⟩ := hv
    obtain ⟨f, hf, rfl⟩ := hw
    have hef := separated_apart_of_lt hs hij he hf
    have hfe := separated_apart_wrap hs he hf hij.le
    have hx := inSpan_zero_windowOf hav
    have hy := inSpan_zero_windowOf haw
    simp only [apart, beginsAt] at hef hfe hx hy
    omega
  intro a i j v w hv hw hav haw
  rcases Nat.lt_trichotomy i j with hlt | heq | hgt
  · exact (hnot a i j v w hlt hv hw hav haw).elim
  · exact heq
  · exact (hnot a j i w v hgt hw hv haw hav).elim

theorem TableApart.atMostOne_current {b : BladeTable} (h : TableApart b) : AtMostOne b.current := by
  obtain ⟨-, hsep, hcur, -⟩ := h
  rw [hcur]
  exact atMostOne_of_separated hsep

/-- A new set made of separated entries keeps the windows apart (R57, R64). -/
theorem TableApart.newGeneration {b c : BladeTable} {es : List BladeEntry} (h : TableApart b)
    (hc : c.current = b.current) (hnom : Separated (fun _ => 0) es) (hoff : Separated (fun e => e.offset) es) :
    TableApart (newGeneration es c) :=
  ⟨hnom, hoff, rfl, show AtMostOne c.current from hc ▸ h.atMostOne_current⟩

/-! ## A change of entries that moves none -/

/-- Where an entry stands, its width, its offset, and what its window shows. -/
def standing (e : BladeEntry) : Id16 × Angle × Nat × Int × Bool :=
  (e.id, e.nominal, e.width, e.offset, e.state == .excluded)

theorem tableChange_of_standing {b : BladeTable} {es : List BladeEntry}
    (h : es.map standing = b.entries.map standing) :
    TableChange b { b with entries := es } := by
  have hmap : ∀ {β : Type} (f : Id16 × Angle × Nat × Int × Bool → β),
      es.map (fun e => f (standing e)) = b.entries.map fun e => f (standing e) := by
    intro β f
    simpa only [List.map_map, Function.comp_def] using congrArg (List.map f) h
  refine ⟨rfl, hmap fun x => (x.1, x.2.1, x.2.2.1), fun ⟨hnom, hoff, hcur, hprev⟩ => ⟨?_, ?_, ?_, hprev⟩⟩
  · exact separated_of_map_eq (hmap fun x => (x.2.1, x.2.2.1, (0 : Int))) hnom
  · exact separated_of_map_eq (hmap fun x => (x.2.1, x.2.2.1, x.2.2.2.1)) hoff
  · rw [hcur]
    exact (hmap fun x => (⟨x.1, x.2.1 + BitVec.ofInt 24 x.2.2.2.1, x.2.2.1, x.2.2.2.2⟩ : Window)).symm

theorem map_set_of_eq {α β : Type} {f : α → β} {xs : List α} {i : Nat} {x y : α} (hx : xs[i]? = some x)
    (h : f y = f x) : (xs.set i y).map f = xs.map f := by
  rw [List.map_set, h]
  apply List.ext_getElem?
  intro j
  rw [List.getElem?_set]
  split
  · subst i
    split
    · rw [List.getElem?_map, hx]; rfl
    · rename_i hlen
      rw [List.length_map] at hlen
      exact (List.getElem?_eq_none (by simpa using hlen)).symm
  · rfl

theorem observe_standing (guard u : Nat) {e : BladeEntry} (h : e.state ≠ .excluded) :
    standing (observe guard u e) = standing e := by
  cases hst : e.state <;> simp_all [standing, observe]

theorem miss_standing (kMiss : Nat) (e : BladeEntry) :
    standing (miss kMiss e) = standing e := by
  simp only [standing, miss, Prod.mk.injEq, true_and]
  split
  · rename_i h
    rcases h.2 with h | h <;> rw [h] <;> rfl
  · rfl

theorem changeBlade_change {i : Nat} {cause : BladeCause} {f : BladeEntry → BladeEntry} {s : State}
    (h : ∀ e, s.bt.entries[i]? = some e → standing (f e) = standing e) :
    Change s (changeBlade i cause f s) := by
  unfold changeBlade
  split
  · exact .refl s
  · rename_i e he
    exact (Change.of_table (tableChange_of_standing (map_set_of_eq he (h e he)))).trans (queueNotices_change _ _)

theorem takePost_change (p : Post) (s : State) : Change s (takePost p s) := by
  unfold takePost
  split
  · exact .refl s
  rename_i e he
  split
  · exact .refl s
  rename_i hst
  split
  · refine changeBlade_change fun x hx => ?_
    obtain rfl : e = x := by rw [he] at hx; exact Option.some.inj hx
    exact observe_standing _ _ hst
  · split
    · exact changeBlade_change fun x _ => miss_standing _ x
    · exact .refl s

theorem stageMark_standing (es : List BladeEntry) (m : Nat × Mark) :
    (stageMark es m).map standing = es.map standing := by
  apply List.ext_getElem?
  intro j
  simp only [stageMark, List.getElem?_map, List.getElem?_modify]
  cases es[j]? with
  | none => rfl
  | some e => split <;> rfl

theorem stageMarks_standing (ms : List (Nat × Mark)) (es : List BladeEntry) :
    (ms.foldl stageMark es).map standing = es.map standing := by
  induction ms generalizing es with
  | nil => rfl
  | cons m ms ih => rw [List.foldl_cons, ih, stageMark_standing]

/-! ## A new generation (R64 to R66) -/

/-- The offset that a blade has in the generation being made (R65, R66). -/
def offsetMade (limit : Nat) (es : List BladeEntry) (i : Nat) (e : BladeEntry) : Int :=
  match e.pendingOffset with
  | none => e.offset
  | some p => if candidatePasses limit es i e (limited limit p) then limited limit p else e.offset

theorem applyOffset_entry (limit : Nat) (gen : Id16) (es : List BladeEntry) (i : Nat) (e : BladeEntry) :
    (applyOffset limit gen es i e).1.id = e.id ∧ (applyOffset limit gen es i e).1.nominal = e.nominal ∧
      (applyOffset limit gen es i e).1.width = e.width ∧
      (applyOffset limit gen es i e).1.offset = offsetMade limit es i e := by
  cases hp : e.pendingOffset with
  | none => simp only [applyOffset, offsetMade, hp, and_self]
  | some p =>
    simp only [applyOffset, offsetMade, hp]
    split <;> exact ⟨rfl, rfl, rfl, rfl⟩

theorem applyMark_entry (gen : Id16) (i : Nat) (e : BladeEntry) :
    (applyMark gen i e).1.id = e.id ∧ (applyMark gen i e).1.nominal = e.nominal ∧
      (applyMark gen i e).1.width = e.width ∧ (applyMark gen i e).1.offset = e.offset := by
  unfold applyMark
  split
  · exact ⟨rfl, rfl, rfl, rfl⟩
  all_goals split <;> exact ⟨rfl, rfl, rfl, rfl⟩

theorem advanceBlade_entry (limit : Nat) (gen : Id16) (es : List BladeEntry) (i : Nat) (e : BladeEntry) :
    (advanceBlade limit gen es i e).1.id = e.id ∧ (advanceBlade limit gen es i e).1.nominal = e.nominal ∧
      (advanceBlade limit gen es i e).1.width = e.width ∧
      (advanceBlade limit gen es i e).1.offset = offsetMade limit es i e := by
  obtain ⟨hid, hnom, hwidth, hoff⟩ := applyOffset_entry limit gen es i e
  obtain ⟨hid', hnom', hwidth', hoff'⟩ := applyMark_entry gen i (applyOffset limit gen es i e).1
  exact ⟨hid'.trans hid, hnom'.trans hnom, hwidth'.trans hwidth, hoff'.trans hoff⟩

theorem getElem?_advanceBlades (limit : Nat) (gen : Id16) (es : List BladeEntry) (i : Nat) :
    (advanceBlades limit gen es)[i]? = es[i]?.map (advanceBlade limit gen es i) := by
  simp only [advanceBlades, List.getElem?_map, List.getElem?_zipIdx, Option.map_map, Function.comp_def, Nat.zero_add]

theorem length_advanceBlades (limit : Nat) (gen : Id16) (es : List BladeEntry) :
    (advanceBlades limit gen es).length = es.length := by
  simp [advanceBlades]

/-- A neighbour ends, in the generation being made, no later than the test of R66 takes it to. -/
theorem end_le_laterEnd (limit : Nat) (turn : Int) (es : List BladeEntry) (i : Nat) (e : BladeEntry) :
    beginsAt turn e (offsetMade limit es i e) + e.width ≤ laterEnd limit turn e := by
  unfold offsetMade laterEnd candidateOffset
  cases hp : e.pendingOffset with
  | none => exact le_rfl
  | some p =>
    dsimp only [Option.map_some]
    split
    · exact le_max_right _ _
    · exact le_max_left _ _

/-- A neighbour begins no earlier than the test takes it to. -/
theorem earlierStart_le_begin (limit : Nat) (turn : Int) (es : List BladeEntry) (i : Nat) (e : BladeEntry) :
    earlierStart limit turn e ≤ beginsAt turn e (offsetMade limit es i e) := by
  unfold offsetMade earlierStart candidateOffset
  cases hp : e.pendingOffset with
  | none => exact le_rfl
  | some p =>
    dsimp only [Option.map_some]
    split
    · exact min_le_right _ _
    · exact min_le_left _ _

theorem offsetMade_cases (limit : Nat) (es : List BladeEntry) (i : Nat) (e : BladeEntry) :
    offsetMade limit es i e = e.offset ∨ candidatePasses limit es i e (offsetMade limit es i e) = true := by
  unfold offsetMade
  split
  · exact .inl rfl
  · split
    · exact .inr ‹_›
    · exact .inl rfl

/-- The overlap test of R66, told by the two neighbours. -/
theorem candidatePasses_iff {limit : Nat} {es : List BladeEntry} {i : Nat} {e p n : BladeEntry} {o : Int}
    (hlen : 1 < es.length) (hp : es[if i = 0 then es.length - 1 else i - 1]? = some p)
    (hn : es[if i + 1 < es.length then i + 1 else 0]? = some n) :
    candidatePasses limit es i e o = true ↔
      laterEnd limit (if i = 0 then -1 else 0) p ≤ beginsAt 0 e o ∧
      beginsAt 0 e o + e.width ≤ earlierStart limit (if i + 1 < es.length then 0 else 1) n := by
  unfold candidatePasses
  rw [if_neg (by omega)]
  have hprev : (if i = 0 then es[es.length - 1]?.map (laterEnd limit (-1)) else es[i - 1]?.map (laterEnd limit 0)) =
      some (laterEnd limit (if i = 0 then -1 else 0) p) := by
    by_cases hi : i = 0
    · rw [if_pos hi] at hp
      rw [if_pos hi, if_pos hi, hp]; rfl
    · rw [if_neg hi] at hp
      rw [if_neg hi, if_neg hi, hp]; rfl
  have hnext : (if i + 1 < es.length then es[i + 1]?.map (earlierStart limit 0)
      else es[0]?.map (earlierStart limit 1)) =
      some (earlierStart limit (if i + 1 < es.length then 0 else 1) n) := by
    by_cases hi : i + 1 < es.length
    · rw [if_pos hi] at hn
      rw [if_pos hi, if_pos hi, hn]; rfl
    · rw [if_neg hi] at hn
      rw [if_neg hi, if_neg hi, hn]; rfl
  rw [hprev, hnext]
  simp

/-- The entry of place `i` in the generation being made stands before the next one when the old entries did. -/
theorem made_apart {limit : Nat} {es : List BladeEntry} {i j : Nat} {a b : BladeEntry} {turn : Int}
    (hlen : 1 < es.length) (ha : es[i]? = some a) (hb : es[j]? = some b)
    (hij : (i + 1 = j ∧ turn = 0) ∨ (i + 1 = es.length ∧ j = 0 ∧ turn = 1))
    (hold : beginsAt 0 a a.offset + a.width ≤ beginsAt turn b b.offset) :
    beginsAt 0 a (offsetMade limit es i a) + a.width ≤ beginsAt turn b (offsetMade limit es j b) := by
  have hi := (List.getElem?_eq_some_iff.1 ha).1
  have hj := (List.getElem?_eq_some_iff.1 hb).1
  have hsome : ∀ k, k < es.length → ∃ x, es[k]? = some x := fun k hk => ⟨_, List.getElem?_eq_getElem hk⟩
  rcases offsetMade_cases limit es j b with hjold | hjnew
  · rcases offsetMade_cases limit es i a with hiold | hinew
    · rw [hiold, hjold]; exact hold
    · obtain ⟨p, hp⟩ := hsome (if i = 0 then es.length - 1 else i - 1) (by split <;> omega)
      have hn : es[if i + 1 < es.length then i + 1 else 0]? = some b := by
        rcases hij with ⟨rfl, -⟩ | ⟨h, rfl, -⟩
        · rwa [if_pos hj]
        · rwa [if_neg (by omega)]
      have hturn : (if i + 1 < es.length then (0 : Int) else 1) = turn := by
        rcases hij with ⟨rfl, rfl⟩ | ⟨h, -, rfl⟩
        · exact if_pos hj
        · exact if_neg (by omega)
      have hpass := ((candidatePasses_iff hlen hp hn).1 hinew).2
      rw [hturn] at hpass
      exact hpass.trans (earlierStart_le_begin limit turn es j b)
  · obtain ⟨n, hn⟩ := hsome (if j + 1 < es.length then j + 1 else 0) (by split <;> omega)
    have hp : es[if j = 0 then es.length - 1 else j - 1]? = some a := by
      rcases hij with ⟨rfl, -⟩ | ⟨h, rfl, -⟩
      · rwa [if_neg (by omega), Nat.add_sub_cancel]
      · rwa [if_pos rfl, ← h, Nat.add_sub_cancel]
    have hturn : (if j = 0 then (-1 : Int) else 0) = -turn := by
      rcases hij with ⟨rfl, rfl⟩ | ⟨-, rfl, rfl⟩ <;> simp
    have hpass := ((candidatePasses_iff hlen hp hn).1 hjnew).1
    have hend := end_le_laterEnd limit (-turn) es i a
    rw [hturn] at hpass
    unfold beginsAt at *
    omega

theorem advanceBlades_loaded (limit : Nat) (gen : Id16) (es : List BladeEntry) {β : Type} (f : Id16 × Angle × Nat → β) :
    ((advanceBlades limit gen es).map (·.1)).map (fun e => f (e.id, e.nominal, e.width)) =
      es.map fun e => f (e.id, e.nominal, e.width) := by
  apply List.ext_getElem?
  intro i
  simp only [List.getElem?_map, getElem?_advanceBlades, Option.map_map]
  congr 1
  funext e
  obtain ⟨hid, hnom, hwidth, -⟩ := advanceBlade_entry limit gen es i e
  simp only [Function.comp_apply, hid, hnom, hwidth]

theorem advanceBlades_separated {limit : Nat} {gen : Id16} {es : List BladeEntry}
    (hs : Separated (fun e => e.offset) es) :
    Separated (fun e => e.offset) ((advanceBlades limit gen es).map (·.1)) := by
  have hentry : ∀ {i : Nat} {f : BladeEntry}, ((advanceBlades limit gen es).map (·.1))[i]? = some f →
      ∃ e, es[i]? = some e ∧ f.nominal = e.nominal ∧ f.width = e.width ∧ f.offset = offsetMade limit es i e := by
    intro i f hf
    simp only [List.getElem?_map, getElem?_advanceBlades, Option.map_map, Option.map_eq_some_iff] at hf
    obtain ⟨e, he, rfl⟩ := hf
    obtain ⟨-, hnom, hwidth, hoff⟩ := advanceBlade_entry limit gen es i e
    exact ⟨e, he, hnom, hwidth, hoff⟩
  rw [separated_iff] at hs ⊢
  constructor
  · intro i a b ha hb
    obtain ⟨a', ha', hna, hwa, hoa⟩ := hentry ha
    obtain ⟨b', hb', hnb, -, hob⟩ := hentry hb
    have hj := (List.getElem?_eq_some_iff.1 hb').1
    have := made_apart (limit := limit) (by omega) ha' hb' (.inl ⟨rfl, rfl⟩) (hs.1 i a' b' ha' hb')
    simpa only [apart, beginsAt, hna, hwa, hoa, hnb, hob] using this
  · intro a z ha hz
    rw [List.length_map, length_advanceBlades] at hz
    obtain ⟨a', ha', hna, -, hoa⟩ := hentry ha
    obtain ⟨z', hz', hnz, hwz, hoz⟩ := hentry hz
    have hold := hs.2 a' z' ha' hz'
    rcases Nat.lt_or_ge 1 es.length with hlen | hlen
    · have := made_apart (limit := limit) hlen hz' ha' (.inr ⟨by omega, rfl, rfl⟩) hold
      simpa only [apart, beginsAt, hna, hoa, hnz, hwz, hoz] using this
    · have h0 : es.length - 1 = 0 := by omega
      rw [h0] at hz' hz
      obtain rfl : a' = z' := by rw [ha'] at hz'; exact Option.some.inj hz'
      obtain rfl : a = z := by rw [ha] at hz; exact Option.some.inj hz
      unfold apart beginsAt at *
      omega

theorem bladesNewRevolution_change (s : State) : Change s (bladesNewRevolution s) := by
  unfold bladesNewRevolution
  split
  · refine (Change.of_table (b := newGeneration
      ((advanceBlades s.bt.params.limit (s.bt.gen + 1) s.bt.entries).map (·.1)) s.bt) ?_).trans
      (queueNotices_change _ _)
    refine ⟨rfl, advanceBlades_loaded _ _ _ id, fun h => h.newGeneration rfl ?_ (advanceBlades_separated h.2.1)⟩
    exact separated_of_map_eq (advanceBlades_loaded _ _ _ fun x => (x.2.1, x.2.2, (0 : Int))) h.1
  · exact .refl s

/-! ## The tracking limit (R71) -/

theorem limitEntry_entry (limit : Nat) (e : BladeEntry) :
    (limitEntry limit e).id = e.id ∧ (limitEntry limit e).nominal = e.nominal ∧
      (limitEntry limit e).width = e.width ∧ (limitEntry limit e).offset = limited limit e.offset := by
  unfold limitEntry
  split
  · exact ⟨rfl, rfl, rfl, Eq.symm ‹_›⟩
  · exact ⟨rfl, rfl, rfl, rfl⟩

/-- Clamping moves two windows together no further than their nominal windows stand. -/
theorem apart_limited {limit : Nat} {turn : Int} {a b : BladeEntry} (hnom : apart (fun _ => 0) turn a b)
    (hoff : apart (fun e => e.offset) turn a b) : apart (fun e => limited limit e.offset) turn a b := by
  simp only [apart, beginsAt, limited, clampInt] at *
  omega

theorem limitEntries_nominal (limit : Nat) (es : List BladeEntry) (o : Int) :
    (es.map (limitEntry limit)).map (fun e => (e.nominal, e.width, o)) = es.map fun e => (e.nominal, e.width, o) := by
  rw [List.map_map]
  refine List.map_congr_left fun e _ => ?_
  obtain ⟨-, hnom, hwidth, -⟩ := limitEntry_entry limit e
  simp only [Function.comp_apply, hnom, hwidth]

theorem limitEntries_separated {limit : Nat} {es : List BladeEntry} (hnom : Separated (fun _ => 0) es)
    (hoff : Separated (fun e => e.offset) es) : Separated (fun e => e.offset) (es.map (limitEntry limit)) := by
  have hlimited : Separated (fun e => limited limit e.offset) es := by
    rw [separated_iff] at *
    exact ⟨fun i a b ha hb => apart_limited (hnom.1 i a b ha hb) (hoff.1 i a b ha hb),
      fun a z ha hz => apart_limited (hnom.2 a z ha hz) (hoff.2 a z ha hz)⟩
  refine separated_of_map_eq ?_ hlimited
  rw [List.map_map]
  refine List.map_congr_left fun e _ => ?_
  obtain ⟨-, hnom', hwidth, hoff'⟩ := limitEntry_entry limit e
  simp only [Function.comp_apply, hnom', hwidth, hoff']

theorem limitedGeneration_apart {limit : Nat} {b c : BladeTable} (h : TableApart b) (hc : c.current = b.current) :
    TableApart (Machine.newGeneration (b.entries.map (limitEntry limit)) c) :=
  h.newGeneration hc (separated_of_map_eq (limitEntries_nominal limit b.entries 0) h.1)
    (limitEntries_separated h.1 h.2.1)

/-! ## Loading (R58, R59) -/

theorem chainOk_iff {α : Type} {t : α → α → Bool} {xs : List α} :
    chainOk t xs = true ↔ xs.IsChain fun a b => t a b = true := by
  induction xs with
  | nil => simp [chainOk]
  | cons a xs ih =>
    cases xs with
    | nil => simp [chainOk]
    | cons b xs => rw [chainOk, Bool.and_eq_true, ih, List.isChain_cons_cons]

/-- The tests of R58, one by one. -/
theorem loadsOk_iff {ls : List BladeLoad} :
    loadsOk ls = true ↔ ls.length ≤ 128 ∧
      (∀ l ∈ ls, l.nominal ≤ 16777215 ∧ 16 ≤ l.width ∧ l.width ≤ 4194304) ∧
      (∀ (i : Nat) (a b : BladeLoad), ls[i]? = some a → ls[i + 1]? = some b →
        a.nominal < b.nominal ∧ a.nominal + a.width ≤ b.nominal) ∧
      (ls.map (·.id)).Nodup ∧
      ∀ a z : BladeLoad, ls.head? = some a → ls.getLast? = some z → 2 ≤ ls.length →
        z.nominal + z.width ≤ a.nominal + 16777216 := by
  have hlast : lastOk ls = true ↔ ∀ a z : BladeLoad, ls.head? = some a → ls.getLast? = some z → 2 ≤ ls.length →
      z.nominal + z.width ≤ a.nominal + 16777216 := by
    unfold lastOk
    split
    · rename_i a z ha hz
      simp only [ha, hz, Option.some.injEq, Bool.or_eq_true, decide_eq_true_eq]
      constructor
      · rintro h _ _ rfl rfl hlen
        omega
      · intro h
        rcases Nat.lt_or_ge ls.length 2 with hlen | hlen
        · left; omega
        · exact .inr (h a z rfl rfl hlen)
    · rename_i hno
      simp only [true_iff]
      exact fun a z ha hz => (hno a z ha hz).elim
  unfold loadsOk
  simp only [Bool.and_eq_true, decide_eq_true_eq, List.all_eq_true, chainOk_iff, isChain_iff_getElem?, hlast,
    and_assoc]

theorem loaded_separated {ls : List BladeLoad} (h : loadsOk ls = true) :
    Separated (fun _ => 0) (ls.map loadedEntry) := by
  obtain ⟨-, hrange, hchain, -, hlast⟩ := loadsOk_iff.1 h
  have hnominal : ∀ l ∈ ls, (loadedEntry l).nominal.toNat = l.nominal := by
    intro l hl
    have := (hrange l hl).1
    simp only [loadedEntry, BitVec.toNat_ofNat]
    omega
  rw [separated_iff]
  simp only [List.getElem?_map, Option.map_eq_some_iff, List.length_map]
  constructor
  · rintro i _ _ ⟨a, ha, rfl⟩ ⟨b, hb, rfl⟩
    have hab := (hchain i a b ha hb).2
    simp only [apart, beginsAt, hnominal a (List.mem_of_getElem? ha), hnominal b (List.mem_of_getElem? hb)]
    simp only [loadedEntry]
    omega
  · rintro _ _ ⟨a, ha, rfl⟩ ⟨z, hz, rfl⟩
    have hz' := List.mem_of_getElem? hz
    simp only [apart, beginsAt, hnominal a (List.mem_of_getElem? ha), hnominal z hz']
    simp only [loadedEntry]
    have hwidth := (hrange z hz').2.2
    rcases Nat.lt_or_ge ls.length 2 with hlen | hlen
    · rw [show ls.length - 1 = 0 by omega, ha] at hz
      obtain rfl := Option.some.inj hz
      omega
    · rw [← List.head?_eq_getElem?] at ha
      rw [← List.getLast?_eq_getElem?] at hz
      have := hlast a z ha hz hlen
      omega

theorem loadTable_apart {ls : List BladeLoad} (h : loadsOk ls = true) (b : BladeTable) : TableApart (loadTable ls b) := by
  have hnom := loaded_separated h
  have hoff : Separated (fun e => e.offset) (ls.map loadedEntry) := by
    refine separated_of_map_eq ?_ hnom
    simp only [List.map_map]
    rfl
  exact ⟨hnom, hoff, rfl, atMostOne_of_separated hoff⟩

end Sys2Proof.Proofs
end

