-- ==== Sys2Proof/Proofs/Operations.lean ====
section
/-! PROOF. Every operation of the running controller is a `Change`: the operations in the order in which the model
defines them, each by the changes it is made of. -/

open Sys2Proof Sys2Proof.Machine

namespace Sys2Proof.Proofs

/-! ## Records and tail ends -/

theorem flagOpen_change (f : RecordFlag) (h : Head) (s : State) : Change s (flagOpen f h s) :=
  onDetector_change (flagDetector_change f _)

theorem deliver_change (h : Head) (r : OpenRecord) (s : State) : Change s (deliver h r s) := by
  unfold deliver
  split
  · exact .refl s
  · exact .of_others s s.tu s.rm s.ax _ s.freeCount

theorem deliverClosed_change (h : Head) (r : Option OpenRecord) (s : State) : Change s (deliverClosed h r s) := by
  cases r with
  | none => exact .refl s
  | some r => exact deliver_change h r s

theorem closeHead_change (aborted : Bool) (h : Head) (s : State) : Change s (closeHead aborted h s) :=
  (onDetector_change (closeOpen_change aborted false _)).trans (deliverClosed_change _ _ _)

theorem tailEndHead_change (h : Head) (s : State) : Change s (tailEndHead h s) := by
  unfold tailEndHead
  split
  · exact closeHead_change false h s
  · exact .refl s

theorem tailEnds_change (s : State) : Change s (tailEnds s) := .foldl (fun t h => tailEndHead_change h t) _ s

/-! ## Teardown, halts and the latch -/

theorem stopTails_change (s : State) : Change s (stopTails s) := .of_others s _ s.rm s.ax s.bus s.freeCount

theorem emptyPorts_change (s : State) : Change s (emptyPorts s) := by
  refine .of_ports fun h => ?_
  rw [PerHead.get_map]
  exact ⟨rfl, fun w => ⟨Nat.zero_le _, Nat.zero_le _, w.2.2⟩⟩

theorem abortRecords_change (s : State) : Change s (abortRecords s) := by
  refine (Change.foldl (fun t h => closeHead_change true h t) heads s).trans (.of_engine fun h => ?_)
  rw [PerHead.get_map]
  exact toOutside_change _

/-- A plan without an active step, its slots, latch and secondary count as they were. -/
theorem PlanChange.of_inactive {p q : ScanPlan} (hs : q.slots = p.slots) (ha : q.active = none)
    (hl : q.latch = p.latch) (hn : q.secondary = p.secondary) : PlanChange p q where
  slots := hs
  active _ _ a e := by rw [ha] at e; cases e
  latch _ hr := .inl (hl.trans hr)
  secondary := hn.ge

theorem teardown_change (st : PlanState) (s : State) : Change s (teardown st s) :=
  ((abortRecords_change s).trans (emptyPorts_change _)).trans <| (stopTails_change _).trans <|
    { Change.refl _ with plan := .of_inactive rfl rfl rfl rfl }

theorem takeHalt_change (s : State) : Change s (takeHalt s) := by
  unfold takeHalt
  split
  · exact .refl s
  · rename_i r hr
    refine ((stopTails_change s).trans ?_).trans (queueNotice_change _ _)
    refine { Change.refl _ with plan := ⟨rfl, fun _ _ a e => ?_, fun x hx => .inr ?_, le_rfl⟩ }
    · cases e
    · obtain rfl : r = x := Option.some.inj (hr.symm.trans hx)
      rfl

theorem latchFirst_change {r : FaultRecord} {s : State} (h : s.spe.latch = none) : Change s (latchFirst r s) := by
  have hlatch : Change s (onPlan (fun p => { p with latch := some r }) s) := by
    refine onPlan_change ⟨rfl, fun _ ha => ha, fun x hx => ?_, le_rfl⟩
    rw [h] at hx; cases hx
  unfold latchFirst
  split
  · exact (hlatch.trans (teardown_change _ _)).trans (queueNotice_change _ _)
  · dsimp only
    split
    · exact (hlatch.trans (queueNotice_change _ _)).trans (takeHalt_change _)
    · exact hlatch.trans (queueNotice_change _ _)

theorem le_satInc (n : Nat) : n ≤ satInc n := by
  unfold satInc; split <;> omega

theorem latchSecond_change {held r : FaultRecord} {s : State} (h : s.spe.latch = some held) :
    Change s (latchSecond held r s) := by
  have hcount : Change s (onPlan (fun p => { p with secondary := satInc p.secondary }) s) :=
    onPlan_change ⟨rfl, fun _ ha => ha, fun _ hx => .inl hx, le_satInc _⟩
  unfold latchSecond
  dsimp only
  split
  · refine (hcount.trans ?_).trans (queueNotice_change _ _)
    refine Change.trans (onPlan_change ⟨rfl, fun _ ha => ha, fun x hx => .inr ?_, le_rfl⟩) (teardown_change _ _)
    obtain rfl : held = x := Option.some.inj (h.symm.trans hx)
    rfl
  · exact hcount.trans (queueNotice_change _ _)

theorem countFault_change (cls : FaultClass) (s : State) : Change s (onPlan (countFault cls) s) :=
  onPlan_change (.of_eq rfl rfl rfl rfl)

theorem raiseFault_change (x : Raising) (s : State) : Change s (raiseFault x s) := by
  rcases raiseFault_cases x s with ⟨-, e⟩ | ⟨-, hl, e⟩ | ⟨-, held, hl, e⟩ <;> rw [e]
  · exact (countFault_change _ s).trans (queueNotice_change _ _)
  · exact (countFault_change _ s).trans (latchFirst_change hl)
  · exact (countFault_change _ s).trans (latchSecond_change hl)

theorem stopRun_change (byLine : Bool) (s : State) : Change s (stopRun byLine s) := by
  unfold stopRun
  split
  · exact .refl s
  · dsimp only
    split
    · exact (teardown_change _ s).trans (queueNotice_change _ _)
    · exact ((teardown_change _ s).trans (queueNotice_change _ _)).trans (takeHalt_change _)

/-! ## Settling, drift and arming -/

theorem endSettling_change (p : ScanStep) (s : State) : Change s (endSettling p s) := by
  have harmed : Change s (onPlan (fun q => { q with state := .armed, settleTimer := none }) s) :=
    onPlan_change (.of_eq rfl rfl rfl rfl)
  unfold endSettling
  dsimp only
  split
  · exact harmed.trans (onAcc_change _ _)
  · exact harmed

theorem settleTest_change (s : State) : Change s (settleTest s) := by
  rcases settleTest_cases s with e | ⟨a, -, -, ⟨-, -, e⟩ | ⟨-, e⟩⟩ <;> rw [e]
  · exact .refl s
  · exact endSettling_change _ s
  · exact onPlan_change (.of_eq rfl rfl rfl rfl)

theorem settleTick_change (s : State) : Change s (settleTick s) := by
  unfold settleTick
  split
  · exact .refl s
  · split
    · exact (onPlan_change (.of_eq rfl rfl rfl rfl)).trans (settleTest_change _)
    · exact settleTest_change s

theorem armTick_change (s : State) : Change s (armTick s) := by
  unfold armTick
  split
  · split
    · split
      · exact (onPlan_change (.of_eq rfl rfl rfl rfl)).trans (raiseFault_change _ _)
      · exact onPlan_change (.of_eq rfl rfl rfl rfl)
    · exact .refl s
  · exact .refl s

theorem driftTest_change (s : State) : Change s (driftTest s) := by
  rcases driftTest_cases s with e | ⟨a, -, -, ⟨-, -, e⟩ | ⟨-, e⟩⟩ <;> rw [e]
  · exact .refl s
  · exact (onPlan_change (.of_eq rfl rfl rfl rfl)).trans (sendRaising_change _ _)
  · exact onPlan_change (.of_eq rfl rfl rfl rfl)

theorem radiusMoved_change (before : Nat) (s : State) : Change s (radiusMoved before s) := by
  unfold radiusMoved
  split
  · exact .refl s
  · exact (settleTest_change s).trans (driftTest_change _)

theorem stepInvalid_change (tag : Id16) (s : State) : Change s (stepInvalid tag s) := raiseFault_change _ s

/-- Clamping the blade range to the table keeps the step in its ranges (R107, R114). -/
theorem stepStored_stepCopy {p : ScanStep} (h : StepStored p) (s : State) : StepStored (stepCopy p s) := by
  unfold stepCopy
  split
  · exact h
  · obtain ⟨hmode, hr, ht, hse, hp, hg, hf, hl, hd, hkon, hkon', hkoff, hkoff', hth, hform⟩ := h
    refine ⟨hmode, hr, ht, hse, hp, hg, ?_, ?_, hd, hkon, hkon', hkoff, hkoff', hth, ?_⟩
    · exact (Nat.min_le_left _ _).trans hf
    · exact (Nat.min_le_left _ _).trans hl
    · have hcopy : min p.first (s.bt.entries.length - 1) ≤ min p.last (s.bt.entries.length - 1) ∨ ¬p.first ≤ p.last := by
        omega
      simp only [stepFormOk, Bool.and_eq_true, decide_eq_true_eq] at hform ⊢
      obtain ⟨⟨⟨⟨hmask, hpasses⟩, hrange⟩, hlearn⟩, htrack⟩ := hform
      exact ⟨⟨⟨⟨hmask, hpasses⟩, hcopy.resolve_right (not_not_intro hrange)⟩, hlearn⟩, htrack⟩

/-- The step that is armed is stored in its slot, so that its copy is in its ranges. -/
theorem stepStored_of_armable {slot : Slot} {s : State} {p : ScanStep} (hs : SlotsStored s.spe)
    (h : armable slot s = some p) : StepStored (stepCopy p s) :=
  stepStored_stepCopy (hs slot p (armable_some h).1) s

theorem armSlot_change (how : Arming) (slot : Slot) (s : State) : Change s (armSlot how slot s) := by
  unfold armSlot
  split
  · exact stepInvalid_change _ s
  · rename_i p hp
    refine ((stopTails_change s).trans ?_).trans (settleTest_change _)
    refine { Change.refl _ with encoder := ⟨rfl, id⟩, detectors := fun h => ?_, plan := ?_ }
    · show DetectorChange _ ((s.pe.detectors.map armDetector).get h)
      rw [PerHead.get_map]
      exact armDetector_change _
    · refine ⟨rfl, fun hs _ a ha => ?_, fun _ hx => .inl hx, le_rfl⟩
      obtain rfl := Option.some.inj ha
      exact stepStored_of_armable hs hp

/-! ## Passes, tails and decisions -/

theorem startTail_change (a : ActiveStep) (h : Head) (s : State) : Change s (startTail a h s) := by
  unfold startTail
  dsimp only
  split
  · exact .of_others s _ s.rm s.ax s.bus _
  · exact onTrigger_change _ _ s

theorem enterTail_change (a : ActiveStep) (s : State) : Change s (enterTail a s) := by
  have hpulse : Change s (beginPulse .passEnd (onPlan (fun q => { q with state := .tail }) s)) :=
    (onPlan_change (.of_eq rfl rfl rfl rfl)).trans (beginPulse_change _ _)
  exact (hpulse.trans (.of_others _ _ _ _ _ _)).trans (.foldl (fun t h => startTail_change a h t) _ _)

theorem enterAcquiring_change (a : ActiveStep) (s : State) : Change s (enterAcquiring a s) := by
  refine Change.trans ?_ (driftTest_change _)
  exact { Change.refl s with encoder := ⟨rfl, id⟩, plan := .of_eq rfl rfl rfl rfl }

theorem planNewRevolution_change (s : State) : Change s (planNewRevolution s) := by
  rcases planNewRevolution_cases s with e | ⟨a, -, ⟨-, e⟩ | ⟨-, -, -, e⟩ | ⟨-, -, e⟩⟩ <;> rw [e]
  · exact .refl s
  · exact enterAcquiring_change a s
  · exact onPlan_change (.of_eq rfl rfl rfl rfl)
  · exact (onPlan_change (.of_eq rfl rfl rfl rfl)).trans (enterTail_change a _)

theorem finishPlan_change (s : State) : Change s (finishPlan s) := by
  unfold finishPlan
  split
  · exact .refl s
  · exact ((stopTails_change s).trans (queueNotice_change _ _)).trans (onPlan_change (.of_inactive rfl rfl rfl rfl))

theorem carryOut_change (d : Decision) (s : State) : Change s (carryOut d s) := by
  cases d with
  | arm n => exact armSlot_change .fresh n s
  | halt f =>
    exact (stopTails_change s).trans
      (onPlan_change (f := fun q => { q with state := .halted, pendingDecision := some f }) (.of_eq rfl rfl rfl rfl))
  | finish => exact finishPlan_change s

/-! ## Interjections and completion -/

theorem startInterjection_change (c : Context) (slot : Slot) (s : State) : Change s (startInterjection c slot s) :=
  (onPlan_change (.of_eq rfl rfl rfl rfl)).trans (armSlot_change _ _ _)

theorem requestInterjection_change (slot : Slot) (s : State) : Change s (requestInterjection slot s) := by
  unfold requestInterjection
  split
  · exact .refl s
  · split
    · exact startInterjection_change _ _ s
    · exact startInterjection_change _ _ s
    · exact startInterjection_change _ _ s
    · exact onPlan_change (.of_eq rfl rfl rfl rfl)
    · exact onPlan_change (.of_eq rfl rfl rfl rfl)
    · exact .refl s
    · exact .refl s

theorem stepStored_tag {p : ScanStep} (h : StepStored p) (tag : Id16) : StepStored { p with tag := tag } := h

theorem holdMain_change (c : Context) (s : State) : Change s (holdMain c s) := by
  refine onPlan_change ⟨rfl, fun hs _ a ha => ?_, fun _ hx => .inl hx, le_rfl⟩
  obtain ⟨p, hp, rfl⟩ := Option.map_eq_some_iff.1 ha
  exact stepStored_tag (stepStored_stepCopy (hs c.slot p hp) s) c.tag

theorem restoreContext_change (c : Context) (s : State) : Change s (restoreContext c s) := by
  have hleft : Change s (onPlan (fun q => { q with interjection := .none, context := none }) s) :=
    onPlan_change (.of_eq rfl rfl rfl rfl)
  unfold restoreContext
  dsimp only
  refine hleft.trans ?_
  split
  · exact armSlot_change _ _ _
  · exact armSlot_change _ _ _
  · exact (holdMain_change c _).trans (carryOut_change _ _)
  · exact (holdMain_change c _).trans (carryOut_change _ _)
  · exact .refl _
  · exact .refl _

theorem reportStep_change (a : ActiveStep) (s : State) : Change s (reportStep a s) := by
  refine Change.trans ?_ (queueNotice_change _ _)
  split
  · exact .of_others s s.tu _ s.ax s.bus s.freeCount
  · exact .refl s

theorem afterStep_change (a : ActiveStep) (s : State) : Change s (afterStep a s) := by
  unfold afterStep
  split
  · exact takeHalt_change s
  · split
    · split
      · exact restoreContext_change _ s
      · exact finishPlan_change s
    · split
      · exact stepInvalid_change _ s
      · exact startInterjection_change _ _ s
    · split
      · exact stepInvalid_change _ s
      · exact carryOut_change _ s

theorem endInterjectionTail_change (a : ActiveStep) (slot : Slot) (s : State) :
    Change s (endInterjectionTail a slot s) := by
  unfold endInterjectionTail
  split
  · exact takeHalt_change s
  · refine Change.trans ?_ (startInterjection_change _ _ _)
    split
    · exact .of_others s s.tu _ s.ax s.bus s.freeCount
    · exact .refl s

theorem completeStep_change (s : State) : Change s (completeStep s) := by
  unfold completeStep
  split
  · exact .refl s
  · split
    · exact (reportStep_change _ s).trans (afterStep_change _ _)
    · exact .refl s

theorem finishInterjectionTail_change (s : State) : Change s (finishInterjectionTail s) := by
  unfold finishInterjectionTail
  split
  · split
    · exact endInterjectionTail_change _ _ s
    · exact .refl s
  · exact .refl s

theorem takeRaising_change (choice : Nat) (s : State) : Change s (takeRaising choice s) := by
  unfold takeRaising
  split
  · exact .refl s
  · exact Change.trans (.of_others s s.tu s.rm s.ax _ s.freeCount) (raiseFault_change _ _)

/-! ## Triggers -/

theorem issueTrigger_change {a : ActiveStep} {h : Head} {s : State} (hroom : listHasRoom h s = true) :
    Change s (issueTrigger a h s) := by
  refine Change.trans (onPort_change (h := h) ⟨rfl, fun w => ⟨?_, w.2⟩⟩) (.of_others _ _ _ _ _ _)
  have : (s.hp.get h).outstanding.length < 16 := of_decide_eq_true hroom
  rw [List.length_append, List.length_singleton]
  omega

theorem attemptTrigger_change (a : ActiveStep) (h : Head) (s : State) : Change s (attemptTrigger a h s) := by
  rcases attemptTrigger_cases a h s with ⟨-, e⟩ | ⟨-, -, e⟩ | ⟨-, hroom, e⟩ <;> rw [e]
  · exact (onCounters_change _ _ s).trans (flagOpen_change _ _ _)
  · exact (onCounters_change _ _ s).trans (flagOpen_change _ _ _)
  · exact issueTrigger_change hroom

theorem dueHead_change (a : ActiveStep) (h : Head) (s : State) : Change s (dueHead a h s) := by
  unfold dueHead
  split
  · exact .refl s
  · split
    · split
      · exact attemptTrigger_change a h s
      · exact .refl s
    · split
      · split
        · exact attemptTrigger_change a h s
        · exact .refl s
      · exact onTrigger_change _ _ s
    · exact .refl s

theorem dueInstant_change (a : ActiveStep) (s : State) : Change s (dueInstant a s) :=
  .foldl (fun t h => dueHead_change a h t) _ s

theorem angleDue_change (s : State) : Change s (angleDue s) := by
  unfold angleDue
  split
  · exact .refl s
  · split
    · split
      · exact dueInstant_change _ s
      · exact .refl s
    · exact .refl s

theorem timeDue_change (s : State) : Change s (timeDue s) := by
  unfold timeDue
  split
  · split
    · split
      · refine Change.trans ?_ (tailEnds_change _)
        exact Change.trans (.of_others s _ s.rm s.ax s.bus s.freeCount) (dueInstant_change _ _)
      · exact .refl s
    · exact .refl s
  · exact .refl s

theorem pulseOver_change (h : Head) (s : State) : Change s (pulseOver h s) := by
  unfold pulseOver
  split
  · split
    · exact onTrigger_change _ _ s
    · exact .refl s
  · exact .refl s

theorem forgetTrigger_change (h : Head) (s : State) : Change s (forgetTrigger h s) := by
  unfold forgetTrigger
  split
  · split
    · exact onTrigger_change _ _ s
    · exact .refl s
  · exact .refl s

/-! ## The encoder unit -/

theorem netUp_range {n : Int} (h : -2147483648 ≤ n ∧ n ≤ 2147483647) :
    -2147483648 ≤ netUp n ∧ netUp n ≤ 2147483647 := by
  unfold netUp; split <;> omega

theorem netDown_range {n : Int} (h : -2147483648 ≤ n ∧ n ≤ 2147483647) :
    -2147483648 ≤ netDown n ∧ netDown n ≤ 2147483647 := by
  unfold netDown; split <;> omega

theorem pushEdge_length {t : Tick} {ring : List Tick} (h : ring.length ≤ 65) : (pushEdge t ring).length ≤ 65 := by
  unfold pushEdge Config.ringLimit
  split <;> simp only [List.length_append, List.length_singleton, List.length_tail] <;> omega

theorem crossForward_change (e : Encoder) : EncoderChange e (crossForward e) := by
  unfold crossForward
  dsimp only
  split <;> exact ⟨rfl, fun ⟨hcount, hnet, hring⟩ => ⟨hcount, netUp_range hnet, hring⟩⟩

theorem edgeForward_change (e : Encoder) : EncoderChange e (edgeForward e) :=
  ⟨rfl, fun ⟨⟨hlo, hhi, _⟩, hnet, hring⟩ =>
    ⟨⟨hlo, hhi, Nat.mod_lt _ (Nat.lt_of_lt_of_le (by decide) hlo)⟩, hnet, pushEdge_length hring⟩⟩

theorem edgeReverse_change (e : Encoder) : EncoderChange e (edgeReverse e) := by
  refine ⟨rfl, fun ⟨⟨hlo, hhi, _⟩, hnet, _⟩ =>
    ⟨⟨hlo, hhi, Nat.mod_lt _ (Nat.lt_of_lt_of_le (by decide) hlo)⟩, ?_, Nat.zero_le _⟩⟩
  unfold edgeReverse
  dsimp only
  split
  · exact netDown_range hnet
  · exact hnet

/-- The readings that the bounds do not speak of are free. -/
theorem encoderWithin_of_eq {e f : Encoder} (hp : f.params = e.params) (hc : f.count = e.count)
    (hn : f.netRevs = e.netRevs) (hr : f.ring = e.ring) (h : EncoderWithin e) : EncoderWithin f := by
  unfold EncoderWithin at *
  rwa [hp, hc, hn, hr]

/-- The count is set to 0, at an index (R5, R6). -/
theorem countZero_within {e : Encoder} {r : Bool} (h : EncoderWithin e) :
    EncoderWithin { e with count := 0, referenced := r } :=
  ⟨⟨h.1.1, h.1.2.1, Nat.lt_of_lt_of_le (Nat.succ_pos 4095) h.1.1⟩, h.2⟩

theorem strobeEdge_change (s : State) : Change s (strobeEdge s) := by
  unfold strobeEdge
  split
  · exact .refl s
  · split
    · unfold strobeAt
      split
      · exact .of_others s s.tu s.rm _ s.bus s.freeCount
      · split
        · exact .refl s
        · exact .of_others s s.tu s.rm _ s.bus s.freeCount
    · exact .refl s

theorem takeBy_change (revolution edge : Bool) (s : State) (t : Taker) : Change s (takeBy revolution edge s t) := by
  cases t <;> unfold takeBy <;> dsimp only <;> split
  · exact planNewRevolution_change s
  · exact .refl s
  · exact bladesNewRevolution_change s
  · exact .refl s
  · exact angleDue_change s
  · exact .refl s
  · exact strobeEdge_change s
  · exact .refl s

theorem takeAll_change (order : List Taker) (revolution edge : Bool) (s : State) :
    Change s (takeAll order revolution edge s) :=
  (Change.foldl (takeBy_change revolution edge) _ s).trans (tailEnds_change _)

theorem forwardEdge_change (order : List Taker) (s : State) : Change s (forwardEdge order s) := by
  refine Change.trans (onEncoder_change ?_) (takeAll_change _ _ _ _)
  split
  · exact (edgeForward_change _).trans (crossForward_change _)
  · exact edgeForward_change _

theorem reverseEdge_change (s : State) : Change s (reverseEdge s) := by
  have hedge : Change s (onEncoder edgeReverse s) := onEncoder_change (edgeReverse_change _)
  unfold reverseEdge
  dsimp only
  split
  · exact hedge.trans (sendRaising_change _ _)
  · exact hedge

theorem tableTransition_change (edge : Transition) (order : List Taker) (s : State) :
    Change s (tableTransition edge order s) := by
  cases edge with
  | forward => exact forwardEdge_change order s
  | reverse => exact reverseEdge_change s
  | both => exact .of_encoder ⟨rfl, encoderWithin_of_eq rfl rfl rfl rfl⟩

theorem checkedIndex_change (order : List Taker) (s : State) : Change s (checkedIndex order s) := by
  unfold checkedIndex
  dsimp only
  refine Change.trans ?_ (takeAll_change _ _ _ _)
  have hslip : Change s (if indexSlips s then sendRaising (raisedNow .indexSlip none s) s else s) :=
    .ite (sendRaising_change _ s) (.refl s)
  have hcount (u : State) : Change u
      (if u.eu.params.indexCorrection then onEncoder (fun e => { e with count := 0 }) u else u) :=
    .ite (onEncoder_change ⟨rfl, countZero_within⟩) (.refl u)
  have hcross (u : State) (c : Bool) : Change u (if c then onEncoder crossForward u else u) :=
    .ite (onEncoder_change (crossForward_change _)) (.refl u)
  exact (hslip.trans (hcount _)).trans (hcross _ _)

theorem referencingIndex_change (s : State) : Change s (referencingIndex s) := by
  refine Change.trans ?_ (settleTest_change _)
  exact (onEncoder_change ⟨rfl, countZero_within⟩).trans (queueNotice_change _ _)

theorem indexEdge_change (order : List Taker) (s : State) : Change s (indexEdge order s) :=
  .ite (.refl s) (.ite (checkedIndex_change order s) (referencingIndex_change s))

theorem dedicatedIndex_change (order : List Taker) (s : State) : Change s (dedicatedIndex order s) :=
  .ite (.refl s) (indexEdge_change order s)

theorem ringExpires_change (s : State) : Change s (ringExpires s) := by
  unfold ringExpires
  split
  · exact .ite (onEncoder_change ⟨rfl, fun w => ⟨w.1, w.2.1, Nat.zero_le _⟩⟩) (.refl s)
  · exact .refl s

theorem stallExpires_change (s : State) : Change s (stallExpires s) := by
  refine .ite ?_ (.refl s)
  exact (onEncoder_change ⟨rfl, encoderWithin_of_eq rfl rfl rfl rfl⟩).trans (sendRaising_change _ _)

theorem radialTransition_change (edge : Transition) (s : State) : Change s (radialTransition edge s) := by
  cases edge with
  | forward => exact (onEncoder_change ⟨rfl, encoderWithin_of_eq rfl rfl rfl rfl⟩).trans (radiusMoved_change _ _)
  | reverse => exact (onEncoder_change ⟨rfl, encoderWithin_of_eq rfl rfl rfl rfl⟩).trans (radiusMoved_change _ _)
  | both => exact .of_encoder ⟨rfl, encoderWithin_of_eq rfl rfl rfl rfl⟩

theorem millisecond_change (s : State) : Change s (millisecond s) := by
  refine .ite ?_ (.refl s)
  exact ((onPlan_change (.of_eq rfl rfl rfl rfl)).trans (settleTick_change _)).trans (armTick_change _)

/-! ## Head ports -/

theorem enqueueSample_change (h : Head) (x : Sample) (s : State) : Change s (enqueueSample h x s) := by
  rcases enqueueSample_cases h x s with ⟨hroom, e⟩ | ⟨-, e⟩ <;> rw [e]
  · refine onPort_change ⟨rfl, fun w => ⟨w.1, ?_, w.2.2⟩⟩
    rw [List.length_append, List.length_singleton]
    omega
  · exact (onCounters_change _ _ s).trans (flagOpen_change _ _ _)

theorem resolveSilent_change (h : Head) (e : Outstanding) (s : State) : Change s (resolveSilent h e s) := by
  have hcount := onCounters_change h (fun c => { c with noResponse := satInc c.noResponse }) s
  unfold resolveSilent
  dsimp only
  split
  · exact hcount.trans (enqueueSample_change _ _ _)
  · exact hcount
  · exact hcount.trans (sendRaising_change _ _)

/-- Entries leave a list. -/
theorem shorterList_change {h : Head} {rest : List Outstanding} {s : State}
    (hlen : rest.length ≤ (s.hp.get h).outstanding.length) :
    Change s (onPort h (fun p => { p with outstanding := rest }) s) :=
  onPort_change ⟨rfl, fun w => ⟨hlen.trans w.1, w.2⟩⟩

theorem matchWord_change (h : Head) (w : HeadWord) (s : State) : Change s (matchWord h w s) := by
  unfold matchWord
  split
  · exact onCounters_change _ _ s
  · rename_i older e rest hsplit
    have hlist := congrArg List.length (splitAtSeq_some hsplit).1
    rw [List.length_append, List.length_cons] at hlist
    have hlen : rest.length ≤ (s.hp.get h).outstanding.length := by omega
    refine ((shorterList_change hlen).trans ?_).trans (enqueueSample_change _ _ _)
    exact .foldl (fun t x => resolveSilent_change h x t) _ _

theorem countCorrupt_change (h : Head) (s : State) : Change s (countCorrupt h s) := onCounters_change _ _ s

theorem wordGapEnds_change (h : Head) (s : State) : Change s (wordGapEnds h s) := by
  refine .ite ?_ (.refl s)
  exact (onPort_change ⟨rfl, fun w => ⟨w.1, w.2.1, Nat.zero_le _⟩⟩).trans (countCorrupt_change _ _)

theorem completeWord_change (h : Head) (word : List LineByte) (s : State) : Change s (completeWord h word s) :=
  .ite (matchWord_change _ _ s) (countCorrupt_change _ s)

theorem takeLineByte_change (h : Head) (b : LineByte) (s : State) : Change s (takeLineByte h b s) := by
  refine (wordGapEnds_change h s).trans ?_
  unfold takeLineByte
  dsimp only
  split
  · exact onPort_change ⟨rfl, fun w => ⟨w.1, w.2.1, by dsimp only; omega⟩⟩
  · exact (onPort_change ⟨rfl, fun w => ⟨w.1, w.2.1, Nat.zero_le _⟩⟩).trans (completeWord_change _ _ _)

theorem takeWordBytes_change (h : Head) (bytes : List LineByte) (s : State) : Change s (takeWordBytes h bytes s) :=
  (Change.foldl (fun t b => takeLineByte_change h b t) bytes s).trans (tailEnds_change _)

theorem frontTimesOut_change (h : Head) (s : State) : Change s (frontTimesOut h s) := by
  unfold frontTimesOut
  split
  · exact .refl s
  · rename_i e rest hlist
    refine .ite ?_ (.refl s)
    have hlen : rest.length ≤ (s.hp.get h).outstanding.length := by rw [hlist]; exact Nat.le_succ _
    exact ((shorterList_change hlen).trans (resolveSilent_change _ _ _)).trans (tailEnds_change _)

/-! ## Placement -/

theorem grantSample_change (s : State) : Change s (grantSample s) := by
  unfold grantSample
  split
  · split
    · exact .refl s
    · rename_i x rest hqueue
      refine Change.trans (onPort_change ⟨rfl, fun w => ⟨w.1, ?_, w.2.2⟩⟩) (.of_engine fun _ => .refl _)
      have := w.2.1
      rw [hqueue, List.length_cons] at this
      dsimp only
      omega
  · exact .refl s

theorem discardStale_change (h : Head) (x : Sample) (s : State) : Change s (discardStale h x s) := by
  refine (onCounters_change h (fun c => { c with stale := satInc c.stale }) s).trans (.of_engine (DetectorChange.set ?_))
  exact (flagDetector_change _ _).trans (lastSeq_change _ _)

theorem clampHeight_inRange (z : Int) : heightInRange (clampHeight z) := by
  unfold heightInRange clampHeight clampInt; omega

/-- The window that is found holds the angle (R53). -/
theorem localOffset_lt_of_windowAt {ws : List Window} {a : Angle} {b : Nat} {w : Window}
    (h : windowAt ws a = some (b, w)) : localOffset w a < w.width := by
  have hspan := List.find?_some h
  simpa [inSpan, localOffset] using hspan

/-- A placed sample lies in its window, at a height in its range (R52, R53). -/
theorem placedSample_sound (a : ActiveStep) (ws : List Window) (h : Head) (x : Sample) (s : State) :
    PlacedSound (placedSample a ws h x s) := by
  refine ⟨fun b w hw => ?_, fun q hq => ?_⟩
  · simp only [placedSample] at hw ⊢
    exact localOffset_lt_of_windowAt hw
  · simp only [placedSample, Option.mem_def, Option.map_eq_some_iff] at hq
    obtain ⟨y, -, rfl⟩ := hq
    exact clampHeight_inRange _

theorem handOver_change (a : ActiveStep) (ws : List Window) (h : Head) (x : Sample) (s : State) :
    Change s (handOver a ws h x s) :=
  (onDetector_change (arrive_change _ (placedSample_sound a ws h x s) _)).trans (deliverClosed_change _ _ _)

theorem learnFrom_change (a : ActiveStep) (h : Head) (x : Sample) (s : State) : Change s (learnFrom a h x s) := by
  unfold learnFrom
  dsimp only
  split
  · exact .refl s
  · exact onAcc_change _ s

theorem placeSample_change (a : ActiveStep) (h : Head) (x : Sample) (s : State) : Change s (placeSample a h x s) := by
  refine .ite (learnFrom_change a h x s) ?_
  split
  · exact discardStale_change h x s
  · exact handOver_change a _ h x s

theorem endPlacement_change (s : State) : Change s (endPlacement s) := by
  unfold endPlacement
  split
  · exact .refl s
  · have hfree : Change s { s with pe := { s.pe with busy := none } } := .of_engine fun _ => .refl _
    dsimp only
    split
    · exact hfree
    · exact (hfree.trans (placeSample_change _ _ _ _)).trans (tailEnds_change _)

/-! ## The record store -/

theorem starve_change (s : State) : Change s (starve s) := by
  refine .ite (.refl s) (Change.trans (.of_store ?_) (queueNotice_change _ _))
  exact id

theorem onStoreCounters_change (f : StoreCounters → StoreCounters) (s : State) : Change s (onStoreCounters f s) :=
  .of_store id

theorem reportAdmission_change (o : Outcome3) (r : SectionRecord) (s : State) : Change s (reportAdmission o r s) :=
  .of_others s s.tu s.rm s.ax _ s.freeCount

theorem appendFrames_change {fs : List DataFrame} {s : State} (hroom : fs.length ≤ 512 - s.rs.frames.length) :
    Change s (appendFrames fs s) := by
  refine .of_store fun w => ⟨?_, w.2⟩
  have := w.1
  rw [List.length_append]
  omega

theorem length_framesOf (number : Id16) (r : SectionRecord) : (framesOf number r).length = framesNeeded r := by
  unfold framesOf
  split
  · exact Eq.symm ‹_›
  · exact length_splitFrames _ _ _ _ _ _

/-- Frames that fit the free slots are admitted. -/
theorem admitted_change {o : Outcome3} {r : SectionRecord} {fs : List DataFrame} {f : StoreCounters → StoreCounters}
    {s : State} (hroom : fs.length ≤ 512 - s.rs.frames.length) :
    Change s (reportAdmission o r (starve (appendFrames fs (onStoreCounters f s)))) := by
  have happend : Change (onStoreCounters f s) (appendFrames fs (onStoreCounters f s)) := appendFrames_change hroom
  exact (((onStoreCounters_change f s).trans happend).trans (starve_change _)).trans (reportAdmission_change _ _ _)

theorem admitRecord_change (r : SectionRecord) (s : State) : Change s (admitRecord r s) := by
  have hnumber : Change s { s with rs := { s.rs with recordNumber := s.rs.recordNumber + 1 } } := .of_store id
  unfold admitRecord
  dsimp only
  by_cases hwhole : framesNeeded r ≤ freeSlots s
  · rw [if_pos hwhole]
    exact hnumber.trans (admitted_change ((length_framesOf _ r).trans_le hwhole))
  rw [if_neg hwhole]
  by_cases hheader : 0 < freeSlots s
  · rw [if_pos hheader]
    exact hnumber.trans (admitted_change hheader)
  · rw [if_neg hheader]
    refine (hnumber.trans (onStoreCounters_change (fun c => { c with lost := satInc c.lost }) _)).trans ?_
    exact (sendRaising_change _ _).trans (reportAdmission_change _ _ _)

theorem takeHanded_change (choice : Nat) (s : State) : Change s (takeHanded choice s) := by
  unfold takeHanded
  split
  · exact .refl s
  · exact Change.trans (.of_others s s.tu s.rm s.ax _ s.freeCount) (admitRecord_change _ _)

theorem takePosted_change (s : State) : Change s (takePosted s) := by
  unfold takePosted
  split
  · exact .refl s
  · exact Change.trans (.of_others s s.tu s.rm s.ax _ s.freeCount) (takePost_change _ _)

theorem onStepCounters_change (f : StepCounters → StepCounters) (s : State) : Change s (onStepCounters f s) :=
  .of_plan (.of_eq rfl rfl rfl rfl)

theorem takeReport_change (s : State) : Change s (takeReport s) := by
  unfold takeReport
  split
  · exact .refl s
  · exact Change.trans (.of_others s s.tu s.rm s.ax _ s.freeCount)
      (.ite (.refl _) (.ite (onStepCounters_change _ _) (.refl _)))

theorem takeAdmission_change (s : State) : Change s (takeAdmission s) := by
  unfold takeAdmission
  split
  · exact .refl s
  · exact Change.trans (.of_others s s.tu s.rm s.ax _ s.freeCount)
      (.ite (.refl _) (.ite (onStepCounters_change _ _) (.refl _)))

end Sys2Proof.Proofs
end

