-- ==== Sys2Proof/Proofs/LinkOperations.lean ====
section
/-! PROOF. The operations of the link port and of the auxiliary lines, and what each host command does, as changes of
the controller. -/

open Sys2Proof Sys2Proof.Machine

namespace Sys2Proof.Proofs

/-! ## Receiving -/

theorem onLinkCounters_change (f : LinkCounters → LinkCounters) (l : LinkPort) : LinkChange l (onLinkCounters f l) :=
  ⟨.inl rfl, id⟩

/-- A change of the receiver alone. -/
theorem receiving_change (l : LinkPort) (r : Option (List LineByte)) : LinkChange l { l with receiving := r } :=
  ⟨.inl rfl, id⟩

theorem receiveCommand_change (c : HostCommand) (l : LinkPort) : LinkChange l (receiveCommand c l) := by
  refine (onLinkCounters_change (fun k => { k with commands := satInc k.commands }) l).trans ?_
  unfold receiveCommand
  dsimp only
  split
  · rename_i hroom
    refine ⟨.inl rfl, fun w => ⟨?_, w.2⟩⟩
    rw [List.length_append, List.length_singleton]
    exact hroom.1
  · exact ⟨.inl rfl, id⟩

theorem completeFrame_change (frame : List LineByte) (l : LinkPort) : LinkChange l (completeFrame frame l) := by
  unfold completeFrame
  dsimp only
  split
  · exact onLinkCounters_change _ l
  · split
    · exact onLinkCounters_change _ l
    · exact receiveCommand_change _ l

theorem frameByte_change (taken : List LineByte) (b : LineByte) (l : LinkPort) : LinkChange l (frameByte taken b l) := by
  unfold frameByte
  dsimp only
  split
  · exact receiving_change l _
  · split
    · exact (receiving_change l none).trans (onLinkCounters_change _ _)
    · split
      · exact receiving_change l _
      · exact (receiving_change l none).trans (completeFrame_change _ _)

theorem receiveByte_change (b : LineByte) (l : LinkPort) : LinkChange l (receiveByte b l) := by
  unfold receiveByte
  split
  · exact frameByte_change _ b l
  · split
    · exact receiving_change l _
    · exact .refl l

theorem linkGapEnds_change (tick : Tick) (l : LinkPort) : LinkChange l (linkGapEnds tick l) := by
  unfold linkGapEnds
  split
  · exact (receiving_change l none).trans (onLinkCounters_change _ _)
  · exact .refl l

theorem takeLinkByte_change (tick : Tick) (l : LinkPort) (b : LineByte) : LinkChange l (takeLinkByte tick l b) :=
  ((linkGapEnds_change tick l).trans (receiveByte_change b _)).trans ⟨.inl rfl, id⟩

theorem takeLinkBytes_change (bytes : List LineByte) (s : State) : Change s (takeLinkBytes bytes s) := by
  refine .of_link ?_
  suffices ∀ l : LinkPort, LinkChange l (bytes.foldl (takeLinkByte s.eu.tick) l) from this s.lp
  induction bytes with
  | nil => exact .refl
  | cons b bytes ih => exact fun l => (takeLinkByte_change _ l b).trans (ih _)

/-! ## Sending -/

theorem beginSending_change (kind : FlightKind) (tag : Byte) (body : List Byte) (s : State) :
    Change s (beginSending kind tag body s) := .of_link ⟨.inl rfl, id⟩

theorem sendData_change (f : DataFrame) (s : State) : Change s (sendData f s) := by
  refine ((beginSending_change .data 0 (dataBody f) s).trans (.of_store ?_)).trans (starve_change _)
  exact fun w => ⟨w.1, (Nat.sub_le _ _).trans w.2⟩

theorem selectOutput_change (s : State) : Change s (selectOutput s) := by
  unfold selectOutput
  split
  · exact .refl s
  · refine Change.trans ?_ (beginSending_change _ _ _ _)
    exact .of_link ⟨.inl rfl, id⟩
  · exact beginSending_change _ _ _ s
  · rename_i n rest _ _ _ hnotices
    refine Change.trans ?_ (beginSending_change _ _ _ _)
    refine .of_link ⟨.inl rfl, fun w => ⟨w.1, ?_⟩⟩
    have := w.2
    rw [hnotices, List.length_cons] at this
    exact (Nat.le_succ _).trans this
  · exact .ite (sendData_change _ s) (.refl s)
  · exact .refl s

theorem releaseSent_change (kind : FlightKind) (s : State) : Change s (releaseSent kind s) := by
  cases kind with
  | reply => exact .of_link ⟨.inr rfl, id⟩
  | overload => exact .refl s
  | notice => exact .refl s
  | data =>
    refine Change.trans ?_ (onStoreCounters_change (fun c => { c with sent := satInc c.sent }) _)
    refine .of_store fun w => ⟨?_, w.2⟩
    rw [List.length_tail]
    exact (Nat.sub_le _ _).trans w.1

theorem sent_change (kind : FlightKind) (s : State) :
    Change s (releaseSent kind (onLink (fun l => { l with sending := none }) s)) :=
  Change.trans (.of_link (l := { s.lp with sending := none }) ⟨.inl rfl, id⟩) (releaseSent_change _ _)

/-- The end of a sending frees what was sent, and may bring the reset that is awaited (R159, R177). -/
theorem endSending_cases (s : State) :
    ∃ t, Change s t ∧ (endSending s = t ∨ s.lp.resetMark = true ∧ endSending s = fullReset t) := by
  unfold endSending
  split
  · exact ⟨s, .refl s, .inl rfl⟩
  · rename_i f _
    refine ⟨_, sent_change f.kind s, ?_⟩
    dsimp only
    split
    · rename_i hdue
      refine .inr ⟨?_, rfl⟩
      have hmark : (releaseSent f.kind (onLink (fun l => { l with sending := none }) s)).lp.resetMark = s.lp.resetMark := by
        cases f.kind <;> rfl
      rw [resetDue, hmark] at hdue
      simp only [Bool.and_eq_true] at hdue
      exact hdue.1.1
    · exact .inl rfl

/-- The end of a sending while no RSET awaits its reset. -/
theorem endSending_change {s : State} (h : s.lp.resetMark = false) : Change s (endSending s) := by
  obtain ⟨t, ht, e | ⟨hmark, -⟩⟩ := endSending_cases s
  · exact e ▸ ht
  · rw [h] at hmark; cases hmark

/-! ## Auxiliary lines -/

theorem onLine_change (i : Fin 8) (f : AuxLine → AuxLine) (s : State) : Change s (onLine i f s) :=
  .of_others s s.tu s.rm _ s.bus s.freeCount

theorem risingEdge_change (f : AuxFunction) (order : List Taker) (s : State) : Change s (risingEdge f order s) := by
  unfold risingEdge
  split
  · refine Change.trans ?_ (radiusMoved_change _ _)
    exact .of_encoder ⟨rfl, encoderWithin_of_eq rfl rfl rfl rfl⟩
  · exact .ite (stopRun_change true s) (.refl s)
  · exact .ite (requestInterjection_change _ s) (.refl s)
  · exact indexEdge_change order s
  · exact .refl s

theorem lineChange_change (i : Fin 8) (high : Bool) (order : List Taker) (s : State) :
    Change s (lineChange i high order s) := by
  refine (onLine_change i (fun l => { l with outside := high }) s).trans ?_
  exact .ite (.refl _) (.ite (settleTest_change _) (.ite (risingEdge_change _ _ _) (.refl _)))

theorem lineChangeAny_change (after : Nat) (i : Fin 8) (high : Bool) (order : List Taker) (s : State) :
    Change s (lineChangeAny after i high order s) :=
  .ite (onLine_change _ _ s) ((elapse_change after s).trans (lineChange_change _ _ _ _))

theorem endPulse_change (p : PulsedOutput) (s : State) : Change s (endPulse p s) := by
  cases p <;> exact .ite (.of_others s s.tu s.rm _ s.bus s.freeCount) (.refl s)

/-! ## What the host commands do -/

theorem withLength_after {P : State → State → Prop} {n : Nat} {f : List Byte → State → Executed} {args : List Byte}
    {s : State} (hrefused : P s s) (hf : P s (f args s).after) : P s (withLength n f args s).after := by
  unfold withLength
  split
  · exact hf
  · exact hrefused

theorem withCount_after {P : State → State → Prop} {size : Nat} {f : List Byte → State → Executed} {args : List Byte}
    {s : State} (hrefused : P s s) (hf : P s (f args s).after) : P s (withCount size f args s).after := by
  unfold withCount
  split
  · exact hf
  · exact hrefused

theorem clearCounters_change (c : CounterSet) (s : State) : Change s (clearCounters c s) := by
  cases c with
  | head h => exact onCounters_change h (fun _ => ⟨0, 0, 0, 0, 0, 0, 0, 0⟩) s
  | encoder => exact .of_encoder ⟨rfl, encoderWithin_of_eq rfl rfl rfl rfl⟩
  | fault => exact .of_plan (.of_eq rfl rfl rfl rfl)
  | store => exact onStoreCounters_change (fun _ => ⟨0, 0, 0, 0, 0⟩) s
  | link => exact .of_link (onLinkCounters_change _ _)

theorem readGroup_after (args : List Byte) (s : State) : (readGroup args s).after = s := by
  unfold readGroup; split <;> rfl

theorem readCounters_change (args : List Byte) (s : State) : Change s (readCounters args s).after := by
  unfold readCounters
  split
  · exact .refl s
  · exact .ite (.refl s) (clearCounters_change _ s)

theorem runSlot_change (args : List Byte) (s : State) : Change s (runSlot args s).after := by
  unfold runSlot
  split
  · exact .refl s
  · split
    · exact .refl s
    · split
      · exact .refl s
      · exact armSlot_change _ _ s

theorem stopCommand_change (s : State) : Change s (stopCommand s).after := by
  unfold stopCommand
  split
  · exact stopRun_change false s
  · exact .refl s

theorem continuePlan_change (s : State) : Change s (continuePlan s).after := by
  unfold continuePlan
  split
  · exact armSlot_change _ _ s
  · exact finishPlan_change s
  · exact finishPlan_change s
  · exact .refl s

theorem interjectSlot_change (args : List Byte) (s : State) : Change s (interjectSlot args s).after := by
  unfold interjectSlot
  split
  · exact .refl s
  · split
    · exact .refl s
    · exact requestInterjection_change _ s

theorem grantCredits_change (args : List Byte) (s : State) : Change s (grantCredits args s).after :=
  .of_store fun w => ⟨w.1, Nat.min_le_right _ _⟩

theorem readBlades_after (args : List Byte) (s : State) : (readBlades args s).after = s := by
  unfold readBlades; dsimp only; split <;> rfl

theorem markBlades_change (args : List Byte) (s : State) : Change s (markBlades args s).after := by
  unfold markBlades
  split
  · exact .refl s
  · split
    · exact .of_table (tableChange_of_standing (stageMarks_standing _ _))
    · exact .refl s

theorem loadRunout_change (args : List Byte) (s : State) : Change s (loadRunout args s).after := by
  unfold loadRunout whenIdle
  split
  · dsimp only
    split
    · exact .of_others s s.tu _ s.ax s.bus s.freeCount
    · exact .refl s
  · exact .refl s

theorem clearRunout_change (s : State) : Change s (clearRunout s).after := by
  unfold clearRunout whenIdle
  split
  · exact .of_others s s.tu _ s.ax s.bus s.freeCount
  · exact .refl s

theorem readSlot_after (args : List Byte) (s : State) : (readSlot args s).after = s := by
  unfold readSlot; split <;> rfl

theorem assignLine_change (args : List Byte) (s : State) : Change s (assignLine args s).after := by
  unfold assignLine
  split
  · exact (onLine_change _ _ s).trans (settleTest_change _)
  · exact .refl s

theorem writeGeneral_change (args : List Byte) (s : State) : Change s (writeGeneral args s).after :=
  .of_others s s.tu s.rm _ s.bus s.freeCount

theorem overloadCommand_change (l : LinkPort) (c : HostCommand) : LinkChange l (overloadCommand l c) := ⟨.inl rfl, id⟩

theorem awaitReset_change (l : LinkPort) : LinkChange l (awaitReset l) := by
  suffices ∀ (cs : List HostCommand) (m : LinkPort), LinkChange m (cs.foldl overloadCommand m) from
    (this l.queue l).trans ⟨.inl rfl, fun w => ⟨Nat.zero_le _, w.2⟩⟩
  intro cs
  induction cs with
  | nil => exact .refl
  | cons c cs ih => exact fun m => (overloadCommand_change m c).trans (ih _)

end Sys2Proof.Proofs
end

