-- ==== Sys2Proof/Proofs/Rows.lean ====
section
/-! PROOF. The commands of the table by what stands behind them: an operation that the running controller takes, the
execution of the host command at the front of the queue, a line's level change, or a full reset. -/

open Sys2Proof Sys2Proof.Machine

namespace Sys2Proof.Proofs

/-! ## Operations -/

/-- The operation that a running controller takes for a command that is neither a host command, a line's level change
nor a reset. -/
def ownOperation : Instr → Option (State → State)
  | .tableEdge after edge order => some fun s => tableTransition edge order (elapse after s)
  | .index after order => some fun s => dedicatedIndex order (elapse after s)
  | .ringExpiry after => some fun s => ringExpires (elapse after s)
  | .stall after => some fun s => stallExpires (elapse after s)
  | .radialEdge after edge => some fun s => radialTransition edge (elapse after s)
  | .millisecondBoundary after => some fun s => millisecond (elapse after s)
  | .timeDueInstant after => some fun s => timeDue (elapse after s)
  | .triggerPulseEnd after head => some fun s => pulseOver head (elapse after s)
  | .lastTriggerExpiry after head => some fun s => forgetTrigger head (elapse after s)
  | .headWord after head bytes => some fun s => takeWordBytes head bytes (elapse after s)
  | .headWordGap after head => some fun s => wordGapEnds head (elapse after s)
  | .responseTimeout after head => some fun s => frontTimesOut head (elapse after s)
  | .placementGrant => some grantSample
  | .placementEnd after => some fun s => endPlacement (elapse after s)
  | .trackingPost => some takePosted
  | .recordReport => some takeReport
  | .recordAdmission choice => some (takeHanded choice)
  | .admissionReport => some takeAdmission
  | .stepCompletion => some completeStep
  | .interjectionTailEnd => some finishInterjectionTail
  | .faultRaise choice => some (takeRaising choice)
  | .frameReceived after bytes => some fun s => takeLinkBytes bytes (elapse after s)
  | .linkGap after => some fun s => onLink (linkGapEnds (elapse after s).eu.tick) (elapse after s)
  | .frameSendStart => some selectOutput
  | .frameSendEnd after => some fun s => endSending (elapse after s)
  | .auxPulseEnd after output => some fun s => endPulse output (elapse after s)
  | _ => none

theorem exec_ownOperation {c : Instr} {op : State → State} (h : ownOperation c = some op) (s : State) :
    exec c s = running op s := by
  cases c <;> cases h <;> rfl

theorem ownOperation_change {c : Instr} {op : State → State} (h : ownOperation c = some op) {s : State}
    (hr : notReset c s) : Change s (op s) := by
  cases c <;> cases h
  case tableEdge after edge order => exact (elapse_change after s).trans (tableTransition_change _ _ _)
  case index after order => exact (elapse_change after s).trans (dedicatedIndex_change _ _)
  case ringExpiry after => exact (elapse_change after s).trans (ringExpires_change _)
  case stall after => exact (elapse_change after s).trans (stallExpires_change _)
  case radialEdge after edge => exact (elapse_change after s).trans (radialTransition_change _ _)
  case millisecondBoundary after => exact (elapse_change after s).trans (millisecond_change _)
  case timeDueInstant after => exact (elapse_change after s).trans (timeDue_change _)
  case triggerPulseEnd after head => exact (elapse_change after s).trans (pulseOver_change _ _)
  case lastTriggerExpiry after head => exact (elapse_change after s).trans (forgetTrigger_change _ _)
  case headWord after head bytes => exact (elapse_change after s).trans (takeWordBytes_change _ _ _)
  case headWordGap after head => exact (elapse_change after s).trans (wordGapEnds_change _ _)
  case responseTimeout after head => exact (elapse_change after s).trans (frontTimesOut_change _ _)
  case placementGrant => exact grantSample_change s
  case placementEnd after => exact (elapse_change after s).trans (endPlacement_change _)
  case trackingPost => exact takePosted_change s
  case recordReport => exact takeReport_change s
  case recordAdmission choice => exact takeHanded_change choice s
  case admissionReport => exact takeAdmission_change s
  case stepCompletion => exact completeStep_change s
  case interjectionTailEnd => exact finishInterjectionTail_change s
  case faultRaise choice => exact takeRaising_change choice s
  case frameReceived after bytes => exact (elapse_change after s).trans (takeLinkBytes_change _ _)
  case linkGap after => exact (elapse_change after s).trans (.of_link (linkGapEnds_change _ _))
  case frameSendStart => exact selectOutput_change s
  case frameSendEnd after =>
    refine (elapse_change after s).trans (endSending_change ?_)
    exact hr
  case auxPulseEnd after output => exact (elapse_change after s).trans (endPulse_change _ _)

/-! ## Host commands -/

/-- The command carries the keyword. -/
def carries (k : Keyword) (c : HostCommand) : Bool := commandNames c == some k

/-- Which commands a host-command row takes, and how it executes one. -/
def hostRow : Instr → Option ((HostCommand → Bool) × (List Byte → State → Executed))
  | .idnt => some (carries .idnt, withLength 1 fun _ s => done identityBytes s)
  | .stat => some (carries .stat, withLength 1 fun _ s => done (statReply s) s)
  | .setpEncoder => some (setpOf 0, setGroup writeGroup)
  | .setpHead => some (setpOf 1, setGroup writeGroup)
  | .setpTrack => some (setpOf 2, setGroup writeGroup)
  | .setpPlan => some (setpOf 3, setGroup writeGroup)
  | .getp => some (carries .getp, withLength 2 readGroup)
  | .cntr => some (carries .cntr, withLength 3 readCounters)
  | .runp => some (carries .runp, withLength 1 runSlot)
  | .stop => some (carries .stop, withLength 1 fun _ s => stopCommand s)
  | .cont => some (carries .cont, withLength 1 fun _ s => continuePlan s)
  | .intj => some (carries .intj, withLength 1 interjectSlot)
  | .fclr => some (carries .fclr, withLength 1 fun _ s => clearFault s)
  | .grnt => some (carries .grnt, withLength 2 grantCredits)
  | .btld => some (carries .btld, withCount 9 loadBlades)
  | .btrd => some (carries .btrd, withLength 2 readBlades)
  | .btmk => some (carries .btmk, withCount 2 markBlades)
  | .mpld => some (carries .mpld, withLength 516 loadRunout)
  | .mprd => some (carries .mprd, withLength 1 fun _ s => done (mapBytes s.rm) s)
  | .mpcl => some (carries .mpcl, withLength 1 fun _ s => clearRunout s)
  | .stpw => some (carries .stpw, withLength 33 writeSlot)
  | .stpr => some (carries .stpr, withLength 1 readSlot)
  | .axas => some (carries .axas, withLength 3 assignLine)
  | .axwr => some (carries .axwr, withLength 2 writeGeneral)
  | .rset => some (carries .rset, withLength 1 fun _ s => done [] (onLink awaitReset s))
  | .unknown => some (fun c => commandNames c == none, fun _ s => refuse .unknown s)
  | _ => none

theorem exec_hostRow {c : Instr} {mine : HostCommand → Bool} {f : List Byte → State → Executed}
    (h : hostRow c = some (mine, f)) (s : State) : exec c s = running (executeCommand mine f) s := by
  cases c <;> cases h <;> rfl

/-- Every command is one of these. -/
theorem instr_cases (c : Instr) :
    (∃ op, ownOperation c = some op) ∨ (∃ mine f, hostRow c = some (mine, f)) ∨
      (∃ after i high order, c = .auxLineChange after i high order) ∨
      c = .powerOn ∨ c = .resetLine ∨ c = .resetRelease := by
  cases c
  case auxLineChange after i high order => exact .inr (.inr (.inl ⟨after, i, high, order, rfl⟩))
  case powerOn => exact .inr (.inr (.inr (.inl rfl)))
  case resetLine => exact .inr (.inr (.inr (.inr (.inl rfl))))
  case resetRelease => exact .inr (.inr (.inr (.inr (.inr rfl))))
  all_goals first | exact .inl ⟨_, rfl⟩ | exact .inr (.inl ⟨_, _, rfl⟩)

/-- What a running command answers. -/
theorem running_eq_next {f : State → State} {s t : State} (h : running f s = .next t) :
    (s.resetHeld = true ∧ t = s) ∨ (s.resetHeld = false ∧ t = f s) := by
  cases hr : s.resetHeld with
  | true => rw [running_held f s hr] at h; cases h; exact .inl ⟨rfl, rfl⟩
  | false => rw [running_next f s hr] at h; cases h; exact .inr ⟨rfl, rfl⟩

/-- A command answers what it found, or the reply to the command at the front of the queue. -/
theorem hostRow_answers {c : Instr} {mine : HostCommand → Bool} {f : List Byte → State → Executed}
    (hrow : hostRow c = some (mine, f)) {s t : State} (h : exec c s = .next t) :
    t = s ∨ ∃ hc rest, s.lp.reply = none ∧ s.lp.queue = hc :: rest ∧
      t = replyTo hc (f (commandArgs hc) (onLink (fun l => { l with queue := rest }) s)) := by
  rw [exec_hostRow hrow] at h
  rcases running_eq_next h with ⟨-, rfl⟩ | ⟨-, rfl⟩
  · exact .inl rfl
  · rcases executeCommand_cases mine f s with e | ⟨hc, rest, hreply, -, hqueue, -, e⟩
    · exact .inl e
    · exact .inr ⟨hc, rest, hreply, hqueue, e⟩

/-- The front command leaves the queue. -/
theorem dequeue_change {hc : HostCommand} {rest : List HostCommand} {s : State} (h : s.lp.queue = hc :: rest) :
    Change s (onLink (fun l => { l with queue := rest }) s) := by
  refine .of_link ⟨.inl rfl, fun w => ⟨?_, w.2⟩⟩
  have := w.1
  rw [h, List.length_cons] at this
  exact (Nat.le_succ _).trans this

/-! ## What the rows do -/

/-- The rows whose execution is a `Change`. -/
theorem hostRow_change {c : Instr} {mine : HostCommand → Bool} {f : List Byte → State → Executed}
    (h : hostRow c = some (mine, f)) (hsetp : f ≠ setGroup writeGroup) (hfclr : c ≠ .fclr) (hbtld : c ≠ .btld)
    (hstpw : c ≠ .stpw) (args : List Byte) (s : State) : Change s (f args s).after := by
  cases c <;> cases h
  case idnt => exact withLength_after (.refl s) (.refl s)
  case stat => exact withLength_after (.refl s) (.refl s)
  case setpEncoder => exact absurd rfl hsetp
  case setpHead => exact absurd rfl hsetp
  case setpTrack => exact absurd rfl hsetp
  case setpPlan => exact absurd rfl hsetp
  case getp => exact withLength_after (.refl s) (by rw [readGroup_after]; exact .refl s)
  case cntr => exact withLength_after (.refl s) (readCounters_change args s)
  case runp => exact withLength_after (.refl s) (runSlot_change args s)
  case stop => exact withLength_after (.refl s) (stopCommand_change s)
  case cont => exact withLength_after (.refl s) (continuePlan_change s)
  case intj => exact withLength_after (.refl s) (interjectSlot_change args s)
  case fclr => exact absurd rfl hfclr
  case grnt => exact withLength_after (.refl s) (grantCredits_change args s)
  case btld => exact absurd rfl hbtld
  case btrd => exact withLength_after (.refl s) (by rw [readBlades_after]; exact .refl s)
  case btmk => exact withCount_after (.refl s) (markBlades_change args s)
  case mpld => exact withLength_after (.refl s) (loadRunout_change args s)
  case mprd => exact withLength_after (.refl s) (.refl s)
  case mpcl => exact withLength_after (.refl s) (clearRunout_change s)
  case stpw => exact absurd rfl hstpw
  case stpr => exact withLength_after (.refl s) (by rw [readSlot_after]; exact .refl s)
  case axas => exact withLength_after (.refl s) (assignLine_change args s)
  case axwr => exact withLength_after (.refl s) (writeGeneral_change args s)
  case rset => exact withLength_after (.refl s) (.of_link (awaitReset_change _))
  case unknown => exact .refl s

/-! ## The commands that are no `Change` -/

/-- A SETP is refused, or one of the groups takes its write. -/
theorem setGroup_after {P : State → State → Prop} {args : List Byte} {s : State} (hrefused : P s s)
    (hw : ∀ g w, P s (writeGroup g w s).after) : P s (setGroup writeGroup args s).after := by
  unfold setGroup
  split
  · exact hrefused
  · split
    · exact hrefused
    · split
      · exact hw _ _
      · exact hrefused

theorem whenIdle_of_not_idle {f : State → Executed} {s : State} (h : s.spe.state ≠ .idle) :
    whenIdle f s = refuse .locked s := if_neg h

theorem setPlan_change (w : GroupWrite) (s : State) : Change s (setPlan w s).after := .of_plan (.of_eq rfl rfl rfl rfl)

theorem setEncoder_after {P : State → State → Prop} {w : GroupWrite} {s : State} (hrefused : P s s)
    (htaken : s.spe.state = .idle →
      P s { s with eu := takeEncoderParams (writeEncoderParams w s.eu.params).value s.eu }) :
    P s (setEncoder w s).after := by
  unfold setEncoder whenIdle
  split
  · exact htaken ‹_›
  · exact hrefused

/-- A HEAD group as it is written, with the next sequence number. -/
def takeHeadGroup (h : Head) (w : GroupWrite) (s : State) : State :=
  onTrigger h (fun t => { t with seq := BitVec.ofNat 12 (writeNextSeq w t.seq).value })
    (onPort h (fun x => { x with params := (writeHeadParams w x.params).value }) s)

theorem setHead_after {P : State → State → Prop} {h : Head} {w : GroupWrite} {s : State} (hrefused : P s s)
    (htaken : s.spe.state = .idle → P s (takeHeadGroup h w s)) : P s (setHead h w s).after := by
  unfold setHead whenIdle
  split
  · exact htaken ‹_›
  · exact hrefused

end Sys2Proof.Proofs
end

