-- ==== Sys2Proof/Proofs/Invariants.lean ====
section
/-! PROOF. The invariants of bounds, windows, detectors and stored steps are kept by every step (R1 to R178), what no
command but a reset changes outside IDLE, and that a latched record stays. -/

open Sys2Proof Sys2Proof.Machine

namespace Sys2Proof.Proofs

/-! ## The four invariants together -/

/-- The queue of waiting commands stays, and the invariants hold after when they held before. -/
structure Keeps (s t : State) : Prop where
  pending : t.pending = s.pending
  bounds : WithinBounds s → WithinBounds t
  windows : WindowsApart s → WindowsApart t
  detectors : DetectorsSound s → DetectorsSound t
  steps : StepsStored s → StepsStored t

theorem Keeps.refl (s : State) : Keeps s s := ⟨rfl, id, id, id, id⟩

theorem Keeps.trans {s t u : State} (a : Keeps s t) (b : Keeps t u) : Keeps s u :=
  ⟨b.pending.trans a.pending, b.bounds ∘ a.bounds, b.windows ∘ a.windows, b.detectors ∘ a.detectors,
    b.steps ∘ a.steps⟩

theorem Change.keeps {s t : State} (h : Change s t) : Keeps s t where
  pending := h.pending
  bounds hs := by
    rw [withinBounds_iff] at hs ⊢
    obtain ⟨heu, hhp, hpe, hrs, hlp⟩ := hs
    exact ⟨h.encoder.within heu, fun g => (h.ports g).within (hhp g), fun g => (h.detectors g).within (hpe g),
      h.store hrs, h.link.within hlp⟩
  windows := h.table.apart
  detectors hs g := (h.detectors g).sound (hs g)
  steps hs := ⟨SlotsStored.of_slots_eq h.plan.slots hs.1, h.plan.active hs.1 hs.2⟩

/-- The reply slot stands outside the invariants. -/
theorem replyTo_keeps (c : HostCommand) (e : Executed) : Keeps e.after (replyTo c e) := ⟨rfl, id, id, id, id⟩

/-! ## Parameter writes -/

theorem clampNat_mem (lo hi x : Nat) (h : lo ≤ hi) : lo ≤ clampNat lo hi x ∧ clampNat lo hi x ≤ hi := by
  unfold clampNat; omega

/-- A written natural field is in its range, or stands as it was. -/
theorem writeNat_mem {mask i lo hi old new : Nat} (hrange : lo ≤ hi) (hold : lo ≤ old ∧ old ≤ hi) :
    lo ≤ (writeNat mask i lo hi old new).value ∧ (writeNat mask i lo hi old new).value ≤ hi := by
  unfold writeNat
  split
  · exact clampNat_mem lo hi new hrange
  · exact hold

theorem takeEncoderParams_within {w : GroupWrite} {e : Encoder} (h : EncoderWithin e) :
    EncoderWithin (takeEncoderParams (writeEncoderParams w e.params).value e) := by
  obtain ⟨⟨hlo, hhi, hcount⟩, hnet, hring⟩ := h
  have hn : 4096 ≤ (writeEncoderParams w e.params).value.counts ∧
      (writeEncoderParams w e.params).value.counts ≤ 1048576 := writeNat_mem (by decide) ⟨hlo, hhi⟩
  unfold takeEncoderParams
  split
  · rename_i hsame
    exact ⟨⟨hn.1, hn.2, hsame.symm ▸ hcount⟩, hnet, hring⟩
  · exact ⟨⟨hn.1, hn.2, Nat.lt_of_lt_of_le (Nat.succ_pos 4095) hn.1⟩, ⟨by norm_num [changeCounts], by norm_num [changeCounts]⟩, Nat.zero_le _⟩

theorem setEncoder_keeps (w : GroupWrite) (s : State) : Keeps s (setEncoder w s).after :=
  setEncoder_after (.refl s) fun _ =>
    ⟨rfl, fun hs => (withinBounds_iff _).2 ((withinBounds_iff s).1 hs |>.imp_left takeEncoderParams_within), id, id, id⟩

theorem takeHeadGroup_ports {h : Head} {w : GroupWrite} {s : State} (hs : ∀ g, PortWithin (s.hp.get g)) (g : Head) :
    PortWithin ((takeHeadGroup h w s).hp.get g) := by
  show PortWithin ((s.hp.set h _).get g)
  rw [PerHead.get_set]
  split
  · subst g; exact hs h
  · exact hs g

theorem setHead_keeps (h : Head) (w : GroupWrite) (s : State) : Keeps s (setHead h w s).after :=
  setHead_after (.refl s) fun _ =>
    ⟨rfl, fun hs => (withinBounds_iff _).2 ((withinBounds_iff s).1 hs |>.imp_right (.imp_left takeHeadGroup_ports)), id,
      id, id⟩

theorem setGuards_keeps (guard kMiss : Nat) (s : State) : Keeps s (setGuards guard kMiss s) := ⟨rfl, id, id, id, id⟩

theorem setLimit_keeps (limit : Nat) (s : State) : Keeps s (setLimit limit s) := by
  unfold setLimit
  dsimp only
  split
  · exact ⟨rfl, id, id, id, id⟩
  · refine Keeps.trans ?_ (queueNotices_change _ _).keeps
    exact ⟨rfl, id, fun hs => limitedGeneration_apart hs rfl, id, id⟩

theorem setTrack_keeps (w : GroupWrite) (s : State) : Keeps s (setTrack w s).after := by
  unfold setTrack
  split
  · exact .refl s
  · dsimp only [doneWith]
    split
    · exact setGuards_keeps _ _ s
    · exact (setGuards_keeps _ _ s).trans (setLimit_keeps _ _)

theorem writeGroup_keeps (g : Group) (w : GroupWrite) (s : State) : Keeps s (writeGroup g w s).after := by
  cases g with
  | encoder => exact setEncoder_keeps w s
  | head h => exact setHead_keeps h w s
  | track => exact setTrack_keeps w s
  | plan => exact (setPlan_change w s).keeps

theorem loadBlades_keeps (args : List Byte) (s : State) : Keeps s (loadBlades args s).after := by
  unfold loadBlades whenIdle
  split
  · dsimp only
    split
    · rename_i hok
      exact ⟨rfl, id, fun _ => loadTable_apart hok s.bt, id, id⟩
    · exact .refl s
  · exact .refl s

theorem writeSlot_keeps (args : List Byte) (s : State) : Keeps s (writeSlot args s).after := by
  unfold writeSlot
  split
  · rename_i slot p _ hread
    split
    · exact .refl s
    · refine ⟨rfl, id, id, id, fun ⟨hslots, hactive⟩ => ⟨fun i q hq => ?_, hactive⟩⟩
      have hget : (s.spe.slots.set slot (some p.value))[i] = some q := hq
      rw [Fin.getElem_fin, Vector.getElem_set] at hget
      split at hget
      · cases hget
        exact readStep_stored hread
      · exact hslots i q hget
  · exact .refl s

theorem clearFault_keeps (s : State) : Keeps s (clearFault s).after := by
  unfold clearFault
  split
  · exact ⟨rfl, id, id, id, id⟩
  · exact .refl s

/-- Whatever host command is executed. -/
theorem hostRow_keeps {c : Instr} {mine : HostCommand → Bool} {f : List Byte → State → Executed}
    (h : hostRow c = some (mine, f)) (args : List Byte) (s : State) : Keeps s (f args s).after := by
  by_cases hsetp : f = setGroup writeGroup
  · subst f
    exact setGroup_after (.refl s) fun g w => writeGroup_keeps g w s
  by_cases hfclr : c = .fclr
  · subst c; cases h
    exact withLength_after (.refl s) (clearFault_keeps s)
  by_cases hbtld : c = .btld
  · subst c; cases h
    exact withCount_after (.refl s) (loadBlades_keeps args s)
  by_cases hstpw : c = .stpw
  · subst c; cases h
    exact withLength_after (.refl s) (writeSlot_keeps args s)
  exact (hostRow_change h hsetp hfclr hbtld hstpw args s).keeps

/-! ## Resets -/

theorem reset_withinBounds : WithinBounds State.reset := by
  refine ⟨by decide, by decide, by decide, fun h => ?_, fun h r hr => ?_, by decide, by decide, by decide, by decide⟩
  · cases h <;> decide
  · cases h <;> cases hr

theorem reset_windowsApart : WindowsApart State.reset :=
  ⟨⟨.nil, fun _ _ h => by cases h⟩, ⟨.nil, fun _ _ h => by cases h⟩, rfl, fun _ _ _ _ _ h => by cases h⟩

theorem reset_detectorsSound : DetectorsSound State.reset := by
  intro h
  rw [show State.reset.pe.detectors.get h = .reset by cases h <;> rfl]
  exact ⟨fun _ => ⟨rfl, rfl, rfl, rfl, rfl⟩, fun _ => rfl, fun r hr => by cases hr⟩

theorem reset_stepsStored : StepsStored State.reset := by
  refine ⟨fun i p hp => ?_, fun a ha => by cases ha⟩
  have hslot : State.reset.spe.slots[i] = none := Vector.getElem_replicate i.isLt
  rw [hslot] at hp
  cases hp

/-- The invariants hold after a full reset, whatever held before. -/
theorem fullReset_keeps (s : State) : Keeps s (fullReset s) :=
  ⟨rfl, fun _ => reset_withinBounds, fun _ => reset_windowsApart, fun _ => reset_detectorsSound,
    fun _ => reset_stepsStored⟩

theorem resetHeld_keeps (b : Bool) (s : State) : Keeps s { s with resetHeld := b } := ⟨rfl, id, id, id, id⟩

/-! ## Every step -/

theorem endSending_keeps (s : State) : Keeps s (endSending s) := by
  obtain ⟨t, ht, e | ⟨-, e⟩⟩ := endSending_cases s <;> rw [e]
  · exact ht.keeps
  · exact ht.keeps.trans (fullReset_keeps t)

theorem ownOperation_keeps {c : Instr} {op : State → State} (h : ownOperation c = some op) (s : State) :
    Keeps s (op s) := by
  cases c
  case frameSendEnd after =>
    cases h
    exact (elapse_change after s).keeps.trans (endSending_keeps _)
  case powerOn => cases h
  case resetLine => cases h
  case resetRelease => cases h
  all_goals exact (ownOperation_change h trivial).keeps

theorem exec_keeps {c : Instr} {s t : State} (h : exec c s = .next t) : Keeps s t := by
  rcases instr_cases c with ⟨op, hop⟩ | ⟨mine, f, hrow⟩ | ⟨after, i, high, order, rfl⟩ | rfl | rfl | rfl
  · rw [exec_ownOperation hop] at h
    rcases running_eq_next h with ⟨-, rfl⟩ | ⟨-, rfl⟩
    · exact .refl t
    · exact ownOperation_keeps hop s
  · rcases hostRow_answers hrow h with rfl | ⟨hc, rest, -, hqueue, rfl⟩
    · exact .refl t
    · exact ((dequeue_change hqueue).keeps.trans (hostRow_keeps hrow _ _)).trans (replyTo_keeps _ _)
  · cases h
    exact (lineChangeAny_change after i high order s).keeps
  · cases h
    exact fullReset_keeps s
  · cases h
    exact (fullReset_keeps s).trans (resetHeld_keeps true _)
  · cases h
    split
    · exact (fullReset_keeps s).trans (resetHeld_keeps false _)
    · exact .refl s

/-- Every command answers a next state. -/
theorem exec_next (c : Instr) (s : State) : ∃ t, exec c s = .next t := by
  rcases instr_cases c with ⟨op, hop⟩ | ⟨mine, f, hrow⟩ | ⟨after, i, high, order, rfl⟩ | rfl | rfl | rfl
  · exact ⟨_, exec_ownOperation hop s⟩
  · exact ⟨_, exec_hostRow hrow s⟩
  · exact ⟨_, rfl⟩
  · exact ⟨_, rfl⟩
  · exact ⟨_, rfl⟩
  · exact ⟨_, rfl⟩

/-- A step keeps a property that every command keeps, that idling keeps, and that does not read the waiting commands. -/
theorem step_induction {P : State → Prop} (hidle : ∀ s, P s → P (idle s)) (hpending : ∀ q s, P s → P (withPending q s))
    (hexec : ∀ c s t, P s → exec c s = .next t → P t) {s t : State} (hs : P s) (h : step s = .next t) : P t := by
  unfold step at h
  split at h
  · cases h; exact hidle s hs
  · exact hexec _ _ t (hpending _ s hs) h

theorem idle_change (s : State) : Change s (idle s) := .ite (.refl s) (elapse_change 1 s)

/-- Settles O6: every operation, every host command and every tick is a `Change`, which keeps the bounds. -/
theorem stepKeepsBounds : Obligations.StepKeepsBounds := fun _ _ hs h =>
  step_induction (fun s => (idle_change s).keeps.bounds) (fun _ _ => id) (fun _ _ _ hs h => (exec_keeps h).bounds hs) hs h

/-- Settles O8: a separated table holds each angle in at most one window. -/
theorem stepKeepsWindowsApart : Obligations.StepKeepsWindowsApart := by
  intro s t hs h
  have ht : WindowsApart t :=
    step_induction (fun s => (idle_change s).keeps.windows) (fun _ _ => id) (fun _ _ _ hs h => (exec_keeps h).windows hs) hs h
  exact ⟨ht, TableApart.atMostOne_current ht, ht.2.2.2⟩

/-- Settles O9: a `Change` keeps each detector sound. -/
theorem stepKeepsDetectorsSound : Obligations.StepKeepsDetectorsSound := fun _ _ hs h =>
  step_induction (fun s => (idle_change s).keeps.detectors) (fun _ _ => id) (fun _ _ _ hs h => (exec_keeps h).detectors hs)
    hs h

/-- Settles O10: a `Change` keeps the stored steps and the active copy in range. -/
theorem stepKeepsStepsStored : Obligations.StepKeepsStepsStored := fun _ _ hs h =>
  step_induction (fun s => (idle_change s).keeps.steps) (fun _ _ => id) (fun _ _ _ hs h => (exec_keeps h).steps hs) hs h

/-- Settles O2. -/
theorem everyCommandCompletes : Obligations.EveryCommandCompletes := by
  intro c s
  obtain ⟨t, h⟩ := exec_next c s
  exact ⟨t, h, (exec_keeps h).pending⟩

end Sys2Proof.Proofs
end

