-- ==== Sys2Proof/Proofs/WholeMachine.lean ====
section
/-! PROOF. Statements about every command: what stays locked outside IDLE, the latch, the refused commands, the reset
line and the resets. -/

open Sys2Proof Sys2Proof.Machine

namespace Sys2Proof.Proofs

/-! ## What stays locked outside IDLE (R17, R35, R58, R70, R109) -/

/-- The locked parameters, the nominal blades and the slot of the active step are as they were. -/
structure Locked (s t : State) : Prop where
  encoder : t.eu.params = s.eu.params
  heads : ∀ h : Head, (t.hp.get h).params = (s.hp.get h).params
  limit : t.bt.params.limit = s.bt.params.limit
  loaded : t.bt.entries.map (fun e => (e.id, e.nominal, e.width)) =
    s.bt.entries.map fun e => (e.id, e.nominal, e.width)
  slot : ∀ a, s.spe.active = some a → t.spe.slots[a.slot] = s.spe.slots[a.slot]

theorem Locked.refl (s : State) : Locked s s := ⟨rfl, fun _ => rfl, rfl, rfl, fun _ _ => rfl⟩

theorem Change.locked {s t : State} (h : Change s t) : Locked s t :=
  ⟨h.encoder.params, fun g => (h.ports g).params, congrArg (·.limit) h.table.params, h.table.loaded,
    fun a _ => congrArg (·[a.slot]) h.plan.slots⟩

/-- A SETP of the TRACK group that does not name the limit keeps it (R70). -/
theorem setTrack_locked {w : GroupWrite} {s : State} (h : s.spe.state ≠ .idle) : Locked s (setTrack w s).after := by
  unfold setTrack
  split
  · exact .refl s
  · rename_i hunlocked
    have hunnamed : w.mask.testBit 0 = false := Bool.eq_false_iff.2 fun hbit => hunlocked ⟨hbit, h⟩
    have hlimit (lo hi new : Nat) : (writeNat w.mask 0 lo hi s.bt.params.limit new).value = s.bt.params.limit := by
      simp [writeNat, hunnamed]
    dsimp only [doneWith]
    rw [if_pos (hlimit _ _ _)]
    exact ⟨rfl, fun _ => rfl, rfl, rfl, fun _ _ => rfl⟩

theorem writeGroup_locked {g : Group} {w : GroupWrite} {s : State} (h : s.spe.state ≠ .idle) :
    Locked s (writeGroup g w s).after := by
  cases g with
  | encoder => exact setEncoder_after (.refl s) fun hidle => absurd hidle h
  | head g => exact setHead_after (.refl s) fun hidle => absurd hidle h
  | track => exact setTrack_locked h
  | plan => exact (setPlan_change w s).locked

theorem clearFault_locked (s : State) : Locked s (clearFault s).after := by
  unfold clearFault
  split
  · exact ⟨rfl, fun _ => rfl, rfl, rfl, fun _ _ => rfl⟩
  · exact .refl s

theorem loadBlades_locked {args : List Byte} {s : State} (h : s.spe.state ≠ .idle) :
    Locked s (loadBlades args s).after := by
  rw [loadBlades, whenIdle_of_not_idle h]
  exact .refl s

/-- STPW does not write the slot of the active step (R109). -/
theorem writeSlot_locked (args : List Byte) (s : State) : Locked s (writeSlot args s).after := by
  unfold writeSlot
  split
  · rename_i slot p _ _
    split
    · exact .refl s
    · rename_i hfree
      refine ⟨rfl, fun _ => rfl, rfl, rfl, fun a ha => ?_⟩
      have hne : slot.val ≠ a.slot.val := fun heq => hfree (by simp [slotBusy, ha, Fin.ext_iff, heq])
      exact Vector.getElem_set_ne slot.isLt a.slot.isLt hne
  · exact .refl s

theorem hostRow_locked {c : Instr} {mine : HostCommand → Bool} {f : List Byte → State → Executed}
    (hrow : hostRow c = some (mine, f)) (args : List Byte) {s : State} (h : s.spe.state ≠ .idle) :
    Locked s (f args s).after := by
  by_cases hsetp : f = setGroup writeGroup
  · subst f
    exact setGroup_after (.refl s) fun g w => writeGroup_locked h
  by_cases hfclr : c = .fclr
  · subst c; cases hrow
    exact withLength_after (.refl s) (clearFault_locked s)
  by_cases hbtld : c = .btld
  · subst c; cases hrow
    exact withCount_after (.refl s) (loadBlades_locked h)
  by_cases hstpw : c = .stpw
  · subst c; cases hrow
    exact withLength_after (.refl s) (writeSlot_locked args s)
  exact (hostRow_change hrow hsetp hfclr hbtld hstpw args s).locked

/-- Settles O12: what an operation does is a `Change`, and each host command that could write a locked value refuses it,
or leaves the slot of the active step. -/
theorem lockedOutsideIdle : Obligations.LockedOutsideIdle := by
  intro c s t hr hstate h
  suffices Locked s t from ⟨this.encoder, this.heads, this.limit, this.loaded, this.slot⟩
  rcases instr_cases c with ⟨op, hop⟩ | ⟨mine, f, hrow⟩ | ⟨after, i, high, order, rfl⟩ | rfl | rfl | rfl
  · rw [exec_ownOperation hop] at h
    rcases running_eq_next h with ⟨-, rfl⟩ | ⟨-, rfl⟩
    · exact .refl t
    · exact (ownOperation_change hop hr).locked
  · rcases hostRow_answers hrow h with rfl | ⟨hc, rest, -, -, rfl⟩
    · exact .refl t
    · obtain ⟨hencoder, hheads, hlimit, hloaded, hslot⟩ := hostRow_locked hrow (commandArgs hc) (s := onLink _ s) hstate
      exact ⟨hencoder, hheads, hlimit, hloaded, hslot⟩
  · cases h
    exact (lineChangeAny_change after i high order s).locked
  · exact hr.elim
  · exact hr.elim
  · exact hr.elim

/-! ## The latch (R144, R148, R150) -/

/-- A latched record stays, but for the mark of its halt, and the secondary-fault count does not go down. -/
structure LatchKept (p q : ScanPlan) : Prop where
  latch : ∀ r, p.latch = some r → q.latch = some r ∨ q.latch = some { r with taken := true }
  secondary : p.secondary ≤ q.secondary

theorem LatchKept.refl (p : ScanPlan) : LatchKept p p := ⟨fun _ => .inl, le_rfl⟩

theorem Change.latchKept {s t : State} (h : Change s t) : LatchKept s.spe t.spe := ⟨h.plan.latch, h.plan.secondary⟩

theorem writeSlot_latchKept (args : List Byte) (s : State) : LatchKept s.spe (writeSlot args s).after.spe := by
  unfold writeSlot
  split
  · split
    · exact .refl _
    · exact ⟨fun _ => .inl, le_rfl⟩
  · exact .refl _

theorem setTrack_spe (w : GroupWrite) (s : State) : (setTrack w s).after.spe = s.spe := by
  unfold setTrack
  split
  · rfl
  · dsimp only [doneWith]
    split
    · rfl
    · unfold setLimit; dsimp only; split <;> rfl

theorem loadBlades_spe (args : List Byte) (s : State) : (loadBlades args s).after.spe = s.spe := by
  unfold loadBlades whenIdle
  split
  · dsimp only; split <;> rfl
  · rfl

theorem writeGroup_latchKept (g : Group) (w : GroupWrite) (s : State) :
    LatchKept s.spe (writeGroup g w s).after.spe := by
  cases g with
  | encoder => exact setEncoder_after (P := fun s t => LatchKept s.spe t.spe) (.refl _) fun _ => .refl _
  | head g => exact setHead_after (P := fun s t => LatchKept s.spe t.spe) (.refl _) fun _ => .refl _
  | track => exact setTrack_spe w s ▸ .refl _
  | plan => exact (setPlan_change w s).latchKept

theorem hostRow_latchKept {c : Instr} {mine : HostCommand → Bool} {f : List Byte → State → Executed}
    (hrow : hostRow c = some (mine, f)) (hfclr : c ≠ .fclr) (args : List Byte) (s : State) :
    LatchKept s.spe (f args s).after.spe := by
  by_cases hsetp : f = setGroup writeGroup
  · subst f
    exact setGroup_after (P := fun s t => LatchKept s.spe t.spe) (.refl _) fun g w => writeGroup_latchKept g w s
  by_cases hbtld : c = .btld
  · subst c; cases hrow
    exact withCount_after (P := fun s t => LatchKept s.spe t.spe) (.refl _) (loadBlades_spe args s ▸ .refl _)
  by_cases hstpw : c = .stpw
  · subst c; cases hrow
    exact withLength_after (P := fun s t => LatchKept s.spe t.spe) (.refl _) (writeSlot_latchKept args s)
  exact (hostRow_change hrow hsetp hfclr hbtld hstpw args s).latchKept

/-- Settles O13: the latch is written by the taking of a raising, by FCLR and by the resets alone. -/
theorem latchedRecordStays : Obligations.LatchedRecordStays := by
  intro c s t r hr hfclr hlatch h
  suffices LatchKept s.spe t.spe from ⟨this.latch r hlatch, this.secondary⟩
  rcases instr_cases c with ⟨op, hop⟩ | ⟨mine, f, hrow⟩ | ⟨after, i, high, order, rfl⟩ | rfl | rfl | rfl
  · rw [exec_ownOperation hop] at h
    rcases running_eq_next h with ⟨-, rfl⟩ | ⟨-, rfl⟩
    · exact .refl _
    · exact (ownOperation_change hop hr).latchKept
  · rcases hostRow_answers hrow h with rfl | ⟨hc, rest, -, -, rfl⟩
    · exact .refl _
    · exact hostRow_latchKept hrow hfclr (commandArgs hc) (onLink _ s)
  · cases h
    exact (lineChangeAny_change after i high order s).latchKept
  · exact hr.elim
  · exact hr.elim
  · exact hr.elim

/-! ## Refused commands (R169) -/

/-- A command executed with a status that refuses it carries no data and leaves the state. -/
def RefusesClean (s : State) (e : Executed) : Prop :=
  e.status ≠ .ok → e.status ≠ .clamped → e.data = [] ∧ e.after = s

theorem refuse_clean (st : Status) (s : State) : RefusesClean s (refuse st s) := fun _ _ => ⟨rfl, rfl⟩

theorem done_clean (data : List Byte) (s t : State) : RefusesClean s (done data t) := fun h => absurd rfl h

theorem doneWith_clean (clamped : Bool) (data : List Byte) (s t : State) : RefusesClean s (doneWith clamped data t) := by
  intro hok hclamped
  cases clamped
  · exact absurd rfl hok
  · exact absurd rfl hclamped

theorem withLength_clean {n : Nat} {f : List Byte → State → Executed} {args : List Byte} {s : State}
    (h : RefusesClean s (f args s)) : RefusesClean s (withLength n f args s) := by
  unfold withLength
  split
  · exact h
  · exact refuse_clean _ s

theorem withCount_clean {size : Nat} {f : List Byte → State → Executed} {args : List Byte} {s : State}
    (h : RefusesClean s (f args s)) : RefusesClean s (withCount size f args s) := by
  unfold withCount
  split
  · exact h
  · exact refuse_clean _ s

theorem whenIdle_clean {f : State → Executed} {s : State} (h : RefusesClean s (f s)) : RefusesClean s (whenIdle f s) := by
  unfold whenIdle
  split
  · exact h
  · exact refuse_clean _ s

theorem writeGroup_clean (g : Group) (w : GroupWrite) (s : State) : RefusesClean s (writeGroup g w s) := by
  cases g with
  | encoder => exact whenIdle_clean (doneWith_clean _ _ _ _)
  | head h => exact whenIdle_clean (doneWith_clean _ _ _ _)
  | track =>
    rw [writeGroup, setTrack]
    split
    · exact refuse_clean _ s
    · exact doneWith_clean _ _ _ _
  | plan => exact doneWith_clean _ _ _ _

theorem setGroup_clean (args : List Byte) (s : State) : RefusesClean s (setGroup writeGroup args s) := by
  unfold setGroup
  split
  · exact refuse_clean _ s
  · split
    · exact refuse_clean _ s
    · split
      · exact writeGroup_clean _ _ s
      · exact refuse_clean _ s

theorem readGroup_clean (args : List Byte) (s : State) : RefusesClean s (readGroup args s) := by
  unfold readGroup
  split
  · exact refuse_clean _ s
  · exact done_clean _ s s

theorem readCounters_clean (args : List Byte) (s : State) : RefusesClean s (readCounters args s) := by
  unfold readCounters
  split
  · exact refuse_clean _ s
  · exact done_clean _ s _

theorem runSlot_clean (args : List Byte) (s : State) : RefusesClean s (runSlot args s) := by
  unfold runSlot
  split
  · exact refuse_clean _ s
  · split
    · exact refuse_clean _ s
    · split
      · exact refuse_clean _ s
      · exact done_clean _ s _

theorem stopCommand_clean (s : State) : RefusesClean s (stopCommand s) := by
  unfold stopCommand
  split
  · exact done_clean _ s _
  · exact refuse_clean _ s

theorem continuePlan_clean (s : State) : RefusesClean s (continuePlan s) := by
  unfold continuePlan
  split
  · exact done_clean _ s _
  · exact done_clean _ s _
  · exact done_clean _ s _
  · exact refuse_clean _ s

theorem interjectSlot_clean (args : List Byte) (s : State) : RefusesClean s (interjectSlot args s) := by
  unfold interjectSlot
  split
  · exact refuse_clean _ s
  · split
    · exact refuse_clean _ s
    · exact done_clean _ s _

theorem clearFault_clean (s : State) : RefusesClean s (clearFault s) := by
  unfold clearFault
  split
  · exact done_clean _ s _
  · exact refuse_clean _ s

theorem loadBlades_clean (args : List Byte) (s : State) : RefusesClean s (loadBlades args s) := by
  refine whenIdle_clean ?_
  dsimp only
  split
  · exact done_clean _ s _
  · exact refuse_clean _ s

theorem readBlades_clean (args : List Byte) (s : State) : RefusesClean s (readBlades args s) := by
  unfold readBlades
  dsimp only
  split
  · exact doneWith_clean _ _ s s
  · exact refuse_clean _ s

theorem markBlades_clean (args : List Byte) (s : State) : RefusesClean s (markBlades args s) := by
  unfold markBlades
  split
  · exact refuse_clean _ s
  · split
    · exact done_clean _ s _
    · exact refuse_clean _ s

theorem loadRunout_clean (args : List Byte) (s : State) : RefusesClean s (loadRunout args s) := by
  refine whenIdle_clean ?_
  dsimp only
  split
  · exact done_clean _ s _
  · exact refuse_clean _ s

theorem writeSlot_clean (args : List Byte) (s : State) : RefusesClean s (writeSlot args s) := by
  unfold writeSlot
  split
  · split
    · exact refuse_clean _ s
    · exact doneWith_clean _ _ s _
  · exact refuse_clean _ s

theorem readSlot_clean (args : List Byte) (s : State) : RefusesClean s (readSlot args s) := by
  unfold readSlot
  split
  · exact refuse_clean _ s
  · exact done_clean _ s s

theorem assignLine_clean (args : List Byte) (s : State) : RefusesClean s (assignLine args s) := by
  unfold assignLine
  split
  · exact done_clean _ s _
  · exact refuse_clean _ s

theorem hostRow_clean {c : Instr} {mine : HostCommand → Bool} {f : List Byte → State → Executed}
    (h : hostRow c = some (mine, f)) (args : List Byte) (s : State) : RefusesClean s (f args s) := by
  cases c <;> cases h
  case idnt => exact withLength_clean (done_clean _ s s)
  case stat => exact withLength_clean (done_clean _ s s)
  case setpEncoder => exact setGroup_clean args s
  case setpHead => exact setGroup_clean args s
  case setpTrack => exact setGroup_clean args s
  case setpPlan => exact setGroup_clean args s
  case getp => exact withLength_clean (readGroup_clean args s)
  case cntr => exact withLength_clean (readCounters_clean args s)
  case runp => exact withLength_clean (runSlot_clean args s)
  case stop => exact withLength_clean (stopCommand_clean s)
  case cont => exact withLength_clean (continuePlan_clean s)
  case intj => exact withLength_clean (interjectSlot_clean args s)
  case fclr => exact withLength_clean (clearFault_clean s)
  case grnt => exact withLength_clean (doneWith_clean _ _ s _)
  case btld => exact withCount_clean (loadBlades_clean args s)
  case btrd => exact withLength_clean (readBlades_clean args s)
  case btmk => exact withCount_clean (markBlades_clean args s)
  case mpld => exact withLength_clean (loadRunout_clean args s)
  case mprd => exact withLength_clean (done_clean _ s s)
  case mpcl => exact withLength_clean (whenIdle_clean (done_clean _ s _))
  case stpw => exact withLength_clean (writeSlot_clean args s)
  case stpr => exact withLength_clean (readSlot_clean args s)
  case axas => exact withLength_clean (assignLine_clean args s)
  case axwr => exact withLength_clean (done_clean _ s _)
  case rset => exact withLength_clean (done_clean _ s _)
  case unknown => exact refuse_clean _ s

/-- Only a host command fills the empty reply slot. -/
theorem ownOperation_reply {c : Instr} {op : State → State} (h : ownOperation c = some op) {s : State}
    (hreply : s.lp.reply = none) : (op s).lp.reply = none := by
  have hempty {t u : State} (ht : t.lp.reply = none) (hu : Change t u) : u.lp.reply = none :=
    hu.link.reply.elim (·.trans ht) id
  cases c
  case frameSendEnd after =>
    cases h
    obtain ⟨t, ht, e | ⟨-, e⟩⟩ := endSending_cases (elapse after s)
    · exact (congrArg (·.lp.reply) e).trans (hempty (t := elapse after s) hreply ht)
    · exact congrArg (·.lp.reply) e
  case powerOn => cases h
  case resetLine => cases h
  case resetRelease => cases h
  all_goals exact hempty hreply (ownOperation_change h trivial)

/-- A command whose arguments have another length than its own is refused. -/
theorem hostCommand_of_badLength {k : Keyword} {tag : Byte} {args : List Byte} {rest : List HostCommand} {s : State}
    {n : Nat} {f : List Byte → State → Executed} (ho : Offered k tag args rest s) (hlen : args.length ≠ n) :
    hostCommand k (withLength n f) s = .next (replied k tag .badLength [] rest s) := by
  simp only [hostCommand_offered _ ho, withLength, if_neg hlen]
  rfl

theorem hostCommand_of_badCount {k : Keyword} {tag : Byte} {args : List Byte} {rest : List HostCommand} {s : State}
    {size : Nat} {f : List Byte → State → Executed} (ho : Offered k tag args rest s)
    (hlen : args = [] ∨ args.length ≠ 1 + size * natAt args 0 1) :
    hostCommand k (withCount size f) s = .next (replied k tag .badLength [] rest s) := by
  have hnot : ¬ (args ≠ [] ∧ args.length = 1 + size * natAt args 0 1) :=
    fun ⟨hne, heq⟩ => hlen.elim hne fun hne' => hne' heq
  simp only [hostCommand_offered _ ho, withCount, if_neg hnot]
  rfl

/-- Settles O11: only the rows of the host commands fill the slot, and each of them refuses without effect. -/
theorem refusedCommandChangesNothing : Obligations.RefusedCommandChangesNothing := by
  refine ⟨fun c s t r h hnone hreply => ?_, fun s tag args rest => ⟨?_, ?_, ?_⟩⟩
  · rcases instr_cases c with ⟨op, hop⟩ | ⟨mine, f, hrow⟩ | ⟨after, i, high, order, rfl⟩ | rfl | rfl | rfl
    · rw [exec_ownOperation hop] at h
      rcases running_eq_next h with ⟨-, rfl⟩ | ⟨-, rfl⟩
      · rw [hnone] at hreply; cases hreply
      · rw [ownOperation_reply hop hnone] at hreply; cases hreply
    · rcases hostRow_answers hrow h with rfl | ⟨hc, rest, -, hqueue, rfl⟩
      · rw [hnone] at hreply; cases hreply
      · obtain rfl := Option.some.inj hreply
        refine ⟨hc, rest, hqueue, rfl, rfl, fun hok hclamped => ?_⟩
        obtain ⟨hdata, hafter⟩ := hostRow_clean hrow _ _ hok hclamped
        refine ⟨hdata, ?_⟩
        rw [replyTo, hafter]
        rfl
    · cases h
      rw [((lineChangeAny_change after i high order s).link.reply).elim (·.trans hnone) id] at hreply
      cases hreply
    · cases h; cases hreply
    · cases h; cases hreply
    · cases h
      split at hreply
      · cases hreply
      · rw [hnone] at hreply; cases hreply
  · intro c k n hmem ho hlen
    simp only [List.mem_cons, Prod.mk.injEq, List.not_mem_nil, or_false] at hmem
    rcases hmem with ⟨rfl, rfl, rfl⟩ | ⟨rfl, rfl, rfl⟩ | ⟨rfl, rfl, rfl⟩ | ⟨rfl, rfl, rfl⟩ | ⟨rfl, rfl, rfl⟩ |
      ⟨rfl, rfl, rfl⟩ | ⟨rfl, rfl, rfl⟩ | ⟨rfl, rfl, rfl⟩ | ⟨rfl, rfl, rfl⟩ | ⟨rfl, rfl, rfl⟩ | ⟨rfl, rfl, rfl⟩ |
      ⟨rfl, rfl, rfl⟩ | ⟨rfl, rfl, rfl⟩ | ⟨rfl, rfl, rfl⟩ | ⟨rfl, rfl, rfl⟩ | ⟨rfl, rfl, rfl⟩ | ⟨rfl, rfl, rfl⟩ |
      ⟨rfl, rfl, rfl⟩ | ⟨rfl, rfl, rfl⟩
    all_goals exact hostCommand_of_badLength ho hlen
  · exact fun hlen ho => hostCommand_of_badCount ho hlen
  · exact fun hlen ho => hostCommand_of_badCount ho hlen

/-! ## The reset line and the resets (R179) -/

/-- Settles O3: a row of a held machine does not run, and a line change writes the level alone. -/
theorem heldWhileResetAsserted : Obligations.HeldWhileResetAsserted := by
  intro c s hheld hon hline hrelease
  rcases instr_cases c with ⟨op, hop⟩ | ⟨mine, f, hrow⟩ | ⟨after, i, high, order, rfl⟩ | rfl | rfl | rfl
  · have hstays : exec c s = .next s := (exec_ownOperation hop s).trans (running_held _ s hheld)
    cases c <;> cases hop <;> exact hstays
  · have hstays : exec c s = .next s := (exec_hostRow hrow s).trans (running_held _ s hheld)
    cases c <;> cases hrow <;> exact hstays
  · show Host.Outcome.next (lineChangeAny after i high order s) = _
    rw [lineChangeAny, if_pos hheld]
    rfl
  · exact absurd rfl hon
  · exact absurd rfl hline
  · exact absurd rfl hrelease

theorem step_of_empty {s : State} (h : s.pending = []) : step s = .next (idle s) := by
  unfold step
  rw [h]

/-- Settles O1. -/
theorem stepRunsFrontCommand : Obligations.StepRunsFrontCommand := by
  refine ⟨fun s c rest h => ?_, fun s h => ⟨fun hr => ?_, fun hr => ?_⟩⟩
  · unfold step
    rw [h]
    rfl
  · rw [step_of_empty h, idle, if_neg (Bool.eq_false_iff.1 hr)]
    rfl
  · rw [step_of_empty h, idle, if_pos hr]

theorem reset_planCoherent : PlanCoherent State.reset := by
  have hactive : State.reset.spe.active = none ↔ atRest State.reset.spe.state := ⟨fun _ => .inl rfl, fun _ => rfl⟩
  refine ⟨nofun, nofun, hactive, fun _ h => (by cases h), fun _ h => (by cases h), by decide, nofun, fun _ => rfl, ?_, ?_⟩
  · intro _ h; cases h <;> rfl
  · intro _ h; cases h <;> rfl

/-- Settles O5. -/
theorem resetMeetsInvariants : Obligations.ResetMeetsInvariants :=
  ⟨reset_withinBounds, reset_planCoherent, reset_windowsApart, reset_detectorsSound, reset_stepsStored⟩

/-- The lines keep the levels that the outside gives them (log entry 10). -/
theorem fullReset_lines (s : State) (i : Fin 8) :
    (fullReset s).ax.lines[i] = ⟨.generalIn, false, s.ax.lines[i].outside⟩ := by
  simp [fullReset]

/-- Settles O4. -/
theorem resetsLeaveResetValues : Obligations.ResetsLeaveResetValues := by
  refine ⟨fun s => ⟨fullReset s, ⟨rfl, rfl, rfl, rfl, rfl, rfl, rfl, rfl, rfl, rfl⟩, fun i => ⟨fullReset_lines s i, ?_⟩,
    rfl, rfl, rfl, rfl, rfl, rfl, rfl, rfl, rfl⟩, ?_⟩
  · exact Vector.getElem_replicate i.isLt
  · refine ⟨by decide, fun h => ?_, rfl, rfl, by decide, ⟨rfl, rfl, rfl, fun k => ?_, rfl⟩,
      ⟨rfl, rfl, rfl, rfl, rfl, rfl, rfl, rfl, rfl, rfl, rfl, rfl, rfl, fun i => ?_, fun i => ?_⟩, by decide, by decide,
      fun i => ⟨?_, ?_, ?_⟩, rfl, fun h => ?_, rfl, rfl, rfl, rfl⟩
    · cases h <;> decide
    · exact Vector.getElem_replicate k.isLt
    · exact Vector.getElem_replicate i.isLt
    · exact Vector.getElem_replicate i.isLt
    · exact congrArg AuxLine.function (Vector.getElem_replicate i.isLt)
    · exact congrArg AuxLine.activeLow (Vector.getElem_replicate i.isLt)
    · exact Vector.getElem_replicate i.isLt
    · cases h <;> rfl

end Sys2Proof.Proofs
end

