-- ==== Sys2Proof/Proofs/Coherence.lean ====
section
/-! PROOF. The plan, the latch, the interjection and the trigger lists stay coherent through every step: most operations
leave alone what the invariant reads, and the others are told by the plan state in which they leave the controller. -/

open Sys2Proof Sys2Proof.Machine

namespace Sys2Proof.Proofs

/-! ## What the invariant reads -/

/-- The plan, as far as the invariant reads it, is as it was but for its state. -/
structure PlanSame (p q : ScanPlan) : Prop where
  latch : q.latch = p.latch
  active : q.active = p.active
  slots : q.slots = p.slots
  context : q.context = p.context
  interjection : q.interjection = p.interjection

/-- It is as it was. -/
structure PlanQuiet (p q : ScanPlan) : Prop extends PlanSame p q where
  state : q.state = p.state

theorem PlanQuiet.refl (p : ScanPlan) : PlanQuiet p p := ⟨⟨rfl, rfl, rfl, rfl, rfl⟩, rfl⟩

theorem PlanQuiet.trans {p q r : ScanPlan} (a : PlanQuiet p q) (b : PlanQuiet q r) : PlanQuiet p r :=
  ⟨⟨b.latch.trans a.latch, b.active.trans a.active, b.slots.trans a.slots, b.context.trans a.context,
    b.interjection.trans a.interjection⟩, b.state.trans a.state⟩

/-- The plan is as it was, and no empty list gains an entry, nor a head a tail, in a plan state that has none. -/
structure Quiet (s t : State) : Prop where
  plan : PlanQuiet s.spe t.spe
  lists : ¬ takingSamples s.spe.state → ∀ h : Head, (s.hp.get h).outstanding = [] → (t.hp.get h).outstanding = []
  tails : s.spe.state ≠ .tail → ∀ h : Head, (s.tu.heads.get h).tail = .none → (t.tu.heads.get h).tail = .none

theorem Quiet.refl (s : State) : Quiet s s := ⟨.refl _, fun _ _ => id, fun _ _ => id⟩

theorem Quiet.trans {s t u : State} (a : Quiet s t) (b : Quiet t u) : Quiet s u where
  plan := a.plan.trans b.plan
  lists hs h e := b.lists (a.plan.state ▸ hs) h (a.lists hs h e)
  tails hs h e := b.tails (a.plan.state ▸ hs) h (a.tails hs h e)

theorem Quiet.foldl {α : Type} {f : State → α → State} (hf : ∀ s x, Quiet s (f s x)) (xs : List α) (s : State) :
    Quiet s (xs.foldl f s) := by
  induction xs generalizing s with
  | nil => exact .refl s
  | cons x xs ih => exact (hf s x).trans (ih _)

theorem Quiet.ite {c : Prop} [Decidable c] {s t u : State} (ht : Quiet s t) (hu : Quiet s u) :
    Quiet s (if c then t else u) := by
  split
  · exact ht
  · exact hu

/-- An operation that leaves the plan, the ports and the trigger unit alone. -/
theorem Quiet.of_frame {s t : State} (hspe : t.spe = s.spe) (hhp : t.hp = s.hp) (htu : t.tu = s.tu) : Quiet s t :=
  ⟨hspe ▸ .refl _, fun _ _ => hhp ▸ id, fun _ _ => htu ▸ id⟩

/-- One that changes the plan only where the invariant does not read it. -/
theorem Quiet.of_plan {s t : State} (hspe : PlanQuiet s.spe t.spe) (hhp : t.hp = s.hp) (htu : t.tu = s.tu) :
    Quiet s t := ⟨hspe, fun _ _ => hhp ▸ id, fun _ _ => htu ▸ id⟩

theorem Quiet.coherent {s t : State} (h : Quiet s t) (hs : PlanCoherent s) : PlanCoherent t := by
  obtain ⟨⟨⟨hlatch, hactive, hslots, hcontext, hinterjection⟩, hstate⟩, hlists, htails⟩ := h
  obtain ⟨h1, h2, h3, h4, h5, h6, h7, h8, h9, h10⟩ := hs
  unfold PlanCoherent
  rw [hstate, hlatch, hactive, hslots, hcontext, hinterjection]
  exact ⟨h1, h2, h3, h4, h5, h6, h7, h8, fun ht g => hlists ht g (h9 ht g), fun ht g => htails ht g (h10 ht g)⟩

/-! ## Coherence at rest and before the passes -/

/-- A controller without an active step, an interjection, a trigger outstanding or a tail. -/
structure Rests (s : State) : Prop where
  active : s.spe.active = none
  context : s.spe.context = none
  interjection : s.spe.interjection = .none
  lists : ∀ h : Head, (s.hp.get h).outstanding = []
  tails : ∀ h : Head, (s.tu.heads.get h).tail = .none

theorem Rests.coherent {s : State} (h : Rests s)
    (hstate : (s.spe.state = .idle ∧ s.spe.latch = none) ∨ (s.spe.state = .faulted ∧ s.spe.latch.isSome)) :
    PlanCoherent s := by
  obtain ⟨hactive, hcontext, hinterjection, hlists, htails⟩ := h
  have hrest : atRest s.spe.state := hstate.imp (·.1) (·.1)
  refine ⟨fun hf => ?_, fun r hr hf => ?_, ⟨fun _ => hrest, fun _ => hactive⟩, fun a ha => ?_, fun c hc => ?_, ?_,
    fun slot hslot => ?_, fun _ => hinterjection, fun _ => hlists, fun _ => htails⟩
  · rcases hstate with ⟨hidle, -⟩ | ⟨-, hlatch⟩
    · rw [hf] at hidle; cases hidle
    · exact hlatch
  · rcases hstate with ⟨-, hlatch⟩ | ⟨hfaulted, -⟩
    · rw [hlatch] at hr; cases hr
    · exact absurd hfaulted hf
  · rw [hactive] at ha; cases ha
  · rw [hcontext] at hc; cases hc
  · rw [hcontext, hinterjection]; simp
  · rw [hinterjection] at hslot; cases hslot

/-- What a plan that holds an active step must show outside the passes: in SETTLING, ARMED and HALTED. -/
structure Holds (s : State) : Prop where
  active : ∃ a, s.spe.active = some a ∧ (s.spe.slots[a.slot]).isSome
  latch : ∀ r, s.spe.latch = some r → r.policy = .haltAtStepEnd ∧ r.taken = false
  context : ∀ c, s.spe.context = some c → (s.spe.slots[c.slot]).isSome
  running : s.spe.context.isSome ↔ s.spe.interjection = .running
  pending : ∀ slot, s.spe.interjection ≠ .pending slot
  lists : ∀ h : Head, (s.hp.get h).outstanding = []

theorem Holds.coherent {s : State} (h : Holds s) (htails : ∀ h : Head, (s.tu.heads.get h).tail = .none)
    (hstate : s.spe.state = .settling ∨ s.spe.state = .armed ∨ (s.spe.state = .halted ∧ s.spe.latch = none)) :
    PlanCoherent s := by
  obtain ⟨⟨a, ha, hslot⟩, hlatch, hcontext, hrunning, hpending, hlists⟩ := h
  have hnot : ¬ atRest s.spe.state := by
    rcases hstate with e | e | ⟨e, -⟩ <;> rw [e] <;> simp [atRest]
  refine ⟨fun hf => absurd (.inr hf) hnot, fun r hr _ => ?_, ⟨fun hn => ?_, fun hr => absurd hr hnot⟩, fun b hb => ?_,
    hcontext, hrunning, fun slot hs => absurd hs (hpending slot), fun hr => absurd hr hnot, fun _ => hlists, fun _ => htails⟩
  · refine ⟨(hlatch r hr).1, (hlatch r hr).2, fun hidle => hnot (.inl hidle), fun hhalted => ?_⟩
    rcases hstate with e | e | ⟨-, hnone⟩
    · rw [e] at hhalted; cases hhalted
    · rw [e] at hhalted; cases hhalted
    · rw [hnone] at hr; cases hr
  · rw [ha] at hn; cases hn
  · obtain rfl : a = b := Option.some.inj (ha.symm.trans hb)
    exact hslot

/-- A coherent plan outside the passes, holding an active step, shows these. -/
theorem coherent_holds {s : State} (h : PlanCoherent s) (hrest : ¬ atRest s.spe.state)
    (hpending : ∀ slot, s.spe.interjection ≠ .pending slot) (hlists : ∀ h : Head, (s.hp.get h).outstanding = []) :
    Holds s := by
  obtain ⟨-, hlatch, hactive, hslot, hcontext, hrunning, -⟩ := h
  obtain ⟨a, ha⟩ : ∃ a, s.spe.active = some a := Option.ne_none_iff_exists'.1 fun e => hrest (hactive.1 e)
  refine ⟨⟨a, ha, hslot a ha⟩, fun r hr => ?_, hcontext, hrunning, hpending, hlists⟩
  obtain ⟨hpolicy, htaken, -⟩ := hlatch r hr fun e => hrest (.inr e)
  exact ⟨hpolicy, htaken⟩

theorem Holds.of_same {s t : State} (h : Holds s) (hplan : PlanSame s.spe t.spe) (hhp : t.hp = s.hp) : Holds t := by
  obtain ⟨hlatch, hactive, hslots, hcontext, hinterjection⟩ := hplan
  obtain ⟨h1, h2, h3, h4, h5, h6⟩ := h
  refine ⟨?_, ?_, ?_, ?_, ?_, ?_⟩
  · rwa [hactive, hslots]
  · rwa [hlatch]
  · rwa [hcontext, hslots]
  · rwa [hcontext, hinterjection]
  · rwa [hinterjection]
  · rwa [hhp]

section
variable {s : State} (hs : PlanCoherent s)
include hs

theorem coherent_not_pending (h : ¬ takingSamples s.spe.state) (slot : Slot) : s.spe.interjection ≠ .pending slot :=
  fun e => h (hs.2.2.2.2.2.2.1 slot e)

theorem coherent_lists (h : ¬ takingSamples s.spe.state) (g : Head) : (s.hp.get g).outstanding = [] :=
  hs.2.2.2.2.2.2.2.2.1 h g

theorem coherent_tails (h : s.spe.state ≠ .tail) (g : Head) : (s.tu.heads.get g).tail = .none :=
  hs.2.2.2.2.2.2.2.2.2 h g

theorem coherent_latch_none (h : s.spe.state = .idle ∨ s.spe.state = .halted) : s.spe.latch = none := by
  obtain ⟨-, hlatch, -⟩ := hs
  cases hl : s.spe.latch with
  | none => rfl
  | some r =>
    have hfaulted : s.spe.state ≠ .faulted := by rcases h with e | e <;> rw [e] <;> decide
    obtain ⟨-, -, hidle, hhalted⟩ := hlatch r hl hfaulted
    exact (h.elim hidle hhalted).elim

theorem coherent_active_some (h : ¬ atRest s.spe.state) : ∃ a, s.spe.active = some a :=
  Option.ne_none_iff_exists'.1 fun e => h (hs.2.2.1.1 e)

end

/-! ## Teardown, halts and the latch -/

theorem stopTails_tails (s : State) (h : Head) : ((stopTails s).tu.heads.get h).tail = .none := by
  rw [stopTails_tu, PerHead.get_map]

theorem teardown_rests (st : PlanState) (s : State) : Rests (teardown st s) where
  active := rfl
  context := rfl
  interjection := rfl
  lists h := by
    show ((emptyPorts (abortRecords s)).hp.get h).outstanding = []
    rw [emptyPorts_hp, PerHead.get_map]
  tails h := stopTails_tails _ h

theorem teardown_latch (st : PlanState) (s : State) : (teardown st s).spe.latch = s.spe.latch := by
  have hspe : (stopTails (emptyPorts (abortRecords s))).spe = s.spe := by simp
  show (stopTails (emptyPorts (abortRecords s))).spe.latch = s.spe.latch
  rw [hspe]

/-- A notice is nothing to the plan. -/
theorem queueNotice_quiet (n : Notice) (s : State) : Quiet s (queueNotice n s) := .of_frame rfl rfl rfl

theorem Quiet.rests {s t : State} (h : Rests s) (hspe : t.spe = s.spe) (hhp : t.hp = s.hp) (htu : t.tu = s.tu) :
    Rests t := by
  obtain ⟨h1, h2, h3, h4, h5⟩ := h
  exact ⟨hspe ▸ h1, hspe ▸ h2, hspe ▸ h3, hhp ▸ h4, htu ▸ h5⟩

/-- A halt is taken where no trigger is outstanding. -/
theorem takeHalt_coherent {s : State} (hlatch : s.spe.latch.isSome) (hlists : ∀ h : Head, (s.hp.get h).outstanding = []) :
    PlanCoherent (takeHalt s) := by
  rcases takeHalt_cases s with ⟨hnone, -⟩ | ⟨r, -, hspe, -, htu, -⟩
  · rw [hnone] at hlatch; cases hlatch
  · refine Rests.coherent ⟨by rw [hspe]; rfl, by rw [hspe]; rfl, by rw [hspe]; rfl, ?_, ?_⟩ (.inr ⟨by rw [hspe]; rfl, by rw [hspe]; rfl⟩)
    · rwa [show (takeHalt s).hp = s.hp by simp]
    · rw [htu]
      exact stopTails_tails s

theorem teardown_faulted_coherent {s : State} (h : s.spe.latch.isSome) : PlanCoherent (teardown .faulted s) :=
  (teardown_rests .faulted s).coherent (.inr ⟨rfl, by rwa [teardown_latch]⟩)

theorem teardown_idle_coherent {s : State} (h : s.spe.latch = none) : PlanCoherent (teardown .idle s) :=
  (teardown_rests .idle s).coherent (.inl ⟨rfl, by rwa [teardown_latch]⟩)

theorem latchFirst_coherent {r : FaultRecord} {s : State} (hs : PlanCoherent s) (hpolicy : r.policy ≠ .report)
    (htaken : r.taken = false) : PlanCoherent (latchFirst r s) := by
  unfold latchFirst
  split
  · exact (queueNotice_quiet _ _).coherent (teardown_faulted_coherent rfl)
  · rename_i hstop
    have hhalt : r.policy = .haltAtStepEnd := by
      cases h : r.policy
      · exact absurd h hpolicy
      · rfl
      · exact absurd h hstop
    dsimp only
    split
    · rename_i hstate
      refine takeHalt_coherent rfl (show ∀ g, (s.hp.get g).outstanding = [] from coherent_lists hs ?_)
      rintro (e | e) <;> rcases hstate with e' | e' <;> exact absurd (e.symm.trans e') (by decide)
    · rename_i hstate
      obtain ⟨-, -, h3, h4, h5, h6, h7, h8, h9, h10⟩ := hs
      refine (queueNotice_quiet _ _).coherent ⟨fun _ => rfl, fun x hx _ => ?_, h3, h4, h5, h6, h7, h8, h9, h10⟩
      obtain rfl := Option.some.inj hx
      exact ⟨hhalt, htaken, fun e => hstate (.inl e), fun e => hstate (.inr e)⟩

theorem latchSecond_coherent {held r : FaultRecord} {s : State} (hs : PlanCoherent s) :
    PlanCoherent (latchSecond held r s) := by
  have hcount : Quiet s (onPlan (fun p => { p with secondary := satInc p.secondary }) s) :=
    .of_plan ⟨⟨rfl, rfl, rfl, rfl, rfl⟩, rfl⟩ rfl rfl
  unfold latchSecond
  dsimp only
  split
  · exact (queueNotice_quiet _ _).coherent (teardown_faulted_coherent rfl)
  · exact (hcount.trans (queueNotice_quiet _ _)).coherent hs

theorem countFault_quiet (cls : FaultClass) (s : State) : Quiet s (onPlan (countFault cls) s) :=
  .of_plan ⟨⟨rfl, rfl, rfl, rfl, rfl⟩, rfl⟩ rfl rfl

theorem raiseFault_coherent {x : Raising} {s : State} (hs : PlanCoherent s) : PlanCoherent (raiseFault x s) := by
  have hcount := (countFault_quiet x.cls s).coherent hs
  rcases raiseFault_cases x s with ⟨-, e⟩ | ⟨hpolicy, -, e⟩ | ⟨-, held, -, e⟩ <;> rw [e]
  · exact (queueNotice_quiet _ _).coherent hcount
  · exact latchFirst_coherent hcount hpolicy rfl
  · exact latchSecond_coherent hcount

theorem stopRun_coherent {byLine : Bool} {s : State} (hs : PlanCoherent s) : PlanCoherent (stopRun byLine s) := by
  unfold stopRun
  split
  · exact hs
  · dsimp only
    split
    · rename_i hlatch
      exact (queueNotice_quiet _ _).coherent (teardown_idle_coherent hlatch)
    · rename_i r hlatch
      refine takeHalt_coherent ?_ (teardown_rests .faulted s).lists
      show (teardown .faulted s).spe.latch.isSome
      rw [teardown_latch, hlatch]
      rfl

/-! ## Settling and arming -/

theorem settling_not_taking {p : PlanState} (h : p = .settling ∨ p = .armed ∨ p = .halted) :
    ¬ takingSamples p ∧ ¬ atRest p ∧ p ≠ .tail := by
  rcases h with rfl | rfl | rfl <;> simp [takingSamples, atRest]

theorem endSettling_coherent {p : ScanStep} {s : State} (hs : PlanCoherent s) (hstate : s.spe.state = .settling) :
    PlanCoherent (endSettling p s) := by
  obtain ⟨hnot, hrest, htail⟩ := settling_not_taking (.inl hstate)
  have hholds := coherent_holds hs hrest (coherent_not_pending hs hnot) (coherent_lists hs hnot)
  have hplan : (endSettling p s).spe = { s.spe with state := .armed, settleTimer := none } := by
    unfold endSettling; dsimp only; split <;> rfl
  refine (hholds.of_same ⟨?_, ?_, ?_, ?_, ?_⟩ (by simp)).coherent ?_ (.inr (.inl ?_))
  any_goals rw [hplan]
  rw [show (endSettling p s).tu = s.tu by simp]
  exact coherent_tails hs htail

theorem settleTest_coherent {s : State} (hs : PlanCoherent s) : PlanCoherent (settleTest s) := by
  rcases settleTest_cases s with e | ⟨a, -, hstate, ⟨-, -, e⟩ | ⟨-, e⟩⟩ <;> rw [e]
  · exact hs
  · exact endSettling_coherent hs hstate
  · exact (Quiet.of_plan ⟨⟨rfl, rfl, rfl, rfl, rfl⟩, rfl⟩ rfl rfl).coherent hs

theorem stepInvalid_coherent {tag : Id16} {s : State} (hs : PlanCoherent s) : PlanCoherent (stepInvalid tag s) :=
  raiseFault_coherent hs

/-- A slot is armed from a coherent plan that is not FAULTED, with no request pending and no trigger outstanding. -/
theorem armSlot_coherent {how : Arming} {slot : Slot} {s : State} (hs : PlanCoherent s) (hfaulted : s.spe.state ≠ .faulted)
    (hpending : ∀ slot, s.spe.interjection ≠ .pending slot) (hlists : ∀ h : Head, (s.hp.get h).outstanding = []) :
    PlanCoherent (armSlot how slot s) := by
  unfold armSlot
  split
  · exact stepInvalid_coherent hs
  · rename_i p hp
    have hslot := (armable_some hp).1
    obtain ⟨-, hlatch, -, -, hcontext, hrunning, -⟩ := hs
    refine settleTest_coherent (Holds.coherent ⟨⟨_, rfl, ?_⟩, fun r hr => ?_, hcontext, hrunning, hpending, hlists⟩
      (stopTails_tails s) (.inl rfl))
    · show (s.spe.slots[slot]).isSome
      rw [hslot]; rfl
    · obtain ⟨hpolicy, htaken, -⟩ := hlatch r hr hfaulted
      exact ⟨hpolicy, htaken⟩

end Sys2Proof.Proofs
end

