-- ==== Sys2Proof/Proofs/CoherentSteps.lean ====
section
/-! PROOF. Every step keeps the controller coherent: the passes, the after-step decisions, the interjections and the host
commands that move the plan, and the operations that leave it alone. -/

open Sys2Proof Sys2Proof.Machine

namespace Sys2Proof.Proofs

/-! ## Passes and tails -/

theorem onPlan_quiet {f : ScanPlan → ScanPlan} {s : State} (h : PlanQuiet s.spe (f s.spe)) : Quiet s (onPlan f s) :=
  .of_plan h rfl rfl

theorem driftTest_quiet (s : State) : Quiet s (driftTest s) := by
  rcases driftTest_cases s with e | ⟨a, -, -, ⟨-, -, e⟩ | ⟨-, e⟩⟩ <;> rw [e]
  · exact .refl s
  · exact .of_plan ⟨⟨rfl, rfl, rfl, rfl, rfl⟩, rfl⟩ rfl rfl
  · exact .of_plan ⟨⟨rfl, rfl, rfl, rfl, rfl⟩, rfl⟩ rfl rfl

/-- The plan in ACQUIRING or TAIL, and otherwise as a coherent plan that holds an active step was: what it lacks is that
a list may hold triggers, and a head a tail. -/
theorem taking_coherent {s t : State} (hs : PlanCoherent s) (hrest : ¬ atRest s.spe.state)
    (hstate : takingSamples t.spe.state) (hplan : PlanSame s.spe t.spe)
    (htails : t.spe.state ≠ .tail → ∀ h : Head, (t.tu.heads.get h).tail = .none) : PlanCoherent t := by
  obtain ⟨-, hlatch, hactive, hslot, hcontext, hrunning, -⟩ := hs
  obtain ⟨elatch, eactive, eslots, econtext, einterjection⟩ := hplan
  have hnot : ¬ atRest t.spe.state := by rcases hstate with e | e <;> rw [e] <;> simp [atRest]
  refine ⟨fun hf => absurd (.inr hf) hnot, fun r hr _ => ?_, ⟨fun hn => ?_, fun hr => absurd hr hnot⟩, ?_, ?_, ?_,
    fun _ _ => hstate, fun hr => absurd hr hnot, fun hn => absurd hstate hn, htails⟩
  · rw [elatch] at hr
    obtain ⟨hpolicy, htaken, -⟩ := hlatch r hr fun e => hrest (.inr e)
    exact ⟨hpolicy, htaken, fun e => hnot (.inl e), fun e => by rcases hstate with e' | e' <;> rw [e'] at e <;> cases e⟩
  · rw [eactive] at hn
    exact absurd (hactive.1 hn) hrest
  · rwa [eactive, eslots]
  · rwa [econtext, eslots]
  · rwa [econtext, einterjection]

theorem foldl_startTail_spe (a : ActiveStep) (hs : List Head) (s : State) :
    (hs.foldl (fun t h => startTail a h t) s).spe = s.spe :=
  foldl_frame State.spe (fun t h => startTail a h t) (fun s h => by simp) hs s

theorem enterTail_spe (a : ActiveStep) (s : State) : (enterTail a s).spe = { s.spe with state := .tail } := by
  rw [enterTail, foldl_startTail_spe]
  rfl

theorem enterTail_coherent {a : ActiveStep} {s : State} (hs : PlanCoherent s) (hrest : ¬ atRest s.spe.state) :
    PlanCoherent (enterTail a s) := by
  have hspe := enterTail_spe a s
  refine taking_coherent hs hrest (.inr ?_) ⟨?_, ?_, ?_, ?_, ?_⟩ fun hne => absurd ?_ hne
  all_goals rw [hspe]

theorem enterAcquiring_coherent {a : ActiveStep} {s : State} (hs : PlanCoherent s) (hstate : s.spe.state = .armed) :
    PlanCoherent (enterAcquiring a s) := by
  obtain ⟨hnot, hrest, htail⟩ := settling_not_taking (.inr (.inl hstate))
  have htails : ∀ h : Head, (s.tu.heads.get h).tail = .none := coherent_tails hs htail
  exact (driftTest_quiet _).coherent (taking_coherent hs hrest (.inl rfl) ⟨rfl, rfl, rfl, rfl, rfl⟩ fun _ => htails)

theorem planNewRevolution_coherent {s : State} (hs : PlanCoherent s) : PlanCoherent (planNewRevolution s) := by
  rcases planNewRevolution_cases s with e | ⟨a, -, ⟨hstate, e⟩ | ⟨-, -, -, e⟩ | ⟨hstate, -, e⟩⟩ <;> rw [e]
  · exact hs
  · exact enterAcquiring_coherent hs hstate
  · exact (onPlan_quiet ⟨⟨rfl, rfl, rfl, rfl, rfl⟩, rfl⟩).coherent hs
  · refine enterTail_coherent ((onPlan_quiet ⟨⟨rfl, rfl, rfl, rfl, rfl⟩, rfl⟩).coherent hs) ?_
    show ¬ atRest s.spe.state
    rw [hstate]
    simp [atRest]

/-! ## Decisions and interjections -/

theorem finishPlan_coherent {s : State} (hs : PlanCoherent s) (hlatch : s.spe.latch = none)
    (hlists : ∀ h : Head, (s.hp.get h).outstanding = []) : PlanCoherent (finishPlan s) := by
  unfold finishPlan
  split
  · exact hs
  · exact Rests.coherent ⟨rfl, rfl, rfl, hlists, stopTails_tails s⟩ (.inl ⟨rfl, hlatch⟩)

/-- A decision is carried out by a plan that holds an active step, with the latch clear. -/
theorem carryOut_coherent {d : Decision} {s : State} (hs : PlanCoherent s) (hrest : ¬ atRest s.spe.state)
    (hlatch : s.spe.latch = none) (hpending : ∀ slot, s.spe.interjection ≠ .pending slot)
    (hlists : ∀ h : Head, (s.hp.get h).outstanding = []) : PlanCoherent (carryOut d s) := by
  cases d with
  | arm n => exact armSlot_coherent hs (fun e => hrest (.inr e)) hpending hlists
  | halt f =>
    have hholds : Holds (carryOut (.halt f) s) :=
      (coherent_holds hs hrest hpending hlists).of_same ⟨rfl, rfl, rfl, rfl, rfl⟩ rfl
    exact hholds.coherent (stopTails_tails s) (.inr (.inr ⟨rfl, hlatch⟩))
  | finish => exact finishPlan_coherent hs hlatch hlists

/-- An interjection starts from a plan that holds an active step, whose slot the context names. -/
theorem startInterjection_coherent {c : Context} {slot : Slot} {s : State} (hs : PlanCoherent s)
    (hrest : ¬ atRest s.spe.state) (hcontext : (s.spe.slots[c.slot]).isSome)
    (hlists : ∀ h : Head, (s.hp.get h).outstanding = []) : PlanCoherent (startInterjection c slot s) := by
  refine armSlot_coherent ?_ (fun e => hrest (.inr e)) nofun hlists
  obtain ⟨h1, h2, h3, h4, -, -, -, -, h9, h10⟩ := hs
  refine ⟨h1, h2, h3, h4, fun x hx => ?_, ⟨fun _ => rfl, fun _ => rfl⟩, nofun, fun hr => absurd hr hrest, h9, h10⟩
  obtain rfl := Option.some.inj hx
  exact hcontext

theorem requestInterjection_coherent {slot : Slot} {s : State} (hs : PlanCoherent s)
    (hnone : s.spe.interjection = .none) : PlanCoherent (requestInterjection slot s) := by
  unfold requestInterjection
  split
  · exact hs
  · rename_i a ha
    have hslot : (s.spe.slots[a.slot]).isSome := hs.2.2.2.1 a ha
    have hstart {st : PlanState} {c : Context} (hstate : s.spe.state = st)
        (hst : st = .settling ∨ st = .armed ∨ st = .halted) (hc : c.slot = a.slot) :
        PlanCoherent (startInterjection c slot s) := by
      rw [← hstate] at hst
      obtain ⟨hnot, hrest, -⟩ := settling_not_taking hst
      exact startInterjection_coherent hs hrest (by simpa only [hc] using hslot) (coherent_lists hs hnot)
    have hwait (htaking : takingSamples s.spe.state) :
        PlanCoherent (onPlan (fun q => { q with interjection := .pending slot }) s) := by
      obtain ⟨h1, h2, h3, h4, h5, h6, -, -, h9, h10⟩ := hs
      refine ⟨h1, h2, h3, h4, h5, ⟨fun hc => ?_, nofun⟩, fun _ _ => htaking, fun hr => ?_, h9, h10⟩
      · have hrunning := h6.1 hc
        rw [hnone] at hrunning
        cases hrunning
      · have hr' : atRest s.spe.state := hr
        rcases htaking with e | e <;> rcases hr' with e' | e' <;> exact absurd (e.symm.trans e') (by decide)
    split
    · exact hstart ‹_› (.inl rfl) rfl
    · exact hstart ‹_› (.inr (.inl rfl)) rfl
    · exact hstart ‹_› (.inr (.inr rfl)) rfl
    · exact hwait (.inl ‹_›)
    · exact hwait (.inr ‹_›)
    · exact hs
    · exact hs

theorem holdMain_coherent {c : Context} {s : State} (hs : PlanCoherent s) (hrest : ¬ atRest s.spe.state)
    (hcontext : (s.spe.slots[c.slot]).isSome) : PlanCoherent (holdMain c s) := by
  obtain ⟨p, hp⟩ := Option.isSome_iff_exists.1 hcontext
  have hactive : (holdMain c s).spe.active = some ⟨c.slot, { stepCopy p s with tag := c.tag }, c.runId⟩ :=
    congrArg (Option.map _) hp
  obtain ⟨h1, h2, -, -, h5, h6, h7, h8, h9, h10⟩ := hs
  refine ⟨h1, h2, ⟨fun hn => ?_, fun hr => absurd hr hrest⟩, fun a ha => ?_, h5, h6, h7, h8, h9, h10⟩
  · rw [hactive] at hn; cases hn
  · rw [hactive] at ha
    obtain rfl := Option.some.inj ha
    exact hcontext

theorem restoreContext_coherent {c : Context} {s : State} (hs : PlanCoherent s) (hrest : ¬ atRest s.spe.state)
    (hlatch : s.spe.latch = none) (hcontext : (s.spe.slots[c.slot]).isSome)
    (hlists : ∀ h : Head, (s.hp.get h).outstanding = []) : PlanCoherent (restoreContext c s) := by
  have hleft : PlanCoherent (onPlan (fun q => { q with interjection := .none, context := none }) s) := by
    obtain ⟨h1, h2, h3, h4, -, -, -, -, h9, h10⟩ := hs
    exact ⟨h1, h2, h3, h4, nofun, ⟨nofun, nofun⟩, nofun, fun _ => rfl, h9, h10⟩
  have harm (how : Arming) := armSlot_coherent (how := how) (slot := c.slot) hleft (fun e => hrest (.inr e)) nofun hlists
  have hdecide (d : Decision) := carryOut_coherent (d := d) (holdMain_coherent (c := c) hleft hrest hcontext) hrest hlatch
    nofun hlists
  unfold restoreContext
  dsimp only
  split
  · exact harm _
  · exact harm _
  · exact hdecide _
  · exact hdecide _
  · exact hleft
  · exact hleft

/-! ## Completion -/

/-- Where no halt is pending, the latch of a coherent plan outside FAULTED is clear. -/
theorem latch_none_of_not_haltPending {s : State} (hs : PlanCoherent s) (hfaulted : s.spe.state ≠ .faulted)
    (h : haltPending s = false) : s.spe.latch = none := by
  cases hl : s.spe.latch with
  | none => rfl
  | some r =>
    obtain ⟨hpolicy, htaken, -⟩ := hs.2.1 r hl hfaulted
    simp [haltPending, hl, hpolicy, htaken] at h

theorem haltPending_isSome {s : State} (h : haltPending s = true) : s.spe.latch.isSome := by
  cases hl : s.spe.latch with
  | none => simp [haltPending, hl] at h
  | some r => rfl

theorem afterStep_coherent {a : ActiveStep} {s : State} (hs : PlanCoherent s) (ha : s.spe.active = some a)
    (hstate : s.spe.state = .tail) (hlists : ∀ h : Head, (s.hp.get h).outstanding = []) :
    PlanCoherent (afterStep a s) := by
  have hrest : ¬ atRest s.spe.state := by rw [hstate]; simp [atRest]
  have hfaulted : s.spe.state ≠ .faulted := fun e => hrest (.inr e)
  unfold afterStep
  split
  · exact takeHalt_coherent (haltPending_isSome ‹_›) hlists
  · rename_i hpending
    have hlatch := latch_none_of_not_haltPending hs hfaulted (Bool.eq_false_iff.2 hpending)
    split
    · split
      · rename_i c hc
        exact restoreContext_coherent hs hrest hlatch (hs.2.2.2.2.1 c hc) hlists
      · exact finishPlan_coherent hs hlatch hlists
    · split
      · exact stepInvalid_coherent hs
      · exact startInterjection_coherent hs hrest (hs.2.2.2.1 a ha) hlists
    · rename_i hnone
      split
      · exact stepInvalid_coherent hs
      · exact carryOut_coherent hs hrest hlatch (fun slot e => by rw [hnone] at e; cases e) hlists

theorem endInterjectionTail_coherent {a : ActiveStep} {slot : Slot} {s : State} (hs : PlanCoherent s)
    (ha : s.spe.active = some a) (hstate : s.spe.state = .tail)
    (hlists : ∀ h : Head, (s.hp.get h).outstanding = []) : PlanCoherent (endInterjectionTail a slot s) := by
  have hrest : ¬ atRest s.spe.state := by rw [hstate]; simp [atRest]
  unfold endInterjectionTail
  split
  · exact takeHalt_coherent (haltPending_isSome ‹_›) hlists
  · dsimp only
    split
    · exact startInterjection_coherent (s := { s with rm := saveAcc s.rm }) hs hrest (hs.2.2.2.1 a ha) hlists
    · exact startInterjection_coherent hs hrest (hs.2.2.2.1 a ha) hlists

/-- The tail is over only in TAIL, with every list empty (R121). -/
theorem tailOver_lists {s : State} (h : tailOver s = true) :
    s.spe.state = .tail ∧ ∀ h : Head, (s.hp.get h).outstanding = [] := by
  simp only [tailOver, Bool.and_eq_true, List.all_eq_true, beq_iff_eq, List.isEmpty_iff] at h
  obtain ⟨⟨⟨⟨⟨⟨⟨⟨hstate, -⟩, hlists⟩, -⟩, -⟩, -⟩, -⟩, -⟩, -⟩ := h
  exact ⟨hstate, fun g => hlists g (mem_heads g)⟩

theorem completeStep_coherent {s : State} (hs : PlanCoherent s) : PlanCoherent (completeStep s) := by
  unfold completeStep
  split
  · exact hs
  · rename_i a ha
    split
    · rename_i hover
      obtain ⟨hstate, hlists⟩ := tailOver_lists (Bool.and_eq_true_iff.1 hover).1
      have hspe : (reportStep a s).spe = s.spe := by simp
      have hhp : (reportStep a s).hp = s.hp := by simp
      have hreport : Quiet s (reportStep a s) := .of_frame hspe hhp (by simp)
      exact afterStep_coherent (hreport.coherent hs) (by rw [hspe, ha]) (by rw [hspe, hstate]) (by rwa [hhp])
    · exact hs

theorem finishInterjectionTail_coherent {s : State} (hs : PlanCoherent s) : PlanCoherent (finishInterjectionTail s) := by
  unfold finishInterjectionTail
  split
  · rename_i a slot ha _
    split
    · rename_i hover
      obtain ⟨hstate, hlists⟩ := tailOver_lists (Bool.and_eq_true_iff.1 hover).1
      exact endInterjectionTail_coherent hs ha hstate hlists
    · exact hs
  · exact hs

theorem takeRaising_coherent {choice : Nat} {s : State} (hs : PlanCoherent s) : PlanCoherent (takeRaising choice s) := by
  unfold takeRaising
  split
  · exact hs
  · exact raiseFault_coherent (s := { s with bus := _ }) hs

/-! ## Triggers -/

theorem onTrigger_tails {h : Head} {f : TriggerHead → TriggerHead} {s : State}
    (hf : (f (s.tu.heads.get h)).tail = (s.tu.heads.get h).tail) (g : Head) :
    ((onTrigger h f s).tu.heads.get g).tail = (s.tu.heads.get g).tail := by
  show ((s.tu.heads.set h (f (s.tu.heads.get h))).get g).tail = _
  rw [PerHead.get_set]
  split
  · subst g; exact hf
  · rfl

theorem attemptTrigger_quiet {a : ActiveStep} {h : Head} {s : State} (hstate : takingSamples s.spe.state) :
    Quiet s (attemptTrigger a h s) := by
  refine ⟨by rw [show (attemptTrigger a h s).spe = s.spe by simp]; exact .refl _, fun hn => absurd hstate hn,
    fun _ g hg => ?_⟩
  rcases attemptTrigger_cases a h s with ⟨-, e⟩ | ⟨-, -, e⟩ | ⟨-, -, e⟩ <;> rw [e]
  · exact hg
  · exact hg
  · exact (onTrigger_tails (s := onPort h _ s) rfl g).trans hg

theorem dueHead_quiet (a : ActiveStep) (h : Head) (s : State) : Quiet s (dueHead a h s) := by
  refine .ite (.refl s) ?_
  split
  · exact .ite (attemptTrigger_quiet (.inl ‹_›)) (.refl s)
  · rename_i hstate _
    refine .ite (.ite (attemptTrigger_quiet (.inr hstate)) (.refl s)) ?_
    exact ⟨.refl _, fun _ _ => id, fun hne => absurd hstate hne⟩
  · exact .refl s

theorem dueInstant_quiet (a : ActiveStep) (s : State) : Quiet s (dueInstant a s) :=
  .foldl (fun t h => dueHead_quiet a h t) _ s

theorem tailEnds_quiet (s : State) : Quiet s (tailEnds s) := .of_frame (by simp) (by simp) (by simp)

theorem angleDue_quiet (s : State) : Quiet s (angleDue s) := by
  unfold angleDue
  split
  · exact .refl s
  · split
    · exact .ite (dueInstant_quiet _ s) (.refl s)
    · exact .refl s

theorem timeDue_quiet (s : State) : Quiet s (timeDue s) := by
  unfold timeDue
  split
  · split
    · refine .ite (Quiet.trans ?_ (tailEnds_quiet _)) (.refl s)
      refine Quiet.trans ?_ (dueInstant_quiet _ _)
      exact ⟨.refl _, fun _ _ => id, fun _ _ => id⟩
    · exact .refl s
  · exact .refl s

theorem pulseOver_quiet (h : Head) (s : State) : Quiet s (pulseOver h s) := by
  unfold pulseOver
  split
  · exact .ite ⟨.refl _, fun _ _ => id, fun _ g hg => (onTrigger_tails rfl g).trans hg⟩ (.refl s)
  · exact .refl s

theorem forgetTrigger_quiet (h : Head) (s : State) : Quiet s (forgetTrigger h s) := by
  unfold forgetTrigger
  split
  · exact .ite ⟨.refl _, fun _ _ => id, fun _ g hg => (onTrigger_tails rfl g).trans hg⟩ (.refl s)
  · exact .refl s

/-! ## The encoder unit -/

theorem takeBy_coherent {revolution edge : Bool} {t : Taker} {s : State} (hs : PlanCoherent s) :
    PlanCoherent (takeBy revolution edge s t) := by
  cases t <;> unfold takeBy <;> dsimp only <;> split
  · exact planNewRevolution_coherent hs
  · exact hs
  · exact (Quiet.of_frame (by simp) (by simp) (by simp)).coherent hs
  · exact hs
  · exact (angleDue_quiet s).coherent hs
  · exact hs
  · exact (Quiet.of_frame (by simp) (by simp) (by simp)).coherent hs
  · exact hs

theorem takeAll_coherent {order : List Taker} {revolution edge : Bool} {s : State} (hs : PlanCoherent s) :
    PlanCoherent (takeAll order revolution edge s) := by
  refine (tailEnds_quiet _).coherent ?_
  generalize takersInOrder order = takers
  induction takers generalizing s with
  | nil => exact hs
  | cons t takers ih => exact ih (takeBy_coherent hs)

/-- The encoder unit's own readings are nothing to the plan. -/
theorem onEncoder_coherent {f : Encoder → Encoder} {s : State} (hs : PlanCoherent s) : PlanCoherent (onEncoder f s) := hs

theorem forwardEdge_coherent {order : List Taker} {s : State} (hs : PlanCoherent s) :
    PlanCoherent (forwardEdge order s) := by
  refine takeAll_coherent ?_
  exact onEncoder_coherent hs

theorem tableTransition_coherent {edge : Transition} {order : List Taker} {s : State} (hs : PlanCoherent s) :
    PlanCoherent (tableTransition edge order s) := by
  cases edge with
  | forward => exact forwardEdge_coherent hs
  | reverse => exact (Quiet.of_frame (by simp) (by simp) (by simp) : Quiet s (reverseEdge s)).coherent hs
  | both => exact onEncoder_coherent hs

theorem checkedIndex_coherent {order : List Taker} {s : State} (hs : PlanCoherent s) :
    PlanCoherent (checkedIndex order s) := by
  have hslip : PlanCoherent (if indexSlips s then sendRaising (raisedNow .indexSlip none s) s else s) := by
    split
    · exact (Quiet.of_frame (t := sendRaising (raisedNow .indexSlip none s) s) rfl rfl rfl).coherent hs
    · exact hs
  have hset {c : Bool} {f : Encoder → Encoder} {u : State} (hu : PlanCoherent u) :
      PlanCoherent (if c then onEncoder f u else u) := by
    cases c
    · exact hu
    · exact onEncoder_coherent hu
  exact takeAll_coherent (hset (hset hslip))

theorem indexEdge_coherent {order : List Taker} {s : State} (hs : PlanCoherent s) : PlanCoherent (indexEdge order s) := by
  unfold indexEdge
  split
  · exact hs
  · split
    · exact checkedIndex_coherent hs
    · exact settleTest_coherent hs

theorem dedicatedIndex_coherent {order : List Taker} {s : State} (hs : PlanCoherent s) :
    PlanCoherent (dedicatedIndex order s) := by
  unfold dedicatedIndex
  split
  · exact hs
  · exact indexEdge_coherent hs

theorem radiusMoved_coherent {before : Nat} {s : State} (hs : PlanCoherent s) : PlanCoherent (radiusMoved before s) := by
  unfold radiusMoved
  split
  · exact hs
  · exact (driftTest_quiet _).coherent (settleTest_coherent hs)

theorem radialTransition_coherent {edge : Transition} {s : State} (hs : PlanCoherent s) :
    PlanCoherent (radialTransition edge s) := by
  cases edge with
  | forward => exact radiusMoved_coherent (onEncoder_coherent hs)
  | reverse => exact radiusMoved_coherent (onEncoder_coherent hs)
  | both => exact onEncoder_coherent hs

theorem settleTick_coherent {s : State} (hs : PlanCoherent s) : PlanCoherent (settleTick s) := by
  unfold settleTick
  split
  · exact hs
  · split
    · exact settleTest_coherent ((onPlan_quiet ⟨⟨rfl, rfl, rfl, rfl, rfl⟩, rfl⟩).coherent hs)
    · exact settleTest_coherent hs

theorem armTick_coherent {s : State} (hs : PlanCoherent s) : PlanCoherent (armTick s) := by
  unfold armTick
  split
  · split
    · split
      · exact raiseFault_coherent ((onPlan_quiet ⟨⟨rfl, rfl, rfl, rfl, rfl⟩, rfl⟩).coherent hs)
      · exact (onPlan_quiet ⟨⟨rfl, rfl, rfl, rfl, rfl⟩, rfl⟩).coherent hs
    · exact hs
  · exact hs

theorem millisecond_coherent {s : State} (hs : PlanCoherent s) : PlanCoherent (millisecond s) := by
  unfold millisecond
  split
  · exact armTick_coherent (settleTick_coherent ((onPlan_quiet ⟨⟨rfl, rfl, rfl, rfl, rfl⟩, rfl⟩).coherent hs))
  · exact hs

/-! ## Head ports and placement -/

theorem onPort_quiet {h : Head} {f : HeadPort → HeadPort} {s : State}
    (hf : (s.hp.get h).outstanding = [] → (f (s.hp.get h)).outstanding = []) : Quiet s (onPort h f s) := by
  refine ⟨.refl _, fun _ g hg => ?_, fun _ _ => id⟩
  show ((s.hp.set h (f (s.hp.get h))).get g).outstanding = []
  rw [PerHead.get_set]
  split
  · subst g; exact hf hg
  · exact hg

theorem onCounters_quiet (h : Head) (f : HeadCounters → HeadCounters) (s : State) : Quiet s (onCounters h f s) :=
  onPort_quiet id

theorem enqueueSample_quiet (h : Head) (x : Sample) (s : State) : Quiet s (enqueueSample h x s) := by
  rcases enqueueSample_cases h x s with ⟨-, e⟩ | ⟨-, e⟩ <;> rw [e]
  · exact onPort_quiet id
  · exact (onCounters_quiet h (fun c => { c with queueDrops := satInc c.queueDrops }) s).trans (.of_frame rfl rfl rfl)

theorem resolveSilent_quiet (h : Head) (e : Outstanding) (s : State) : Quiet s (resolveSilent h e s) := by
  have hcount := onCounters_quiet h (fun c => { c with noResponse := satInc c.noResponse }) s
  unfold resolveSilent
  dsimp only
  split
  · exact hcount.trans (enqueueSample_quiet _ _ _)
  · exact hcount
  · exact hcount.trans (.of_frame rfl rfl rfl)

/-- A list that is not empty loses entries. -/
theorem shorterList_quiet {h : Head} {rest : List Outstanding} {s : State} (hne : (s.hp.get h).outstanding ≠ []) :
    Quiet s (onPort h (fun p => { p with outstanding := rest }) s) :=
  onPort_quiet fun e => absurd e hne

theorem matchWord_quiet (h : Head) (w : HeadWord) (s : State) : Quiet s (matchWord h w s) := by
  unfold matchWord
  split
  · exact onCounters_quiet _ _ s
  · rename_i older e rest hsplit
    have hne : (s.hp.get h).outstanding ≠ [] := by rw [(splitAtSeq_some hsplit).1]; simp
    refine Quiet.trans ?_ (enqueueSample_quiet _ _ _)
    exact (shorterList_quiet hne).trans (.foldl (fun t x => resolveSilent_quiet h x t) _ _)

theorem wordGapEnds_quiet (h : Head) (s : State) : Quiet s (wordGapEnds h s) :=
  .ite (Quiet.trans (onPort_quiet (f := fun p => { p with partialWord := [] }) id) (onCounters_quiet _ _ _)) (.refl s)

theorem completeWord_quiet (h : Head) (word : List LineByte) (s : State) : Quiet s (completeWord h word s) :=
  .ite (matchWord_quiet _ _ s) (onCounters_quiet _ _ s)

theorem takeLineByte_quiet (h : Head) (b : LineByte) (s : State) : Quiet s (takeLineByte h b s) := by
  refine (wordGapEnds_quiet h s).trans ?_
  unfold takeLineByte
  dsimp only
  split
  · exact onPort_quiet id
  · exact Quiet.trans (onPort_quiet id) (completeWord_quiet _ _ _)

theorem takeWordBytes_quiet (h : Head) (bytes : List LineByte) (s : State) : Quiet s (takeWordBytes h bytes s) :=
  (Quiet.foldl (fun t b => takeLineByte_quiet h b t) bytes s).trans (tailEnds_quiet _)

theorem frontTimesOut_quiet (h : Head) (s : State) : Quiet s (frontTimesOut h s) := by
  unfold frontTimesOut
  split
  · exact .refl s
  · rename_i e rest hlist
    have hne : (s.hp.get h).outstanding ≠ [] := by rw [hlist]; simp
    exact .ite (((shorterList_quiet hne).trans (resolveSilent_quiet _ _ _)).trans (tailEnds_quiet _)) (.refl s)

theorem grantSample_quiet (s : State) : Quiet s (grantSample s) := by
  unfold grantSample
  split
  · split
    · exact .refl s
    · rename_i x rest _
      refine Quiet.trans (onPort_quiet (f := fun p => { p with queue := rest }) id) (.of_frame rfl rfl rfl)
  · exact .refl s

theorem placeSample_quiet (a : ActiveStep) (h : Head) (x : Sample) (s : State) : Quiet s (placeSample a h x s) := by
  refine .ite (.of_frame (by simp) (by simp) (by simp)) ?_
  split
  · exact Quiet.trans (onCounters_quiet h (fun c => { c with stale := satInc c.stale }) s) (.of_frame rfl rfl rfl)
  · exact .of_frame (by simp) (by simp) (by simp)

theorem endPlacement_quiet (s : State) : Quiet s (endPlacement s) := by
  unfold endPlacement
  split
  · exact .refl s
  · have hfree : Quiet s { s with pe := { s.pe with busy := none } } := .of_frame rfl rfl rfl
    dsimp only
    split
    · exact hfree
    · exact (hfree.trans (placeSample_quiet _ _ _ _)).trans (tailEnds_quiet _)

/-! ## Records on their way -/

theorem onStepCounters_quiet (f : StepCounters → StepCounters) (s : State) : Quiet s (onStepCounters f s) :=
  .of_plan ⟨⟨rfl, rfl, rfl, rfl, rfl⟩, rfl⟩ rfl rfl

theorem takeReport_quiet (s : State) : Quiet s (takeReport s) := by
  unfold takeReport
  split
  · exact .refl s
  · rename_i x rest _
    have htaken : Quiet s { s with bus := { s.bus with reports := rest } } := .of_frame rfl rfl rfl
    exact .ite htaken (.ite (htaken.trans (onStepCounters_quiet _ _)) htaken)

theorem takeAdmission_quiet (s : State) : Quiet s (takeAdmission s) := by
  unfold takeAdmission
  split
  · exact .refl s
  · rename_i x rest _
    have htaken : Quiet s { s with bus := { s.bus with stored := rest } } := .of_frame rfl rfl rfl
    exact .ite htaken (.ite (htaken.trans (onStepCounters_quiet _ _)) htaken)

/-! ## Lines and the controller's own operations -/

theorem requestable_none {s : State} (h : interjectionRefusal s = none) : s.spe.interjection = .none := by
  unfold interjectionRefusal at h
  split at h
  · cases h
  · split at h
    · cases h
    · exact Decidable.not_not.1 ‹_›

theorem risingEdge_coherent {f : AuxFunction} {order : List Taker} {s : State} (hs : PlanCoherent s) :
    PlanCoherent (risingEdge f order s) := by
  unfold risingEdge
  split
  · exact radiusMoved_coherent (onEncoder_coherent hs)
  · split
    · exact stopRun_coherent hs
    · exact hs
  · split
    · exact requestInterjection_coherent hs (requestable_none ‹_›)
    · exact hs
  · exact indexEdge_coherent hs
  · exact hs

theorem lineChange_coherent {i : Fin 8} {high : Bool} {order : List Taker} {s : State} (hs : PlanCoherent s) :
    PlanCoherent (lineChange i high order s) := by
  have hline : PlanCoherent (onLine i (fun l => { l with outside := high }) s) := hs
  unfold lineChange
  dsimp only
  split
  · exact hline
  · split
    · exact settleTest_coherent hline
    · split
      · exact risingEdge_coherent hline
      · exact hline

theorem lineChangeAny_coherent {after : Nat} {i : Fin 8} {high : Bool} {order : List Taker} {s : State}
    (hs : PlanCoherent s) : PlanCoherent (lineChangeAny after i high order s) := by
  unfold lineChangeAny
  split
  · exact hs
  · exact lineChange_coherent (s := elapse after s) hs

theorem endPulse_quiet (p : PulsedOutput) (s : State) : Quiet s (endPulse p s) :=
  .of_frame (by simp) (by simp) (by simp)

theorem fullReset_coherent (s : State) : PlanCoherent (fullReset s) := reset_planCoherent

theorem endSending_coherent {s : State} (hs : PlanCoherent s) : PlanCoherent (endSending s) := by
  unfold endSending
  split
  · exact hs
  · rename_i f _
    dsimp only
    split
    · exact fullReset_coherent _
    · have hreleased : Quiet s (releaseSent f.kind (onLink (fun l => { l with sending := none }) s)) :=
        .of_frame (by simp) (by simp) (by simp)
      exact hreleased.coherent hs

theorem ownOperation_coherent {c : Instr} {op : State → State} (h : ownOperation c = some op) {s : State}
    (hs : PlanCoherent s) : PlanCoherent (op s) := by
  have hlater (after : Nat) : PlanCoherent (elapse after s) := hs
  cases c <;> cases h
  case tableEdge after edge order => exact tableTransition_coherent (hlater after)
  case index after order => exact dedicatedIndex_coherent (hlater after)
  case ringExpiry after => exact (Quiet.of_frame (by simp) (by simp) (by simp)).coherent (hlater after)
  case stall after => exact (Quiet.of_frame (by simp) (by simp) (by simp)).coherent (hlater after)
  case radialEdge after edge => exact radialTransition_coherent (hlater after)
  case millisecondBoundary after => exact millisecond_coherent (hlater after)
  case timeDueInstant after => exact (timeDue_quiet _).coherent (hlater after)
  case triggerPulseEnd after head => exact (pulseOver_quiet head _).coherent (hlater after)
  case lastTriggerExpiry after head => exact (forgetTrigger_quiet head _).coherent (hlater after)
  case headWord after head bytes => exact (takeWordBytes_quiet head bytes _).coherent (hlater after)
  case headWordGap after head => exact (wordGapEnds_quiet head _).coherent (hlater after)
  case responseTimeout after head => exact (frontTimesOut_quiet head _).coherent (hlater after)
  case placementGrant => exact (grantSample_quiet s).coherent hs
  case placementEnd after => exact (endPlacement_quiet _).coherent (hlater after)
  case trackingPost => exact (Quiet.of_frame (by simp) (by simp) (by simp)).coherent hs
  case recordReport => exact (takeReport_quiet s).coherent hs
  case recordAdmission choice => exact (Quiet.of_frame (by simp) (by simp) (by simp)).coherent hs
  case admissionReport => exact (takeAdmission_quiet s).coherent hs
  case stepCompletion => exact completeStep_coherent hs
  case interjectionTailEnd => exact finishInterjectionTail_coherent hs
  case faultRaise choice => exact takeRaising_coherent hs
  case frameReceived after bytes => exact (Quiet.of_frame (by simp) (by simp) (by simp)).coherent (hlater after)
  case linkGap after => exact hs
  case frameSendStart => exact (Quiet.of_frame (by simp) (by simp) (by simp)).coherent hs
  case frameSendEnd after => exact endSending_coherent (hlater after)
  case auxPulseEnd after output => exact (endPulse_quiet output _).coherent (hlater after)

/-! ## The host commands -/

theorem runSlot_coherent {args : List Byte} {s : State} (hs : PlanCoherent s) : PlanCoherent (runSlot args s).after := by
  unfold runSlot
  split
  · exact hs
  · split
    · exact hs
    · split
      · exact hs
      · have hidle : s.spe.state = .idle := Decidable.not_not.1 ‹_›
        have hnot : ¬ takingSamples s.spe.state := by rw [hidle]; simp [takingSamples]
        exact armSlot_coherent hs (by rw [hidle]; decide) (coherent_not_pending hs hnot) (coherent_lists hs hnot)

theorem stopCommand_coherent {s : State} (hs : PlanCoherent s) : PlanCoherent (stopCommand s).after := by
  unfold stopCommand
  split
  · exact stopRun_coherent hs
  · exact hs

theorem continuePlan_coherent {s : State} (hs : PlanCoherent s) : PlanCoherent (continuePlan s).after := by
  have hfinish (hhalted : s.spe.state = .halted) : PlanCoherent (finishPlan s) :=
    finishPlan_coherent hs (coherent_latch_none hs (.inr hhalted))
      (coherent_lists hs (settling_not_taking (.inr (.inr hhalted))).1)
  unfold continuePlan
  split
  · rename_i hhalted _
    have hnot := (settling_not_taking (.inr (.inr hhalted))).1
    exact armSlot_coherent hs (by rw [hhalted]; decide) (coherent_not_pending hs hnot) (coherent_lists hs hnot)
  · exact hfinish ‹_›
  · exact hfinish ‹_›
  · exact hs

theorem interjectSlot_coherent {args : List Byte} {s : State} (hs : PlanCoherent s) :
    PlanCoherent (interjectSlot args s).after := by
  unfold interjectSlot
  split
  · exact hs
  · split
    · exact hs
    · exact requestInterjection_coherent hs (requestable_none ‹_›)

theorem clearFault_coherent {s : State} (hs : PlanCoherent s) : PlanCoherent (clearFault s).after := by
  unfold clearFault
  split
  · rename_i hfaulted
    have hrest : atRest s.spe.state := .inr hfaulted
    have hnot : ¬ takingSamples s.spe.state := by rw [hfaulted]; simp [takingSamples]
    have htail : s.spe.state ≠ .tail := by rw [hfaulted]; decide
    have hnone : s.spe.interjection = .none := hs.2.2.2.2.2.2.2.1 hrest
    have hcontext : s.spe.context = none := by
      have hrunning := hs.2.2.2.2.2.1
      cases hc : s.spe.context with
      | none => rfl
      | some c =>
        rw [hc, hnone] at hrunning
        cases hrunning.1 rfl
    have hlists : ∀ h : Head, (s.hp.get h).outstanding = [] := coherent_lists hs hnot
    have htails : ∀ h : Head, (s.tu.heads.get h).tail = .none := coherent_tails hs htail
    exact Rests.coherent ⟨hs.2.2.1.2 hrest, hcontext, hnone, hlists, htails⟩ (.inl ⟨rfl, rfl⟩)
  · exact hs

theorem isSome_set {slots : Vector (Option ScanStep) 64} {i j : Slot} {p : ScanStep} (h : (slots[j]).isSome) :
    ((slots.set i (some p))[j]).isSome := by
  rw [Fin.getElem_fin, Vector.getElem_set]
  split
  · rfl
  · exact h

/-- A slot that is stored stays one (R114). -/
theorem writeSlot_coherent {args : List Byte} {s : State} (hs : PlanCoherent s) :
    PlanCoherent (writeSlot args s).after := by
  unfold writeSlot
  split
  · split
    · exact hs
    · obtain ⟨h1, h2, h3, h4, h5, h6, h7, h8, h9, h10⟩ := hs
      exact ⟨h1, h2, h3, fun a ha => isSome_set (h4 a ha), fun c hc => isSome_set (h5 c hc), h6, h7, h8, h9, h10⟩
  · exact hs

theorem assignLine_coherent {args : List Byte} {s : State} (hs : PlanCoherent s) :
    PlanCoherent (assignLine args s).after := by
  unfold assignLine
  split
  · exact settleTest_coherent (s := onLine _ _ s) hs
  · exact hs

theorem takeHeadGroup_quiet (h : Head) (w : GroupWrite) (s : State) : Quiet s (takeHeadGroup h w s) := by
  have hport : Quiet s (onPort h (fun x => { x with params := (writeHeadParams w x.params).value }) s) := onPort_quiet id
  refine hport.trans ⟨.refl _, fun _ _ => id, fun _ g hg => ?_⟩
  exact (onTrigger_tails rfl g).trans hg

theorem setTrack_quiet (w : GroupWrite) (s : State) : Quiet s (setTrack w s).after := by
  unfold setTrack
  split
  · exact .refl s
  · dsimp only [doneWith]
    split
    · exact .of_frame (by simp) (by simp) (by simp)
    · exact .of_frame (by simp) (by simp) (by simp)

theorem writeGroup_quiet (g : Group) (w : GroupWrite) (s : State) : Quiet s (writeGroup g w s).after := by
  cases g with
  | encoder => exact setEncoder_after (.refl s) fun _ => .of_frame rfl rfl rfl
  | head h => exact setHead_after (.refl s) fun _ => takeHeadGroup_quiet h w s
  | track => exact setTrack_quiet w s
  | plan => exact .of_plan ⟨⟨rfl, rfl, rfl, rfl, rfl⟩, rfl⟩ rfl rfl

theorem clearCounters_quiet (c : CounterSet) (s : State) : Quiet s (clearCounters c s) := by
  cases c with
  | head h => exact onCounters_quiet h (fun _ => ⟨0, 0, 0, 0, 0, 0, 0, 0⟩) s
  | encoder => exact .of_frame rfl rfl rfl
  | fault => exact .of_plan ⟨⟨rfl, rfl, rfl, rfl, rfl⟩, rfl⟩ rfl rfl
  | store => exact .of_frame rfl rfl rfl
  | link => exact .of_frame rfl rfl rfl

theorem readCounters_quiet (args : List Byte) (s : State) : Quiet s (readCounters args s).after := by
  unfold readCounters
  split
  · exact .refl s
  · exact .ite (.refl s) (clearCounters_quiet _ s)

theorem loadBlades_quiet (args : List Byte) (s : State) : Quiet s (loadBlades args s).after := by
  unfold loadBlades whenIdle
  split
  · dsimp only
    split
    · exact .of_frame rfl rfl rfl
    · exact .refl s
  · exact .refl s

theorem markBlades_quiet (args : List Byte) (s : State) : Quiet s (markBlades args s).after := by
  unfold markBlades
  split
  · exact .refl s
  · split
    · exact .of_frame rfl rfl rfl
    · exact .refl s

theorem loadRunout_quiet (args : List Byte) (s : State) : Quiet s (loadRunout args s).after := by
  have hmap (m : RunoutMap) : Quiet s { s with rm := m } := .of_frame rfl rfl rfl
  unfold loadRunout whenIdle
  split
  · dsimp only
    split
    · exact hmap _
    · exact .refl s
  · exact .refl s

theorem clearRunout_quiet (s : State) : Quiet s (clearRunout s).after := by
  unfold clearRunout whenIdle
  split
  · exact .of_frame rfl rfl rfl
  · exact .refl s

theorem hostRow_coherent {c : Instr} {mine : HostCommand → Bool} {f : List Byte → State → Executed}
    (h : hostRow c = some (mine, f)) {args : List Byte} {s : State} (hs : PlanCoherent s) :
    PlanCoherent (f args s).after := by
  have hset : PlanCoherent (setGroup writeGroup args s).after :=
    (setGroup_after (.refl s) fun g w => writeGroup_quiet g w s : Quiet s _).coherent hs
  have hfixed {n : Nat} {g : List Byte → State → Executed} (hg : PlanCoherent (g args s).after) :
      PlanCoherent (withLength n g args s).after :=
    withLength_after (P := fun _ t => PlanCoherent t) hs hg
  have hcounted {n : Nat} {g : List Byte → State → Executed} (hg : PlanCoherent (g args s).after) :
      PlanCoherent (withCount n g args s).after :=
    withCount_after (P := fun _ t => PlanCoherent t) hs hg
  cases c <;> cases h
  case idnt => exact hfixed hs
  case stat => exact hfixed hs
  case setpEncoder => exact hset
  case setpHead => exact hset
  case setpTrack => exact hset
  case setpPlan => exact hset
  case getp => exact hfixed (by rwa [readGroup_after])
  case cntr => exact hfixed ((readCounters_quiet args s).coherent hs)
  case runp => exact hfixed (runSlot_coherent hs)
  case stop => exact hfixed (stopCommand_coherent hs)
  case cont => exact hfixed (continuePlan_coherent hs)
  case intj => exact hfixed (interjectSlot_coherent hs)
  case fclr => exact hfixed (clearFault_coherent hs)
  case grnt => exact hfixed hs
  case btld => exact hcounted ((loadBlades_quiet args s).coherent hs)
  case btrd => exact hfixed (by rwa [readBlades_after])
  case btmk => exact hcounted ((markBlades_quiet args s).coherent hs)
  case mpld => exact hfixed ((loadRunout_quiet args s).coherent hs)
  case mprd => exact hfixed hs
  case mpcl => exact hfixed ((clearRunout_quiet s).coherent hs)
  case stpw => exact hfixed (writeSlot_coherent hs)
  case stpr => exact hfixed (by rwa [readSlot_after])
  case axas => exact hfixed (assignLine_coherent hs)
  case axwr => exact hfixed hs
  case rset => exact hfixed hs
  case unknown => exact hs

theorem exec_coherent {c : Instr} {s t : State} (hs : PlanCoherent s) (h : exec c s = .next t) : PlanCoherent t := by
  rcases instr_cases c with ⟨op, hop⟩ | ⟨mine, f, hrow⟩ | ⟨after, i, high, order, rfl⟩ | rfl | rfl | rfl
  · rw [exec_ownOperation hop] at h
    rcases running_eq_next h with ⟨-, rfl⟩ | ⟨-, rfl⟩
    · exact hs
    · exact ownOperation_coherent hop hs
  · rcases hostRow_answers hrow h with rfl | ⟨hc, rest, -, -, rfl⟩
    · exact hs
    · exact hostRow_coherent hrow (s := onLink (fun l => { l with queue := rest }) s) hs
  · cases h
    exact lineChangeAny_coherent hs
  · cases h
    exact fullReset_coherent s
  · cases h
    exact fullReset_coherent s
  · cases h
    split
    · exact fullReset_coherent s
    · exact hs

/-- Settles O7: `exec_coherent` says it of each command, and a step is a command or a tick. -/
theorem stepKeepsPlanCoherent : Obligations.StepKeepsPlanCoherent := fun _ _ hs h =>
  step_induction (fun s hs => (Quiet.ite (.refl s) (.of_frame rfl rfl rfl) : Quiet s (idle s)).coherent hs)
    (fun _ _ => id) (fun _ _ _ hs h => exec_coherent hs h) hs h

end Sys2Proof.Proofs
end

