-- ==== Sys2Proof/Proofs/Timers.lean ====
section
/-! PROOF. What expires, and what a transition counts: the ring, the stall timer, the pulses, the last-trigger ticks
(R11, R13, R22, R24, R183) and the quadrature transitions (R1, R14). -/

open Sys2Proof Sys2Proof.Machine

namespace Sys2Proof.Proofs

/-! ## Readings of the shared operations -/

/-- A raising as it stands now is the one the specification names (R141). -/
theorem raisedNow_eq (cls : FaultClass) (head : Option Head) (s : State) : raisedNow cls head s = raisingOf cls head s := by
  unfold raisedNow raisingOf
  cases s.spe.active <;> rfl

theorem passedMore_iff {n : Nat} {t : Tick} {s : State} : passedMore n t s = true ↔ n < (s.eu.tick - t).toNat :=
  decide_eq_true_iff

theorem passedMore_eq_false {n : Nat} {t : Tick} {s : State} (h : (s.eu.tick - t).toNat ≤ n) : passedMore n t s = false :=
  decide_eq_false (Nat.not_lt.2 h)

theorem passedAtLeast_iff {n : Nat} {t : Tick} {s : State} : passedAtLeast n t s = true ↔ n ≤ (s.eu.tick - t).toNat :=
  decide_eq_true_iff

theorem passedAtLeast_eq_false {n : Nat} {t : Tick} {s : State} (h : (s.eu.tick - t).toNat < n) :
    passedAtLeast n t s = false :=
  decide_eq_false (Nat.not_le.2 h)

/-- Outside TAIL no head reaches its tail end (R85). -/
theorem tailEnds_of_not_tail {s : State} (h : s.spe.state ≠ .tail) : tailEnds s = s := by
  refine List.foldl_fixed' (fun g => if_neg ?_) heads
  simp [atTailEnd, h]

/-! ## The encoder unit's timers (R11, R13) -/

section
variable {s : State} {newest : Tick} (h : s.eu.ring.getLast? = some newest)
include h

theorem ringExpires_of_silence (hp : 16777216 < (s.eu.tick - newest).toNat) :
    ringExpires s = { s with eu := { s.eu with ring := [] } } := by
  have hpassed : passedMore Config.silencePeriod newest s = true := passedMore_iff.2 hp
  simp only [ringExpires, latestEdge, h, hpassed, if_true]
  rfl

theorem ringExpires_of_recent (hp : (s.eu.tick - newest).toNat ≤ 16777216) : ringExpires s = s := by
  have hpassed : passedMore Config.silencePeriod newest s = false := passedMore_eq_false hp
  simp [ringExpires, latestEdge, h, hpassed]

end

theorem stallExpires_of_silence {s : State} (hstate : s.spe.state = .acquiring) (hraised : s.eu.stallRaised = false)
    (hp : 16777216 < (s.eu.tick - s.eu.stallStart).toNat) :
    stallExpires s = { s with
      eu := { s.eu with stallRaised := true }
      bus := { s.bus with raisings := s.bus.raisings ++ [raisingOf .stall none s] } } := by
  rw [stallExpires, if_pos ⟨hstate, hraised, passedMore_iff.2 hp⟩, raisedNow_eq]
  rfl

theorem stallExpires_of_not {s : State}
    (h : s.spe.state ≠ .acquiring ∨ s.eu.stallRaised = true ∨ (s.eu.tick - s.eu.stallStart).toNat ≤ 16777216) :
    stallExpires s = s := by
  refine if_neg fun ⟨hstate, hraised, hp⟩ => ?_
  rcases h with h | h | h
  · exact h hstate
  · rw [hraised] at h; cases h
  · exact absurd (passedMore_iff.1 hp) (Nat.not_lt.2 h)

/-! ## Trigger lines and pulsed outputs (R22, R24, R183) -/

section
variable {s : State} {h : Head} {begun : Tick}

theorem pulseOver_of_passed (hb : (s.tu.heads.get h).pulse = some begun) (hp : 100 ≤ (s.eu.tick - begun).toNat) :
    pulseOver h s = onTrigger h (fun x => { x with pulse := none }) s := by
  have hpassed : passedAtLeast Config.pulseTicks begun s = true := passedAtLeast_iff.2 hp
  simp only [pulseOver, hb, hpassed, if_true]

theorem pulseOver_of_recent (hb : (s.tu.heads.get h).pulse = some begun) (hp : (s.eu.tick - begun).toNat < 100) :
    pulseOver h s = s := by
  have hpassed : passedAtLeast Config.pulseTicks begun s = false := passedAtLeast_eq_false hp
  simp [pulseOver, hb, hpassed]

theorem forgetTrigger_of_passed (hb : (s.tu.heads.get h).lastTrigger = some begun)
    (hp : 1000000 < (s.eu.tick - begun).toNat) :
    forgetTrigger h s = onTrigger h (fun x => { x with lastTrigger := none }) s := by
  have hpassed : passedMore Config.lastTriggerPeriod begun s = true := passedMore_iff.2 hp
  simp only [forgetTrigger, hb, hpassed, if_true]

theorem forgetTrigger_of_recent (hb : (s.tu.heads.get h).lastTrigger = some begun)
    (hp : (s.eu.tick - begun).toNat ≤ 1000000) : forgetTrigger h s = s := by
  have hpassed : passedMore Config.lastTriggerPeriod begun s = false := passedMore_eq_false hp
  simp [forgetTrigger, hb, hpassed]

theorem endPulse_passEnd_of_passed (hb : s.ax.passEnd = some begun) (hp : 100 ≤ (s.eu.tick - begun).toNat) :
    endPulse .passEnd s = { s with ax := { s.ax with passEnd := none } } :=
  if_pos (by rw [hb]; exact passedAtLeast_iff.2 hp)

theorem endPulse_passEnd_of_recent (hb : s.ax.passEnd = some begun) (hp : (s.eu.tick - begun).toNat < 100) :
    endPulse .passEnd s = s :=
  if_neg (by rw [hb]; exact Bool.eq_false_iff.1 (passedAtLeast_eq_false hp))

theorem endPulse_strobe_of_passed (hb : s.ax.strobe = some begun) (hp : 100 ≤ (s.eu.tick - begun).toNat) :
    endPulse .bladeStrobe s = { s with ax := { s.ax with strobe := none } } :=
  if_pos (by rw [hb]; exact passedAtLeast_iff.2 hp)

theorem endPulse_strobe_of_recent (hb : s.ax.strobe = some begun) (hp : (s.eu.tick - begun).toNat < 100) :
    endPulse .bladeStrobe s = s :=
  if_neg (by rw [hb]; exact Bool.eq_false_iff.1 (passedAtLeast_eq_false hp))

end

/-- Settles O25. -/
theorem timersExpire : Obligations.TimersExpire := by
  refine ⟨fun s after hr => ⟨fun newest hn hp => ?_, fun newest hn hp => ?_, fun hstate hraised hp => ?_, fun h => ?_⟩,
    fun s after h begun hr => ⟨fun hb hp => ?_, fun hb hp => ?_, fun hb hp => ?_, fun hb hp => ?_⟩,
    fun s after begun hr => ⟨fun hb hp => ?_, fun hb hp => ?_, fun hb hp => ?_, fun hb hp => ?_⟩⟩
  · rw [exec_ringExpiry _ _ hr, ringExpires_of_silence (s := elapse after s) hn hp]
  · rw [exec_ringExpiry _ _ hr, ringExpires_of_recent (s := elapse after s) hn hp]
  · rw [exec_stall _ _ hr, stallExpires_of_silence (s := elapse after s) hstate hraised hp]
    rfl
  · rw [exec_stall _ _ hr, stallExpires_of_not (s := elapse after s) h]
  · rw [exec_triggerPulseEnd _ _ _ hr, pulseOver_of_passed (s := elapse after s) hb hp]
    rfl
  · rw [exec_triggerPulseEnd _ _ _ hr, pulseOver_of_recent (s := elapse after s) hb hp]
  · rw [exec_lastTriggerExpiry _ _ _ hr, forgetTrigger_of_passed (s := elapse after s) hb hp]
    rfl
  · rw [exec_lastTriggerExpiry _ _ _ hr, forgetTrigger_of_recent (s := elapse after s) hb hp]
  · rw [exec_auxPulseEnd _ _ _ hr, endPulse_passEnd_of_passed (s := elapse after s) hb hp]
    rfl
  · rw [exec_auxPulseEnd _ _ _ hr, endPulse_passEnd_of_recent (s := elapse after s) hb hp]
  · rw [exec_auxPulseEnd _ _ _ hr, endPulse_strobe_of_passed (s := elapse after s) hb hp]
    rfl
  · rw [exec_auxPulseEnd _ _ _ hr, endPulse_strobe_of_recent (s := elapse after s) hb hp]

/-! ## Transitions (R1, R14) -/

theorem settleTest_of_not_settling {s : State} (h : s.spe.state ≠ .settling) : settleTest s = s := by
  rcases settleTest_cases s with e | ⟨a, -, hstate, -⟩
  · exact e
  · exact absurd hstate h

theorem driftTest_of_not_acquiring {s : State} (h : s.spe.state ≠ .acquiring) : driftTest s = s := by
  rcases driftTest_cases s with e | ⟨a, -, hstate, -⟩
  · exact e
  · exact absurd hstate h

theorem radiusMoved_of_untested {s : State} (before : Nat) (f : Encoder → Encoder) (hsettling : s.spe.state ≠ .settling)
    (hacquiring : s.spe.state ≠ .acquiring) : radiusMoved before (onEncoder f s) = onEncoder f s := by
  rw [radiusMoved, settleTest_of_not_settling (s := onEncoder f s) hsettling,
    driftTest_of_not_acquiring (s := onEncoder f s) hacquiring, ite_self]

/-- Settles O20. -/
theorem transitionsCount : Obligations.TransitionsCount := by
  refine ⟨fun s after order hr => ⟨?_, ?_⟩, fun s after hr hsettling hacquiring => ⟨?_, ?_⟩⟩
  · rw [exec_tableEdge _ _ _ _ hr]; rfl
  · rw [exec_radialEdge _ _ _ hr]; rfl
  · rw [exec_radialEdge _ _ _ hr, radialTransition, radiusMoved_of_untested (s := elapse after s) _ _ hsettling hacquiring]; rfl
  · rw [exec_radialEdge _ _ _ hr, radialTransition, radiusMoved_of_untested (s := elapse after s) _ _ hsettling hacquiring]; rfl

end Sys2Proof.Proofs
end

