-- ==== Sys2Proof/Proofs/HeadWords.lean ====
section
/-! PROOF. Head words: their bytes are read back (13.2, R188), and what a port does with a good word, another word, a gap and
an entry past its timeout (R26 to R30). -/

open Sys2Proof Sys2Proof.Machine

namespace Sys2Proof.Proofs

/-! ## The bytes of a head word (13.2) -/

/-- The 48 bits of a head word before its check byte. -/
def wordBits (w : HeadWord) (spare : BitVec 2) : Nat :=
  w.seq.toNat * 2 ^ 36 + headCodeNum w.answer.code * 2 ^ 34 + spare.toNat * 2 ^ 32 + w.answer.intensity.toNat * 2 ^ 20 +
    w.answer.distance.toNat

theorem headWordBytes_eq (w : HeadWord) (spare : BitVec 2) :
    headWordBytes w spare = natBytes 6 (wordBits w spare) ++ [wordCheck (natBytes 6 (wordBits w spare))] := rfl

theorem headCodeNum_lt (c : HeadCode) : headCodeNum c < 4 := by cases c <;> decide

theorem headCodeOf_num (c : HeadCode) : headCodeOf (headCodeNum c) = c := by cases c <;> rfl

theorem readWord_headWordBytes (w : HeadWord) (spare : BitVec 2) : readWord (headWordBytes w spare) = w := by
  obtain ⟨seq, ⟨code, intensity, distance⟩⟩ := w
  have hseq := seq.isLt
  have hcode := headCodeNum_lt code
  have hspare := spare.isLt
  have hintensity := intensity.isLt
  have hdistance := distance.isLt
  obtain ⟨v, hv⟩ : ∃ v, v = wordBits ⟨seq, ⟨code, intensity, distance⟩⟩ spare := ⟨_, rfl⟩
  have hbits : v = seq.toNat * 2 ^ 36 + headCodeNum code * 2 ^ 34 + spare.toNat * 2 ^ 32 + intensity.toNat * 2 ^ 20 +
    distance.toNat := hv
  obtain ⟨c, hc⟩ : ∃ c, c = wordCheck (natBytes 6 v) := ⟨_, rfl⟩
  have hcheck := c.isLt
  have hvalue : beNat (natBytes 6 v ++ [c]) = v * 256 + c.toNat := by
    rw [beNat_append, beNat_natBytes_of_lt (by omega)]
    simp [beNat]
  have hread : (v * 256 + c.toNat) / 2 ^ 42 % 4 = headCodeNum code := by omega
  rw [headWordBytes_eq, ← hv, ← hc, readWord, hvalue]
  simp only [hread, headCodeOf_num, HeadWord.mk.injEq, Answer.mk.injEq, true_and]
  refine ⟨?_, ?_, ?_⟩ <;> refine BitVec.eq_of_toNat_eq ?_ <;> rw [BitVec.toNat_ofNat] <;> omega

theorem bytes_cleanly (bs : List Byte) : (cleanly bs).map (·.byte) = bs := by
  simp [cleanly, Function.comp_def]

theorem wordGood_headWordBytes (w : HeadWord) (spare : BitVec 2) : wordGood (cleanly (headWordBytes w spare)) = true := by
  have hlen : (natBytes 6 (wordBits w spare)).length = 6 := length_natBytes _ _
  have hclean : (cleanly (headWordBytes w spare)).all (fun b => !b.framingError) = true := by
    simp [cleanly]
  rw [wordGood, hclean, Bool.true_and, beq_iff_eq, List.map_drop, List.map_take, bytes_cleanly, headWordBytes_eq]
  rw [List.drop_left' hlen, List.take_left' hlen]

/-- Settles O17. -/
theorem headWordReadBack : Obligations.HeadWordReadBack := fun w spare =>
  ⟨wordGood_headWordBytes w spare, readWord_headWordBytes w spare⟩

/-! ## Bytes arriving (R26) -/

theorem wordGapEnds_of_held {h : Head} {s : State} (hp : (s.hp.get h).partialWord = [] ∨
    (s.eu.tick - (s.hp.get h).lastByte).toNat ≤ 2000) : wordGapEnds h s = s := by
  refine if_neg ?_
  rcases hp with hp | hp
  · simp [hp]
  · rw [passedMore_eq_false (n := Config.wordGap) hp, Bool.and_false]
    exact Bool.false_ne_true

theorem wordGapEnds_of_gap {h : Head} {s : State} (hp : (s.hp.get h).partialWord ≠ [])
    (hgap : 2000 < (s.eu.tick - (s.hp.get h).lastByte).toNat) :
    wordGapEnds h s = { s with hp := s.hp.set h { s.hp.get h with
      partialWord := [], counters := { (s.hp.get h).counters with corrupt := satInc (s.hp.get h).counters.corrupt } } } := by
  have hpassed : passedMore Config.wordGap (s.hp.get h).lastByte s = true := passedMore_iff.2 hgap
  have hheld : (s.hp.get h).partialWord.isEmpty = false := by simpa using hp
  simp [wordGapEnds, hpassed, hheld, countCorrupt, onCounters, onPort]

/-- The port with the bytes of a word in assembly, the latest at this tick. -/
def withPartial (h : Head) (word : List LineByte) (s : State) : State :=
  onPort h (fun p => { p with partialWord := word, lastByte := s.eu.tick }) s

theorem wordGapEnds_withPartial (h : Head) (word : List LineByte) (s : State) :
    wordGapEnds h (withPartial h word s) = withPartial h word s := by
  refine wordGapEnds_of_held (.inr ?_)
  have hlast : ((withPartial h word s).hp.get h).lastByte = s.eu.tick := by simp [withPartial]
  have htick : (withPartial h word s).eu.tick = s.eu.tick := rfl
  rw [hlast, htick, BitVec.sub_self]
  decide

theorem withPartial_withPartial (h : Head) (w x : List LineByte) (s : State) :
    withPartial h x (withPartial h w s) = withPartial h x s := by
  simp [withPartial, onPort]

theorem partialWord_withPartial (h : Head) (w : List LineByte) (s : State) :
    ((withPartial h w s).hp.get h).partialWord = w := by
  simp [withPartial]

/-- A byte that does not complete the word. -/
theorem takeLineByte_withPartial {h : Head} {w : List LineByte} {b : LineByte} {s : State} (hlen : w.length < 6) :
    takeLineByte h b (withPartial h w s) = withPartial h (w ++ [b]) s := by
  have hshort : (w ++ [b]).length < 7 := by simp; omega
  rw [takeLineByte]
  simp only [wordGapEnds_withPartial, partialWord_withPartial, if_pos hshort]
  exact withPartial_withPartial h w _ s

theorem takeLineByte_completes {h : Head} {w : List LineByte} {b : LineByte} {s : State} (hlen : w.length = 6) :
    takeLineByte h b (withPartial h w s) = completeWord h (w ++ [b]) (withPartial h [] s) := by
  have hlong : ¬ (w ++ [b]).length < 7 := by simp; omega
  rw [takeLineByte]
  simp only [wordGapEnds_withPartial, partialWord_withPartial, if_neg hlong]
  exact congrArg (completeWord h (w ++ [b])) (withPartial_withPartial h w [] s)

theorem takeLineByte_first {h : Head} {b : LineByte} {s : State} (hp : (s.hp.get h).partialWord = []) :
    takeLineByte h b s = withPartial h [b] s := by
  rw [takeLineByte]
  simp only [wordGapEnds_of_held (.inl hp), hp, List.nil_append]
  exact if_pos (by decide : 1 < 7)

/-- Fewer than seven bytes wait as a partial word. -/
theorem takeLineBytes_partial {h : Head} {b : LineByte} {s : State} (hp : (s.hp.get h).partialWord = [])
    (bs : List LineByte) (hlen : bs.length < 6) :
    (b :: bs).foldl (fun t b => takeLineByte h b t) s = withPartial h (b :: bs) s := by
  induction bs using List.reverseRecOn with
  | nil => exact takeLineByte_first hp
  | append_singleton bs c ih =>
    rw [List.length_append, List.length_singleton] at hlen
    rw [← List.cons_append, List.foldl_append, ih (by omega)]
    exact takeLineByte_withPartial (w := b :: bs) (by rw [List.length_cons]; omega)

/-- Seven bytes are a completed word. -/
theorem takeLineBytes_word {h : Head} {bs : List LineByte} {s : State} (hp : (s.hp.get h).partialWord = [])
    (hlen : bs.length = 7) :
    bs.foldl (fun t b => takeLineByte h b t) s = completeWord h bs (withPartial h [] s) := by
  obtain ⟨b, rest, rfl⟩ := List.exists_cons_of_length_eq_add_one hlen
  rcases List.eq_nil_or_concat' rest with rfl | ⟨init, last, rfl⟩
  · simp at hlen
  · simp only [List.length_cons, List.length_append, List.length_nil] at hlen
    rw [← List.cons_append, List.foldl_append, takeLineBytes_partial hp init (by omega)]
    exact takeLineByte_completes (w := b :: init) (by rw [List.length_cons]; omega)

theorem completeWord_frame_state (h : Head) (word : List LineByte) (s : State) :
    (completeWord h word s).spe = s.spe := by simp

section
variable {after : Nat} {h : Head} {s : State} (hr : s.resetHeld = false) (hstate : s.spe.state ≠ .tail)
  (hp : (s.hp.get h).partialWord = [])
include hr hstate hp

theorem exec_headWord_word {bs : List LineByte} (hlen : bs.length = 7) :
    exec (.headWord after h bs) s = .next (completeWord h bs (withPartial h [] (elapse after s))) := by
  rw [exec_headWord _ _ _ _ hr, takeWordBytes, takeLineBytes_word (s := elapse after s) hp hlen, tailEnds_of_not_tail]
  rw [completeWord_frame_state]
  exact hstate

theorem exec_headWord_partial {bs : List LineByte} (hpos : 0 < bs.length) (hlen : bs.length < 7) :
    exec (.headWord after h bs) s = .next (withPartial h bs (elapse after s)) := by
  obtain ⟨b, rest, rfl⟩ := List.exists_cons_of_length_pos hpos
  rw [List.length_cons] at hlen
  rw [exec_headWord _ _ _ _ hr, takeWordBytes, takeLineBytes_partial (s := elapse after s) hp rest (by omega),
    tailEnds_of_not_tail]
  exact hstate

end

/-- A port that holds no partial word, after a byte that completed one. -/
theorem withPartial_nil {h : Head} {s : State} (hp : (s.hp.get h).partialWord = []) :
    withPartial h [] s = { s with hp := s.hp.set h { s.hp.get h with lastByte := s.eu.tick } } := by
  rw [withPartial, onPort]
  simp only [← hp]

/-! ## Stray and corrupt words (R26, R27) -/

theorem splitAtSeq_eq_none {q : Seq} {xs : List Outstanding} (h : ∀ x ∈ xs, x.seq ≠ q) : splitAtSeq q xs = none := by
  cases hsplit : splitAtSeq q xs with
  | none => rfl
  | some r =>
    obtain ⟨older, e, rest⟩ := r
    obtain ⟨rfl, hseq, -⟩ := splitAtSeq_some hsplit
    exact absurd hseq (h e (by simp))

theorem matchWord_stray {h : Head} {w : HeadWord} {s : State} (hw : ∀ x ∈ (s.hp.get h).outstanding, x.seq ≠ w.seq) :
    matchWord h w s = onCounters h (fun c => { c with stray := satInc c.stray }) s := by
  rw [matchWord, splitAtSeq_eq_none hw]

theorem completeWord_headWordBytes (h : Head) (w : HeadWord) (spare : BitVec 2) (s : State) :
    completeWord h (cleanly (headWordBytes w spare)) s = matchWord h w s := by
  rw [completeWord, if_pos (wordGood_headWordBytes w spare), bytes_cleanly, readWord_headWordBytes]

theorem wordGood_eq_false {bs : List LineByte} (h : (∃ b ∈ bs, b.framingError = true) ∨
    (bs.drop 6).map (·.byte) ≠ [((bs.take 6).map (·.byte)).foldl (fun x b => x ^^^ b) 0x5A]) : wordGood bs = false := by
  rw [wordGood, Bool.and_eq_false_iff]
  rcases h with ⟨b, hb, herror⟩ | h
  · exact .inl (List.all_eq_false.2 ⟨b, hb, by simp [herror]⟩)
  · exact .inr (beq_eq_false_iff_ne.2 h)

/-- Settles O29. -/
theorem otherWordsAreCounted : Obligations.OtherWordsAreCounted := by
  refine ⟨fun s after h hr hstate => ?_, fun s after h hr => ⟨fun hp hgap => ?_, fun hp => ?_⟩⟩
  · intro p t q k hp
    have hclear : withPartial h [] t = { t with hp := s.hp.set h q } := withPartial_nil (s := t) hp
    have hport (u : PerHead HeadPort) : (({ t with hp := u.set h q } : State).hp.get h) = q := PerHead.get_set_self _ _ _
    refine ⟨fun w spare hw => ?_, fun bs hlen hbad => ?_, fun bs hpos hlen => ?_⟩
    · have hlen : (cleanly (headWordBytes w spare)).length = 7 := by
        rw [cleanly, List.length_map, headWordBytes_eq, List.length_append, length_natBytes]; rfl
      rw [exec_headWord_word hr hstate hp hlen, completeWord_headWordBytes, hclear, matchWord_stray (by simpa using hw)]
      simp only [onCounters, onPort, PerHead.set_set, hport]
      rfl
    · rw [exec_headWord_word hr hstate hp hlen, completeWord, wordGood_eq_false hbad, if_neg Bool.false_ne_true, hclear]
      simp only [countCorrupt, onCounters, onPort, PerHead.set_set, hport]
      rfl
    · rw [exec_headWord_partial hr hstate hp hpos hlen]
      rfl
  · rw [exec_headWordGap _ _ _ hr, wordGapEnds_of_gap (s := elapse after s) hp hgap]
    rfl
  · rw [exec_headWordGap _ _ _ hr, wordGapEnds_of_held (s := elapse after s) hp]

end Sys2Proof.Proofs
end

