-- ==== Sys2Proof/Proofs/HeadPorts.lean ====
section
/-! PROOF. How a head port resolves its entries: a good word the older ones and its own (R27), a timeout the front one (R28),
each under the policy of the head (R29), into a queue of at most 256 (R30). -/

open Sys2Proof Sys2Proof.Machine

namespace Sys2Proof.Proofs

/-! ## Arrivals at a sample queue -/

/-- The detector with LOSS on the record it holds open. -/
def lossyDetector (d : Detector) : Detector :=
  { d with record := d.record.map fun r => { r with flags := r.flags ||| flagMask .loss } }

/-- Port `p` after `n` no-responses, with the samples `xs` having arrived at its queue (R30). -/
def portAfter (n : Nat) (xs : List Sample) (p : HeadPort) : HeadPort :=
  { p with
    queue := p.queue ++ xs.take (256 - p.queue.length)
    counters := { p.counters with
      noResponse := satInc^[n] p.counters.noResponse
      queueDrops := satInc^[xs.length - (256 - p.queue.length)] p.counters.queueDrops } }

/-- The state after `n` no-responses of head `h`, with the samples `xs` having arrived at its queue and the raisings `rs` sent
to the latch. -/
def afterArrivals (h : Head) (n : Nat) (xs : List Sample) (rs : List Raising) (s : State) : State :=
  { s with
    hp := s.hp.set h (portAfter n xs (s.hp.get h))
    pe := if xs.length ≤ 256 - (s.hp.get h).queue.length then s.pe
          else { s.pe with detectors := s.pe.detectors.set h (lossyDetector (s.pe.detectors.get h)) }
    bus := { s.bus with raisings := s.bus.raisings ++ rs } }

theorem portAfter_nil (n : Nat) (p : HeadPort) :
    portAfter n [] p = { p with counters := { p.counters with noResponse := satInc^[n] p.counters.noResponse } } := by
  simp [portAfter]

theorem afterArrivals_none (h : Head) (n : Nat) (rs : List Raising) (s : State) :
    afterArrivals h n [] rs s = { s with
      hp := s.hp.set h { s.hp.get h with counters := { (s.hp.get h).counters with
        noResponse := satInc^[n] (s.hp.get h).counters.noResponse } }
      bus := { s.bus with raisings := s.bus.raisings ++ rs } } := by
  rw [afterArrivals, portAfter_nil, if_pos (show ([] : List Sample).length ≤ _ from Nat.zero_le _)]

theorem afterArrivals_nil (h : Head) (s : State) : afterArrivals h 0 [] [] s = s := by
  rw [afterArrivals_none, Function.iterate_zero, id, PerHead.set_get_self, List.append_nil]

theorem afterArrivals_one_room {h : Head} {n : Nat} {x : Sample} {s : State} (hroom : (s.hp.get h).queue.length < 256) :
    afterArrivals h n [x] [] s = { s with hp := s.hp.set h { s.hp.get h with
      queue := (s.hp.get h).queue ++ [x]
      counters := { (s.hp.get h).counters with noResponse := satInc^[n] (s.hp.get h).counters.noResponse } } } := by
  have hone : [x].length ≤ 256 - (s.hp.get h).queue.length := by rw [List.length_singleton]; omega
  rw [afterArrivals, if_pos hone, portAfter, List.take_of_length_le hone, Nat.sub_eq_zero_of_le hone, Function.iterate_zero,
    List.append_nil]
  rfl

theorem afterArrivals_one_full {h : Head} {n : Nat} {x : Sample} {s : State} (hfull : 256 ≤ (s.hp.get h).queue.length) :
    afterArrivals h n [x] [] s = { s with
      hp := s.hp.set h { s.hp.get h with counters := { (s.hp.get h).counters with
        noResponse := satInc^[n] (s.hp.get h).counters.noResponse
        queueDrops := satInc (s.hp.get h).counters.queueDrops } }
      pe := { s.pe with detectors := s.pe.detectors.set h (lossyDetector (s.pe.detectors.get h)) } } := by
  have hzero : 256 - (s.hp.get h).queue.length = 0 := Nat.sub_eq_zero_of_le hfull
  rw [afterArrivals, if_neg (by rw [hzero, List.length_singleton]; omega), portAfter, hzero, List.take_zero, List.append_nil,
    List.append_nil]
  rfl

theorem lossyDetector_idem (d : Detector) : lossyDetector (lossyDetector d) = lossyDetector d := by
  cases hr : d.record <;> simp [lossyDetector, hr, BitVec.or_assoc]

theorem flagOpen_loss (h : Head) (s : State) :
    flagOpen .loss h s =
      { s with pe := { s.pe with detectors := s.pe.detectors.set h (lossyDetector (s.pe.detectors.get h)) } } := rfl

section
variable (h : Head) (n : Nat) (xs : List Sample) (rs : List Raising) (s : State)

theorem port_afterArrivals : (afterArrivals h n xs rs s).hp.get h = portAfter n xs (s.hp.get h) :=
  PerHead.get_set_self _ _ _

theorem enqueueSample_room {x : Sample} (hroom : (s.hp.get h).queue.length < 256) :
    enqueueSample h x s = { s with hp := s.hp.set h { s.hp.get h with queue := (s.hp.get h).queue ++ [x] } } :=
  if_pos hroom

theorem enqueueSample_full {x : Sample} (hfull : 256 ≤ (s.hp.get h).queue.length) :
    enqueueSample h x s = { s with
      hp := s.hp.set h { s.hp.get h with counters := { (s.hp.get h).counters with
        queueDrops := satInc (s.hp.get h).counters.queueDrops } }
      pe := { s.pe with detectors := s.pe.detectors.set h (lossyDetector (s.pe.detectors.get h)) } } :=
  if_neg (Nat.not_lt.2 hfull)

theorem portAfter_room {p : HeadPort} {x : Sample} (hroom : xs.length < 256 - p.queue.length) :
    { portAfter n xs p with queue := (portAfter n xs p).queue ++ [x] } = portAfter n (xs ++ [x]) p := by
  have hlen : (xs ++ [x]).length ≤ 256 - p.queue.length := by simpa using hroom
  simp only [portAfter, List.take_of_length_le hlen, List.take_of_length_le hroom.le, Nat.sub_eq_zero_of_le hlen,
    Nat.sub_eq_zero_of_le hroom.le, List.append_assoc]

theorem portAfter_full {p : HeadPort} {x : Sample} (hfull : 256 - p.queue.length ≤ xs.length) :
    { portAfter n xs p with counters := { (portAfter n xs p).counters with
        queueDrops := satInc (portAfter n xs p).counters.queueDrops } } = portAfter n (xs ++ [x]) p := by
  have hlen : (xs ++ [x]).length - (256 - p.queue.length) = (xs.length - (256 - p.queue.length)) + 1 := by
    rw [List.length_append, List.length_singleton]; omega
  simp only [portAfter, hlen, Function.iterate_succ_apply', List.take_append_of_le_length hfull]

theorem enqueueSample_afterArrivals (x : Sample) :
    enqueueSample h x (afterArrivals h n xs rs s) = afterArrivals h n (xs ++ [x]) rs s := by
  have hport := port_afterArrivals h n xs rs s
  have hqueue : (portAfter n xs (s.hp.get h)).queue.length =
      (s.hp.get h).queue.length + min (256 - (s.hp.get h).queue.length) xs.length := by simp [portAfter]
  by_cases hroom : xs.length < 256 - (s.hp.get h).queue.length
  · have hle : (xs ++ [x]).length ≤ 256 - (s.hp.get h).queue.length := by simpa using hroom
    rw [enqueueSample_room _ _ (by rw [hport, hqueue]; omega), hport, portAfter_room _ _ hroom]
    simp only [afterArrivals, PerHead.set_set, if_pos hle, if_pos hroom.le]
  · have hnot : ¬ (xs ++ [x]).length ≤ 256 - (s.hp.get h).queue.length := by simpa using hroom
    rw [enqueueSample_full _ _ (by rw [hport, hqueue]; omega), hport, portAfter_full _ _ (Nat.not_lt.1 hroom)]
    simp only [afterArrivals, PerHead.set_set, if_neg hnot]
    split
    · rfl
    · simp only [PerHead.set_set, PerHead.get_set_self, lossyDetector_idem]

theorem noResponse_afterArrivals :
    onCounters h (fun c => { c with noResponse := satInc c.noResponse }) (afterArrivals h n xs rs s) =
      afterArrivals h (n + 1) xs rs s := by
  simp only [onCounters, onPort, port_afterArrivals]
  simp only [afterArrivals, portAfter, PerHead.set_set, Function.iterate_succ_apply']

theorem sendRaising_afterArrivals (r : Raising) :
    sendRaising r (afterArrivals h n xs rs s) = afterArrivals h n xs (rs ++ [r]) s := by
  simp only [sendRaising, afterArrivals, List.append_assoc]

end

/-! ## No-responses (R29) -/

/-- The placeholders that silent entries leave under the policy. -/
def placeholdersFor (p : SilencePolicy) (es : List Outstanding) : List Sample :=
  if p = .mark then es.map fun x => ⟨x, none⟩ else []

/-- The raisings that they send under it. -/
def raisingsFor (p : SilencePolicy) (h : Head) (n : Nat) (s : State) : List Raising :=
  if p = .fault then List.replicate n (raisingOf .headSilent (some h) s) else []

theorem resolveSilent_afterArrivals (h : Head) (n : Nat) (xs : List Sample) (rs : List Raising) (e : Outstanding) (s : State) :
    resolveSilent h e (afterArrivals h n xs rs s) =
      afterArrivals h (n + 1) (xs ++ placeholdersFor (s.hp.get h).params.policy [e])
        (rs ++ raisingsFor (s.hp.get h).params.policy h 1 s) s := by
  have hpolicy : ((afterArrivals h (n + 1) xs rs s).hp.get h).params.policy = (s.hp.get h).params.policy := by
    rw [port_afterArrivals]; rfl
  rw [resolveSilent, noResponse_afterArrivals, hpolicy]
  cases (s.hp.get h).params.policy with
  | mark => simpa [placeholdersFor, raisingsFor] using enqueueSample_afterArrivals h (n + 1) xs rs s ⟨e, none⟩
  | ignore => simp [placeholdersFor, raisingsFor]
  | fault =>
    have hraised : raisedNow .headSilent (some h) (afterArrivals h (n + 1) xs rs s) = raisingOf .headSilent (some h) s :=
      raisedNow_eq _ _ _
    simpa [placeholdersFor, raisingsFor, hraised] using
      sendRaising_afterArrivals h (n + 1) xs rs s (raisingOf .headSilent (some h) s)

/-- One no-response. -/
theorem resolveSilent_eq (h : Head) (e : Outstanding) (s : State) :
    resolveSilent h e s = afterArrivals h 1 (placeholdersFor (s.hp.get h).params.policy [e])
      (raisingsFor (s.hp.get h).params.policy h 1 s) s := by
  simpa [afterArrivals_nil] using resolveSilent_afterArrivals h 0 [] [] e s

/-- The older entries resolved, oldest first (R27). -/
theorem foldl_resolveSilent (h : Head) (es : List Outstanding) (s : State) :
    es.foldl (fun t x => resolveSilent h x t) s =
      afterArrivals h es.length (placeholdersFor (s.hp.get h).params.policy es)
        (raisingsFor (s.hp.get h).params.policy h es.length s) s := by
  induction es using List.reverseRecOn with
  | nil => simp [placeholdersFor, raisingsFor, afterArrivals_nil]
  | append_singleton es e ih =>
    have hplaceholders (p : SilencePolicy) : placeholdersFor p es ++ placeholdersFor p [e] = placeholdersFor p (es ++ [e]) := by
      cases p <;> simp [placeholdersFor]
    have hraisings (p : SilencePolicy) : raisingsFor p h es.length s ++ raisingsFor p h 1 s =
        raisingsFor p h (es ++ [e]).length s := by
      cases p <;> simp [raisingsFor, List.replicate_succ']
    rw [List.foldl_append, ih, List.foldl_cons, List.foldl_nil, resolveSilent_afterArrivals, hplaceholders, hraisings,
      List.length_append, List.length_singleton]

/-! ## Matching (R27) -/

theorem splitAtSeq_eq_some {q : Seq} {older later : List Outstanding} {e : Outstanding} (hold : ∀ x ∈ older, x.seq ≠ q)
    (he : e.seq = q) : splitAtSeq q (older ++ e :: later) = some (older, e, later) := by
  induction older with
  | nil => rw [List.nil_append, splitAtSeq, if_pos he]
  | cons x xs ih =>
    rw [List.cons_append, splitAtSeq, if_neg (hold x (by simp)), ih fun y hy => hold y (List.mem_cons_of_mem x hy)]
    rfl

theorem matchWord_found {h : Head} {w : HeadWord} {older later : List Outstanding} {e : Outstanding} {s : State}
    (hlist : (s.hp.get h).outstanding = older ++ e :: later) (hold : ∀ x ∈ older, x.seq ≠ w.seq) (he : e.seq = w.seq) :
    matchWord h w s =
      let u := onPort h (fun p => { p with outstanding := later }) s
      afterArrivals h older.length (placeholdersFor (s.hp.get h).params.policy older ++ [⟨e, some w.answer⟩])
        (raisingsFor (s.hp.get h).params.policy h older.length u) u := by
  have hpolicy : ((onPort h (fun p => { p with outstanding := later }) s).hp.get h).params.policy =
      (s.hp.get h).params.policy := by simp
  rw [matchWord, hlist, splitAtSeq_eq_some hold he]
  dsimp only
  rw [foldl_resolveSilent, enqueueSample_afterArrivals, hpolicy]

/-- Settles O28: the older entries are resolved one by one, and their arrivals join the queue before the word's own. -/
theorem wordMatchesUnderMark : Obligations.WordMatchesUnderMark := by
  intro s after h w spare older later e hr hstate p hp hlist hold he t d lossy placeholders arriving room
  have hlen : (cleanly (headWordBytes w spare)).length = 7 := by
    rw [cleanly, List.length_map, headWordBytes_eq, List.length_append, length_natBytes]; rfl
  rw [exec_headWord_word hr hstate hp hlen, completeWord_headWordBytes]
  rw [matchWord_found (s := withPartial h [] (elapse after s)) (by simpa [withPartial] using hlist) hold he]
  rw [withPartial_nil (s := elapse after s) hp]
  simp only [afterArrivals, onPort, PerHead.set_set, PerHead.get_set_self]
  rfl

/-! ## Timeouts (R28) -/

section
variable {h : Head} {e : Outstanding} {rest : List Outstanding} {s : State}
  (hlist : (s.hp.get h).outstanding = e :: rest)
include hlist

theorem frontTimesOut_of_waiting (hp : (s.eu.tick - e.trigTick).toNat ≤ (s.hp.get h).params.timeout) :
    frontTimesOut h s = s := by
  have hpassed : passedMore (s.hp.get h).params.timeout e.trigTick s = false := passedMore_eq_false hp
  simp [frontTimesOut, hlist, hpassed]

theorem frontTimesOut_of_passed (hp : (s.hp.get h).params.timeout < (s.eu.tick - e.trigTick).toNat) :
    frontTimesOut h s = tailEnds (resolveSilent h e (onPort h (fun p => { p with outstanding := rest }) s)) := by
  have hpassed : passedMore (s.hp.get h).params.timeout e.trigTick s = true := passedMore_iff.2 hp
  simp only [frontTimesOut, hlist, hpassed, if_true]

end

theorem exec_responseTimeout_passed {after : Nat} {h : Head} {e : Outstanding} {rest : List Outstanding} {s : State}
    (hr : s.resetHeld = false) (hstate : s.spe.state ≠ .tail) (hlist : (s.hp.get h).outstanding = e :: rest)
    (hp : (s.hp.get h).params.timeout < ((elapse after s).eu.tick - e.trigTick).toNat) :
    exec (.responseTimeout after h) s =
      let u := onPort h (fun p => { p with outstanding := rest }) (elapse after s)
      .next (afterArrivals h 1 (placeholdersFor (s.hp.get h).params.policy [e])
        (raisingsFor (s.hp.get h).params.policy h 1 (elapse after s)) u) := by
  have hpolicy : ((onPort h (fun p => { p with outstanding := rest }) (elapse after s)).hp.get h).params.policy =
      (s.hp.get h).params.policy := by simp
  rw [exec_responseTimeout _ _ _ hr, frontTimesOut_of_passed (s := elapse after s) hlist hp, resolveSilent_eq, hpolicy,
    tailEnds_of_not_tail]
  · rfl
  · exact hstate

/-- Settles O30: the front entry is resolved under each policy in turn. -/
theorem responseTimeoutResolves : Obligations.ResponseTimeoutResolves := by
  intro s after h e rest hr hstate t p k q d lossy hlist
  refine ⟨fun hp => ?_, fun hp => ?_⟩
  · rw [exec_responseTimeout _ _ _ hr, frontTimesOut_of_waiting (s := elapse after s) hlist hp]
  · rw [exec_responseTimeout_passed hr hstate hlist hp]
    refine ⟨fun hpolicy hroom => ?_, fun hpolicy hfull => ?_, fun hpolicy => ?_, fun hpolicy => ?_⟩
    · rw [hpolicy, show placeholdersFor .mark [e] = [⟨e, none⟩] from rfl, show raisingsFor .mark h 1 t = [] from rfl]
      dsimp only
      rw [afterArrivals_one_room (by simpa using hroom)]
      simp only [onPort, PerHead.set_set, PerHead.get_set_self]
      rfl
    · rw [hpolicy, show placeholdersFor .mark [e] = [⟨e, none⟩] from rfl, show raisingsFor .mark h 1 t = [] from rfl]
      dsimp only
      rw [afterArrivals_one_full (by simpa using hfull)]
      simp only [onPort, PerHead.set_set, PerHead.get_set_self]
      rfl
    · rw [hpolicy, show placeholdersFor .ignore [e] = [] from rfl, show raisingsFor .ignore h 1 t = [] from rfl]
      simp only [afterArrivals_none, onPort, PerHead.set_set, PerHead.get_set_self, List.append_nil]
      rfl
    · rw [hpolicy, show placeholdersFor .fault [e] = [] from rfl]
      simp only [afterArrivals_none, onPort, PerHead.set_set, PerHead.get_set_self]
      rfl

end Sys2Proof.Proofs
end

