-- ==== Sys2Proof/Proofs/Placement.lean ====
section
/-! PROOF. The placement engine: which queue is served (R38 to R40), the exposure angle (R43 to R46), and the samples that join
no record (R42, R55, R101). -/

open Sys2Proof Sys2Proof.Machine

namespace Sys2Proof.Proofs

/-! ## The arbiter (R38) -/

/-- The greatest value that a list's elements take is a bound on them, and one of them takes it. -/
theorem foldl_max_spec {α : Type} (f : α → Nat) (xs : List α) (m : Nat) :
    m ≤ xs.foldl (fun m x => max m (f x)) m ∧ (∀ x ∈ xs, f x ≤ xs.foldl (fun m x => max m (f x)) m) ∧
      (xs.foldl (fun m x => max m (f x)) m = m ∨ ∃ x ∈ xs, f x = xs.foldl (fun m x => max m (f x)) m) := by
  induction xs generalizing m with
  | nil => simp
  | cons y ys ih =>
    obtain ⟨hstart, hbound, htaken⟩ := ih (max m (f y))
    simp only [List.foldl_cons, List.mem_cons, forall_eq_or_imp]
    refine ⟨(le_max_left _ _).trans hstart, ⟨(le_max_right _ _).trans hstart, hbound⟩, ?_⟩
    rcases htaken with h | ⟨x, hx, h⟩
    · rcases max_choice m (f y) with e | e
      · exact .inl (h.trans e)
      · exact .inr ⟨y, .inl rfl, (h.trans e).symm⟩
    · exact .inr ⟨x, .inr hx, h⟩

/-- How far head `h` stands behind the head last served, in the cyclic order (R38). -/
def turnsAfter (last h : Head) : Nat := (headNum h + 3 - headNum last) % 4

theorem headsAfter_ordered (last : Head) : (headsAfter last).Pairwise fun g h => turnsAfter last g ≤ turnsAfter last h := by
  cases last <;> decide

theorem mem_headsAfter (last h : Head) : h ∈ headsAfter last := by
  cases last <;> cases h <;> decide

/-- The heads whose queue holds a sample, from the one after the head last served on. -/
def waitingHeads (s : State) : List Head := (headsAfter s.pe.lastServed).filter fun h => !(s.hp.get h).queue.isEmpty

theorem mem_waitingHeads {s : State} {h : Head} : h ∈ waitingHeads s ↔ (s.hp.get h).queue ≠ [] := by
  simp [waitingHeads, mem_headsAfter]

theorem grantedHead_eq (s : State) :
    grantedHead s = (waitingHeads s).find? fun h => (s.hp.get h).params.priority ==
      (waitingHeads s).foldl (fun m h => max m (s.hp.get h).params.priority) 0 := rfl

/-- With a sample waiting, the head that R38 names is granted. -/
theorem grantedHead_spec {s : State} {g : Head} (hg : (s.hp.get g).queue ≠ []) :
    ∃ h, grantedHead s = some h ∧ (s.hp.get h).queue ≠ [] ∧
      (∀ g : Head, (s.hp.get g).queue ≠ [] → (s.hp.get g).params.priority ≤ (s.hp.get h).params.priority) ∧
      ∀ g : Head, (s.hp.get g).queue ≠ [] → (s.hp.get g).params.priority = (s.hp.get h).params.priority →
        turnsAfter s.pe.lastServed h ≤ turnsAfter s.pe.lastServed g := by
  rw [grantedHead_eq]
  obtain ⟨-, hbound, htaken⟩ := foldl_max_spec (fun h => (s.hp.get h).params.priority) (waitingHeads s) 0
  obtain ⟨top, htop⟩ : ∃ top, top = (waitingHeads s).foldl (fun m h => max m (s.hp.get h).params.priority) 0 := ⟨_, rfl⟩
  rw [← htop] at hbound htaken ⊢
  have hattained : ∃ h ∈ waitingHeads s, (s.hp.get h).params.priority = top := by
    rcases htaken with h0 | h
    · exact ⟨g, mem_waitingHeads.2 hg, Nat.le_antisymm (hbound g (mem_waitingHeads.2 hg)) (h0 ▸ Nat.zero_le _)⟩
    · exact h
  obtain ⟨x, hx, hxtop⟩ := hattained
  cases hfind : (waitingHeads s).find? fun h => (s.hp.get h).params.priority == top with
  | none => exact absurd (beq_iff_eq.2 hxtop) (List.find?_eq_none.1 hfind x hx)
  | some h =>
    obtain ⟨hhtop, before, behind, hsplit, hbefore⟩ := List.find?_eq_some_iff_append.1 hfind
    have hpriority : (s.hp.get h).params.priority = top := beq_iff_eq.1 hhtop
    have hmem : h ∈ waitingHeads s := by rw [hsplit]; simp
    refine ⟨h, rfl, mem_waitingHeads.1 hmem, fun g hg => hpriority ▸ hbound g (mem_waitingHeads.2 hg), fun g hg he => ?_⟩
    have hordered : (waitingHeads s).Pairwise fun a b => turnsAfter s.pe.lastServed a ≤ turnsAfter s.pe.lastServed b :=
      (headsAfter_ordered _).filter _
    have hgmem := mem_waitingHeads.2 hg
    rw [hsplit] at hordered hgmem
    obtain ⟨-, hbehind, -⟩ := List.pairwise_append.1 hordered
    rcases List.mem_append.1 hgmem with hb | hb
    · have := hbefore g hb
      simp [he, hpriority] at this
    · rcases List.mem_cons.1 hb with rfl | hb
      · exact le_rfl
      · exact (List.pairwise_cons.1 hbehind).1 g hb

theorem grantSample_of_busy {s : State} (h : s.pe.busy ≠ none) : grantSample s = s := by
  obtain ⟨x, hx⟩ := Option.ne_none_iff_exists'.1 h
  rw [grantSample, hx]

theorem grantSample_of_empty {s : State} (h : ∀ g : Head, (s.hp.get g).queue = []) : grantSample s = s := by
  have hnone : waitingHeads s = [] := List.eq_nil_iff_forall_not_mem.2 fun g hg => mem_waitingHeads.1 hg (h g)
  have hgranted : grantedHead s = none := by rw [grantedHead_eq, hnone]; rfl
  rw [grantSample, hgranted]
  cases s.pe.busy <;> rfl

/-- Settles O31: the granted head is the best of the waiting ones in the cyclic order. -/
theorem arbiterGrantsByPriority : Obligations.ArbiterGrantsByPriority := by
  intro s hr
  rw [exec_placementGrant _ hr]
  refine ⟨fun h => ?_, fun hfree ⟨g, hg⟩ => ?_⟩
  · rcases h with h | h
    · rw [grantSample_of_busy h]
    · rw [grantSample_of_empty h]
  · obtain ⟨h, hgranted, hqueue, hpriority, hturn⟩ := grantedHead_spec hg
    obtain ⟨x, rest, hq⟩ := List.exists_cons_of_ne_nil hqueue
    refine ⟨h, x, rest, hq, hpriority, hturn, ?_⟩
    rw [grantSample, hfree, hgranted]
    simp only [hq]
    rfl

/-! ## The exposure angle (R43 to R46) -/

theorem fractionOf_eq (e : Outstanding) :
    fractionOf e = match e.speed with
      | none => 0
      | some 0 => 255
      | some (q + 1) => min ((e.trigTick - e.edgeTick).toNat * 65536 / (q + 1)) 255 := by
  unfold fractionOf
  rcases e.speed with _ | _ | q <;> rfl

theorem advanceOf_eq (latency : Nat) (e : Outstanding) :
    (advanceOf latency e).1 = match e.speed with
      | none => 0
      | some 0 => if latency = 0 then 0 else 65535
      | some (q + 1) => min (latency * 65536 / (q + 1)) 65535 := by
  unfold advanceOf
  rcases e.speed with _ | _ | q
  · rfl
  · by_cases h : latency = 0
    · simp [h]
    · simp [h, Nat.pos_of_ne_zero h]
  · rfl

/-- An angle in 1/256 count below a revolution, as a fraction of it. -/
theorem exposure_lt {n p : Nat} (hp : p < n * 256) : p * 65536 / n < 16777216 :=
  Nat.div_lt_of_lt_mul (by omega)

theorem toNat_shifted (raw : Nat) (a z : Angle) :
    ((BitVec.ofNat 24 raw + a - z).toNat : Int) = ((raw : Int) + a.toNat - z.toNat) % 16777216 := by
  have ha := a.isLt
  have hz := z.isLt
  rw [BitVec.toNat_sub, BitVec.toNat_add, BitVec.toNat_ofNat]
  omega

/-- Settles O32. -/
theorem exposureAngleFormed : Obligations.ExposureAngleFormed := by
  intro p hp e hlo hhi hcount dt f a raw
  have hf : f = fractionOf e := (fractionOf_eq e).symm
  have ha : a = (advanceOf hp.latency e).1 := (advanceOf_eq hp.latency e).symm
  have hraw : raw = exposurePosition p.counts hp.latency e * 65536 / p.counts := by
    rw [exposurePosition, ← hf, ← ha]
  have hlt : raw < 16777216 := exposure_lt (Nat.mod_lt _ (by omega))
  refine ⟨hlt, ?_⟩
  rw [exposureAngle, ← hraw]
  exact toNat_shifted raw _ _

/-! ## Samples that join no record (R42, R55, R101) -/

/-- The controller with a free placement engine, at the end of a placement. -/
def engineFreed (s : State) : State := { s with pe := { s.pe with busy := none } }

theorem exec_placementEnd_active {after : Nat} {a : ActiveStep} {h : Head} {x : Sample} {s : State}
    (hr : s.resetHeld = false) (hstate : s.spe.state ≠ .tail) (ha : s.spe.active = some a)
    (hbusy : s.pe.busy = some (h, x)) :
    exec (.placementEnd after) s = .next (placeSample a h x (engineFreed (elapse after s))) := by
  have hend : endPlacement (elapse after s) = tailEnds (placeSample a h x (engineFreed (elapse after s))) := by
    simp only [endPlacement, elapse_frame, hbusy, ha]
    rfl
  rw [exec_placementEnd _ _ hr, hend, tailEnds_of_not_tail]
  rw [show (placeSample a h x (engineFreed (elapse after s))).spe = s.spe by simp [engineFreed]]
  exact hstate

theorem windowSet_eq_none {b : BladeTable} {g : Id16} (hcurrent : g ≠ b.gen) (hprevious : g ≠ b.gen - 1) :
    windowSet b g = none := by
  rw [windowSet, if_neg hcurrent, previousGen, if_neg hprevious]

theorem exactHeight_eq (hp : HeadParams) (q : Answer) :
    exactHeight hp q =
      if hp.facing = .down then hp.reference - (q.distance.toNat : Int) else hp.reference + (q.distance.toNat : Int) := by
  unfold exactHeight
  cases hp.facing <;> rfl

theorem learnFrom_measured {a : ActiveStep} {h : Head} {x : Sample} {q : Answer} {s : State} (hq : x.answer = some q)
    (hcode : q.code = .ok) (hthreshold : a.step.threshold ≤ q.intensity.toNat) :
    learnFrom a h x s =
      onAcc (accumulate (Fin.ofNat 256 ((exposureAngle s.eu.params (s.hp.get h).params x.entry).toNat / 65536))
        (clampHeight (exactHeight (s.hp.get h).params q))) s := by
  have hmeasured : isMeasured a.step.threshold q = true := by simp [isMeasured, hcode, hthreshold]
  rw [learnFrom, hq, Option.filter_some, if_pos hmeasured]

theorem learnFrom_unmeasured {a : ActiveStep} {h : Head} {x : Sample} {s : State}
    (hq : ∀ q : Answer, x.answer = some q → q.code ≠ .ok ∨ q.intensity.toNat < a.step.threshold) :
    learnFrom a h x s = s := by
  have hnone : x.answer.filter (isMeasured a.step.threshold) = none := by
    rw [Option.filter_eq_none_iff]
    intro q hx
    cases hc : q.code with
    | ok => simpa [isMeasured, hc] using (hq q hx).resolve_left (not_not_intro hc)
    | saturated => simp [isMeasured, hc]
    | multiPeak => simp [isMeasured, hc]
    | noPeak => simp [isMeasured, hc]
  rw [learnFrom, hnone]

theorem accumulate_of_room {k : Fin 256} {z : Int} {a : Accumulators} (h : a.counts[k] < 4294967295) :
    accumulate k z a = { a with sums := a.sums.set k (a.sums[k] + z), counts := a.counts.set k (a.counts[k] + 1) } :=
  if_pos h

/-- Settles O33. -/
theorem samplesThatJoinNoRecord : Obligations.SamplesThatJoinNoRecord := by
  refine ⟨fun s after a h x hr hstate ha hlearn hbusy hcurrent hprevious => ?_,
    fun s after a h x hr hstate ha hlearn hbusy => ⟨fun q hq hcode hthreshold hcount => ?_, fun hq => ?_⟩⟩
  · intro p d lossy
    have hset : windowSet (engineFreed (elapse after s)).bt x.entry.gen = none := windowSet_eq_none hcurrent hprevious
    rw [exec_placementEnd_active hr hstate ha hbusy, placeSample, if_neg (by simp [hlearn]), hset]
    rfl
  · intro exact z
    rw [exec_placementEnd_active hr hstate ha hbusy, placeSample, if_pos hlearn, learnFrom_measured hq hcode hthreshold,
      onAcc, exactHeight_eq]
    exact congrArg (fun acc => Host.Outcome.next { engineFreed (elapse after s) with rm := { s.rm with acc := acc } })
      (accumulate_of_room hcount)
  · rw [exec_placementEnd_active hr hstate ha hbusy, placeSample, if_pos hlearn, learnFrom_unmeasured hq]
    rfl

end Sys2Proof.Proofs
end

