-- ==== Sys2Proof/Proofs/LinkFrames.lean ====
section
/-! PROOF. The link port: how a frame is received and judged (R165 to R168), which frame is sent next (R162), and what the end
of a sending frees (R159, R177). -/

open Sys2Proof Sys2Proof.Machine

namespace Sys2Proof.Proofs

/-! ## The end of a sending -/

theorem exec_powerOn (s : State) : exec .powerOn s = .next (fullReset s) := rfl

/-- The state in which the end of the sending of `f` is judged. -/
def sentState (f : Flight) (s : State) : State := releaseSent f.kind (onLink (fun l => { l with sending := none }) s)

theorem endSending_eq {f : Flight} {s : State} (h : s.lp.sending = some f) :
    endSending s = if resetDue (sentState f s) then fullReset s else sentState f s := by
  have hreset : fullReset (sentState f s) = fullReset s := by unfold sentState; cases f.kind <;> rfl
  rw [endSending, h, ← hreset]
  rfl

theorem resetDue_sentState (f : Flight) (s : State) :
    resetDue (sentState f s) = true ↔
      s.lp.resetMark = true ∧ s.lp.overload = [] ∧ (f.kind = .reply ∨ s.lp.reply = none) := by
  have hlink : (sentState f s).lp.resetMark = s.lp.resetMark ∧ (sentState f s).lp.overload = s.lp.overload ∧
      (sentState f s).lp.reply = if f.kind = .reply then none else s.lp.reply := by
    unfold sentState
    cases f.kind <;> exact ⟨rfl, rfl, rfl⟩
  obtain ⟨hmark, hoverload, hreply⟩ := hlink
  rw [resetDue, hmark, hoverload, hreply]
  by_cases hk : f.kind = .reply <;> simp [hk, and_assoc]

/-- Settles O41. -/
theorem sendingEnds : Obligations.SendingEnds := by
  intro s after f hr hsending t l resets
  have hdue : resetDue (sentState f t) = true ↔ resets := resetDue_sentState f t
  rw [exec_frameSendEnd _ _ hr, endSending_eq (s := elapse after s) hsending]
  refine ⟨fun hnot => ?_, fun hresets => ⟨_, exec_powerOn s, ?_⟩⟩
  · rw [if_neg (mt hdue.1 hnot)]
    refine ⟨fun hk => ?_, fun hk => ?_, fun hk => ?_⟩
    · rw [sentState, hk]; rfl
    · rw [sentState]
      rcases hk with hk | hk <;> rw [hk] <;> rfl
    · rw [sentState, hk, releaseSent, List.drop_one]; rfl
  · rw [if_pos (hdue.2 hresets)]
    rfl

/-! ## The output selector (R162) -/

theorem natBytes_one (v : Nat) : natBytes 1 v = [BitVec.ofNat 8 v] := by
  simp [natBytes]

theorem starve_of_fed {s : State} (h : s.rs.starved = true ∨ s.rs.credits ≠ 0 ∨ waitingFrames s = []) : starve s = s :=
  if_pos h

theorem starve_of_hungry {s : State} (hstarved : s.rs.starved = false) (hcredits : s.rs.credits = 0)
    (hwaiting : waitingFrames s ≠ []) :
    starve s = queueNotice (.starved s.rs.frames.length (recordsAmong (waitingFrames s)) s.eu.tick)
      { s with rs := { s.rs with
        starved := true, counters := { s.rs.counters with episodes := satInc s.rs.counters.episodes } } } := by
  refine if_neg ?_
  simp [hstarved, hcredits, hwaiting]

theorem linkNotice_room {n : Notice} {l : LinkPort} (h : l.notices.length < 32) :
    linkNotice n l = { l with notices := l.notices ++ [n] } := if_pos h

/-- A notice that finds room. -/
theorem queueNotice_room {n : Notice} {s : State} (h : s.lp.notices.length < 32) :
    queueNotice n s = { s with lp := { s.lp with notices := s.lp.notices ++ [n] } } := by
  rw [queueNotice, linkNotice_room h]

/-- A starvation episode begins, its notice finding room (R161). -/
theorem starve_of_hungry_room {s : State} (hstarved : s.rs.starved = false) (hcredits : s.rs.credits = 0)
    (hwaiting : waitingFrames s ≠ []) (hroom : s.lp.notices.length < 32) :
    starve s = { s with
      rs := { s.rs with
        starved := true, counters := { s.rs.counters with episodes := satInc s.rs.counters.episodes } }
      lp := { s.lp with notices := s.lp.notices ++
        [.starved s.rs.frames.length (recordsAmong (waitingFrames s)) s.eu.tick] } } := by
  rw [starve_of_hungry hstarved hcredits hwaiting]
  exact queueNotice_room hroom

/-- The state in which a data frame has begun to be sent, its credit taken (R159). -/
def dataBegun (f : DataFrame) (s : State) : State :=
  { s with
    lp := { s.lp with sending := some ⟨.data, frameBytes 0x04 0 (dataBody f)⟩ }
    rs := { s.rs with credits := s.rs.credits - 1 } }

theorem sendData_eq (f : DataFrame) (s : State) : sendData f s = starve (dataBegun f s) := rfl

theorem waitingFrames_dataBegun (f : DataFrame) (s : State) : waitingFrames (dataBegun f s) = s.rs.frames.tail := rfl

theorem selectOutput_busy {s : State} (h : s.lp.sending ≠ none) : selectOutput s = s := by
  obtain ⟨f, hf⟩ := Option.ne_none_iff_exists'.1 h
  rw [selectOutput, hf]

/-- Settles O40: one source of the selector at a time. -/
theorem selectorTakesFirstReady : Obligations.SelectorTakesFirstReady := by
  intro s hr sent
  rw [exec_frameSendStart _ hr]
  refine ⟨fun h => by rw [selectOutput_busy h], fun hfree => ⟨fun e rest ho => ?_, fun ho r hreply => ?_,
    fun ho hreply n rest hn => ?_, fun ho hreply hn f rest hf => ?_, fun ho hreply hn hf => ?_⟩⟩
  · rw [selectOutput, hfree, ho]
    simp only [replyBody, overloadAnswer, List.append_nil]
    rfl
  · rw [selectOutput, hfree, ho, hreply]
    simp only [replyBody, natBytes_one]
    rfl
  · rw [selectOutput, hfree, ho, hreply, hn]
    rfl
  · have hselect : selectOutput s = if 1 ≤ s.rs.credits then sendData f s else s := by
      rw [selectOutput, hfree, ho, hreply, hn, hf]
    have hwaiting : waitingFrames (dataBegun f s) = rest := by rw [waitingFrames_dataBegun, hf]; rfl
    refine ⟨fun hc => ?_, fun hc => ?_, fun hc hrest hstarved => ?_⟩
    · rw [hselect, if_neg (by omega)]
    · have hfed : (dataBegun f s).rs.starved = true ∨ (dataBegun f s).rs.credits ≠ 0 ∨
          waitingFrames (dataBegun f s) = [] := by
        rcases hc with hc | ⟨-, hrest | hstarved⟩
        · exact .inr (.inl (Nat.sub_ne_zero_of_lt hc))
        · exact .inr (.inr (hwaiting.trans hrest))
        · exact .inl hstarved
      rw [hselect, if_pos (by omega), sendData_eq, starve_of_fed hfed]
      rfl
    · have hcredits : (dataBegun f s).rs.credits = 0 := by
        show s.rs.credits - 1 = 0
        omega
      have hnotices : (dataBegun f s).lp.notices = [] := hn
      have hroom : (dataBegun f s).lp.notices.length < 32 := by rw [hnotices]; decide
      rw [hselect, if_pos (by omega), sendData_eq,
        starve_of_hungry_room (s := dataBegun f s) hstarved hcredits (by rwa [hwaiting]) hroom, hwaiting, hnotices]
      simp only [dataBegun, hc]
      rfl
  · rw [selectOutput, hfree, ho, hreply, hn, hf]

/-! ## Receiving (R166) -/

theorem linkGapEnds_of_held {tick : Tick} {l : LinkPort} (h : l.receiving = none ∨ (tick - l.lastByte).toNat ≤ 100000) :
    linkGapEnds tick l = l := by
  refine if_neg ?_
  rcases h with h | h
  · simp [h]
  · have hpassed : decide (Config.frameGap < ticksSince l.lastByte tick) = false := decide_eq_false (Nat.not_lt.2 h)
    simp [hpassed]

theorem linkGapEnds_of_gap {tick : Tick} {l : LinkPort} (h : l.receiving ≠ none)
    (hgap : 100000 < (tick - l.lastByte).toNat) :
    linkGapEnds tick l = { l with
      receiving := none, counters := { l.counters with gapDiscards := satInc l.counters.gapDiscards } } := by
  refine if_pos ?_
  rw [Option.isSome_iff_ne_none.2 h, Bool.true_and]
  exact decide_eq_true hgap

/-- The link port in a frame, of which the bytes `frame` have arrived, the latest at the tick. -/
def inFrame (tick : Tick) (frame : List LineByte) (l : LinkPort) : LinkPort :=
  { l with receiving := some frame, lastByte := tick }

theorem takeLinkByte_start {tick : Tick} {l : LinkPort} (h : l.receiving = none) :
    takeLinkByte tick l ⟨0xA5, false⟩ = inFrame tick [] l := by
  rw [takeLinkByte, linkGapEnds_of_held (.inl h), receiveByte, h]
  rfl

theorem takeLinkByte_inFrame (tick : Tick) (frame : List LineByte) (l : LinkPort) (b : LineByte) :
    takeLinkByte tick (inFrame tick frame l) b = { frameByte frame b (inFrame tick frame l) with lastByte := tick } := by
  have hheld : linkGapEnds tick (inFrame tick frame l) = inFrame tick frame l := by
    refine linkGapEnds_of_held (.inr ?_)
    rw [show (inFrame tick frame l).lastByte = tick from rfl, BitVec.sub_self]
    decide
  rw [takeLinkByte, hheld]
  rfl

/-- The body length that a frame's first two bytes give (R165). -/
def bodyLength (frame : List LineByte) : Nat := natAt (frame.map (·.byte)) 0 2

theorem bodyLength_append {frame more : List LineByte} (h : 2 ≤ frame.length) :
    bodyLength (frame ++ more) = bodyLength frame := by
  rw [bodyLength, List.map_append, natAt_append_of_ge (by rwa [List.length_map])]
  rfl

theorem frameByte_eq (init : List LineByte) (b : LineByte) (l : LinkPort) :
    frameByte init b l =
      if (init ++ [b]).length < 2 then { l with receiving := some (init ++ [b]) }
      else if bodyLength (init ++ [b]) < 5 ∨ 2048 < bodyLength (init ++ [b]) then { l with
        receiving := none, counters := { l.counters with lengthDiscards := satInc l.counters.lengthDiscards } }
      else if (init ++ [b]).length < bodyLength (init ++ [b]) + 6 then { l with receiving := some (init ++ [b]) }
      else completeFrame (init ++ [b]) { l with receiving := none } := rfl

section
variable {tick : Tick} {init : List LineByte} {b : LineByte} {l : LinkPort}

/-- A byte that completes nothing. -/
theorem takeLinkByte_more (h : (init ++ [b]).length < 2 ∨ 5 ≤ bodyLength (init ++ [b]) ∧ bodyLength (init ++ [b]) ≤ 2048 ∧
    (init ++ [b]).length < bodyLength (init ++ [b]) + 6) :
    takeLinkByte tick (inFrame tick init l) b = inFrame tick (init ++ [b]) l := by
  rw [takeLinkByte_inFrame, frameByte_eq]
  rcases h with h | ⟨hlo, hhi, hlen⟩
  · rw [if_pos h]; rfl
  · by_cases hshort : (init ++ [b]).length < 2
    · rw [if_pos hshort]; rfl
    · rw [if_neg hshort, if_neg (by omega), if_pos hlen]; rfl

/-- The byte that completes a length out of range. -/
theorem takeLinkByte_badLength (hlen : (init ++ [b]).length = 2)
    (hbad : bodyLength (init ++ [b]) < 5 ∨ 2048 < bodyLength (init ++ [b])) :
    takeLinkByte tick (inFrame tick init l) b = { l with
      receiving := none, lastByte := tick
      counters := { l.counters with lengthDiscards := satInc l.counters.lengthDiscards } } := by
  rw [takeLinkByte_inFrame, frameByte_eq, if_neg (by omega), if_pos hbad]
  rfl

/-- The last byte of a frame. -/
theorem takeLinkByte_last (hlo : 5 ≤ bodyLength (init ++ [b])) (hhi : bodyLength (init ++ [b]) ≤ 2048)
    (hlen : (init ++ [b]).length = bodyLength (init ++ [b]) + 6) :
    takeLinkByte tick (inFrame tick init l) b =
      { completeFrame (init ++ [b]) { l with receiving := none, lastByte := tick } with lastByte := tick } := by
  rw [takeLinkByte_inFrame, frameByte_eq, if_neg (by omega), if_neg (by omega), if_neg (by omega)]
  rfl

end

/-- The bytes of an incomplete frame are held. -/
theorem foldl_takeLinkByte_held {tick : Tick} {l : LinkPort} (frame : List LineByte)
    (h : frame.length < 2 ∨ 5 ≤ bodyLength frame ∧ bodyLength frame ≤ 2048 ∧ frame.length < bodyLength frame + 6) :
    frame.foldl (takeLinkByte tick) (inFrame tick [] l) = inFrame tick frame l := by
  induction frame using List.reverseRecOn with
  | nil => rfl
  | append_singleton init b ih =>
    have hlen : (init ++ [b]).length = init.length + 1 := by simp
    rw [List.foldl_append, ih, List.foldl_cons, List.foldl_nil, takeLinkByte_more h]
    by_cases hshort : init.length < 2
    · exact .inl hshort
    · rw [bodyLength_append (by omega)] at h
      exact .inr (by omega)

/-- A frame whose body length is in range is completed by its last byte. -/
theorem foldl_takeLinkByte_complete {tick : Tick} {l : LinkPort} (frame : List LineByte) (hlo : 5 ≤ bodyLength frame)
    (hhi : bodyLength frame ≤ 2048) (hlen : frame.length = bodyLength frame + 6) :
    frame.foldl (takeLinkByte tick) (inFrame tick [] l) =
      { completeFrame frame { l with receiving := none, lastByte := tick } with lastByte := tick } := by
  rcases List.eq_nil_or_concat' frame with rfl | ⟨init, b, rfl⟩
  · simp at hlen
  · have hinit : (init ++ [b]).length = init.length + 1 := by simp
    have hbody : bodyLength (init ++ [b]) = bodyLength init := bodyLength_append (by omega)
    rw [List.foldl_append, foldl_takeLinkByte_held init (.inr (by omega)), List.foldl_cons, List.foldl_nil,
      takeLinkByte_last hlo hhi hlen]

/-- A frame from its start character on leaves the link port as its bytes do. -/
theorem exec_frameReceived_start {after : Nat} {frame : List LineByte} {s : State} {x : LinkPort}
    (hr : s.resetHeld = false) (hreceiving : s.lp.receiving = none)
    (hx : frame.foldl (takeLinkByte (elapse after s).eu.tick) (inFrame (elapse after s).eu.tick [] s.lp) = x) :
    exec (.frameReceived after (⟨0xA5, false⟩ :: frame)) s = .next { elapse after s with lp := x } := by
  rw [exec_frameReceived _ _ _ hr, takeLinkBytes, onLink, List.foldl_cons,
    takeLinkByte_start (l := (elapse after s).lp) hreceiving, ← hx]
  rfl

theorem withoutFrame_eq {l : LinkPort} (h : l.receiving = none) (tick : Tick) (k : LinkCounters) :
    { l with receiving := none, lastByte := tick, counters := k } = { l with lastByte := tick, counters := k } := by
  cases l; cases h; rfl

/-! ## The judgement of a completed frame (R166) -/

/-- A frame with a framing error or a check that does not agree (R166). -/
def frameBad (frame : List LineByte) : Prop :=
  (∃ b ∈ frame, b.framingError = true) ∨
    natAt (frame.map (·.byte)) (bodyLength frame + 4) 2 ≠ (crc16 ((frame.map (·.byte)).take (bodyLength frame + 4))).toNat

section
variable {frame : List LineByte} {l : LinkPort} (hlen : frame.length = bodyLength frame + 6)
include hlen

theorem checkedLength : (frame.map (·.byte)).length - 2 = bodyLength frame + 4 := by
  rw [List.length_map]; omega

theorem completeFrame_bad (hbad : frameBad frame) :
    completeFrame frame l = { l with counters := { l.counters with checkDiscards := satInc l.counters.checkDiscards } } := by
  refine if_pos ?_
  rw [checkedLength hlen, Bool.or_eq_true, List.any_eq_true, decide_eq_true_iff]
  exact hbad

theorem completeFrame_otherKind (hgood : ¬ frameBad frame) (hkind : bytesAt (frame.map (·.byte)) 2 1 ≠ [0x01]) :
    completeFrame frame l = { l with counters := { l.counters with kindDiscards := satInc l.counters.kindDiscards } } := by
  refine (if_neg ?_).trans (if_pos hkind)
  rw [checkedLength hlen, Bool.or_eq_true, List.any_eq_true, decide_eq_true_iff]
  exact hgood

theorem completeFrame_command (hgood : ¬ frameBad frame) (hkind : bytesAt (frame.map (·.byte)) 2 1 = [0x01]) :
    completeFrame frame l = receiveCommand ⟨BitVec.ofNat 8 (natAt (frame.map (·.byte)) 3 1),
      bytesAt ((frame.map (·.byte)).take (bodyLength frame + 4)) 4
        (((frame.map (·.byte)).take (bodyLength frame + 4)).length - 4)⟩ l := by
  rw [← checkedLength hlen]
  refine (if_neg ?_).trans (if_neg (not_not_intro hkind))
  rw [checkedLength hlen, Bool.or_eq_true, List.any_eq_true, decide_eq_true_iff]
  exact hgood

end

/-- Settles O15: the bytes of a frame are taken up to its last, where it is judged. -/
theorem frameIsJudged : Obligations.FrameIsJudged := by
  refine ⟨fun s after frame hr hreceiving => ?_, fun s after hr => ⟨fun h hgap => ?_, fun h => ?_⟩⟩
  · intro bs len l bad answers
    have hbody : bodyLength frame = len := rfl
    have hanswers (x : LinkPort) (hx : frame.foldl (takeLinkByte (elapse after s).eu.tick)
        (inFrame (elapse after s).eu.tick [] s.lp) = x) : answers x :=
      exec_frameReceived_start hr hreceiving hx
    refine ⟨fun hlen hrange => hanswers _ ?_, fun hlo hhi hlen hbad => hanswers _ ?_,
      fun hlo hhi hlen hgood hkind => hanswers _ ?_, fun hlo hhi htwo hlen => hanswers _ ?_⟩
    · rcases List.eq_nil_or_concat' frame with rfl | ⟨init, b, rfl⟩
      · simp at hlen
      · have hinit : init.length < 2 := by simp at hlen; omega
        rw [List.foldl_append, foldl_takeLinkByte_held init (.inl hinit), List.foldl_cons, List.foldl_nil,
          takeLinkByte_badLength hlen hrange, withoutFrame_eq hreceiving]
        rfl
    · rw [foldl_takeLinkByte_complete frame hlo hhi hlen, completeFrame_bad hlen hbad]
      exact withoutFrame_eq hreceiving _ _
    · rw [foldl_takeLinkByte_complete frame hlo hhi hlen, completeFrame_otherKind hlen hgood hkind]
      exact withoutFrame_eq hreceiving _ _
    · exact foldl_takeLinkByte_held frame (.inr ⟨hlo, hhi, hlen⟩)
  · rw [exec_linkGap _ _ hr, onLink, linkGapEnds_of_gap (l := (elapse after s).lp) h hgap]
    rfl
  · rw [exec_linkGap _ _ hr, onLink, linkGapEnds_of_held (l := (elapse after s).lp) h]

/-! ## Command frames (R165, R187) -/

/-- A command frame after its start character. -/
theorem frameBytes_command (tag : Byte) (body : List Byte) :
    frameBytes 0x01 tag body = 0xA5 :: (natBytes 2 body.length ++ 0x01 :: tag :: body ++
      natBytes 2 (crc16 (natBytes 2 body.length ++ 0x01 :: tag :: body)).toNat) := rfl

section
variable (tag : Byte) (body : List Byte) (hlen : body.length ≤ 2048)

/-- The bytes of a command frame that its check covers. -/
def checkedBytes : List Byte := natBytes 2 body.length ++ 0x01 :: tag :: body

theorem length_checkedBytes : (checkedBytes tag body).length = body.length + 4 := by
  rw [checkedBytes, List.length_append, length_natBytes, List.length_cons, List.length_cons]; omega

/-- The frame after its start character, as it arrives. -/
def commandFrame : List LineByte := cleanly (checkedBytes tag body ++ natBytes 2 (crc16 (checkedBytes tag body)).toNat)

theorem bytes_commandFrame :
    (commandFrame tag body).map (·.byte) = checkedBytes tag body ++ natBytes 2 (crc16 (checkedBytes tag body)).toNat :=
  bytes_cleanly _

theorem length_commandFrame : (commandFrame tag body).length = body.length + 6 := by
  rw [commandFrame, cleanly, List.length_map, List.length_append, length_checkedBytes, length_natBytes]

include hlen in
theorem bodyLength_commandFrame : bodyLength (commandFrame tag body) = body.length := by
  rw [bodyLength, bytes_commandFrame, natAt_append_of_ge (by rw [length_checkedBytes]; omega), checkedBytes,
    natAt_append_of_ge (by rw [length_natBytes]), natAt_natBytes, Nat.mod_eq_of_lt (by omega)]

include hlen in
theorem commandFrame_good : ¬ frameBad (commandFrame tag body) := by
  have htake : ((commandFrame tag body).map (·.byte)).take (body.length + 4) = checkedBytes tag body := by
    rw [bytes_commandFrame, List.take_left' (length_checkedBytes tag body)]
  rintro (⟨b, hb, herror⟩ | hcheck)
  · simp only [commandFrame, cleanly, List.mem_map] at hb
    obtain ⟨x, -, rfl⟩ := hb
    cases herror
  · refine hcheck ?_
    have hcrc := (crc16 (checkedBytes tag body)).isLt
    rw [bodyLength_commandFrame tag body hlen, htake, bytes_commandFrame,
      natAt_append_of_le (by rw [length_checkedBytes]), length_checkedBytes, Nat.sub_self, natAt_natBytes,
      Nat.mod_eq_of_lt (by omega)]

theorem kind_commandFrame : bytesAt ((commandFrame tag body).map (·.byte)) 2 1 = [0x01] := by
  rw [bytes_commandFrame, bytesAt_append_of_ge (by rw [length_checkedBytes]; omega), checkedBytes,
    bytesAt_append_of_le (by rw [length_natBytes]), length_natBytes]
  rfl

theorem tag_commandFrame : BitVec.ofNat 8 (natAt ((commandFrame tag body).map (·.byte)) 3 1) = tag := by
  rw [bytes_commandFrame, natAt_append_of_ge (by rw [length_checkedBytes]; omega), checkedBytes,
    natAt_append_of_le (by rw [length_natBytes]; omega), length_natBytes]
  show BitVec.ofNat 8 (natAt (tag :: body) 0 1) = tag
  rw [natAt_zero_one, BitVec.ofNat_toNat, BitVec.setWidth_eq]

include hlen in
theorem body_commandFrame :
    bytesAt (((commandFrame tag body).map (·.byte)).take (bodyLength (commandFrame tag body) + 4)) 4
      ((((commandFrame tag body).map (·.byte)).take (bodyLength (commandFrame tag body) + 4)).length - 4) = body := by
  have htake : ((commandFrame tag body).map (·.byte)).take (body.length + 4) = checkedBytes tag body := by
    rw [bytes_commandFrame, List.take_left' (length_checkedBytes tag body)]
  rw [bodyLength_commandFrame tag body hlen, htake, length_checkedBytes, Nat.add_sub_cancel, checkedBytes,
    bytesAt_append_of_le (by rw [length_natBytes]; omega), length_natBytes]
  exact bytesAt_all body

end

theorem receiveCommand_queued {c : HostCommand} {l : LinkPort} (h : l.queue.length < 4 ∧ l.resetMark = false) :
    receiveCommand c l = { l with
      queue := l.queue ++ [c], counters := { l.counters with commands := satInc l.counters.commands } } := if_pos h

theorem receiveCommand_turnedAway {c : HostCommand} {l : LinkPort} (h : ¬ (l.queue.length < 4 ∧ l.resetMark = false)) :
    receiveCommand c l = { l with
      overload := l.overload ++ [⟨c.tag, c.body.take 4⟩]
      counters := { l.counters with
        commands := satInc l.counters.commands, overloads := satInc l.counters.overloads } } := if_neg h

/-- Settles O14: a frame that arrives whole is judged at its last byte as its command. -/
theorem commandFrameIsReceived : Obligations.CommandFrameIsReceived := by
  intro s after tag body hr hreceiving hlo hhi
  have hstart : cleanly (frameBytes 0x01 tag body) = ⟨0xA5, false⟩ :: commandFrame tag body := rfl
  have hbody := bodyLength_commandFrame tag body hhi
  have hlen : (commandFrame tag body).length = bodyLength (commandFrame tag body) + 6 := by
    rw [hbody, length_commandFrame]
  refine (congrArg (fun bs => exec (.frameReceived after bs) s) hstart).trans (exec_frameReceived_start hr hreceiving ?_)
  rw [foldl_takeLinkByte_complete _ (by omega) (by omega) hlen,
    completeFrame_command hlen (commandFrame_good tag body hhi) (kind_commandFrame tag body), tag_commandFrame,
    body_commandFrame tag body hhi]
  have hlink (q : List HostCommand) (o : List OverloadEntry) (k : LinkCounters) :
      { s.lp with receiving := none, lastByte := (elapse after s).eu.tick, queue := q, overload := o, counters := k } =
        { s.lp with lastByte := (elapse after s).eu.tick, queue := q, overload := o, counters := k } := by
    rw [← hreceiving]
  by_cases hroom : s.lp.queue.length < 4 ∧ s.lp.resetMark = false
  · rw [receiveCommand_queued (l := { s.lp with receiving := none, lastByte := _ }) hroom, if_pos hroom]
    exact hlink _ _ _
  · rw [receiveCommand_turnedAway (l := { s.lp with receiving := none, lastByte := _ }) hroom, if_neg hroom]
    exact hlink _ _ _

end Sys2Proof.Proofs
end

