-- ==== Sys2Proof/Proofs/Store.lean ====
section
/-! PROOF. The record store's admissions (R155 to R157, R161), and what the blade table and the plan take of the records on
their way (R61 to R63, R120, R156). -/

open Sys2Proof Sys2Proof.Machine

namespace Sys2Proof.Proofs

/-! ## Admission (R155) -/

theorem takeOvertaking_front {α : Type} (f : α → α → Bool) (x : α) (rest : List α) :
    takeOvertaking f 0 (x :: rest) = some (x, rest) := by
  simp [takeOvertaking, takeAt]

theorem takeHanded_front {x : Handed} {rest : List Handed} {s : State} (h : s.bus.handed = x :: rest) :
    takeHanded 0 s = admitRecord x.record { s with bus := { s.bus with handed := rest } } := by
  rw [takeHanded, h, takeOvertaking_front]

/-- The state in which a record has been numbered, counted and its frames appended. -/
def framesAdded (fs : List DataFrame) (f : StoreCounters → StoreCounters) (s : State) : State :=
  { s with rs := { s.rs with
      recordNumber := s.rs.recordNumber + 1, frames := s.rs.frames ++ fs, counters := f s.rs.counters } }

section
variable {r : SectionRecord} {s : State}

theorem admitRecord_whole (h : framesNeeded r ≤ 512 - s.rs.frames.length) :
    admitRecord r s = reportAdmission .whole r
      (starve (framesAdded (framesOf s.rs.recordNumber r) (fun c => { c with whole := satInc c.whole }) s)) := if_pos h

theorem admitRecord_header (h : 512 - s.rs.frames.length < framesNeeded r) (hfree : 0 < 512 - s.rs.frames.length) :
    admitRecord r s = reportAdmission .headerOnly r
      (starve (framesAdded [wholeFrame s.rs.recordNumber (droppedPoints r) []]
        (fun c => { c with headerOnly := satInc c.headerOnly }) s)) :=
  (if_neg (Nat.not_le.2 h)).trans (if_pos hfree)

theorem admitRecord_lost (h : 512 - s.rs.frames.length = 0) (hneeded : 0 < framesNeeded r) :
    admitRecord r s = reportAdmission .lost r
      (sendRaising ⟨.storeLoss, some r.head, r.tag, r.pass, s.eu.tick⟩
        { s with rs := { s.rs with
          recordNumber := s.rs.recordNumber + 1, counters := { s.rs.counters with lost := satInc s.rs.counters.lost } } }) := by
  refine (if_neg (Nat.not_le.2 ?_)).trans (if_neg (Nat.not_lt.2 ?_))
  · show 512 - s.rs.frames.length < framesNeeded r
    omega
  · exact Nat.le_of_eq h

end

theorem framesNeeded_pos (r : SectionRecord) : 0 < framesNeeded r := by
  unfold framesNeeded
  split
  · exact Nat.one_pos
  · simp only [Config.pointsPerFrame] at *
    omega

/-- While no data frame is being sent, every frame of the store waits (R159). -/
theorem waitingFrames_eq {s : State} (h : ∀ f, s.lp.sending = some f → f.kind ≠ .data) : waitingFrames s = s.rs.frames := by
  cases hs : s.lp.sending with
  | none => rw [waitingFrames, hs]
  | some f => rw [waitingFrames, hs]; exact if_neg (h f hs)

/-- Settles O38: the three outcomes of an admission, and then the starvation test. -/
theorem storeAdmitsRecord : Obligations.StoreAdmitsRecord := by
  intro s x rest hr hhanded r number fs free k aborted stored short header loss
  have hneeded : fs.length = framesNeeded r := length_framesOf number r
  have hpos : 0 < fs.length := hneeded ▸ framesNeeded_pos r
  obtain ⟨s', hs'⟩ : ∃ s', s' = ({ s with bus := { s.bus with handed := rest } } : State) := ⟨_, rfl⟩
  have htake : exec (.recordAdmission 0) s = .next (admitRecord r s') := by
    rw [exec_recordAdmission _ _ hr, takeHanded_front hhanded, hs']
  have hwhole (hfits : fs.length ≤ free) : admitRecord r s' = reportAdmission .whole r
      (starve (framesAdded fs (fun c => { c with whole := satInc c.whole }) s')) := by
    rw [admitRecord_whole (by rw [hs', ← hneeded]; exact hfits), hs']
  have hheader (hlarge : free < fs.length) (hfree : 0 < free) : admitRecord r s' = reportAdmission .headerOnly r
      (starve (framesAdded [header] (fun c => { c with headerOnly := satInc c.headerOnly }) s')) := by
    rw [admitRecord_header (by rw [hs', ← hneeded]; exact hlarge) (by rw [hs']; exact hfree), hs']
    rfl
  rw [htake]
  refine ⟨fun hfed => ⟨fun hfits => ?_, fun hlarge hfree => ?_⟩, fun hcredits hstarved hsending hroom => ⟨fun hfits => ?_,
    fun hlarge hfree => ?_⟩, fun hfull => ?_⟩
  · rw [hwhole hfits, starve_of_fed (by rw [hs']; exact hfed.symm.imp_right .inl), hs']
    rfl
  · rw [hheader hlarge hfree, starve_of_fed (by rw [hs']; exact hfed.symm.imp_right .inl), hs']
    rfl
  · have hwaiting : waitingFrames (framesAdded fs (fun c => { c with whole := satInc c.whole }) s') = s.rs.frames ++ fs := by
      rw [hs']; exact waitingFrames_eq hsending
    rw [hwhole hfits, starve_of_hungry_room (by rw [hs']; exact hstarved) (by rw [hs']; exact hcredits)
      (by rw [hwaiting]; exact List.append_ne_nil_of_right_ne_nil _ (List.ne_nil_of_length_pos hpos))
      (by rw [hs']; exact hroom), hwaiting, hs']
    rfl
  · have hwaiting : waitingFrames (framesAdded [header] (fun c => { c with headerOnly := satInc c.headerOnly }) s') =
        s.rs.frames ++ [header] := by
      rw [hs']; exact waitingFrames_eq hsending
    rw [hheader hlarge hfree, starve_of_hungry_room (by rw [hs']; exact hstarved) (by rw [hs']; exact hcredits)
      (by rw [hwaiting]; simp) (by rw [hs']; exact hroom), hwaiting, hs']
    rfl
  · rw [admitRecord_lost (by rw [hs']; exact hfull) (hneeded ▸ hpos), hs']
    rfl

/-! ## Notices of a change of the blade table (R69) -/

theorem queueNotices_room {ns : List Notice} {s : State} (h : s.lp.notices.length + ns.length ≤ 32) :
    queueNotices ns s = { s with lp := { s.lp with notices := s.lp.notices ++ ns } } := by
  have hfold (l : LinkPort) (hl : l.notices.length + ns.length ≤ 32) :
      ns.foldl (fun l n => linkNotice n l) l = { l with notices := l.notices ++ ns } := by
    clear h
    induction ns generalizing l with
    | nil => simp
    | cons n ns ih =>
      rw [List.length_cons] at hl
      rw [List.foldl_cons, linkNotice_room (by omega), ih _ (by rw [List.length_append, List.length_singleton]; omega),
        List.append_assoc]
      rfl
  rw [queueNotices, hfold s.lp h]

/-- A change of a blade's state is said once, as R69 describes. -/
theorem bladeNotice_eq {i : Nat} {gen : Id16} {cause : BladeCause} {e f : BladeEntry} (hid : f.id = e.id) :
    bladeNotice i gen cause e f = bladeSaid i gen cause e f := by
  unfold bladeNotice bladeSaid
  rw [hid]
  by_cases h : e.state = f.state
  · rw [if_pos h, if_pos h.symm]
  · rw [if_neg h, if_neg (Ne.symm h)]

theorem length_bladeSaid_le (i : Nat) (gen : Id16) (cause : BladeCause) (e f : BladeEntry) :
    (bladeSaid i gen cause e f).length ≤ 1 := by
  unfold bladeSaid
  split <;> simp

/-- A blade's entry is changed, with its notice, which finds room. -/
theorem changeBlade_room {i : Nat} {cause : BladeCause} {f : BladeEntry → BladeEntry} {e : BladeEntry} {s : State}
    (he : s.bt.entries[i]? = some e) (hid : (f e).id = e.id) (hroom : s.lp.notices.length < 32) :
    changeBlade i cause f s = { s with
      bt := { s.bt with entries := s.bt.entries.set i (f e) }
      lp := { s.lp with notices := s.lp.notices ++ bladeSaid i s.bt.gen cause e (f e) } } := by
  have hlen := length_bladeSaid_le i s.bt.gen cause e (f e)
  rw [changeBlade, he]
  dsimp only
  rw [bladeNotice_eq hid, queueNotices_room]
  show s.lp.notices.length + _ ≤ 32
  omega

/-! ## What the blade table takes (R61 to R63) -/

theorem miss_eq {kMiss : Nat} {e : BladeEntry} (h : e.state ≠ .excluded) :
    miss kMiss e = { e with
      misses := min (e.misses + 1) 15, state := if kMiss ≤ min (e.misses + 1) 15 then .missing else e.state } := by
  unfold miss
  cases hst : e.state with
  | active => simp
  | displaced => simp
  | missing => simp
  | excluded => exact absurd hst h

section
variable {p : Post} {e : BladeEntry} {s : State} (he : s.bt.entries[p.blade]? = some e)
include he

theorem takePost_excluded (hx : e.state = .excluded) : takePost p s = s := by
  rw [takePost, he]
  exact if_pos hx

theorem takePost_found {u : Nat} (hx : e.state ≠ .excluded) (hu : p.entry = some u) :
    takePost p s = changeBlade p.blade .found (observe s.bt.params.guard u) s := by
  rw [takePost, he]
  dsimp only
  rw [if_neg hx, hu]

theorem takePost_missed (hx : e.state ≠ .excluded) (hu : p.entry = none) (hm : p.missingEntry = true) :
    takePost p s = changeBlade p.blade .missed (miss s.bt.params.kMiss) s := by
  rw [takePost, he]
  dsimp only
  rw [if_neg hx, hu, if_pos hm]

end

theorem exec_trackingPost_cons {p : Post} {rest : List Post} {s : State} (hr : s.resetHeld = false)
    (h : s.bus.posts = p :: rest) :
    exec .trackingPost s = .next (takePost p { s with bus := { s.bus with posts := rest } }) := by
  rw [exec_trackingPost _ hr, takePosted, h]

/-! ## What the plan takes (R120, R156) -/

theorem holdsRun_iff {runId : RunId} {s : State} :
    holdsRun runId s = true ↔ ∃ a, s.spe.active = some a ∧ a.runId = runId := by
  unfold holdsRun
  cases s.spe.active <;> simp

theorem exec_recordReport_cons {r : RecordReport} {rest : List RecordReport} {s : State} (hr : s.resetHeld = false)
    (h : s.bus.reports = r :: rest) :
    let t := { s with bus := { s.bus with reports := rest } }
    exec .recordReport s = .next (if hasFlag .aborted r.flags then t else
      if holdsRun r.runId s then onStepCounters (countRecord r.flags) t else t) := by
  rw [exec_recordReport _ hr, takeReport, h]
  rfl

theorem exec_admissionReport_cons {r : AdmissionReport} {rest : List AdmissionReport} {s : State}
    (hr : s.resetHeld = false) (h : s.bus.stored = r :: rest) :
    let t := { s with bus := { s.bus with stored := rest } }
    exec .admissionReport s = .next (if r.aborted then t else
      if holdsRun r.runId s then onStepCounters (countOutcome r.outcome) t else t) := by
  rw [exec_admissionReport _ hr, takeAdmission, h]
  rfl

/-- Settles O39. -/
theorem recordResultsAreTaken : Obligations.RecordResultsAreTaken := by
  intro s hr
  refine ⟨fun p rest e hposts he => ?_, fun r rest hreports => ?_, fun r rest hstored => ?_⟩
  · intro t changed
    have het : t.bt.entries[p.blade]? = some e := he
    rw [exec_trackingPost_cons hr hposts]
    refine ⟨fun hx => ?_, fun u hx hu hroom => ?_, fun hx hu hm hroom => ?_⟩
    · rw [takePost_excluded het hx]
    · rw [takePost_found het hx hu, changeBlade_room het rfl hroom]
      rfl
    · rw [takePost_missed het hx hu hm, changeBlade_room het rfl hroom, miss_eq hx]
      rfl
  · intro t c held
    have hheld : holdsRun r.runId s = true ↔ held := holdsRun_iff
    rw [exec_recordReport_cons hr hreports]
    refine ⟨fun h => ?_, fun haborted hrun => ?_⟩
    · rcases h with haborted | hrun
      · rw [if_pos haborted]
      · rw [if_neg (mt hheld.1 hrun), ite_self]
    · rw [if_neg (by simp [haborted]), if_pos (hheld.2 hrun)]
      simp only [onStepCounters, countRecord, isClean, beq_iff_eq]
      rfl
  · intro t c held
    have hheld : holdsRun r.runId s = true ↔ held := holdsRun_iff
    rw [exec_admissionReport_cons hr hstored]
    refine ⟨fun h => ?_, fun haborted hrun hout => ?_, fun haborted hrun hout => ?_⟩
    · rcases h with haborted | hrun | hout
      · rw [if_pos haborted]
      · rw [if_neg (mt hheld.1 hrun), ite_self]
      · rw [hout, show onStepCounters (countOutcome .whole) ({ s with bus := { s.bus with stored := rest } }) = t from rfl,
          ite_self, ite_self]
    · rw [if_neg (by simp [haborted]), if_pos (hheld.2 hrun), hout]
      rfl
    · rw [if_neg (by simp [haborted]), if_pos (hheld.2 hrun), hout]
      rfl

end Sys2Proof.Proofs
end

