-- ==== Sys2Proof/Proofs/HostCommands.lean ====
section
/-! PROOF. Host commands that read or write without moving the plan: slots and marks (R108 to R110, R67), tables and maps (R58
to R60, R97 to R99), counters (R174), grants and resets (R160, R177), and the auxiliary lines (R181, R185). -/

open Sys2Proof Sys2Proof.Machine

namespace Sys2Proof.Proofs

/-! ## The reply to a command -/

/-- The state whose queue the front command has left. -/
def dequeued (rest : List HostCommand) (s : State) : State := onLink (fun l => { l with queue := rest }) s

section
variable {k : Keyword} {tag : Byte} {args : List Byte} {rest : List HostCommand} {s : State}

/-- What a command answers whose execution gives the status, the data and the state. -/
theorem hostCommand_executed {f : List Byte → State → Executed} {st : Status} {d : List Byte} {t : State}
    (ho : Offered k tag args rest s) (hf : f args (dequeued rest s) = ⟨st, d, t⟩) :
    hostCommand k f s = .next (onLink (fun l => { l with reply := some ⟨tag, keywordBytes k, st, d⟩ }) t) := by
  rw [hostCommand_offered f ho]
  show Host.Outcome.next (onLink (fun l => { l with
    reply := some ⟨tag, keywordBytes k, (f args (dequeued rest s)).status, (f args (dequeued rest s)).data⟩ })
      (f args (dequeued rest s)).after) = _
  rw [hf]

theorem hostCommand_replied {f : List Byte → State → Executed} {st : Status} {d : List Byte} {t : State}
    (ho : Offered k tag args rest s) (hf : f args (dequeued rest s) = ⟨st, d, dequeued rest t⟩) :
    hostCommand k f s = .next (replied k tag st d rest t) := hostCommand_executed ho hf

theorem withLength_of_eq {n : Nat} {f : List Byte → State → Executed} (h : args.length = n) :
    withLength n f args s = f args s := if_pos h

theorem withCount_of_eq {size : Nat} {f : List Byte → State → Executed} (hne : args ≠ [])
    (h : args.length = 1 + size * natAt args 0 1) : withCount size f args s = f args s := if_pos ⟨hne, h⟩

end

theorem slotOfNat_eq_none {n : Nat} (h : 64 ≤ n) : slotOfNat n = none :=
  dif_neg (Nat.not_lt.2 h)

/-! ## STPR (R110) -/

theorem readSlot_none {b : Byte} (s : State) (h : 64 ≤ b.toNat) : readSlot [b] s = refuse .invalid s := by
  rw [readSlot, natAt_zero_one, slotOfNat_eq_none h]

theorem readSlot_some {b : Byte} {slot : Slot} (s : State) (h : b.toNat = slot.val) :
    readSlot [b] s = done (slotContents s.spe.slots[slot]) s := by
  rw [readSlot, natAt_zero_one, slotOfNat_eq_some.2 h]

theorem slotContents_none : slotContents none = 0 :: natBytes 32 0 := by
  rw [slotContents, natBytes_one, List.singleton_append]
  rfl

theorem slotContents_some (p : ScanStep) : slotContents (some p) = 1 :: stepBytes p := by
  rw [slotContents, natBytes_one, List.singleton_append]
  rfl

/-- Settles O49. -/
theorem stprReadsSlot : Obligations.StprReadsSlot := by
  intro s tag b rest ho
  have hread {st : Status} {d : List Byte} (hf : readSlot [b] (dequeued rest s) = ⟨st, d, dequeued rest s⟩) :
      exec .stpr s = .next (replied .stpr tag st d rest s) :=
    hostCommand_replied ho ((withLength_of_eq rfl).trans hf)
  refine ⟨fun hb => hread (readSlot_none _ hb), fun slot hb => ⟨fun hempty => ⟨natBytes 32 0, hread ?_⟩, fun p hp => hread ?_⟩⟩
  · rw [readSlot_some _ hb, show (dequeued rest s).spe.slots[slot] = none from hempty, slotContents_none, done]
  · rw [readSlot_some _ hb, show (dequeued rest s).spe.slots[slot] = some p from hp, slotContents_some, done]

/-! ## STPW and BTMK (R67, R108, R109) -/

theorem slotBusy_iff {slot : Slot} {s : State} :
    slotBusy slot s = true ↔ (∃ a, s.spe.active = some a ∧ a.slot = slot) ∨ ∃ c, s.spe.context = some c ∧ c.slot = slot := by
  simp [slotBusy, Option.any_eq_true]

section
variable {b : Byte} {bs : List Byte} {s : State}

theorem writeSlot_refused (h : 64 ≤ b.toNat ∨ readStep bs = none) : writeSlot (b :: bs) s = refuse .invalid s := by
  rw [writeSlot, natAt_zero_one, List.drop_one, List.tail_cons]
  rcases h with h | h
  · rw [slotOfNat_eq_none h]
  · rw [h]
    cases slotOfNat b.toNat <;> rfl

theorem writeSlot_read {slot : Slot} {w : Written ScanStep} (hb : b.toNat = slot.val) (hw : readStep bs = some w) :
    writeSlot (b :: bs) s = if slotBusy slot s then refuse .slotBusy s else
      doneWith w.clamped [] (onPlan (fun q => { q with slots := q.slots.set slot (some w.value) }) s) := by
  rw [writeSlot, natAt_zero_one, List.drop_one, List.tail_cons, slotOfNat_eq_some.2 hb, hw]

end

/-- The byte of a mark's action (13.4). -/
theorem markOf_action (m : Mark) : markOf (if m = .exclude then (0 : Byte) else 1).toNat = some m := by
  cases m <;> rfl

theorem readMarks_one (i a : Byte) (m : Mark) (h : markOf a.toNat = some m) : readMarks 1 [i, a] = some [(i.toNat, m)] := by
  simp only [readMarks, natAt_cons_succ, natAt_zero_one, h]

theorem marksOk_one {size i : Nat} {m : Mark} : marksOk size [(i, m)] = decide (i < size) := by
  simp [marksOk, Config.bladeCapacity]

theorem stageMark_eq {es : List BladeEntry} {i : Nat} {m : Mark} {e : BladeEntry} (h : es[i]? = some e) :
    stageMark es (i, m) = es.set i { e with pendingMark := some m } := by
  refine List.ext_getElem? fun j => ?_
  rw [stageMark, List.getElem?_modify, List.getElem?_set]
  by_cases hj : i = j
  · subst hj
    obtain ⟨hlt, rfl⟩ := List.getElem?_eq_some_iff.1 h
    simp [hlt]
  · simp [hj]

theorem markBlades_one {i : Byte} {m : Mark} {s : State} :
    markBlades [1, i, if m = .exclude then 0 else 1] s =
      if i.toNat < s.bt.entries.length then
        done [] { s with bt := { s.bt with entries := stageMark s.bt.entries (i.toNat, m) } }
      else refuse .invalid s := by
  have hread : readMarks (natAt [1, i, if m = .exclude then 0 else 1] 0 1) (List.drop 1 [1, i, if m = .exclude then 0 else 1]) =
      some [(i.toNat, m)] := readMarks_one i _ m (markOf_action m)
  rw [markBlades, hread]
  simp only [marksOk_one, decide_eq_true_iff, List.foldl_cons, List.foldl_nil]

/-- Settles O50. -/
theorem slotsAndMarksAreWritten : Obligations.SlotsAndMarksAreWritten := by
  intro s tag b rest
  refine ⟨fun bs hlen ho => ?_, fun i m ho => ?_⟩
  · have hwrite {st : Status} {d : List Byte} {t : State} (hf : writeSlot (b :: bs) (dequeued rest s) = ⟨st, d, dequeued rest t⟩) :
        exec .stpw s = .next (replied .stpw tag st d rest t) :=
      hostCommand_replied ho ((withLength_of_eq (by rw [List.length_cons, hlen])).trans hf)
    refine ⟨fun h => hwrite (writeSlot_refused h), fun slot w hb hw => ⟨fun hbusy => hwrite ?_, fun hfree => hwrite ?_⟩⟩
    · rw [writeSlot_read hb hw, if_pos (slotBusy_iff (s := dequeued rest s) |>.2 hbusy)]
      rfl
    · rw [writeSlot_read hb hw, if_neg (mt (slotBusy_iff (s := dequeued rest s)).1 hfree)]
      rfl
  · have hmark {st : Status} {d : List Byte} {t : State}
        (hf : markBlades [1, i, if m = .exclude then 0 else 1] (dequeued rest s) = ⟨st, d, dequeued rest t⟩) :
        exec .btmk s = .next (replied .btmk tag st d rest t) :=
      hostCommand_replied ho ((withCount_of_eq (List.cons_ne_nil _ _) rfl).trans hf)
    refine ⟨fun h => hmark ?_, fun e he => hmark ?_⟩
    · rw [markBlades_one, if_neg (show ¬ i.toNat < (dequeued rest s).bt.entries.length from Nat.not_lt.2 h)]
      rfl
    · rw [markBlades_one, if_pos (show i.toNat < (dequeued rest s).bt.entries.length from (List.getElem?_eq_some_iff.1 he).1)]
      exact congrArg (fun es => done [] { dequeued rest s with bt := { s.bt with entries := es } }) (stageMark_eq he)

/-! ## GRNT, unknown keywords and RSET (R160, R169, R177) -/

theorem natAt_two_bytes (hi lo : Byte) : natAt [hi, lo] 0 2 = hi.toNat * 256 + lo.toNat := by
  simp [natAt, bytesAt, beNat]

theorem grantCredits_eq (hi lo : Byte) (s : State) :
    let sum := s.rs.credits + (hi.toNat * 256 + lo.toNat)
    grantCredits [hi, lo] s = ⟨if 4095 < sum then .clamped else .ok, natBytes 2 (min sum 4095), { s with rs := { s.rs with
      credits := min sum 4095, starved := if min sum 4095 = 0 then s.rs.starved else false } }⟩ := by
  have hstarved (c : Nat) : (s.rs.starved && c == 0) = if c = 0 then s.rs.starved else false := by
    by_cases h : c = 0 <;> simp [h]
  simp only [grantCredits, natAt_two_bytes, doneWith, decide_eq_true_iff, hstarved]

theorem commandNames_eq_none {c : HostCommand} (h : ∀ k : Keyword, keywordBytes k ≠ c.body.take 4) :
    commandNames c = none := by
  refine List.find?_eq_none.2 fun k _ => ?_
  simpa [commandKeyword] using h k

/-- The commands waiting behind an RSET are entered in the overload list, oldest first (R177). -/
theorem foldl_overloadCommand (cs : List HostCommand) (l : LinkPort) :
    cs.foldl overloadCommand l = { l with
      overload := l.overload ++ cs.map (fun c => ⟨c.tag, c.body.take 4⟩)
      counters := { l.counters with overloads := satInc^[cs.length] l.counters.overloads } } := by
  induction cs generalizing l with
  | nil => simp
  | cons c cs ih =>
    rw [List.foldl_cons, ih]
    simp only [overloadCommand, onLinkCounters, commandKeyword, List.map_cons, List.append_assoc, List.singleton_append,
      List.length_cons, Function.iterate_succ_apply]

theorem awaitReset_dequeued (rest : List HostCommand) (s : State) :
    onLink awaitReset (dequeued rest s) = { s with lp := { s.lp with
      queue := []
      resetMark := true
      overload := s.lp.overload ++ rest.map (fun c => ⟨c.tag, c.body.take 4⟩)
      counters := { s.lp.counters with overloads := satInc^[rest.length] s.lp.counters.overloads } } } := by
  show onLink (fun l => { rest.foldl overloadCommand l with queue := [], resetMark := true }) (dequeued rest s) = _
  simp only [foldl_overloadCommand]
  rfl

/-- Settles O58. -/
theorem grantsUnknownsAndResets : Obligations.GrantsUnknownsAndResets := by
  intro s tag rest
  refine ⟨fun hi lo ho => ?_, fun body hr hreply hmark hqueue hk => ?_, fun b ho => ?_⟩
  · exact hostCommand_replied ho ((withLength_of_eq rfl).trans (grantCredits_eq hi lo _))
  · have hnone : commandNames ⟨tag, body⟩ = none := commandNames_eq_none hk
    have hnext : nextCommand s = some (⟨tag, body⟩, rest) := by simp [nextCommand, hreply, hmark, hqueue]
    show execUnknown s = _
    rw [execUnknown, running_next _ _ hr, executeCommand, hnext]
    simp only [hnone, beq_self_eq_true, if_true]
    rfl
  · have hexec : exec .rset s = .next (onLink (fun l => { l with reply := some ⟨tag, keywordBytes .rset, .ok, []⟩ })
        (onLink awaitReset (dequeued rest s))) :=
      hostCommand_executed (f := withLength 1 fun _ s => done [] (onLink awaitReset s)) ho (if_pos rfl)
    rw [awaitReset_dequeued] at hexec
    exact hexec

end Sys2Proof.Proofs
end

