-- ==== Sys2Proof/Proofs/TableCommands.lean ====
section
/-! PROOF. The commands that load and read the blade table and the map, and that read counters (R58 to R60, R97 to R99,
R174). -/

open Sys2Proof Sys2Proof.Machine

namespace Sys2Proof.Proofs

/-! ## Fields of several entries, and signed fields -/

/-- The entries of a list that are each `n` bytes long stand at the multiples of `n`. -/
theorem bytesAt_flatMap {α : Type} {f : α → List Byte} {n : Nat} {xs : List α} {i : Nat} {x : α}
    (hf : ∀ y ∈ xs, (f y).length = n) (hx : xs[i]? = some x) : bytesAt (xs.flatMap f) (n * i) n = f x := by
  induction xs generalizing i with
  | nil => cases hx
  | cons y ys ih =>
    have hy : (f y).length = n := hf y List.mem_cons_self
    rw [List.flatMap_cons]
    cases i with
    | zero =>
      obtain rfl : y = x := Option.some.inj hx
      rw [bytesAt_append_of_ge (by omega), Nat.mul_zero, ← hy, bytesAt_all]
    | succ i =>
      rw [bytesAt_append_of_le (by rw [hy, Nat.mul_succ]; omega), hy, Nat.mul_succ, Nat.add_sub_cancel]
      exact ih (fun z hz => hf z (List.mem_cons_of_mem _ hz)) hx

theorem length_flatMap_of_eq {α : Type} {f : α → List Byte} {n : Nat} {xs : List α}
    (hf : ∀ y ∈ xs, (f y).length = n) : (xs.flatMap f).length = n * xs.length := by
  induction xs with
  | nil => rfl
  | cons y ys ih =>
    rw [List.flatMap_cons, List.length_append, hf y List.mem_cons_self, ih fun z hz => hf z (List.mem_cons_of_mem _ hz),
      List.length_cons, Nat.mul_succ, Nat.add_comm]

theorem length_intBytes (n : Nat) (v : Int) : (intBytes n v).length = n := length_natBytes _ _

theorem beInt_intBytes_two {v : Int} (hlo : -32768 ≤ v) (hhi : v ≤ 32767) : beInt (intBytes 2 v) = v := by
  rw [beInt, length_intBytes, intBytes, beNat_natBytes, BitVec.toInt_eq_toNat_bmod, BitVec.toNat_ofNat, Int.bmod]
  norm_num
  omega

theorem natAt_natBytes_append (n v : Nat) (bs : List Byte) : natAt (natBytes n v ++ bs) 0 n = v % 256 ^ n := by
  rw [natAt_append_of_ge (by rw [length_natBytes]; omega), natAt_natBytes]

theorem natBytes_append_ne_nil (n v : Nat) (bs : List Byte) : natBytes (n + 1) v ++ bs ≠ [] := List.cons_ne_nil _ _

theorem drop_natBytes (n v : Nat) (bs : List Byte) : (natBytes n v ++ bs).drop n = bs := by
  rw [List.drop_append_of_le_length (length_natBytes n v).ge, List.drop_eq_nil_of_le (length_natBytes n v).le,
    List.nil_append]

section
variable {s : State} {tag : Byte} {rest : List HostCommand}

/-! ## BTRD (R60) -/

theorem length_entryBytes (i : Nat) (e : BladeEntry) : (entryBytes i e).length = 28 := by
  delta entryBytes
  simp only [List.length_append, length_natBytes, length_intBytes]

theorem length_tableHead (b : BladeTable) (n : Nat) : (tableHead b n).length = 9 := by
  simp only [tableHead, List.length_append, length_natBytes]

theorem natAt_tableHead (b : BladeTable) (n : Nat) :
    natAt (tableHead b n) 0 1 = b.entries.length % 256 ∧ natAt (tableHead b n) 1 2 = b.gen.toNat % 65536 ∧
    natAt (tableHead b n) 3 2 = (previousGen b).toNat % 65536 ∧ natAt (tableHead b n) 5 3 = b.params.limit % 16777216 ∧
    natAt (tableHead b n) 8 1 = n % 256 := by
  delta tableHead
  simp only [List.append_assoc]
  refine ⟨?_, ?_, ?_, ?_, ?_⟩ <;>
    simp only [natAt_append_of_le, natAt_append_of_ge, natAt_natBytes, length_natBytes, Nat.reduceAdd,
      Nat.reduceLeDiff, Nat.reduceSub, Nat.reducePow, le_refl]

theorem getElem?_entriesFrom {first count i : Nat} {es : List BladeEntry} (hi : i < min count (es.length - first)) :
    ∃ e, es[first + i]? = some e ∧ (entriesFrom first count es)[i]? = some (e, first + i) := by
  obtain ⟨hcount, hsize⟩ := Nat.lt_min.1 hi
  refine ⟨es[first + i], List.getElem?_eq_getElem _, ?_⟩
  rw [entriesFrom, List.getElem?_take_of_lt hcount, List.getElem?_drop, List.getElem?_zipIdx,
    List.getElem?_eq_getElem (by omega), Option.map_some, Nat.zero_add]

theorem length_entriesFrom (first count : Nat) (es : List BladeEntry) :
    (entriesFrom first count es).length = min count (es.length - first) := by
  rw [entriesFrom, List.length_take, List.length_drop, List.length_zipIdx]

/-- What a BTRD reads from an index of the table. -/
def bladesRead (first count : Nat) (b : BladeTable) : List Byte :=
  tableHead b (entriesFrom first count b.entries).length ++
    (entriesFrom first count b.entries).flatMap fun p => entryBytes p.2 p.1

theorem readBlades_beyond {first count : Byte} (h : s.bt.entries.length ≤ first.toNat) :
    readBlades [first, count] s = refuse .invalid s := by
  simp only [readBlades, natAt_zero_one]
  exact if_neg (Nat.not_lt.2 h)

theorem readBlades_within {first count : Byte} (h : first.toNat < s.bt.entries.length) :
    readBlades [first, count] s = doneWith (clampNat 1 64 count.toNat != count.toNat)
      (bladesRead first.toNat (clampNat 1 64 count.toNat) s.bt) s := by
  simp only [readBlades, natAt_cons_succ, natAt_zero_one]
  exact if_pos h

theorem exec_btrd_within {first count : Byte} (ho : Offered .btrd tag [first, count] rest s)
    (h : first.toNat < s.bt.entries.length) :
    exec .btrd s = .next (replied .btrd tag (if clampNat 1 64 count.toNat = count.toNat then .ok else .clamped)
      (bladesRead first.toNat (clampNat 1 64 count.toNat) s.bt) rest s) := by
  refine hostCommand_replied ho ((withLength_of_eq rfl).trans ((readBlades_within (s := dequeued rest s) h).trans ?_))
  by_cases hc : clampNat 1 64 count.toNat = count.toNat
  · rw [if_pos hc, bne_eq_false_iff_eq.2 hc]
    rfl
  · rw [if_neg hc, bne_iff_ne.2 hc]
    rfl

theorem bladesRead_reads {first count : Nat} {b : BladeTable} (hcount : count ≤ 64) (hsize : b.entries.length ≤ 128)
    (hlimit : b.params.limit ≤ 1048576) :
    let n := min count (b.entries.length - first)
    let d := bladesRead first count b
    d.length = 9 + 28 * n ∧ natAt d 0 1 = b.entries.length ∧ natAt d 1 2 = b.gen.toNat ∧
      natAt d 3 2 = (b.gen - 1).toNat ∧ natAt d 5 3 = b.params.limit ∧ natAt d 8 1 = n ∧
      ∀ i < n, ∃ e : BladeEntry, b.entries[first + i]? = some e ∧
        bytesAt d (9 + 28 * i) 28 = entryBytes (first + i) e := by
  intro n d
  have hn : (entriesFrom first count b.entries).length = n := length_entriesFrom _ _ _
  have hd : d = tableHead b n ++ (entriesFrom first count b.entries).flatMap fun p => entryBytes p.2 p.1 := by
    rw [← hn]; rfl
  have hlen : (tableHead b n).length = 9 := length_tableHead b n
  have hentries : ∀ p ∈ entriesFrom first count b.entries, (entryBytes p.2 p.1).length = 28 :=
    fun p _ => length_entryBytes _ _
  obtain ⟨h0, h1, h3, h5, h8⟩ := natAt_tableHead b n
  have hgen := b.gen.isLt
  have hprevious := (previousGen b).isLt
  rw [hd]
  refine ⟨?_, ?_, ?_, ?_, ?_, ?_, fun i hi => ?_⟩
  · rw [List.length_append, hlen, length_flatMap_of_eq hentries, hn]
  · rw [natAt_append_of_ge (by omega), h0, Nat.mod_eq_of_lt (by omega)]
  · rw [natAt_append_of_ge (by omega), h1, Nat.mod_eq_of_lt hgen]
  · rw [natAt_append_of_ge (by omega), h3, Nat.mod_eq_of_lt hprevious]
    rfl
  · rw [natAt_append_of_ge (by omega), h5, Nat.mod_eq_of_lt (by omega)]
  · rw [natAt_append_of_ge (by omega), h8, Nat.mod_eq_of_lt (by omega)]
  · obtain ⟨e, he, hp⟩ := getElem?_entriesFrom hi
    refine ⟨e, he, ?_⟩
    rw [bytesAt_append_of_le (by omega), hlen, Nat.add_sub_cancel_left, bytesAt_flatMap hentries hp]

/-! ## MPRD (R99) -/

theorem length_bins (bins : Vector Int 256) : (bins.toList.flatMap (intBytes 2)).length = 512 := by
  rw [length_flatMap_of_eq fun _ _ => length_intBytes 2 _, Vector.length_toList]

theorem intAt_bins {bins : Vector Int 256} (k : Fin 256) (hlo : -32768 ≤ bins[k]) (hhi : bins[k] ≤ 32767) :
    intAt (bins.toList.flatMap (intBytes 2)) (2 * k.val) 2 = bins[k] := by
  have hk : bins.toList[k.val]? = some bins[k] := by
    rw [Vector.getElem?_toList]
    exact Vector.getElem?_eq_getElem k.isLt
  rw [intAt, bytesAt_flatMap (fun _ _ => length_intBytes 2 _) hk, beInt_intBytes_two hlo hhi]

theorem mapBytes_reads (m : RunoutMap) :
    (mapBytes m).length = 519 ∧ natAt (mapBytes m) 0 1 = mapStateCode m.state ∧
      natAt (mapBytes m) 1 4 = m.radius % 4294967296 ∧ natAt (mapBytes m) 5 2 = m.gen.toNat ∧
      ∀ k : Fin 256, -32768 ≤ m.bins[k] → m.bins[k] ≤ 32767 → intAt (mapBytes m) (7 + 2 * k.val) 2 = m.bins[k] := by
  have hstate : mapStateCode m.state % 256 = mapStateCode m.state := by cases m.state <;> rfl
  have hgen : m.gen.toNat % 65536 = m.gen.toNat := Nat.mod_eq_of_lt m.gen.isLt
  delta mapBytes
  simp only [List.append_assoc]
  refine ⟨?_, ?_, ?_, ?_, fun k hlo hhi => ?_⟩
  · simp only [List.length_append, length_natBytes, length_bins]
  · exact (natAt_natBytes_append _ _ _).trans hstate
  · simp only [natAt_append_of_le, natAt_append_of_ge, natAt_natBytes, length_natBytes, Nat.reduceAdd,
      Nat.reduceSub, Nat.reducePow, le_refl]
  · simp only [natAt_append_of_le, natAt_append_of_ge, natAt_natBytes, length_natBytes, Nat.reduceAdd,
      Nat.reduceLeDiff, Nat.reduceSub, Nat.reducePow, le_refl, hgen]
  · rw [intAt, bytesAt_append_of_le (by rw [length_natBytes]; omega), bytesAt_append_of_le (by simp only [length_natBytes]; omega),
      bytesAt_append_of_le (by simp only [length_natBytes]; omega)]
    simp only [length_natBytes]
    rw [show 7 + 2 * k.val - 1 - 4 - 2 = 2 * k.val by omega]
    exact intAt_bins k hlo hhi

/-! ## CNTR (R174) -/

theorem readCounters_some {set n clear : Byte} {c : CounterSet} (h : counterSetOf set.toNat n.toNat = some c) :
    readCounters [set, n, clear] s =
      done ((counterValues c s).flatMap (natBytes 4)) (if clear = 0 then s else clearCounters c s) := by
  have hclear : clear.toNat = 0 ↔ clear = 0 := ⟨fun e => BitVec.eq_of_toNat_eq e, fun e => e ▸ rfl⟩
  simp only [readCounters, natAt_cons_succ, natAt_zero_one, h, hclear]

theorem readCounters_none {set n clear : Byte} (h : counterSetOf set.toNat n.toNat = none) :
    readCounters [set, n, clear] s = refuse .invalid s := by
  simp only [readCounters, natAt_cons_succ, natAt_zero_one, h]

/-- The counter sets keep out of the queue that a command leaves. -/
theorem counterValues_dequeued (c : CounterSet) : counterValues c (dequeued rest s) = counterValues c s := by
  cases c <;> rfl

theorem clearCounters_dequeued (c : CounterSet) :
    clearCounters c (dequeued rest s) = dequeued rest (clearCounters c s) := by
  cases c <;> rfl

theorem exec_cntr_some {set n clear : Byte} {c : CounterSet} (ho : Offered .cntr tag [set, n, clear] rest s)
    (h : counterSetOf set.toNat n.toNat = some c) :
    exec .cntr s = .next (replied .cntr tag .ok ((counterValues c s).flatMap (natBytes 4)) rest
      (if clear = 0 then s else clearCounters c s)) := by
  refine hostCommand_replied ho ((withLength_of_eq rfl).trans ((readCounters_some (s := dequeued rest s) h).trans ?_))
  rw [counterValues_dequeued, clearCounters_dequeued, ← apply_ite (dequeued rest)]
  rfl

theorem counterSetOf_head {set n : Byte} {h : Head} (hset : set = 0) (hn : n.toNat = headNum h) :
    counterSetOf set.toNat n.toNat = some (.head h) := by
  rw [hset, hn]
  cases h <;> rfl

theorem counterSetOf_eq_none {set n : Byte} (h : 4 < set.toNat ∨ set = 0 ∧ 3 < n.toNat) :
    counterSetOf set.toNat n.toNat = none := by
  rcases h with hset | ⟨rfl, hn⟩
  · obtain ⟨k, hk⟩ := Nat.exists_eq_add_of_lt hset
    rw [hk, show 4 + k + 1 = k + 5 by omega]
    rfl
  · show (headOfNat n.toNat).map CounterSet.head = none
    rw [headOfNat_eq_none hn]
    rfl

end

/-- Settles O54: each reply is read item by item at its offset. -/
theorem tablesAndCountersAreRead : Obligations.TablesAndCountersAreRead := by
  intro s tag rest
  refine ⟨fun first count ho => ⟨fun h => ?_, fun h hsize hlimit => ?_⟩, fun b ho => ?_, fun set n clear ho => ?_⟩
  · exact hostCommand_replied ho ((withLength_of_eq rfl).trans (readBlades_beyond h))
  · exact ⟨_, exec_btrd_within ho h, bladesRead_reads (by rw [clampNat]; omega) hsize hlimit⟩
  · exact ⟨_, hostCommand_replied (f := withLength 1 fun _ s => done (mapBytes s.rm) s) ho (if_pos rfl), mapBytes_reads s.rm⟩
  · have hread {c : CounterSet} (h : counterSetOf set.toNat n.toNat = some c) := exec_cntr_some ho h
    refine ⟨fun h hset hn => hread (counterSetOf_head hset hn), ?_, ?_, ?_, ?_, fun h => ?_⟩
    · rintro rfl
      exact hread (c := .encoder) rfl
    · rintro rfl
      exact hread (c := .fault) rfl
    · rintro rfl
      exact hread (c := .store) rfl
    · rintro rfl
      exact hread (c := .link) rfl
    · exact hostCommand_replied ho ((withLength_of_eq rfl).trans (readCounters_none (counterSetOf_eq_none h)))

/-! ## BTLD (R58, R59) -/

/-- The bytes of an entry of a BTLD (13.4). -/
def loadBytes (l : BladeLoad) : List Byte := natBytes 2 l.id ++ natBytes 4 l.nominal ++ natBytes 3 l.width

theorem length_loadBytes (l : BladeLoad) : (loadBytes l).length = 9 := by
  simp only [loadBytes, List.length_append, length_natBytes]

theorem readLoads_loadBytes {ls : List BladeLoad}
    (h : ∀ l ∈ ls, l.id < 65536 ∧ l.nominal < 4294967296 ∧ l.width < 16777216) :
    readLoads ls.length (ls.flatMap loadBytes) = ls := by
  induction ls with
  | nil => rfl
  | cons l ls ih =>
    obtain ⟨hid, hnominal, hwidth⟩ := h l List.mem_cons_self
    have hrest : (loadBytes l ++ ls.flatMap loadBytes).drop 9 = ls.flatMap loadBytes := by
      rw [← length_loadBytes l, List.drop_left]
    rw [List.length_cons, readLoads, List.flatMap_cons, hrest, ih fun m hm => h m (List.mem_cons_of_mem _ hm)]
    simp only [loadBytes, List.append_assoc, natAt_append_of_le, natAt_append_of_ge, natAt_natBytes, length_natBytes,
      Nat.reduceAdd, Nat.reduceLeDiff, Nat.reduceSub, Nat.reducePow, le_refl, Nat.mod_eq_of_lt hid,
      Nat.mod_eq_of_lt hnominal, Nat.mod_eq_of_lt hwidth]

theorem windowOf_loadedEntry (l : BladeLoad) :
    windowOf (loadedEntry l) = ⟨BitVec.ofNat 16 l.id, BitVec.ofNat 24 l.nominal, l.width, false⟩ := by
  have hstart : trackedStart (loadedEntry l) 0 = BitVec.ofNat 24 l.nominal := by
    rw [trackedStart, show BitVec.ofInt 24 0 = 0#24 from rfl, BitVec.add_zero]
    rfl
  exact congrArg (fun a => (⟨BitVec.ofNat 16 l.id, a, l.width, false⟩ : Window)) hstart

theorem windows_loadTable (ls : List BladeLoad) : (ls.map loadedEntry).map windowOf =
    ls.map fun l => (⟨BitVec.ofNat 16 l.id, BitVec.ofNat 24 l.nominal, l.width, false⟩ : Window) := by
  rw [List.map_map]
  exact List.map_congr_left fun l _ => windowOf_loadedEntry l

section
variable {s : State}

theorem whenIdle_of_idle {f : State → Executed} (h : s.spe.state = .idle) : whenIdle f s = f s := if_pos h

theorem whenIdle_of_ne {f : State → Executed} (h : s.spe.state ≠ .idle) : whenIdle f s = refuse .locked s := if_neg h

theorem loadBlades_idle {args : List Byte} {ls : List BladeLoad} (hidle : s.spe.state = .idle)
    (hls : readLoads (natAt args 0 1) (args.drop 1) = ls) :
    loadBlades args s = if loadsOk ls then done (natBytes 2 (s.bt.gen + 1).toNat) { s with bt := loadTable ls s.bt }
      else refuse .invalid s := by
  rw [loadBlades, whenIdle_of_idle hidle]
  simp only [hls]
  rfl

/-! ## MPLD and MPCL (R97, R98) -/

theorem readBins_bins {bins : Vector Int 256} (h : ∀ k : Fin 256, -32768 ≤ bins[k] ∧ bins[k] ≤ 32767) :
    readBins (bins.toList.flatMap (intBytes 2)) = bins := by
  refine Vector.ext fun k hk => ?_
  rw [readBins, Vector.getElem_ofFn]
  exact intAt_bins ⟨k, hk⟩ (h ⟨k, hk⟩).1 (h ⟨k, hk⟩).2

theorem loadRunout_idle {args : List Byte} {r : Nat} {bins : Vector Int 256} (hidle : s.spe.state = .idle)
    (hr : natAt args 0 4 = r) (hbins : readBins (args.drop 4) = bins) :
    loadRunout args s = if 1 ≤ r ∧ r ≤ 8000000 then
      done (natBytes 2 (s.rm.gen + 1).toNat) { s with rm := loadMap r bins s.rm } else refuse .invalid s := by
  rw [loadRunout, whenIdle_of_idle hidle]
  simp only [hr, hbins]
  rfl

end

/-- Settles O57: the loaded entries are read back from their bytes and tested one by one. -/
theorem tablesAreLoadedInIdle : Obligations.TablesAreLoadedInIdle := by
  intro s tag rest
  refine ⟨fun ls hlen hrange ho => ?_, fun r bins hr hbins ho => ?_, fun b ho => ⟨fun hbusy => ?_, fun hidle => ?_⟩⟩
  · obtain ⟨args, hargs⟩ : ∃ args, args = natBytes 1 ls.length ++ ls.flatMap loadBytes := ⟨_, rfl⟩
    have hcount : natAt args 0 1 = ls.length := by
      rw [hargs]
      exact (natAt_natBytes_append _ _ _).trans (Nat.mod_eq_of_lt hlen)
    have hread : readLoads (natAt args 0 1) (args.drop 1) = ls := by
      rw [hcount, hargs, drop_natBytes, readLoads_loadBytes hrange]
    have hlength : args.length = 1 + 9 * natAt args 0 1 := by
      rw [hcount, hargs, List.length_append, length_natBytes, length_flatMap_of_eq fun l _ => length_loadBytes l]
    have hne : args ≠ [] := hargs ▸ natBytes_append_ne_nil 0 _ _
    have hload {st : Status} {d : List Byte} {t : State} (hf : loadBlades args (dequeued rest s) = ⟨st, d, dequeued rest t⟩) :
        exec .btld s = .next (replied .btld tag st d rest t) :=
      hostCommand_replied (hargs ▸ ho : Offered .btld tag args rest s) ((withCount_of_eq hne hlength).trans hf)
    refine ⟨fun hbusy => hload (whenIdle_of_ne hbusy), fun hidle hbad => hload ?_, fun hidle hok => hload ?_⟩
    · rw [loadBlades_idle (s := dequeued rest s) hidle hread, if_neg (mt loadsOk_iff.1 hbad)]
      rfl
    · rw [loadBlades_idle (s := dequeued rest s) hidle hread, if_pos (loadsOk_iff.2 hok), loadTable, windows_loadTable]
      rfl
  · obtain ⟨args, hargs⟩ : ∃ args, args = natBytes 4 r ++ bins.toList.flatMap (intBytes 2) := ⟨_, rfl⟩
    have hradius : natAt args 0 4 = r := by
      rw [hargs]
      exact (natAt_natBytes_append _ _ _).trans (Nat.mod_eq_of_lt hr)
    have hread : readBins (args.drop 4) = bins := by rw [hargs, drop_natBytes, readBins_bins hbins]
    have hlength : args.length = 516 := by rw [hargs, List.length_append, length_natBytes, length_bins]
    have hload {st : Status} {d : List Byte} {t : State} (hf : loadRunout args (dequeued rest s) = ⟨st, d, dequeued rest t⟩) :
        exec .mpld s = .next (replied .mpld tag st d rest t) :=
      hostCommand_replied (hargs ▸ ho : Offered .mpld tag args rest s) ((withLength_of_eq hlength).trans hf)
    refine ⟨fun hbusy => hload (whenIdle_of_ne hbusy), fun hidle hbad => hload ?_, fun hidle hlo hhi => hload ?_⟩
    · rw [loadRunout_idle (s := dequeued rest s) hidle hradius hread, if_neg (by omega)]
      rfl
    · rw [loadRunout_idle (s := dequeued rest s) hidle hradius hread, if_pos ⟨hlo, hhi⟩]
      rfl
  · exact hostCommand_replied (f := withLength 1 fun _ s => clearRunout s) ho
      ((if_pos rfl : _ = clearRunout (dequeued rest s)).trans (whenIdle_of_ne hbusy))
  · exact hostCommand_replied (f := withLength 1 fun _ s => clearRunout s) ho
      ((if_pos rfl : _ = clearRunout (dequeued rest s)).trans (whenIdle_of_idle hidle))

end Sys2Proof.Proofs
end

