-- ==== Sys2Proof/Proofs/Lines.lean ====
section
/-! PROOF. The auxiliary lines as the host assigns, writes and reads them (R181, R185, R186). -/

open Sys2Proof Sys2Proof.Machine

namespace Sys2Proof.Proofs

/-! ## Eight levels in a byte (13.4) -/

theorem sum_bits_eq_ofBits (p : Fin 8 → Bool) :
    (List.finRange 8).foldl (fun v i => v + (if p i then 2 ^ i.val else 0)) 0 = Nat.ofBits p := by
  have hbit (b : Bool) (n : Nat) : (if b then n else 0) = b.toNat * n := by cases b <;> simp
  simp only [hbit, Nat.ofBits_succ, Nat.ofBits_zero, List.finRange_succ, List.finRange_zero, List.map_cons,
    List.map_nil, List.foldl_cons, List.foldl_nil, Function.comp_apply, Fin.val_succ, Fin.val_zero]
  ring

theorem lineLevels_eq (s : State) : lineLevels s = Nat.ofBits fun i => lineHigh i s :=
  sum_bits_eq_ofBits fun i => lineHigh i s

theorem levelBits_eq (g : Vector Bool 8) : levelBits g = Nat.ofBits fun i : Fin 8 => g[i] :=
  sum_bits_eq_ofBits fun i => g[i]

theorem testBit_lineLevels (s : State) (i : Fin 8) : (lineLevels s).testBit i.val = lineHigh i s := by
  rw [lineLevels_eq, Nat.testBit_ofBits_lt _ _ i.isLt]

theorem lineLevels_lt (s : State) : lineLevels s < 256 := lineLevels_eq s ▸ Nat.ofBits_lt_two_pow _

theorem testBit_levelBits (g : Vector Bool 8) (i : Fin 8) : (levelBits g).testBit i.val = g[i] := by
  rw [levelBits_eq, Nat.testBit_ofBits_lt _ _ i.isLt]

theorem getLsbD_byte (n : Nat) (i : Fin 8) : (BitVec.ofNat 8 n).getLsbD i.val = n.testBit i.val := by
  rw [BitVec.getLsbD_ofNat, decide_eq_true i.isLt, Bool.true_and]

/-! ## AXAS (R181) -/

theorem lineOfNat_val (i : Fin 8) : lineOfNat i.val = some i := dif_pos i.isLt

theorem auxFunctions_code (f : AuxFunction) : auxFunctions[auxFunctionCode f]? = some f := by
  cases f <;> rfl

theorem polarityOf_byte {p : Byte} (h : p.toNat < 2) : polarityOf p.toNat = some (p == 1) ∧ boolByte (p == 1) = [p] := by
  obtain rfl | rfl : p = 0 ∨ p = 1 := by bv_omega
  · exact ⟨rfl, rfl⟩
  · exact ⟨rfl, rfl⟩

section
variable {s : State}

theorem assignLine_invalid {n f p : Byte} (h : 8 ≤ n.toNat ∨ 16 ≤ f.toNat ∨ 2 ≤ p.toNat) :
    assignLine [n, f, p] s = refuse .invalid s := by
  simp only [assignLine, natAt_cons_succ, natAt_zero_one]
  rcases h with hn | hf | hp
  · rw [lineOfNat, dif_neg (Nat.not_lt.2 hn)]
  · rw [List.getElem?_eq_none hf]
    cases lineOfNat n.toNat <;> rfl
  · obtain ⟨k, hk⟩ := Nat.exists_eq_add_of_le hp
    rw [hk, show polarityOf (2 + k) = none by rw [Nat.add_comm]; rfl]
    cases lineOfNat n.toNat <;> cases auxFunctions[f.toNat]? <;> rfl

/-- The state with line `i` assigned to a function and a polarity. -/
def lineAssigned (i : Fin 8) (f : AuxFunction) (low : Bool) (s : State) : State :=
  onLine i (fun l => { l with function := f, activeLow := low }) s

theorem lineBytes_assigned {i : Fin 8} {f : AuxFunction} {low : Bool} :
    lineBytes i (lineAssigned i f low s) = [BitVec.ofNat 8 i.val] ++ [BitVec.ofNat 8 (auxFunctionCode f)] ++ boolByte low ++
      boolByte (lineHigh i (lineAssigned i f low s)) := by
  have hline : (lineAssigned i f low s).ax.lines[i] = { s.ax.lines[i] with function := f, activeLow := low } :=
    Vector.getElem_set_self _
  rw [lineBytes, hline, natBytes_one, natBytes_one]

theorem assignLine_outside_settling {n c p : Byte} {i : Fin 8} {f : AuxFunction} (hn : n.toNat = i.val)
    (hc : c.toNat = auxFunctionCode f) (hp : p.toNat < 2) (hs : s.spe.state ≠ .settling) :
    assignLine [n, c, p] s = done [n, c, p, if lineHigh i (lineAssigned i f (p == 1) s) then 1 else 0]
      (lineAssigned i f (p == 1) s) := by
  obtain ⟨hlow, hbyte⟩ := polarityOf_byte hp
  have hsettle : settleTest (lineAssigned i f (p == 1) s) = lineAssigned i f (p == 1) s := settleTest_of_not_settling hs
  have hlev (b : Byte) : BitVec.ofNat 8 b.toNat = b := by rw [BitVec.ofNat_toNat, BitVec.setWidth_eq]
  simp only [assignLine, natAt_cons_succ, natAt_zero_one, hn, hc, lineOfNat_val, auxFunctions_code, hlow]
  show done (lineBytes i (settleTest (lineAssigned i f (p == 1) s))) (settleTest (lineAssigned i f (p == 1) s)) = _
  rw [hsettle, lineBytes_assigned, hbyte, ← hn, ← hc, hlev, hlev]
  rfl

end

/-- Settles O59. -/
theorem linesAreAssignedAndWritten : Obligations.LinesAreAssignedAndWritten := by
  intro s tag rest
  refine ⟨fun n f p ho => ⟨fun h => ?_, fun i fn hn hf hp hs => ?_⟩, fun mask levels ho => ?_⟩
  · exact hostCommand_replied ho ((withLength_of_eq rfl).trans (assignLine_invalid h))
  · exact hostCommand_replied ho ((withLength_of_eq rfl).trans (assignLine_outside_settling hn hf hp hs))
  · intro general t
    refine ⟨BitVec.ofNat 8 (levelBits general), BitVec.ofNat 8 (lineLevels t), ?_, fun i => ⟨?_, ?_⟩⟩
    · refine hostCommand_replied ho ((withLength_of_eq rfl).trans ?_)
      simp only [writeGeneral, natAt_cons_succ, natAt_zero_one, natBytes_one]
      rfl
    · rw [getLsbD_byte, testBit_levelBits]
    · rw [getLsbD_byte, testBit_lineLevels]

end Sys2Proof.Proofs
end

