-- ==== Sys2Proof/Proofs/Stat.lean ====
section
/-! PROOF. STAT: each item of the state at its place in the reply (R151, R171, 13.5). -/

open Sys2Proof Sys2Proof.Machine

namespace Sys2Proof.Proofs

/-! ## Small fields -/

@[simp] theorem length_interjectionBytes (i : Interjection) : (interjectionBytes i).length = 2 := by
  cases i <;> rfl

theorem natAt_interjectionBytes (i : Interjection) :
    natAt (interjectionBytes i) 0 1 = (match i with
      | .none => 0
      | .pending _ => 1
      | .running => 2) ∧
    natAt (interjectionBytes i) 1 1 = (match i with
      | .pending slot => slot.val
      | _ => 255) := by
  cases i with
  | none => exact ⟨rfl, rfl⟩
  | running => exact ⟨rfl, rfl⟩
  | pending slot =>
    refine ⟨rfl, ?_⟩
    rw [interjectionBytes, natAt_append_of_le (length_natBytes 1 1).le, length_natBytes]
    exact natAt_slotByte (some slot)

@[simp] theorem length_headByte (h : Option Head) : (headByte h).length = 1 := by
  cases h with
  | none => rfl
  | some h => exact length_natBytes 1 _

theorem natAt_headByte (h : Option Head) : natAt (headByte h) 0 1 = h.elim 255 headNum := by
  cases h with
  | none => rfl
  | some h => cases h <;> rfl

theorem radius_le (s : State) : radius s ≤ 8000000 := by
  rw [radius, clampInt]
  omega

/-! ## The part that both forms share -/

theorem length_statBytes (s : State) : (statBytes s).length = 31 := by
  simp only [statBytes, List.length_append, length_natBytes, length_slotByte, length_interjectionBytes, length_boolByte]

theorem natAt_statBytes (s : State) :
    natAt (statBytes s) 0 1 = planCode s.spe.state % 256 ∧
    natAt (statBytes s) 1 1 = (s.spe.active.map (·.slot)).elim 255 (·.val) ∧
    natAt (statBytes s) 2 2 = s.spe.active.elim 0 (·.step.tag.toNat) % 65536 ∧
    natAt (statBytes s) 4 1 = s.spe.pass % 256 ∧
    natAt (statBytes s) 5 1 = natAt (interjectionBytes s.spe.interjection) 0 1 ∧
    natAt (statBytes s) 6 1 = natAt (interjectionBytes s.spe.interjection) 1 1 ∧
    natAt (statBytes s) 7 1 = s.eu.referenced.toNat ∧ natAt (statBytes s) 8 4 = s.eu.count % 4294967296 ∧
    natAt (statBytes s) 12 4 = s.eu.revTime % 4294967296 ∧ natAt (statBytes s) 16 4 = radius s % 4294967296 ∧
    natAt (statBytes s) 20 2 = s.rs.credits % 65536 ∧ natAt (statBytes s) 22 2 = s.rs.frames.length % 65536 ∧
    natAt (statBytes s) 24 1 = s.rs.starved.toNat ∧ natAt (statBytes s) 25 1 = s.lp.notices.length % 256 ∧
    natAt (statBytes s) 26 4 = s.lp.counters.noticesLost % 4294967296 ∧
    natAt (statBytes s) 30 1 = lineLevels s % 256 := by
  delta statBytes
  simp only [List.append_assoc]
  refine ⟨?_, ?_, ?_, ?_, ?_, ?_, ?_, ?_, ?_, ?_, ?_, ?_, ?_, ?_, ?_, ?_⟩ <;>
    simp only [natAt_append_of_le, natAt_append_of_ge, natAt_natBytes, natAt_boolByte, natAt_slotByte,
      length_natBytes, length_boolByte, length_slotByte, length_interjectionBytes, Nat.reduceAdd, Nat.reduceLeDiff,
      Nat.reduceSub, Nat.reducePow, le_refl]

/-! ## What the fault form adds -/

theorem length_counterBytes (v : Vector Nat 8) : (v.toList.flatMap (natBytes 4)).length = 32 := by
  rw [length_flatMap_of_eq fun _ _ => length_natBytes 4 _, Vector.length_toList]

theorem natAt_counterBytes (v : Vector Nat 8) (i : Fin 8) :
    natAt (v.toList.flatMap (natBytes 4)) (4 * i.val) 4 = v[i] % 4294967296 := by
  have hi : v.toList[i.val]? = some v[i] := by
    rw [Vector.getElem?_toList]
    exact Vector.getElem?_eq_getElem i.isLt
  rw [natAt, bytesAt_flatMap (fun _ _ => length_natBytes 4 _) hi, beNat_natBytes]
  rfl

theorem length_latchBytes (r : FaultRecord) (s : State) : (latchBytes r s).length = 47 := by
  simp only [latchBytes, List.length_append, length_natBytes, length_headByte, length_boolByte, length_counterBytes]

theorem natAt_latchBytes (r : FaultRecord) (s : State) :
    natAt (latchBytes r s) 0 1 = (classIndex r.cls).val % 256 ∧ natAt (latchBytes r s) 1 1 = r.head.elim 255 headNum ∧
    natAt (latchBytes r s) 2 2 = r.tag.toNat % 65536 ∧ natAt (latchBytes r s) 4 1 = r.pass % 256 ∧
    natAt (latchBytes r s) 5 4 = r.tick.toNat % 4294967296 ∧ natAt (latchBytes r s) 9 1 = policyCode r.policy % 256 ∧
    natAt (latchBytes r s) 10 1 = r.taken.toNat ∧ natAt (latchBytes r s) 11 4 = s.spe.secondary % 4294967296 := by
  delta latchBytes
  simp only [List.append_assoc]
  refine ⟨?_, ?_, ?_, ?_, ?_, ?_, ?_, ?_⟩ <;>
    simp only [natAt_append_of_le, natAt_append_of_ge, natAt_natBytes, natAt_boolByte, natAt_headByte,
      length_natBytes, length_boolByte, length_headByte, Nat.reduceAdd, Nat.reduceLeDiff, Nat.reduceSub,
      Nat.reducePow, le_refl]

theorem natAt_latchBytes_counter (r : FaultRecord) (s : State) (i : Fin 8) :
    natAt (latchBytes r s) (15 + 4 * i.val) 4 = s.spe.faultCounters[i] % 4294967296 := by
  delta latchBytes
  rw [natAt_append_of_le]
  · simp only [List.length_append, length_natBytes, length_headByte, length_boolByte, Nat.reduceAdd,
      Nat.add_sub_cancel_left]
    exact natAt_counterBytes _ i
  · simp only [List.length_append, length_natBytes, length_headByte, length_boolByte]
    omega

/-! ## The reply -/

/-- The form byte of the reply and what it adds to the shared part. -/
theorem statReply_eq (s : State) : ∃ form extra, statReply s = natBytes 1 form ++ (statBytes s ++ extra) ∧
    (s.spe.latch = none → form = 0 ∧ extra = []) ∧
    ∀ r, s.spe.latch = some r → form = 1 ∧ extra = latchBytes r s := by
  unfold statReply
  cases h : s.spe.latch with
  | none => exact ⟨0, [], by rw [List.append_nil], fun _ => ⟨rfl, rfl⟩, fun r hr => nomatch hr⟩
  | some r =>
    refine ⟨1, latchBytes r s, List.append_assoc _ _ _, fun hr => (nomatch hr), fun q hq => ?_⟩
    cases hq
    exact ⟨rfl, rfl⟩

theorem natAt_form_add (form : Nat) (xs ys : List Byte) {off len : Nat} (h : off + len ≤ xs.length) :
    natAt (natBytes 1 form ++ (xs ++ ys)) (off + 1) len = natAt xs off len := by
  rw [natAt_append_of_le (by rw [length_natBytes]; omega), length_natBytes, Nat.add_sub_cancel, natAt_append_of_ge h]

theorem natAt_form_beyond (form : Nat) (xs ys : List Byte) {off len : Nat} :
    natAt (natBytes 1 form ++ (xs ++ ys)) (off + xs.length + 1) len = natAt ys off len := by
  rw [natAt_append_of_le (by rw [length_natBytes]; omega), length_natBytes, Nat.add_sub_cancel,
    natAt_append_of_le (by omega), Nat.add_sub_cancel]

/-- Settles O52: the shared bytes stand behind the form byte, and the record's behind them. -/
theorem statReportsState : Obligations.StatReportsState := by
  intro s tag b rest ho w
  obtain ⟨form, extra, hd, hnone, hsome⟩ := statReply_eq s
  have hlen := length_statBytes s
  have hshared {off len : Nat} (h : off + len ≤ 31) : natAt (statReply s) (off + 1) len = natAt (statBytes s) off len := by
    rw [hd]
    exact natAt_form_add _ _ _ (by omega)
  have hextra {off len : Nat} : natAt (statReply s) (off + 31 + 1) len = natAt extra off len := by
    rw [hd, ← hlen]
    exact natAt_form_beyond _ _ _
  have hform : natAt (statReply s) 0 1 = form % 256 := hd ▸ natAt_natBytes_append 1 _ _
  have hlength : (statReply s).length = 32 + extra.length := by
    rw [hd, List.length_append, List.length_append, length_natBytes, hlen]
    omega
  have hreply : statReply (dequeued rest s) = statReply s := rfl
  refine ⟨statReply s, ?_, ?_, fun h => ?_, fun r hr => ?_⟩
  · exact hostCommand_replied (f := withLength 1 fun _ s => done (statReply s) s) ho ((if_pos rfl).trans (hreply ▸ rfl))
  · obtain ⟨h0, h1, h2, h4, h5, h6, h7, h8, h12, h16, h20, h22, h24, h25, h26, h30⟩ := natAt_statBytes s
    obtain ⟨hkind, hslot⟩ := natAt_interjectionBytes s.spe.interjection
    have hplan : planCode s.spe.state % 256 = planCode s.spe.state := by cases s.spe.state <;> rfl
    have htag : s.spe.active.elim 0 (·.step.tag.toNat) % 65536 = s.spe.active.elim 0 (·.step.tag.toNat) := by
      cases s.spe.active with
      | none => rfl
      | some a => exact Nat.mod_eq_of_lt a.step.tag.isLt
    have hactive : (s.spe.active.map (·.slot)).elim 255 (·.val) = s.spe.active.elim 255 (·.slot.val) := by
      cases s.spe.active <;> rfl
    have hradius : radius s % 4294967296 = radius s := Nat.mod_eq_of_lt ((radius_le s).trans_lt (by norm_num))
    refine ⟨(hshared (by omega)).trans (h0.trans hplan), (hshared (by omega)).trans (h1.trans hactive),
      (hshared (by omega)).trans (h2.trans htag), (hshared (by omega)).trans h4,
      (hshared (by omega)).trans (h5.trans hkind), (hshared (by omega)).trans (h6.trans hslot),
      (hshared (by omega)).trans h7, (hshared (by omega)).trans h8, (hshared (by omega)).trans h12,
      (hshared (by omega)).trans (h16.trans hradius), (hshared (by omega)).trans h20, (hshared (by omega)).trans h22,
      (hshared (by omega)).trans h24, (hshared (by omega)).trans h25, (hshared (by omega)).trans h26, fun i => ?_⟩
    rw [hshared (off := 30) (by omega), h30, Nat.mod_eq_of_lt (lineLevels_lt s), testBit_lineLevels]
  · obtain ⟨rfl, rfl⟩ := hnone h
    exact ⟨hform, hlength⟩
  · obtain ⟨rfl, rfl⟩ := hsome r hr
    obtain ⟨h0, h1, h2, h4, h5, h9, h10, h11⟩ := natAt_latchBytes r s
    have hcls : (classIndex r.cls).val % 256 = (classIndex r.cls).val := by cases r.cls <;> rfl
    have hpolicy : policyCode r.policy % 256 = policyCode r.policy := by cases r.policy <;> rfl
    refine ⟨hform, by rw [hlength, length_latchBytes], hextra.trans (h0.trans hcls), hextra.trans h1,
      hextra.trans (h2.trans (Nat.mod_eq_of_lt r.tag.isLt)), hextra.trans h4,
      hextra.trans (h5.trans (Nat.mod_eq_of_lt r.tick.isLt)), hextra.trans (h9.trans hpolicy), hextra.trans h10,
      hextra.trans h11, fun i => ?_⟩
    rw [show 47 + 4 * i.val = 15 + 4 * i.val + 31 + 1 by omega, hextra, natAt_latchBytes_counter]

end Sys2Proof.Proofs
end

