-- ==== Sys2Proof/Proofs/Params.lean ====
section
/-! PROOF. SETP: the four parameter groups written field by field (R17, R18, R35, R37, R70, R71, R128, R142, R172). -/

open Sys2Proof Sys2Proof.Machine

namespace Sys2Proof.Proofs

/-! ## A masked field (R172) -/

section
variable {m i : Nat}

theorem writeNat_value (lo hi old new : Nat) :
    (writeNat m i lo hi old new).value = if m.testBit i then max lo (min hi new) else old := by
  unfold writeNat
  split <;> rfl

theorem writeNat_clamped {lo hi old new : Nat} (h : lo ≤ hi) :
    (writeNat m i lo hi old new).clamped = true ↔ m.testBit i = true ∧ (new < lo ∨ hi < new) := by
  unfold writeNat
  split
  · simp only [*, bne_iff_ne, clampNat, true_and]
    omega
  · simp [*]

theorem writeInt_value (lo hi old new : Int) :
    (writeInt m i lo hi old new).value = if m.testBit i then max lo (min hi new) else old := by
  unfold writeInt
  split <;> rfl

theorem writeInt_clamped {lo hi old new : Int} (h : lo ≤ hi) :
    (writeInt m i lo hi old new).clamped = true ↔ m.testBit i = true ∧ (new < lo ∨ hi < new) := by
  unfold writeInt
  split
  · simp only [*, bne_iff_ne, clampInt, true_and]
    omega
  · simp [*]

/-- A coded field takes the value of its code, or the last one. -/
theorem writeCode_value {α : Type} (codes : List α) (last old : α) (new : Nat) :
    (writeCode m i codes last old new).value = if m.testBit i then codes[new]?.getD last else old := by
  unfold writeCode
  split
  · cases codes[new]? <;> rfl
  · rfl

theorem writeCode_clamped {α : Type} {codes : List α} {last old : α} {new : Nat} :
    (writeCode m i codes last old new).clamped = true ↔ m.testBit i = true ∧ codes.length ≤ new := by
  unfold writeCode
  split
  · cases hc : codes[new]? with
    | some v => simp [*, (List.getElem?_eq_some_iff.1 hc).1]
    | none => simp [*, List.getElem?_eq_none_iff.1 hc]
  · simp [*]

theorem writeFlag_value (old : Bool) (new : Nat) :
    (writeCode m i [false, true] true old new).value = if m.testBit i then new != 0 else old := by
  rw [writeCode_value]
  rcases new with _ | _ | _ <;> rfl

theorem writeFlag_clamped {old : Bool} {new : Nat} :
    (writeCode m i [false, true] true old new).clamped = true ↔ m.testBit i = true ∧ (new < 0 ∨ 1 < new) := by
  rw [writeCode_clamped]
  exact and_congr_right fun _ => ⟨fun h => .inr h, fun h => h.resolve_left (Nat.not_lt_zero _)⟩

theorem writeFacing_value (old : Facing) (new : Nat) :
    (writeCode m i [Facing.down, .up] .up old new).value =
      if m.testBit i then (if new = 0 then .down else .up) else old := by
  rw [writeCode_value]
  rcases new with _ | _ | _ <;> rfl

theorem writeFacing_clamped {old : Facing} {new : Nat} :
    (writeCode m i [Facing.down, .up] .up old new).clamped = true ↔ m.testBit i = true ∧ (new < 0 ∨ 1 < new) := by
  rw [writeCode_clamped]
  exact and_congr_right fun _ => ⟨fun h => .inr h, fun h => h.resolve_left (Nat.not_lt_zero _)⟩

/-- A field of three codes. -/
theorem writeThree_value {α : Type} (a b c old : α) (new : Nat) :
    (writeCode m i [a, b, c] c old new).value =
      if m.testBit i then (if new = 0 then a else if new = 1 then b else c) else old := by
  rw [writeCode_value]
  rcases new with _ | _ | _ | _ <;> rfl

theorem writeThree_clamped {α : Type} {a b c old : α} {new : Nat} :
    (writeCode m i [a, b, c] c old new).clamped = true ↔ m.testBit i = true ∧ (new < 0 ∨ 2 < new) := by
  rw [writeCode_clamped]
  exact and_congr_right fun _ => ⟨fun h => .inr h, fun h => h.resolve_left (Nat.not_lt_zero _)⟩

end

/-! ## The way to the group -/

section
variable {g n tag : Byte} {args : List Byte} {rest : List HostCommand} {s : State} {x : Group}

theorem setGroup_named (h : groupOf g.toNat n.toNat = some x) (hlen : args.length = 2 + groupLength x) :
    setGroup writeGroup (g :: n :: args) s = writeGroup x ⟨natAt args 0 2, args.drop 2⟩ s := by
  have hlength : (g :: n :: args).length = 4 + groupLength x := by
    rw [List.length_cons, List.length_cons, hlen]; omega
  rw [setGroup, if_neg (List.cons_ne_nil _ _)]
  simp only [natAt_cons_succ, natAt_zero_one, h, hlength, if_true]
  rfl

theorem setGroup_badLength (h : groupOf g.toNat n.toNat = some x) (hlen : args.length ≠ 2 + groupLength x) :
    setGroup writeGroup (g :: n :: args) s = refuse .badLength s := by
  have hlength : (g :: n :: args).length ≠ 4 + groupLength x := by
    rw [List.length_cons, List.length_cons]; omega
  rw [setGroup, if_neg (List.cons_ne_nil _ _)]
  simp only [natAt_cons_succ, natAt_zero_one, h, if_neg hlength]

theorem setGroup_unnamed (h : groupOf g.toNat n.toNat = none) :
    setGroup writeGroup (g :: n :: args) s = refuse .invalid s := by
  rw [setGroup, if_neg (List.cons_ne_nil _ _)]
  simp only [natAt_cons_succ, natAt_zero_one, h]

theorem setpOf_group {code : Nat} (hg : g.toNat = code) : setpOf code ⟨tag, keywordBytes .setp ++ g :: n :: args⟩ = true := by
  simp only [setpOf, commandNames_keyword, commandArgs_keyword, natAt_zero_one, hg, beq_self_eq_true, Bool.true_or,
    Bool.or_true, Bool.and_true]

/-- What a SETP of a group's row answers. -/
theorem setp_replied {code : Nat} {st : Status} {d : List Byte} {t : State} (hg : g.toNat = code)
    (ho : Offered .setp tag (g :: n :: args) rest s)
    (hf : setGroup writeGroup (g :: n :: args) (dequeued rest s) = ⟨st, d, dequeued rest t⟩) :
    running (executeCommand (setpOf code) (setGroup writeGroup)) s = .next (replied .setp tag st d rest t) := by
  rw [executeCommand_offered _ _ ho (setpOf_group hg)]
  show Host.Outcome.next (onLink (fun l => { l with reply := some ⟨tag, keywordBytes .setp,
    (setGroup writeGroup (g :: n :: args) (dequeued rest s)).status,
    (setGroup writeGroup (g :: n :: args) (dequeued rest s)).data⟩ })
      (setGroup writeGroup (g :: n :: args) (dequeued rest s)).after) = _
  rw [hf]
  rfl

end

theorem doneWith_clamped {c : Bool} {p : Prop} {d : List Byte} {t : State} (h : c = true ↔ p) :
    (p → doneWith c d t = ⟨.clamped, d, t⟩) ∧ (¬ p → doneWith c d t = ⟨.ok, d, t⟩) := by
  refine ⟨fun hp => ?_, fun hp => ?_⟩
  · rw [h.2 hp]; rfl
  · rw [Bool.eq_false_iff.2 (mt h.1 hp)]; rfl

/-- Settles O55: each field of the group is written by its own clamp. -/
theorem setpWritesEncoderAndHead : Obligations.SetpWritesEncoderAndHead := by
  intro s tag g n args rest ho m v num out sgn outSgn
  refine ⟨?_, ?_⟩
  · rintro rfl answers
    have hgroup : groupOf (0 : Byte).toNat n.toNat = some .encoder := rfl
    have hset {st : Status} {d : List Byte} {t : State} (hlen : args.length = 17)
        (hf : setEncoder ⟨m, v⟩ (dequeued rest s) = ⟨st, d, dequeued rest t⟩) : answers st d t :=
      setp_replied rfl ho ((setGroup_named hgroup hlen).trans hf)
    refine ⟨fun hlen => ?_, fun hlen hbusy => hset hlen (whenIdle_of_ne hbusy), fun hlen hidle => ?_⟩
    · exact setp_replied rfl ho (setGroup_badLength hgroup hlen)
    · intro o p clamped e
      have hvalue : (writeEncoderParams ⟨m, v⟩ o).value = p := by
        simp only [writeEncoderParams, writeNat_value, writeInt_value, writeFlag_value]
        rfl
      have hclamped : (writeEncoderParams ⟨m, v⟩ o).clamped = true ↔ clamped := by
        simp (disch := decide) only [writeEncoderParams, Bool.or_eq_true, writeNat_clamped, writeInt_clamped,
          writeFlag_clamped, or_assoc]
        rfl
      have htake : takeEncoderParams p s.eu = e := rfl
      have hwrite : setEncoder ⟨m, v⟩ (dequeued rest s) =
          doneWith (writeEncoderParams ⟨m, v⟩ o).clamped (encoderBytes p) (dequeued rest { s with eu := e }) := by
        rw [setEncoder, whenIdle_of_idle (s := dequeued rest s) hidle, ← htake, ← hvalue]
        rfl
      obtain ⟨hyes, hno⟩ := doneWith_clamped (d := encoderBytes p) (t := dequeued rest { s with eu := e }) hclamped
      exact ⟨fun hc => hset hlen (hwrite.trans (hyes hc)), fun hc => hset hlen (hwrite.trans (hno hc))⟩
  · rintro rfl answers
    refine ⟨fun hn => ?_, fun h hn => ?_⟩
    · exact setp_replied rfl ho (setGroup_unnamed (groupOf_eq_none (.inr ⟨rfl, hn⟩)))
    have hgroup : groupOf (1 : Byte).toNat n.toNat = some (.head h) := by rw [hn]; exact groupOf_head h
    have hset {st : Status} {d : List Byte} {t : State} (hlen : args.length = 27)
        (hf : setHead h ⟨m, v⟩ (dequeued rest s) = ⟨st, d, dequeued rest t⟩) : answers st d t :=
      setp_replied rfl ho ((setGroup_named hgroup hlen).trans hf)
    refine ⟨fun hlen => ?_, fun hlen hbusy => hset hlen (whenIdle_of_ne hbusy), fun hlen hidle => ?_⟩
    · exact setp_replied rfl ho (setGroup_badLength hgroup hlen)
    · intro o x p seq clamped t
      have hvalue : (writeHeadParams ⟨m, v⟩ o).value = p := by
        simp only [writeHeadParams, writeNat_value, writeInt_value, writeFacing_value, writeThree_value]
        rfl
      have hseq : BitVec.ofNat 12 (writeNextSeq ⟨m, v⟩ x.seq).value = seq := by
        simp only [writeNextSeq, writeNat_value]
        rfl
      have hclamped : ((writeHeadParams ⟨m, v⟩ o).clamped || (writeNextSeq ⟨m, v⟩ x.seq).clamped) = true ↔ clamped := by
        simp (disch := decide) only [writeHeadParams, writeNextSeq, Bool.or_eq_true, writeNat_clamped, writeInt_clamped,
          writeFacing_clamped, writeThree_clamped, or_assoc]
        rfl
      have ht : t = onTrigger h (fun y => { y with seq := seq }) (onPort h (fun y => { y with params := p }) s) := rfl
      have hwrite : setHead h ⟨m, v⟩ (dequeued rest s) =
          doneWith ((writeHeadParams ⟨m, v⟩ o).clamped || (writeNextSeq ⟨m, v⟩ x.seq).clamped) (headBytes p seq)
            (dequeued rest t) := by
        rw [setHead, whenIdle_of_idle (s := dequeued rest s) hidle, ht, ← hvalue, ← hseq]
        rfl
      obtain ⟨hyes, hno⟩ := doneWith_clamped (d := headBytes p seq) (t := dequeued rest t) hclamped
      exact ⟨fun hc => hset hlen (hwrite.trans (hyes hc)), fun hc => hset hlen (hwrite.trans (hno hc))⟩

/-! ## The tracking limit (R71) -/

section
variable {limit : Nat} {s : State}

theorem limitEntry_within {e : BladeEntry} (h : e.offset.natAbs ≤ limit) : limitEntry limit e = e :=
  if_pos (by rw [limited, clampInt]; omega)

theorem limitEntry_beyond {e : BladeEntry} (h : limit < e.offset.natAbs) :
    limitEntry limit e = { e with offset := if e.offset < 0 then -(limit : Int) else limit
                                  state := if e.state = .excluded then .excluded else .displaced } := by
  have hlimited : limited limit e.offset = if e.offset < 0 then -(limit : Int) else limit := by
    rw [limited, clampInt]; split <;> omega
  have hne : limited limit e.offset ≠ e.offset := by rw [hlimited]; split <;> omega
  rw [limitEntry, if_neg hne, hlimited]

theorem limitNotices_eq (limit : Nat) (gen : Id16) (es : List BladeEntry) :
    limitNotices limit gen es = es.zipIdx.flatMap fun x => bladeSaid x.2 gen .limit x.1 (limitEntry limit x.1) := by
  rw [limitNotices]
  congr 1
  exact funext fun x => bladeNotice_eq (limitEntry_entry limit x.1).1

theorem setLimit_within (h : ∀ e ∈ s.bt.entries, e.offset.natAbs ≤ limit) :
    setLimit limit s = { s with bt := { s.bt with params := { s.bt.params with limit := limit } } } := by
  have hsame : s.bt.entries.map (limitEntry limit) = s.bt.entries :=
    (List.map_congr_left fun e he => limitEntry_within (h e he)).trans (List.map_id _)
  exact if_pos hsame

theorem setLimit_beyond (h : ∃ e ∈ s.bt.entries, limit < e.offset.natAbs)
    (hroom : s.lp.notices.length + (limitNotices limit (s.bt.gen + 1) s.bt.entries).length ≤ 32) :
    setLimit limit s = { s with
      bt := newGeneration (s.bt.entries.map (limitEntry limit)) { s.bt with params := { s.bt.params with limit := limit } }
      lp := { s.lp with notices := s.lp.notices ++ limitNotices limit (s.bt.gen + 1) s.bt.entries } } := by
  have hchanged : s.bt.entries.map (limitEntry limit) ≠ s.bt.entries := by
    obtain ⟨e, he, hbeyond⟩ := h
    intro hsame
    have hid : limitEntry limit e = e := List.map_inj_left.1 (hsame.trans (List.map_id _).symm) e he
    have hoffset := congrArg BladeEntry.offset hid
    rw [(limitEntry_entry limit e).2.2.2, limited, clampInt] at hoffset
    omega
  refine (if_neg hchanged).trans ?_
  exact queueNotices_room hroom

end

/-! ## The PLAN group (R128, R142) -/

theorem writePolicy_of_lt {w : GroupWrite} {ps : Vector Policy 8} {i : Fin 8} (h : i.val < 7) :
    writePolicy w ps i = writeCode w.mask (2 + i.val) [Policy.report, .haltAtStepEnd, .stopNow] .stopNow ps[i]
      (natAt w.values (5 + i.val) 1) :=
  if_neg fun e => absurd (congrArg Fin.val e) (by show i.val ≠ 7; omega)

theorem writePolicy_seven (w : GroupWrite) (ps : Vector Policy 8) :
    writePolicy w ps 7 = ⟨.stopNow, w.mask.testBit 9 && natAt w.values 12 1 != 2⟩ :=
  if_pos (e := writeCode w.mask 9 [Policy.report, .haltAtStepEnd, .stopNow] .stopNow ps[7] (natAt w.values 12 1))
    (show (7 : Fin 8) = classIndex .stepInvalid from rfl)

/-- A policy is clamped for a code outside the three, and that of STEP_INVALID for another than STOP_NOW. -/
theorem any_writePolicy_clamped (w : GroupWrite) (ps : Vector Policy 8) :
    ((List.finRange 8).any fun i => (writePolicy w ps i).clamped) = true ↔
      (∃ i < 7, w.mask.testBit (2 + i) = true ∧ (natAt w.values (5 + i) 1 < 0 ∨ 2 < natAt w.values (5 + i) 1)) ∨
        (w.mask.testBit 9 = true ∧ natAt w.values 12 1 ≠ 2) := by
  rw [List.any_eq_true]
  constructor
  · rintro ⟨i, -, hi⟩
    rcases Nat.lt_or_ge i.val 7 with hlt | hge
    · rw [writePolicy_of_lt hlt] at hi
      exact .inl ⟨i.val, hlt, writeThree_clamped.1 hi⟩
    · obtain rfl : i = 7 := Fin.ext (by show i.val = 7; omega)
      rw [writePolicy_seven, Bool.and_eq_true, bne_iff_ne] at hi
      exact .inr hi
  · rintro (⟨i, hlt, hi⟩ | h)
    · refine ⟨⟨i, by omega⟩, List.mem_finRange _, ?_⟩
      rw [writePolicy_of_lt hlt]
      exact writeThree_clamped.2 hi
    · refine ⟨7, List.mem_finRange _, ?_⟩
      rw [writePolicy_seven, Bool.and_eq_true, bne_iff_ne]
      exact h

theorem writeSlot_val (m i new : Nat) (old : Slot) :
    (Fin.ofNat 64 (writeNat m i 0 63 old.val new).value).val = if m.testBit i then max 0 (min 63 new) else old.val := by
  have hold := old.isLt
  have hlt : (if m.testBit i then max 0 (min 63 new) else old.val) < 64 := by split <;> omega
  rw [writeNat_value, Fin.val_ofNat, Nat.mod_eq_of_lt hlt]

/-- Settles O56: each group's fields are written by their own clamps, and a new limit clamps the offsets entry by entry. -/
theorem setpWritesTrackAndPlan : Obligations.SetpWritesTrackAndPlan := by
  intro s tag g n args rest ho m v num out
  refine ⟨?_, ?_, ?_, ?_⟩
  · rintro rfl hlen
    exact setp_replied rfl ho (setGroup_badLength (x := .track) rfl hlen)
  · rintro rfl hlen
    exact setp_replied rfl ho (setGroup_badLength (x := .plan) rfl hlen)
  · rintro rfl hlen o p clamped answers
    have hset {st : Status} {d : List Byte} {t : State} (hf : setTrack ⟨m, v⟩ (dequeued rest s) = ⟨st, d, dequeued rest t⟩) :
        exec .setpTrack s = .next (replied .setp tag st d rest t) :=
      setp_replied rfl ho ((setGroup_named (x := .track) rfl hlen).trans hf)
    have hlimit : (writeNat m 0 0 1048576 o.limit (natAt v 0 4)).value = p.limit := writeNat_value _ _ _ _
    have hguard : (writeNat m 1 0 1048576 o.guard (natAt v 4 4)).value = p.guard := writeNat_value _ _ _ _
    have hmiss : (writeNat m 2 1 15 o.kMiss (natAt v 8 1)).value = p.kMiss := writeNat_value _ _ _ _
    obtain ⟨c, hc⟩ : ∃ c, c = ((writeNat m 0 0 1048576 o.limit (natAt v 0 4)).clamped ||
      (writeNat m 1 0 1048576 o.guard (natAt v 4 4)).clamped || (writeNat m 2 1 15 o.kMiss (natAt v 8 1)).clamped) := ⟨_, rfl⟩
    have hclamped : c = true ↔ clamped := by
      rw [hc]
      simp (disch := decide) only [Bool.or_eq_true, writeNat_clamped, or_assoc]
      rfl
    have hanswers {t : State} (hlocked : m.testBit 0 = false ∨ s.spe.state = .idle)
        (ht : (if p.limit = o.limit then setGuards p.guard p.kMiss (dequeued rest s)
          else setLimit p.limit (setGuards p.guard p.kMiss (dequeued rest s))) = dequeued rest t) : answers t := by
      have hopen : ¬ (m.testBit 0 = true ∧ (dequeued rest s).spe.state ≠ .idle) := by
        rintro ⟨hbit, hbusy⟩
        rcases hlocked with h | h
        · rw [hbit] at h; cases h
        · exact hbusy h
      obtain ⟨hyes, hno⟩ := doneWith_clamped (d := trackBytes p) (t := dequeued rest t) hclamped
      have hwrite : setTrack ⟨m, v⟩ (dequeued rest s) = doneWith c (trackBytes p) (dequeued rest t) := by
        rw [setTrack, if_neg hopen, ← ht, hc, show trackBytes p = trackBytes ⟨p.limit, p.guard, p.kMiss⟩ from rfl]
        simp only [← hlimit, ← hguard, ← hmiss]
        rfl
      exact ⟨fun hc => hset (hwrite.trans (hyes hc)), fun hc => hset (hwrite.trans (hno hc))⟩
    refine ⟨fun hbit hbusy => ?_, fun hlocked h => hanswers hlocked ?_, fun hbit hidle hne hbeyond => ?_⟩
    · exact hset (if_pos ⟨hbit, hbusy⟩)
    · by_cases hsame : p.limit = o.limit
      · rw [if_pos hsame]
        show _ = dequeued rest { s with bt := { s.bt with params := ⟨p.limit, p.guard, p.kMiss⟩ } }
        rw [hsame]
        rfl
      · rw [if_neg hsame, setLimit_within (s := setGuards p.guard p.kMiss (dequeued rest s)) (h.resolve_left hsame)]
        rfl
    · intro f said hroom
      have hf : f = limitEntry p.limit := by
        funext e
        show (if e.offset.natAbs ≤ p.limit then e else _) = _
        by_cases hwithin : e.offset.natAbs ≤ p.limit
        · rw [if_pos hwithin, limitEntry_within hwithin]
        · rw [if_neg hwithin, limitEntry_beyond (Nat.lt_of_not_le hwithin)]
      have hsaid : limitNotices p.limit (s.bt.gen + 1) s.bt.entries = said := by
        rw [limitNotices_eq, ← hf]
      refine hanswers (.inr hidle) ?_
      rw [if_neg hne, setLimit_beyond (s := setGuards p.guard p.kMiss (dequeued rest s)) hbeyond (hsaid ▸ hroom), hf, ← hsaid]
      rfl
  · rintro rfl hlen o written clamped
    have hclamped : (writePlanParams ⟨m, v⟩ o).clamped = true ↔ clamped := by
      simp (disch := decide) only [writePlanParams, Bool.or_eq_true, writeNat_clamped, any_writePolicy_clamped, or_assoc]
      rfl
    have hset {st : Status} {d : List Byte} {t : State} (hf : setPlan ⟨m, v⟩ (dequeued rest s) = ⟨st, d, dequeued rest t⟩) :
        exec .setpPlan s = .next (replied .setp tag st d rest t) :=
      setp_replied rfl ho ((setGroup_named (x := .plan) rfl hlen).trans hf)
    obtain ⟨hyes, hno⟩ := doneWith_clamped (d := planBytes (writePlanParams ⟨m, v⟩ o).value)
      (t := dequeued rest { s with spe := { s.spe with params := (writePlanParams ⟨m, v⟩ o).value } }) hclamped
    refine ⟨(writePlanParams ⟨m, v⟩ o).value, fun hc => hset (hyes hc), fun hc => hset (hno hc), writeNat_value _ _ _ _,
      writeSlot_val _ _ _ _, ?_, fun i hi => ?_⟩
    · exact (Vector.getElem_ofFn _).trans (congrArg Written.value (writePolicy_seven ⟨m, v⟩ o.policies))
    · refine (Vector.getElem_ofFn _).trans ?_
      rw [writePolicy_of_lt hi, writeThree_value]

end Sys2Proof.Proofs
end

