-- ==== Sys2Proof/Proofs/Takers.lean ====
section
/-! PROOF. The takers of an edge or an index: each acts once, in whatever order, and what each of them leaves alone (R19,
R64, R85, R116, R118, R184, log entry 6). -/

open Sys2Proof Sys2Proof.Machine

namespace Sys2Proof.Proofs

/-! ## Each taker acts once -/

theorem nodup_named (order named : List Taker) (h : named.Nodup) :
    (order.foldl (fun l t => if l.contains t then l else l ++ [t]) named).Nodup := by
  induction order generalizing named with
  | nil => exact h
  | cons t order ih =>
    rw [List.foldl_cons]
    refine ih _ ?_
    split
    · exact h
    · rename_i hnot
      exact List.nodup_append.2 ⟨h, List.nodup_singleton t, fun a ha b hb hab => hnot
        (List.contains_iff_mem.2 ((List.mem_singleton.1 hb) ▸ hab ▸ ha))⟩

theorem nodup_takersInOrder (order : List Taker) : (takersInOrder order).Nodup := by
  refine List.nodup_append.2 ⟨nodup_named order [] List.nodup_nil, List.Nodup.filter _ (by decide), ?_⟩
  rintro a ha b hb rfl
  have hnot := (List.mem_filter.1 hb).2
  rw [List.contains_iff_mem.2 ha] at hnot
  cases hnot

theorem mem_takersInOrder (order : List Taker) (k : Taker) : k ∈ takersInOrder order := by
  rw [takersInOrder, List.mem_append]
  by_cases h : k ∈ order.foldl (fun l t => if l.contains t then l else l ++ [t]) []
  · exact .inl h
  · refine .inr (List.mem_filter.2 ⟨by cases k <;> decide, ?_⟩)
    rw [Bool.eq_false_iff.2 (mt List.contains_iff_mem.1 h)]
    rfl

/-- What holds of the takers that remain and the state they find holds when none remains. -/
theorem foldl_takers {Q : List Taker → State → Prop} {revolution edge : Bool} {order : List Taker} {s : State}
    (hstep : ∀ k rest t, k ∉ rest → Q (k :: rest) t → Q rest (takeBy revolution edge t k))
    (hall : ∀ ks : List Taker, (∀ k, k ∈ ks) → Q ks s) :
    Q [] ((takersInOrder order).foldl (takeBy revolution edge) s) := by
  have hfold (ks : List Taker) (t : State) (hnodup : ks.Nodup) (h : Q ks t) :
      Q [] (ks.foldl (takeBy revolution edge) t) := by
    induction ks generalizing t with
    | nil => exact h
    | cons k ks ih =>
      obtain ⟨hk, hks⟩ := List.nodup_cons.1 hnodup
      exact ih _ hks (hstep k ks t hk h)
  exact hfold _ s (nodup_takersInOrder order) (hall _ (mem_takersInOrder order))

/-- Takers that find nothing to do leave the state to the tail ends. -/
theorem takeAll_eq_tailEnds {revolution edge : Bool} {order : List Taker} {s : State}
    (h : ∀ k, takeBy revolution edge s k = s) : takeAll order revolution edge s = tailEnds s := by
  have hfold : (takersInOrder order).foldl (takeBy revolution edge) s = s :=
    foldl_takers (Q := fun _ t => t = s) (fun k _ t _ ht => ht ▸ h k) (fun _ _ => rfl)
  rw [takeAll, hfold]

/-! ## What the tail ends leave alone -/

/-- Only records have been closed and delivered. -/
def RecordsOnly (s t : State) : Prop := ∃ pe bus, t = { s with pe := pe, bus := bus }

theorem RecordsOnly.refl (s : State) : RecordsOnly s s := ⟨s.pe, s.bus, rfl⟩

theorem RecordsOnly.trans {s t u : State} (a : RecordsOnly s t) (b : RecordsOnly t u) : RecordsOnly s u := by
  obtain ⟨_, _, rfl⟩ := a
  obtain ⟨pe, bus, rfl⟩ := b
  exact ⟨pe, bus, rfl⟩

theorem RecordsOnly.foldl {α : Type} {f : State → α → State} (hf : ∀ s x, RecordsOnly s (f s x)) (xs : List α) (s : State) :
    RecordsOnly s (xs.foldl f s) := by
  induction xs generalizing s with
  | nil => exact .refl s
  | cons x xs ih => exact (hf s x).trans (ih _)

theorem deliver_recordsOnly (h : Head) (r : OpenRecord) (s : State) : RecordsOnly s (deliver h r s) := by
  unfold deliver
  split
  · exact .refl s
  · exact ⟨s.pe, _, rfl⟩

theorem closeHead_recordsOnly (aborted : Bool) (h : Head) (s : State) : RecordsOnly s (closeHead aborted h s) := by
  have hdetector (f : Detector → Detector) : RecordsOnly s (onDetector h f s) := ⟨_, s.bus, rfl⟩
  have hdeliver (r : Option OpenRecord) (t : State) : RecordsOnly t (deliverClosed h r t) := by
    cases r with
    | none => exact .refl t
    | some r => exact deliver_recordsOnly h r t
  exact (hdetector _).trans (hdeliver _ _)

theorem tailEnds_recordsOnly (s : State) : RecordsOnly s (tailEnds s) := by
  refine .foldl (fun t h => ?_) heads s
  unfold tailEndHead
  split
  · exact closeHead_recordsOnly false h t
  · exact .refl t

/-! ## What a due instant leaves alone -/

/-- Heads have been triggered, skipped, or have ended their tails: their parameters and whether they have a tail stay, and
so do the other blocks. -/
def TriggersOnly (s t : State) : Prop :=
  ∃ (x : PerHead TriggerHead) (hp : PerHead HeadPort) (pe : Placement),
    t = { s with tu := { s.tu with heads := x }, hp := hp, pe := pe } ∧
    (∀ h, (hp.get h).params = (s.hp.get h).params) ∧
    ∀ h, (s.tu.heads.get h).tail ≠ .none → (x.get h).tail ≠ .none

theorem TriggersOnly.refl (s : State) : TriggersOnly s s := ⟨s.tu.heads, s.hp, s.pe, rfl, fun _ => rfl, fun _ h => h⟩

theorem TriggersOnly.trans {s t u : State} (a : TriggersOnly s t) (b : TriggersOnly t u) : TriggersOnly s u := by
  obtain ⟨_, _, _, rfl, hparams, htails⟩ := a
  obtain ⟨x, hp, pe, rfl, hparams', htails'⟩ := b
  exact ⟨x, hp, pe, rfl, fun h => (hparams' h).trans (hparams h), fun h ht => htails' h (htails h ht)⟩

theorem TriggersOnly.foldl {α : Type} {f : State → α → State} (hf : ∀ s x, TriggersOnly s (f s x)) (xs : List α)
    (s : State) : TriggersOnly s (xs.foldl f s) := by
  induction xs generalizing s with
  | nil => exact .refl s
  | cons x xs ih => exact (hf s x).trans (ih _)

theorem onTrigger_triggersOnly {h : Head} {f : TriggerHead → TriggerHead} (s : State)
    (hf : (s.tu.heads.get h).tail ≠ .none → (f (s.tu.heads.get h)).tail ≠ .none) : TriggersOnly s (onTrigger h f s) := by
  refine ⟨_, s.hp, s.pe, rfl, fun _ => rfl, fun g hg => ?_⟩
  rw [PerHead.get_set]
  split
  · rename_i e; subst e; exact hf hg
  · exact hg

theorem onPort_triggersOnly {h : Head} {f : HeadPort → HeadPort} (s : State) (hf : ∀ p, (f p).params = p.params) :
    TriggersOnly s (onPort h f s) := by
  refine ⟨s.tu.heads, _, s.pe, rfl, fun g => ?_, fun _ hg => hg⟩
  rw [PerHead.get_set]
  split
  · rename_i e; subst e; exact hf _
  · rfl

theorem flagOpen_triggersOnly (f : RecordFlag) (h : Head) (s : State) : TriggersOnly s (flagOpen f h s) :=
  ⟨s.tu.heads, s.hp, _, rfl, fun _ => rfl, fun _ hg => hg⟩

theorem issueTrigger_triggersOnly (a : ActiveStep) (h : Head) (s : State) : TriggersOnly s (issueTrigger a h s) := by
  unfold issueTrigger
  refine TriggersOnly.trans ?_ (onTrigger_triggersOnly _ id)
  exact onPort_triggersOnly s fun _ => rfl

theorem attemptTrigger_triggersOnly (a : ActiveStep) (h : Head) (s : State) : TriggersOnly s (attemptTrigger a h s) := by
  have hskip (f : HeadCounters → HeadCounters) : TriggersOnly s (flagOpen .overrun h (onCounters h f s)) :=
    (onPort_triggersOnly (f := fun p => { p with counters := f p.counters }) s fun _ => rfl).trans
      (flagOpen_triggersOnly _ _ _)
  rcases attemptTrigger_cases a h s with ⟨-, e⟩ | ⟨-, -, e⟩ | ⟨-, -, e⟩
  · exact e ▸ hskip _
  · exact e ▸ hskip _
  · rw [e]
    exact issueTrigger_triggersOnly a h s

theorem dueHead_triggersOnly (a : ActiveStep) (h : Head) (s : State) : TriggersOnly s (dueHead a h s) := by
  have hattempt : TriggersOnly s (attemptTrigger a h s) := attemptTrigger_triggersOnly a h s
  have hended : TriggersOnly s (onTrigger h (fun t => { t with tail := .ended }) s) :=
    onTrigger_triggersOnly s fun _ h => nomatch h
  unfold dueHead
  split
  · exact .refl s
  split
  · split
    · exact hattempt
    · exact .refl s
  · split
    · split
      · exact hattempt
      · exact .refl s
    · exact hended
  · exact .refl s

theorem dueInstant_triggersOnly (a : ActiveStep) (s : State) : TriggersOnly s (dueInstant a s) :=
  .foldl (fun t h => dueHead_triggersOnly a h t) heads s

theorem angleDue_triggersOnly (s : State) : TriggersOnly s (angleDue s) := by
  unfold angleDue
  split
  · exact .refl s
  split
  · split
    · exact dueInstant_triggersOnly _ s
    · exact .refl s
  · exact .refl s

/-- Outside ACQUIRING and TAIL no head is judged. -/
theorem dueHead_of_not_taking {a : ActiveStep} {h : Head} {s : State} (hs : ¬ takingSamples s.spe.state) :
    dueHead a h s = s := by
  have hacquiring : s.spe.state ≠ .acquiring := fun e => hs (by rw [e]; exact .inl rfl)
  have htail : s.spe.state ≠ .tail := fun e => hs (by rw [e]; exact .inr rfl)
  unfold dueHead
  split
  · rfl
  split
  · exact absurd ‹_› hacquiring
  · exact absurd ‹_› htail
  · rfl

theorem dueInstant_of_not_taking {a : ActiveStep} {s : State} (hs : ¬ takingSamples s.spe.state) : dueInstant a s = s := by
  have hfold (hs' : List Head) : hs'.foldl (fun t h => dueHead a h t) s = s := by
    induction hs' with
    | nil => rfl
    | cons h hs' ih => rw [List.foldl_cons, dueHead_of_not_taking hs, ih]
  exact hfold heads

theorem angleDue_of_not_taking {s : State} (hs : ¬ takingSamples s.spe.state) : angleDue s = s := by
  unfold angleDue
  split
  · rfl
  split
  · split
    · exact dueInstant_of_not_taking hs
    · rfl
  · rfl

/-! ## What the strobe leaves alone -/

/-- Only BLADE_STROBE_OUT and its window have changed. -/
def StrobeOnly (s t : State) : Prop :=
  ∃ strobe window, t = { s with ax := { s.ax with strobe := strobe, strobeWindow := window } }

theorem strobeAt_strobeOnly (b : Option Nat) (s : State) : StrobeOnly s (strobeAt b s) := by
  unfold strobeAt
  split
  · exact ⟨s.ax.strobe, none, rfl⟩
  · split
    · exact ⟨s.ax.strobe, s.ax.strobeWindow, rfl⟩
    · exact ⟨_, _, rfl⟩

theorem strobeEdge_strobeOnly (s : State) : StrobeOnly s (strobeEdge s) := by
  unfold strobeEdge
  split
  · exact ⟨_, _, rfl⟩
  · split
    · exact strobeAt_strobeOnly _ s
    · exact ⟨_, _, rfl⟩

theorem strobeEdge_of_not_acquiring {s : State} (h : s.spe.state ≠ .acquiring) : strobeEdge s = s := by
  unfold strobeEdge
  split
  · rfl
  · exact if_neg fun e => h e.1

/-! ## What the blade table leaves alone -/

/-- Only the blade table and the notices have changed. -/
def TableOnly (s t : State) : Prop := ∃ bt lp, t = { s with bt := bt, lp := lp }

theorem bladesNewRevolution_tableOnly (s : State) : TableOnly s (bladesNewRevolution s) := by
  unfold bladesNewRevolution
  split
  · exact ⟨_, _, rfl⟩
  · exact ⟨s.bt, s.lp, rfl⟩

theorem any_hasPending {es : List BladeEntry} :
    es.any hasPending = true ↔ ∃ e ∈ es, e.pendingOffset ≠ none ∨ e.pendingMark ≠ none := by
  simp only [List.any_eq_true, hasPending, Bool.or_eq_true, Option.isSome_iff_ne_none]

theorem bladesNewRevolution_of_none_pending {s : State}
    (h : ∀ e ∈ s.bt.entries, e.pendingOffset = none ∧ e.pendingMark = none) : bladesNewRevolution s = s := by
  refine if_neg fun hany => ?_
  obtain ⟨e, he, hpending⟩ := any_hasPending.1 hany
  obtain ⟨hoffset, hmark⟩ := h e he
  exact hpending.elim (fun hp => hp hoffset) (fun hp => hp hmark)

/-! ## What the plan leaves alone -/

theorem planNewRevolution_of_neither {s : State} (harmed : s.spe.state ≠ .armed) (hacquiring : s.spe.state ≠ .acquiring) :
    planNewRevolution s = s := by
  rcases planNewRevolution_cases s with e | ⟨a, -, h⟩
  · exact e
  · rcases h with ⟨h, -⟩ | ⟨h, -⟩ | ⟨h, -⟩
    · exact absurd h harmed
    · exact absurd h hacquiring
    · exact absurd h hacquiring

theorem interjectionPending_eq_false {s : State} :
    interjectionPending s = false ↔ ∀ slot, s.spe.interjection ≠ .pending slot := by
  unfold interjectionPending
  cases s.spe.interjection <;> simp

section
variable {a : ActiveStep} {s : State} (ha : s.spe.active = some a)
include ha

theorem planNewRevolution_armed (hs : s.spe.state = .armed) : planNewRevolution s = enterAcquiring a s := by
  simp only [planNewRevolution, ha, hs]

theorem planNewRevolution_next_pass (hs : s.spe.state = .acquiring) (hpass : s.spe.pass < a.step.passes)
    (hpending : ∀ slot, s.spe.interjection ≠ .pending slot) :
    planNewRevolution s = onPlan (fun q => { q with passesDone := s.spe.pass, pass := s.spe.pass + 1 }) s := by
  have hnot : interjectionPending (onPlan (fun q => { q with passesDone := s.spe.pass }) s) = false :=
    interjectionPending_eq_false.2 hpending
  simp only [planNewRevolution, ha, hs, hnot, hpass, Bool.not_false, and_self, if_true]
  rfl

theorem planNewRevolution_tail (hs : s.spe.state = .acquiring)
    (h : ¬ (s.spe.pass < a.step.passes ∧ ∀ slot, s.spe.interjection ≠ .pending slot)) :
    planNewRevolution s = enterTail a (onPlan (fun q => { q with passesDone := s.spe.pass }) s) := by
  have hnot : ¬ (s.spe.pass < a.step.passes ∧
      (!interjectionPending (onPlan (fun q => { q with passesDone := s.spe.pass }) s)) = true) := by
    rintro ⟨hpass, hpending⟩
    exact h ⟨hpass, interjectionPending_eq_false.1 (Bool.not_eq_eq_eq_not.mp hpending)⟩
  simp only [planNewRevolution, ha, hs]
  exact if_neg hnot

end

/-- The blade table and the plan find nothing to do outside ARMED and ACQUIRING while nothing is pending. -/
theorem takeBy_of_nothing {revolution edge : Bool} {s : State} (hedge : edge = true → ¬ takingSamples s.spe.state)
    (hrevolution : revolution = true → s.spe.state ≠ .armed ∧ s.spe.state ≠ .acquiring ∧
      ∀ e ∈ s.bt.entries, e.pendingOffset = none ∧ e.pendingMark = none) (k : Taker) : takeBy revolution edge s k = s := by
  have hidle {c : Bool} {t : State} (h : c = true → t = s) : (if c = true then t else s) = s := by
    cases c
    · rfl
    · exact h rfl
  cases k with
  | plan => exact hidle fun h => planNewRevolution_of_neither (hrevolution h).1 (hrevolution h).2.1
  | blades => exact hidle fun h => bladesNewRevolution_of_none_pending (hrevolution h).2.2
  | due => exact hidle fun h => angleDue_of_not_taking (hedge h)
  | strobe => exact hidle fun h => strobeEdge_of_not_acquiring fun e => hedge h (by rw [e]; exact .inl rfl)

theorem takeAll_of_nothing {revolution edge : Bool} {order : List Taker} {s : State}
    (hedge : edge = true → ¬ takingSamples s.spe.state)
    (hrevolution : revolution = true → s.spe.state ≠ .armed ∧ s.spe.state ≠ .acquiring ∧
      ∀ e ∈ s.bt.entries, e.pendingOffset = none ∧ e.pendingMark = none) (htail : s.spe.state ≠ .tail) :
    takeAll order revolution edge s = s :=
  (takeAll_eq_tailEnds (takeBy_of_nothing hedge hrevolution)).trans (tailEnds_of_not_tail htail)

end Sys2Proof.Proofs
end

