-- ==== Sys2Proof/Proofs/Edges.lean ====
section
/-! PROOF. Table edges and the index at the encoder unit, and the passes they bring (R1 to R13, R23, R31, R116, R118,
R184). -/

open Sys2Proof Sys2Proof.Machine

namespace Sys2Proof.Proofs

/-! ## The encoder unit -/

theorem edgeForward_eq (e : Encoder) : edgeForward e = edgeTaken e := by
  rw [edgeForward, edgeTaken, pushEdge, List.drop_one]

theorem isNewRevolution_iff {e : Encoder} (h : e.netRevs < 2147483647) :
    isNewRevolution e = true ↔ e.highWater < e.netRevs + 1 := by
  rw [isNewRevolution, decide_eq_true_iff, netUp, if_pos h]

theorem crossForward_eq {e : Encoder} (h : e.netRevs < 2147483647) : crossForward e = crossingTaken e := by
  have hup : netUp e.netRevs = e.netRevs + 1 := if_pos h
  unfold crossForward crossingTaken
  by_cases hnew : e.highWater < e.netRevs + 1
  · rw [if_pos ((isNewRevolution_iff h).2 hnew), if_pos hnew, hup]
    rfl
  · rw [if_neg (mt (isNewRevolution_iff h).1 hnew), if_neg hnew, hup]

/-- A crossing leaves the count, the parameters and the tick. -/
theorem crossingTaken_keeps (e : Encoder) : (crossingTaken e).count = e.count ∧ (crossingTaken e).params = e.params ∧
    (crossingTaken e).tick = e.tick ∧ (crossingTaken e).netRevs = e.netRevs + 1 ∧
    (crossingTaken e).stallStart = e.stallStart ∧ (crossingTaken e).stallRaised = e.stallRaised ∧
    (crossingTaken e).radial = e.radial := by
  unfold crossingTaken
  split <;> exact ⟨rfl, rfl, rfl, rfl, rfl, rfl, rfl⟩

theorem crossingTaken_highWater {e : Encoder} (h : e.highWater < e.netRevs + 1) :
    (crossingTaken e).highWater = e.netRevs + 1 := by
  rw [crossingTaken, if_pos h]

theorem crossingTaken_of_new {e : Encoder} (h : e.highWater < e.netRevs + 1) : crossingTaken e = { e with
    netRevs := e.netRevs + 1, highWater := e.netRevs + 1, lastRev := some e.tick
    revTime := match e.lastRev with
      | some before => (e.tick - before).toNat
      | none => e.revTime } := if_pos h

theorem crossingTaken_of_old {e : Encoder} (h : e.netRevs + 1 ≤ e.highWater) :
    crossingTaken e = { e with netRevs := e.netRevs + 1 } := if_neg (not_lt.2 h)

theorem edgeReverse_eq {e : Encoder} (h : e.count < e.params.counts) : edgeReverse e = { e with
    count := if e.count = 0 then e.params.counts - 1 else e.count - 1
    direction := .reverse, ring := [], stallStart := e.tick, stallRaised := false
    netRevs := if e.referenced = true ∧ e.count = 0 ∧ -2147483648 < e.netRevs then e.netRevs - 1 else e.netRevs } := by
  have hcount : (e.count + e.params.counts - 1) % e.params.counts = if e.count = 0 then e.params.counts - 1 else e.count - 1 := by
    split
    · rename_i hz
      rw [hz, Nat.zero_add, Nat.mod_eq_of_lt (by omega)]
    · rw [show e.count + e.params.counts - 1 = e.count - 1 + e.params.counts by omega, Nat.add_mod_right,
        Nat.mod_eq_of_lt (by omega)]
  have hnet : (if e.referenced = true ∧ e.count = 0 then netDown e.netRevs else e.netRevs) =
      if e.referenced = true ∧ e.count = 0 ∧ -2147483648 < e.netRevs then e.netRevs - 1 else e.netRevs := by
    simp only [netDown, ← and_assoc]
    by_cases h1 : e.referenced = true ∧ e.count = 0 <;> by_cases h2 : -2147483648 < e.netRevs <;> simp [h1, h2]
  rw [edgeReverse, hcount, hnet]

/-! ## A forward edge (R1, R7, R9) -/

section
variable {s : State} (order : List Taker)

theorem forwardEdge_of_not_crossing (h : ¬ edgeCrosses s) :
    forwardEdge order s = takeAll order false true (onEncoder edgeTaken s) := by
  have hcrossing : (s.eu.referenced && decide ((s.eu.count + 1) % s.eu.params.counts = 0)) = false := by
    rw [Bool.eq_false_iff, ne_eq, Bool.and_eq_true, decide_eq_true_iff]
    exact h
  simp only [forwardEdge, hcrossing, edgeForward_eq, Bool.false_and, Bool.false_eq_true, if_false]

theorem forwardEdge_of_crossing (h : edgeCrosses s) (hnet : s.eu.netRevs < 2147483647) :
    forwardEdge order s = takeAll order (decide (s.eu.highWater < s.eu.netRevs + 1)) true
      (onEncoder (fun e => crossingTaken (edgeTaken e)) s) := by
  obtain ⟨href, hzero⟩ := h
  have hnew : isNewRevolution s.eu = decide (s.eu.highWater < s.eu.netRevs + 1) := by
    rw [Bool.eq_iff_iff, isNewRevolution_iff hnet, decide_eq_true_iff]
  simp only [forwardEdge, href, hzero, decide_true, Bool.and_self, Bool.true_and, if_true, hnew, edgeForward_eq]
  exact congrArg (fun e => takeAll order _ true { s with eu := e }) (crossForward_eq hnet)

end

/-- The count is 0 after an edge that crosses. -/
theorem edgeTaken_of_crosses {s : State} (h : edgeCrosses s) : edgeTaken s.eu = { s.eu with
    count := 0, direction := .forward, stallStart := s.eu.tick, stallRaised := false
    ring := (if s.eu.ring.length < 65 then s.eu.ring else s.eu.ring.drop 1) ++ [s.eu.tick] } := by
  rw [edgeTaken, h.2]

/-! ## The strobe (R184) -/

/-- The auxiliary unit when head 0 is found at the window of blade `b`, or at none. -/
def strobed (b : Option Nat) (now : Tick) (a : AuxUnit) : AuxUnit :=
  match b with
  | none => { a with strobeWindow := none }
  | some i => if a.strobeWindow = some i then a else { a with strobe := some now, strobeWindow := some i }

theorem strobeAt_ax (b : Option Nat) (s : State) : (strobeAt b s).ax = strobed b s.eu.tick s.ax := by
  cases b with
  | none => rfl
  | some i =>
    unfold strobeAt strobed
    by_cases h : s.ax.strobeWindow = some i
    · simp only [h, if_true]
    · simp only [h, if_false]
      rfl

theorem strobeEdge_ax {a : ActiveStep} {s : State} (ha : s.spe.active = some a) (hs : s.spe.state = .acquiring) :
    (strobeEdge s).ax = if a.step.flags.learn = true then s.ax else
      strobed (spansHolding a.step 0 s.bt.current (predictedAngle .h0 s)).head? s.eu.tick s.ax := by
  simp only [strobeEdge, ha, hs, true_and]
  cases a.step.flags.learn with
  | false => exact strobeAt_ax _ s
  | true => rfl

theorem mem_spansHolding {p : ScanStep} {guard i : Nat} {ws : List Window} {angle : Angle} :
    i ∈ spansHolding p guard ws angle ↔ ∃ w : Window, ws[i]? = some w ∧ p.first ≤ i ∧ i ≤ p.last ∧ w.excluded = false ∧
      (angle - w.start + BitVec.ofNat 24 guard).toNat < w.width + 2 * guard := by
  simp only [spansHolding, indexed, List.mem_map, List.mem_filter, enabledFor, inSpan, Bool.and_eq_true,
    decide_eq_true_eq, Bool.not_eq_true', Prod.exists, List.mem_zipIdx_iff_getElem?]
  constructor
  · rintro ⟨j, w, ⟨⟨w', j', hw, he⟩, ⟨⟨hfirst, hlast⟩, hex⟩, hin⟩, rfl⟩
    cases he
    exact ⟨w, hw, hfirst, hlast, hex, hin⟩
  · rintro ⟨w, hw, hfirst, hlast, hex, hin⟩
    exact ⟨i, w, ⟨⟨w, i, hw, rfl⟩, ⟨⟨hfirst, hlast⟩, hex⟩, hin⟩, rfl⟩

theorem mem_spansHolding_zero {p : ScanStep} {i : Nat} {ws : List Window} {angle : Angle} :
    i ∈ spansHolding p 0 ws angle ↔ ∃ w : Window, ws[i]? = some w ∧ p.first ≤ i ∧ i ≤ p.last ∧ w.excluded = false ∧
      (angle - w.start).toNat < w.width := by
  simp only [mem_spansHolding, BitVec.add_zero, Nat.mul_zero, Nat.add_zero]

/-- In a set whose windows stand apart, the blade whose plain window holds the angle is the only one. -/
theorem head_spansHolding {p : ScanStep} {i : Nat} {ws : List Window} {angle : Angle} (hws : AtMostOne ws)
    (hi : i ∈ spansHolding p 0 ws angle) : (spansHolding p 0 ws angle).head? = some i := by
  have hspan {j : Nat} (hj : j ∈ spansHolding p 0 ws angle) : ∃ w, ws[j]? = some w ∧ inSpan 0 w angle = true := by
    obtain ⟨w, hw, -, -, -, hin⟩ := mem_spansHolding.1 hj
    exact ⟨w, hw, decide_eq_true hin⟩
  cases h : spansHolding p 0 ws angle with
  | nil => rw [h] at hi; cases hi
  | cons j js =>
    have hj : j ∈ spansHolding p 0 ws angle := h ▸ List.mem_cons_self
    obtain ⟨v, hv, hvin⟩ := hspan hj
    obtain ⟨w, hw, hwin⟩ := hspan hi
    rw [hws angle j i v w hv hw hvin hwin]
    rfl

/-! ## The takers of an edge in ACQUIRING (R118, R184) -/

/-- What holds while the takers of an edge act, which ends no pass but perhaps starts the next one: the encoder, the blade
table and the step stay, and the lines change when the strobe has been evaluated. -/
def Strobing (a : ActiveStep) (u : State) (rest : List Taker) (t : State) : Prop :=
  t.eu = u.eu ∧ t.bt = u.bt ∧ (t.hp.get .h0).params = (u.hp.get .h0).params ∧ t.spe.state = .acquiring ∧
  t.spe.active = some a ∧ t.spe.interjection = u.spe.interjection ∧ (.plan ∈ rest → t.spe.pass = u.spe.pass) ∧
  t.ax = if .strobe ∈ rest then u.ax else (strobeEdge u).ax

theorem takeBy_strobing {a : ActiveStep} {u : State} {revolution : Bool} (ha : u.spe.active = some a)
    (hs : u.spe.state = .acquiring)
    (hrevolution : revolution = true → u.spe.pass < a.step.passes ∧ (∀ slot, u.spe.interjection ≠ .pending slot) ∧
      ∀ e ∈ u.bt.entries, e.pendingOffset = none ∧ e.pendingMark = none)
    (k : Taker) (rest : List Taker) (t : State) (hk : k ∉ rest) (h : Strobing a u (k :: rest) t) :
    Strobing a u rest (takeBy revolution true t k) := by
  obtain ⟨heu, hbt, hparams, hstate, hactive, hinterjection, hpass, hax⟩ := h
  have hstays (hne : k ≠ .strobe) : t.ax = if .strobe ∈ rest then u.ax else (strobeEdge u).ax := by
    rw [hax]
    simp only [List.mem_cons, Ne.symm hne, false_or]
  have hpassed (hmem : Taker.plan ∈ rest) : t.spe.pass = u.spe.pass := hpass (List.mem_cons_of_mem _ hmem)
  cases k with
  | plan =>
    cases revolution with
    | false => exact ⟨heu, hbt, hparams, hstate, hactive, hinterjection, hpassed, hstays (by decide)⟩
    | true =>
      obtain ⟨hroom, hnot, -⟩ := hrevolution rfl
      have hnext : takeBy true true t .plan = onPlan (fun q => { q with passesDone := t.spe.pass, pass := t.spe.pass + 1 }) t :=
        planNewRevolution_next_pass hactive hstate (hpass List.mem_cons_self ▸ hroom) (hinterjection ▸ hnot)
      rw [hnext]
      exact ⟨heu, hbt, hparams, hstate, hactive, hinterjection, fun hmem => absurd hmem hk, hstays (by decide)⟩
  | blades =>
    have hsame : takeBy revolution true t .blades = t := by
      cases revolution with
      | false => rfl
      | true => exact bladesNewRevolution_of_none_pending (hbt ▸ (hrevolution rfl).2.2)
    rw [hsame]
    exact ⟨heu, hbt, hparams, hstate, hactive, hinterjection, hpassed, hstays (by decide)⟩
  | due =>
    obtain ⟨x, hp, pe, hdue, hkept, -⟩ := angleDue_triggersOnly t
    show Strobing a u rest (angleDue t)
    rw [hdue]
    exact ⟨heu, hbt, (hkept .h0).trans hparams, hstate, hactive, hinterjection, hpassed, hstays (by decide)⟩
  | strobe =>
    have hlines : (strobeEdge t).ax = (strobeEdge u).ax := by
      have hangle : predictedAngle .h0 t = predictedAngle .h0 u := by
        simp only [predictedAngle, angleAt, heu, hparams]
      rw [strobeEdge_ax hactive hstate, strobeEdge_ax ha hs, hax, if_pos List.mem_cons_self, heu, hbt, hangle]
    obtain ⟨strobe, window, hstrobe⟩ := strobeEdge_strobeOnly t
    show Strobing a u rest (strobeEdge t)
    refine ⟨?_, ?_, ?_, ?_, ?_, ?_, ?_, by rw [hlines, if_neg hk]⟩
    all_goals rw [hstrobe]
    · exact heu
    · exact hbt
    · exact hparams
    · exact hstate
    · exact hactive
    · exact hinterjection
    · exact hpassed

theorem takeAll_strobing {a : ActiveStep} {u : State} {revolution : Bool} (order : List Taker)
    (ha : u.spe.active = some a) (hs : u.spe.state = .acquiring)
    (hrevolution : revolution = true → u.spe.pass < a.step.passes ∧ (∀ slot, u.spe.interjection ≠ .pending slot) ∧
      ∀ e ∈ u.bt.entries, e.pendingOffset = none ∧ e.pendingMark = none) :
    (takeAll order revolution true u).eu = u.eu ∧ (takeAll order revolution true u).ax = (strobeEdge u).ax := by
  obtain ⟨heu, -, -, hstate, -, -, -, hax⟩ := foldl_takers (order := order) (takeBy_strobing ha hs hrevolution)
    fun ks hks => ⟨rfl, rfl, rfl, hs, ha, rfl, fun _ => rfl, (if_pos (hks .strobe)).symm⟩
  have htail : takeAll order revolution true u = (takersInOrder order).foldl (takeBy revolution true) u :=
    tailEnds_of_not_tail (by rw [hstate]; decide)
  rw [htail]
  exact ⟨heu, hax⟩

/-- Settles O18: the edge is taken by the encoder, and what it moves besides is told apart by the crossing and the plan
state. -/
theorem forwardEdgeCounts : Obligations.ForwardEdgeCounts := by
  refine ⟨fun s after order hr hs hnot => ?_, fun s after order hr hcross hs harmed hnone hnet => ?_,
    fun s after order a hr hs ha hws hcrossing => ?_⟩
  · intro t
    rw [exec_tableEdge _ _ _ _ hr, tableTransition, forwardEdge_of_not_crossing order (s := elapse after s) hnot,
      takeAll_of_nothing (s := onEncoder edgeTaken t) (fun _ => hs) (fun h => Bool.noConfusion h) (fun h => hs (.inr h))]
    rfl
  · intro t now e
    have hcrossed : edgeTaken t.eu = { e with netRevs := s.eu.netRevs } := edgeTaken_of_crosses (s := t) hcross
    have hexec : exec (.tableEdge after .forward order) s =
        .next { t with eu := crossingTaken { e with netRevs := s.eu.netRevs } } := by
      rw [exec_tableEdge _ _ _ _ hr, tableTransition, forwardEdge_of_crossing order (s := elapse after s) hcross hnet,
        takeAll_of_nothing (s := onEncoder (fun e => crossingTaken (edgeTaken e)) t) (fun _ => hs)
          (fun _ => ⟨harmed, fun h => hs (.inl h), hnone⟩) (fun h => hs (.inr h)), ← hcrossed]
      rfl
    exact ⟨fun hlow => hexec.trans (congrArg (fun x => Host.Outcome.next ({ t with eu := x } : State)) (crossingTaken_of_old hlow)),
      fun hhigh => hexec.trans (congrArg (fun x => Host.Outcome.next ({ t with eu := x } : State)) (crossingTaken_of_new hhigh))⟩
  · intro count angle holds e
    obtain ⟨u, t, hexec, hu, heu, hax, hplain, hturn⟩ : ∃ u t : State, exec (.tableEdge after .forward order) s = .next t ∧
        u = { elapse after s with eu := u.eu } ∧ t.eu = u.eu ∧ t.ax = (strobeEdge u).ax ∧ (¬ edgeCrosses s → u.eu = e) ∧
        (edgeCrosses s → u.eu = crossingTaken e) := by
      by_cases hcross : edgeCrosses s
      · obtain ⟨hnet, hready⟩ := hcrossing hcross
        have htakers := takeAll_strobing (u := onEncoder (fun e => crossingTaken (edgeTaken e)) (elapse after s))
          (revolution := decide (s.eu.highWater < s.eu.netRevs + 1)) order ha hs fun hnew =>
            hready.resolve_left fun hlow => absurd (of_decide_eq_true hnew) (by omega)
        refine ⟨_, _, ?_, rfl, htakers.1, htakers.2, fun h => absurd hcross h, fun _ => rfl⟩
        rw [exec_tableEdge _ _ _ _ hr, tableTransition, forwardEdge_of_crossing order (s := elapse after s) hcross hnet]
        rfl
      · have htakers := takeAll_strobing (u := onEncoder edgeTaken (elapse after s)) (revolution := false) order ha hs
          fun h => Bool.noConfusion h
        refine ⟨_, _, ?_, rfl, htakers.1, htakers.2, fun _ => rfl, fun h => absurd h hcross⟩
        rw [exec_tableEdge _ _ _ _ hr, tableTransition, forwardEdge_of_not_crossing order (s := elapse after s) hcross]
    have hcount : u.eu.count = count ∧ u.eu.params = s.eu.params := by
      by_cases hcross : edgeCrosses s
      · obtain ⟨hc, hp, -⟩ := crossingTaken_keeps e
        rw [hturn hcross, hc, hp]
        exact ⟨rfl, rfl⟩
      · rw [hplain hcross]
        exact ⟨rfl, rfl⟩
    have hangle : predictedAngle .h0 u = angle := by
      rw [predictedAngle, angleAt, hcount.1, hcount.2, hu]
      rfl
    have hlines : (strobeEdge u).ax = if a.step.flags.learn = true then s.ax else
        strobed (spansHolding a.step 0 s.bt.current angle).head? t.eu.tick s.ax := by
      rw [← hangle, heu, strobeEdge_ax (s := u) (by rw [hu]; exact ha) (by rw [hu]; exact hs), hu]
      rfl
    rw [← hax] at hlines
    refine ⟨t, hexec, fun h => heu.trans (hplain h), fun h => heu.trans (hturn h), fun hlearn => ?_, fun hlearn => ?_⟩
    · rw [hlines, if_pos hlearn]
    · rw [hlines, if_neg (by rw [hlearn]; decide)]
      refine ⟨fun i hi hwindow => ?_, fun i hi hwindow => ?_, fun hnone => ?_⟩
      · rw [head_spansHolding hws (mem_spansHolding_zero.2 hi)]
        exact if_pos hwindow
      · rw [head_spansHolding hws (mem_spansHolding_zero.2 hi)]
        exact if_neg hwindow
      · rw [List.eq_nil_iff_forall_not_mem.2 fun i hi => hnone i (mem_spansHolding_zero.1 hi)]
        rfl

/-! ## A reverse edge (R3, R8) -/

/-- Settles O19. -/
theorem reverseEdgeCounts : Obligations.ReverseEdgeCounts := by
  intro s after order hr hcount t raised
  have hfirst : (s.eu.direction == .forward && (s.spe.state == .acquiring || s.spe.state == .tail)) = true ↔ raised := by
    rw [Bool.and_eq_true, Bool.or_eq_true, beq_iff_eq, beq_iff_eq, beq_iff_eq]
  have hreverse : edgeReverse t.eu = _ := edgeReverse_eq (e := t.eu) hcount
  rw [exec_tableEdge _ _ _ _ hr]
  show Host.Outcome.next (if (s.eu.direction == .forward && (s.spe.state == .acquiring || s.spe.state == .tail)) = true then
    sendRaising (raisedNow .direction none (onEncoder edgeReverse t)) (onEncoder edgeReverse t)
    else onEncoder edgeReverse t) = _
  rw [raisedNow_eq]
  by_cases h : raised
  · rw [if_pos (hfirst.2 h), if_pos h]
    exact congrArg (fun e => Host.Outcome.next (sendRaising (raisingOf .direction none t) { t with eu := e })) hreverse
  · rw [if_neg (mt hfirst.1 h), if_neg h, List.append_nil]
    exact congrArg (fun e => Host.Outcome.next ({ t with eu := e } : State)) hreverse

end Sys2Proof.Proofs
end

