-- ==== Sys2Proof/Proofs/Index.lean ====
section
/-! PROOF. The index, and the passes and tails that a new-revolution event brings (R4 to R10, R13, R20, R31, R116, R118,
R133). -/

open Sys2Proof Sys2Proof.Machine

namespace Sys2Proof.Proofs

/-! ## An index (R4 to R6) -/

theorem assigned_iff {f : AuxFunction} {a : AuxUnit} : assigned f a = true ↔ ∃ i : Fin 8, a.lines[i].function = f := by
  simp only [assigned, List.any_eq_true, beq_iff_eq, Vector.mem_toList_iff, Vector.mem_iff_getElem]
  constructor
  · rintro ⟨_, ⟨i, hi, rfl⟩, hf⟩
    exact ⟨⟨i, hi⟩, hf⟩
  · rintro ⟨i, hf⟩
    exact ⟨_, ⟨i.val, i.isLt, rfl⟩, hf⟩

theorem assigned_eq_false {f : AuxFunction} {a : AuxUnit} (h : ∀ i : Fin 8, a.lines[i].function ≠ f) :
    assigned f a = false :=
  Bool.eq_false_iff.2 fun hassigned => (assigned_iff.1 hassigned).elim h

section
variable {s : State} (order : List Taker)

theorem dedicatedIndex_eq (h : ∀ i : Fin 8, s.ax.lines[i].function ≠ .indexIn) :
    dedicatedIndex order s = indexEdge order s := by
  rw [dedicatedIndex, assigned_eq_false h]
  rfl

theorem indexEdge_of_reverse (h : s.eu.direction = .reverse) : indexEdge order s = s := if_pos h

theorem indexEdge_referenced (hd : s.eu.direction = .forward) (hr : s.eu.referenced = true) :
    indexEdge order s = checkedIndex order s := by
  rw [indexEdge, if_neg (by rw [hd]; decide), if_pos hr]

/-- The first forward index references the encoder (R5). -/
theorem indexEdge_unreferenced (hd : s.eu.direction = .forward) (hr : s.eu.referenced = false)
    (hs : s.spe.state ≠ .settling) (hroom : s.lp.notices.length < 32) :
    indexEdge order s = { s with
      eu := { s.eu with count := 0, referenced := true }
      lp := { s.lp with notices := s.lp.notices ++ [.referenced s.eu.tick] } } := by
  rw [indexEdge, if_neg (by rw [hd]; decide), if_neg (by rw [hr]; decide)]
  exact (settleTest_of_not_settling (s := queueNotice _ (onEncoder _ s)) hs).trans
    (queueNotice_room (s := onEncoder (fun e => { e with count := 0, referenced := true }) s) hroom)

/-- The INDEX_SLIP of an index is on its way to the latch, if it slips (R6, R141). -/
def slipSent (c : Bool) (s : State) : State := if c then sendRaising (raisedNow .indexSlip none s) s else s

theorem slipSent_eq {c : Bool} {p : Prop} [Decidable p] (h : c = true ↔ p) :
    slipSent c s = { s with bus := { s.bus with
      raisings := s.bus.raisings ++ (if p then [raisingOf .indexSlip none s] else []) } } := by
  rw [slipSent, raisedNow_eq]
  by_cases hp : p
  · rw [if_pos (h.2 hp), if_pos hp]
    rfl
  · rw [if_neg (mt h.1 hp), if_neg hp, List.append_nil]

theorem slipSent_eu (c : Bool) : (slipSent c s).eu = s.eu := by
  unfold slipSent
  split <;> rfl

/-- The count corrected to 0, where correction is on (R6). -/
def countCorrected (s : State) : State :=
  if s.eu.params.indexCorrection then onEncoder (fun e => { e with count := 0 }) s else s

theorem checkedIndex_eq : checkedIndex order s =
    takeAll order (s.eu.params.indexCorrection && upperHalf s.eu && isNewRevolution s.eu) false
      (if (s.eu.params.indexCorrection && upperHalf s.eu) = true then
        onEncoder crossForward (countCorrected (slipSent (indexSlips s) s))
      else countCorrected (slipSent (indexSlips s) s)) := rfl

theorem countCorrected_slipSent (c : Bool) : countCorrected (slipSent c s) =
    onEncoder (fun e => { e with count := if s.eu.params.indexCorrection then 0 else s.eu.count }) (slipSent c s) := by
  have heu : (slipSent c s).eu = s.eu := slipSent_eu c
  rw [countCorrected, heu]
  split
  · rfl
  · show slipSent c s = { slipSent c s with eu := { (slipSent c s).eu with count := s.eu.count } }
    rw [← heu]

theorem checkedIndex_lower (h : 2 * s.eu.count < s.eu.params.counts) :
    checkedIndex order s = takeAll order false false (onEncoder
      (fun e => { e with count := if s.eu.params.indexCorrection then 0 else s.eu.count }) (slipSent (indexSlips s) s)) := by
  have hupper : upperHalf s.eu = false := decide_eq_false (not_le.2 h)
  rw [checkedIndex_eq, hupper, Bool.and_false, Bool.false_and, if_neg Bool.false_ne_true, countCorrected_slipSent]

theorem checkedIndex_upper_off (h : s.eu.params.indexCorrection = false) :
    checkedIndex order s = takeAll order false false (slipSent (indexSlips s) s) := by
  rw [checkedIndex_eq, h, Bool.false_and, Bool.false_and, if_neg Bool.false_ne_true, countCorrected, slipSent_eu, h,
    if_neg Bool.false_ne_true]

theorem checkedIndex_upper_on (h : s.eu.params.counts ≤ 2 * s.eu.count) (hc : s.eu.params.indexCorrection = true)
    (hnet : s.eu.netRevs < 2147483647) :
    checkedIndex order s = takeAll order (decide (s.eu.highWater < s.eu.netRevs + 1)) false
      (onEncoder (fun e => crossingTaken { e with count := 0 }) (slipSent (indexSlips s) s)) := by
  have hupper : upperHalf s.eu = true := decide_eq_true h
  have hnew : isNewRevolution s.eu = decide (s.eu.highWater < s.eu.netRevs + 1) := by
    rw [Bool.eq_iff_iff, isNewRevolution_iff hnet, decide_eq_true_iff]
  have hcross (t : State) (ht : t.eu = s.eu) : onEncoder crossForward (onEncoder (fun e => { e with count := 0 }) t) =
      onEncoder (fun e => crossingTaken { e with count := 0 }) t :=
    congrArg (fun e => ({ t with eu := e } : State)) (crossForward_eq (e := { t.eu with count := 0 }) (ht ▸ hnet))
  rw [checkedIndex_eq, hupper, hnew, hc, Bool.and_self, Bool.true_and, if_pos rfl, countCorrected, slipSent_eu, hc, if_pos rfl,
    hcross _ (slipSent_eu _)]

theorem indexSlips_lower (h : 2 * s.eu.count < s.eu.params.counts) :
    indexSlips s = true ↔ s.eu.params.indexTolerance < s.eu.count ∧ s.spe.state ≠ .idle := by
  have hupper : upperHalf s.eu = false := decide_eq_false (not_le.2 h)
  rw [indexSlips, Bool.and_eq_true, decide_eq_true_iff, bne_iff_ne, indexError, hupper, if_neg Bool.false_ne_true,
    Int.natAbs_natCast]

theorem indexSlips_upper (h : s.eu.params.counts ≤ 2 * s.eu.count) (hlt : s.eu.count < s.eu.params.counts) :
    indexSlips s = true ↔ s.eu.params.indexTolerance < s.eu.params.counts - s.eu.count ∧ s.spe.state ≠ .idle := by
  have hupper : upperHalf s.eu = true := decide_eq_true h
  rw [indexSlips, Bool.and_eq_true, decide_eq_true_iff, bne_iff_ne, indexError, if_pos hupper,
    show ((s.eu.count : Int) - s.eu.params.counts).natAbs = s.eu.params.counts - s.eu.count by omega]

end

/-- Settles O24: an index is disregarded, references, or is checked, and a correction of the upper half is a crossing. -/
theorem indexIsHandled : Obligations.IndexIsHandled := by
  intro s after order hr t slipped
  have hexec : exec (.index after order) s = .next (dedicatedIndex order t) := exec_index after order s hr
  have hchecked (hlines : ∀ i : Fin 8, s.ax.lines[i].function ≠ .indexIn) (hd : s.eu.direction = .forward)
      (href : s.eu.referenced = true) : exec (.index after order) s = .next (checkedIndex order t) := by
    rw [hexec, dedicatedIndex_eq order (s := t) hlines, indexEdge_referenced order (s := t) hd href]
  refine ⟨fun h => ?_, fun hlines hd href hs hroom => ?_, fun hlines hd href hlow htail => ?_,
    fun hlines hd href hhigh hlt htail => ⟨fun hoff => ?_, fun hon harmed hacq hnone hnet => ?_⟩⟩
  · rw [hexec, dedicatedIndex]
    by_cases hassigned : assigned .indexIn t.ax = true
    · rw [if_pos hassigned]
    · rw [if_neg hassigned, indexEdge_of_reverse]
      exact h.resolve_left fun hline => hassigned (assigned_iff.2 hline)
  · rw [hexec, dedicatedIndex_eq order (s := t) hlines, indexEdge_unreferenced order (s := t) hd href hs hroom]
    rfl
  · rw [hchecked hlines hd href, checkedIndex_lower order (s := t) hlow, slipSent_eq (indexSlips_lower (s := t) hlow)]
    exact congrArg Host.Outcome.next (takeAll_of_nothing (fun h => Bool.noConfusion h) (fun h => Bool.noConfusion h) htail)
  · rw [hchecked hlines hd href, checkedIndex_upper_off order (s := t) hoff,
      slipSent_eq (indexSlips_upper (s := t) hhigh hlt)]
    exact congrArg Host.Outcome.next (takeAll_of_nothing (fun h => Bool.noConfusion h) (fun h => Bool.noConfusion h) htail)
  · rw [hchecked hlines hd href, checkedIndex_upper_on order (s := t) hhigh hon hnet,
      slipSent_eq (indexSlips_upper (s := t) hhigh hlt)]
    exact congrArg Host.Outcome.next (takeAll_of_nothing (fun h => Bool.noConfusion h) (fun _ => ⟨harmed, hacq, hnone⟩) htail)

/-! ## The entry into TAIL (R31) -/

section
variable {a : ActiveStep} {s : State}

/-- The tail that a head starts is of a blade whose span holds the crossing, or is ended at once. -/
theorem tailFor_cases (h : Head) :
    (a.step.mask.get h = true ∧ a.step.flags.learn = false ∧
      ∃ i ∈ spansHolding a.step (spanGuard a.step) s.bt.current (crossingAngle h s), (tailFor a h s).1 = .running i) ∨
    ((tailFor a h s).1 = .ended ∧ (a.step.mask.get h = false ∨ a.step.flags.learn = true ∨
      spansHolding a.step (spanGuard a.step) s.bt.current (crossingAngle h s) = [])) := by
  unfold tailFor
  split
  · rename_i hno
    rw [Bool.or_eq_true, Bool.not_eq_true'] at hno
    exact .inr ⟨rfl, hno.imp_right .inl⟩
  · rename_i hyes
    rw [Bool.or_eq_true, Bool.not_eq_true', not_or, Bool.not_eq_false, Bool.not_eq_true] at hyes
    split
    · rename_i hnil
      exact .inr ⟨rfl, .inr (.inr hnil)⟩
    · rename_i b hb
      exact .inl ⟨hyes.1, hyes.2, b, hb ▸ List.mem_singleton_self b, rfl⟩
    · rename_i b bs _ hb
      refine .inl ⟨hyes.1, hyes.2, _, ?_, rfl⟩
      have hlt : Config.tailPick s.freeCount % (bs.length + 1) < (b :: bs).length := Nat.mod_lt _ (Nat.succ_pos _)
      rw [hb, List.getD_eq_getElem _ _ hlt]
      exact List.getElem_mem hlt

theorem tailFor_ne_none (h : Head) : (tailFor a h s).1 ≠ .none := by
  rcases tailFor_cases (a := a) (s := s) h with ⟨-, -, i, -, e⟩ | ⟨e, -⟩ <;> rw [e] <;> exact TailState.noConfusion

/-- A tail that is started leaves everything but the head's tail and the count of free values. -/
theorem startTail_eq (a : ActiveStep) (h : Head) (s : State) : ∃ n, startTail a h s =
    { s with
      tu := { s.tu with heads := s.tu.heads.set h { s.tu.heads.get h with tail := (tailFor a h s).1 } }
      freeCount := n } := by
  unfold startTail
  dsimp only
  split
  · exact ⟨s.freeCount + 1, rfl⟩
  · exact ⟨s.freeCount, rfl⟩

/-- Every head of the list has a tail started, which the free values count may bear on. -/
theorem foldl_startTail (a : ActiveStep) (hs : List Head) (hnodup : hs.Nodup) (s : State) :
    ∃ x n, hs.foldl (fun t h => startTail a h t) s = { s with tu := { s.tu with heads := x }, freeCount := n } ∧
      (∀ h ∉ hs, x.get h = s.tu.heads.get h) ∧
      ∀ h ∈ hs, ∃ m, x.get h = { s.tu.heads.get h with tail := (tailFor a h { s with freeCount := m }).1 } := by
  induction hs generalizing s with
  | nil => exact ⟨s.tu.heads, s.freeCount, rfl, fun _ _ => rfl, fun h hh => nomatch hh⟩
  | cons g gs ih =>
    obtain ⟨hg, hgs⟩ := List.nodup_cons.1 hnodup
    obtain ⟨m, hm⟩ := startTail_eq a g s
    obtain ⟨x, n, hfold, hothers, hthese⟩ := ih hgs (startTail a g s)
    rw [hm] at hfold hothers hthese
    refine ⟨x, n, by rw [List.foldl_cons, hm, hfold], fun h hh => ?_, fun h hh => ?_⟩
    · obtain ⟨hne, hnot⟩ := not_or.1 (mt List.mem_cons.2 hh)
      rw [hothers h hnot]
      exact PerHead.get_set_ne _ _ hne
    · rcases List.mem_cons.1 hh with rfl | hmem
      · refine ⟨s.freeCount, ?_⟩
        rw [hothers h hg]
        exact PerHead.get_set_self _ _ _
      · obtain ⟨k, hk⟩ := hthese h hmem
        have hne : h ≠ g := fun e => hg (e ▸ hmem)
        have hget : (s.tu.heads.set g { s.tu.heads.get g with tail := (tailFor a g s).1 }).get h = s.tu.heads.get h :=
          PerHead.get_set_ne _ _ hne
        rw [hget] at hk
        exact ⟨k, hk⟩

/-- The entry into TAIL (R31, R118). -/
theorem enterTail_eq (a : ActiveStep) (s : State) : ∃ x n, enterTail a s = { s with
      spe := { s.spe with state := .tail }, tu := { s.tu with heads := x }, freeCount := n
      ax := { s.ax with passEnd := some s.eu.tick, strobeWindow := none } } ∧
    ∀ h, ∃ m, x.get h = { s.tu.heads.get h with tail := (tailFor a h { s with freeCount := m }).1 } := by
  obtain ⟨x, n, hfold, -, hthese⟩ := foldl_startTail a heads (by decide)
    { s with spe := { s.spe with state := .tail }, ax := { s.ax with passEnd := some s.eu.tick, strobeWindow := none } }
  exact ⟨x, n, hfold, fun h => hthese h (mem_heads h)⟩

end

end Sys2Proof.Proofs
end

