-- ==== Sys2Proof/Proofs/Passes.lean ====
section
/-! PROOF. The passes and the tails that a new-revolution event brings (R13, R20, R31, R116, R118, R133). -/

open Sys2Proof Sys2Proof.Machine

namespace Sys2Proof.Proofs

/-! ## The entry into ACQUIRING (R116, R119) -/

/-- The radius is a reading of the radial count and the parameters (R15). -/
theorem radius_congr {s t : State} (hradial : t.eu.radial = s.eu.radial) (hparams : t.eu.params = s.eu.params) :
    radius t = radius s := by
  rw [radius, radius, hradial, hparams]

section
variable {a : ActiveStep} {s : State}

theorem driftTest_within (ha : s.spe.active = some a) (hs : s.spe.state = .acquiring)
    (h : ((radius s : Int) - a.step.radius).natAbs ≤ a.step.tolerance) :
    driftTest s = onPlan (fun q => { q with drift := false }) s := by
  have hin : outOfTolerance a.step (radius s) = false := decide_eq_false (Nat.not_lt.2 h)
  simp only [driftTest, ha, hs, hin, ne_eq, not_true_eq_false, if_false, Bool.false_eq_true]

/-- The plan enters ACQUIRING with the radius in tolerance (R13, R20, R116, R119). -/
theorem enterAcquiring_within (ha : s.spe.active = some a)
    (h : ((radius s : Int) - a.step.radius).natAbs ≤ a.step.tolerance) :
    enterAcquiring a s = { s with
      spe := { s.spe with state := .acquiring, pass := s.spe.passesDone + 1, armTimer := none, drift := false }
      eu := { s.eu with stallStart := s.eu.tick, stallRaised := false }
      tu := { s.tu with period := match a.step.mode with
        | .time _ => some s.eu.tick
        | .angle _ => none }
      ax := { s.ax with strobeWindow := none } } := by
  let t : State := { s with
    spe := { s.spe with state := .acquiring, pass := s.spe.passesDone + 1, armTimer := none }
    eu := { s.eu with stallStart := s.eu.tick, stallRaised := false }
    tu := { s.tu with period := match a.step.mode with
      | .time _ => some s.eu.tick
      | .angle _ => none }
    ax := { s.ax with strobeWindow := none } }
  have hradius : radius t = radius s := rfl
  exact driftTest_within (s := t) ha rfl (hradius ▸ h)

end

/-! ## The takers around the plan -/

/-- What holds while the takers of a new-revolution event act on `u`: until the plan has taken it the plan stands as it was,
and after it `P` holds; the encoder unit, the map and the store stay. -/
def AroundPlan (u : State) (P : State → Prop) (rest : List Taker) (t : State) : Prop :=
  t.eu = u.eu ∧ t.rm = u.rm ∧ t.rs = u.rs ∧
  (.plan ∈ rest → t.spe = u.spe ∧ t.tu.period = u.tu.period ∧ t.ax.passEnd = u.ax.passEnd ∧ t.bus = u.bus) ∧
  (.plan ∉ rest → P t)

/-- The blade table, the due instant and the strobe bear on nothing of `P`. -/
def TakersKeep (P : State → Prop) : Prop :=
  ∀ s t, TableOnly s t ∨ TriggersOnly s t ∨ StrobeOnly s t → P s → P t

theorem AroundPlan.kept {u t v : State} {P : State → Prop} {k : Taker} {rest : List Taker} (hP : TakersKeep P)
    (hk : k ≠ .plan) (h : AroundPlan u P (k :: rest) t) (hv : TableOnly t v ∨ TriggersOnly t v ∨ StrobeOnly t v) :
    AroundPlan u P rest v := by
  obtain ⟨heu, hrm, hrs, hbefore, hafter⟩ := h
  have hparts : v.eu = t.eu ∧ v.rm = t.rm ∧ v.rs = t.rs ∧ v.spe = t.spe ∧ v.tu.period = t.tu.period ∧
      v.ax.passEnd = t.ax.passEnd ∧ v.bus = t.bus := by
    rcases hv with ⟨_, _, rfl⟩ | ⟨_, _, _, rfl, -, -⟩ | ⟨_, _, rfl⟩ <;> exact ⟨rfl, rfl, rfl, rfl, rfl, rfl, rfl⟩
  obtain ⟨heu', hrm', hrs', hspe', hperiod', hpulse', hbus'⟩ := hparts
  refine ⟨heu'.trans heu, hrm'.trans hrm, hrs'.trans hrs, fun hmem => ?_, fun hmem => hP t v hv (hafter fun h => ?_)⟩
  · obtain ⟨hspe, hperiod, hpulse, hbus⟩ := hbefore (List.mem_cons_of_mem _ hmem)
    exact ⟨hspe'.trans hspe, hperiod'.trans hperiod, hpulse'.trans hpulse, hbus'.trans hbus⟩
  · exact (List.mem_cons.1 h).elim (fun e => hk e.symm) hmem

theorem foldl_aroundPlan {u : State} {P : State → Prop} {edge : Bool} {order : List Taker} (hP : TakersKeep P)
    (hplan : ∀ t : State, t.eu = u.eu → t.rm = u.rm → t.rs = u.rs → t.spe = u.spe → t.tu.period = u.tu.period →
      t.ax.passEnd = u.ax.passEnd → t.bus = u.bus →
      (planNewRevolution t).eu = u.eu ∧ (planNewRevolution t).rm = u.rm ∧ (planNewRevolution t).rs = u.rs ∧
        P (planNewRevolution t)) :
    AroundPlan u P [] ((takersInOrder order).foldl (takeBy true edge) u) := by
  refine foldl_takers (fun k rest t hk h => ?_) fun ks hks =>
    ⟨rfl, rfl, rfl, fun _ => ⟨rfl, rfl, rfl, rfl⟩, fun hnot => absurd (hks _) hnot⟩
  have hsame : StrobeOnly t t := ⟨t.ax.strobe, t.ax.strobeWindow, rfl⟩
  cases k with
  | plan =>
    obtain ⟨heu, hrm, hrs, hbefore, -⟩ := h
    obtain ⟨hspe, hperiod, hpulse, hbus⟩ := hbefore List.mem_cons_self
    obtain ⟨heu', hrm', hrs', hp⟩ := hplan t heu hrm hrs hspe hperiod hpulse hbus
    exact ⟨heu', hrm', hrs', fun hmem => absurd hmem hk, fun _ => hp⟩
  | blades => exact h.kept hP (by decide) (.inl (bladesNewRevolution_tableOnly t))
  | due =>
    cases edge with
    | false => exact h.kept hP (by decide) (.inr (.inr hsame))
    | true => exact h.kept hP (by decide) (.inr (.inl (angleDue_triggersOnly t)))
  | strobe =>
    cases edge with
    | false => exact h.kept hP (by decide) (.inr (.inr hsame))
    | true => exact h.kept hP (by decide) (.inr (.inr (strobeEdge_strobeOnly t)))

/-- A statement about the plan, the period, the PASS_END_OUT pulse and which heads have a tail. -/
theorem takersKeep_plan (Q : ScanPlan → Option Tick → Option Tick → Prop) (tails : Prop) :
    TakersKeep fun t => Q t.spe t.tu.period t.ax.passEnd ∧ (tails → ∀ h, (t.tu.heads.get h).tail ≠ .none) := by
  rintro s t (⟨_, _, rfl⟩ | ⟨_, _, _, rfl, -, htails⟩ | ⟨_, _, rfl⟩) ⟨hq, ht⟩
  · exact ⟨hq, ht⟩
  · exact ⟨hq, fun hc h => htails h (ht hc h)⟩
  · exact ⟨hq, ht⟩

/-- The new-revolution event of a forward edge. -/
theorem exec_newRevolution {s : State} {after : Nat} {order : List Taker} (hr : s.resetHeld = false) (hcross : edgeCrosses s)
    (hnet : s.eu.netRevs < 2147483647) (hnew : s.eu.highWater < s.eu.netRevs + 1) :
    exec (.tableEdge after .forward order) s =
      .next (takeAll order true true (onEncoder (fun e => crossingTaken (edgeTaken e)) (elapse after s))) := by
  rw [exec_tableEdge _ _ _ _ hr, tableTransition, forwardEdge_of_crossing order (s := elapse after s) hcross hnet]
  rw [show decide ((elapse after s).eu.highWater < (elapse after s).eu.netRevs + 1) = true from decide_eq_true hnew]

/-- The encoder unit after the edge of a new-revolution event. -/
theorem newRevolution_encoder {e : Encoder} (hnew : e.highWater < e.netRevs + 1)
    (hzero : (e.count + 1) % e.params.counts = 0) :
    (crossingTaken (edgeTaken e)).count = 0 ∧ (crossingTaken (edgeTaken e)).netRevs = e.netRevs + 1 ∧
      (crossingTaken (edgeTaken e)).highWater = e.netRevs + 1 ∧ (crossingTaken (edgeTaken e)).tick = e.tick ∧
      (crossingTaken (edgeTaken e)).stallStart = e.tick ∧ (crossingTaken (edgeTaken e)).stallRaised = false ∧
      (crossingTaken (edgeTaken e)).radial = e.radial ∧ (crossingTaken (edgeTaken e)).params = e.params := by
  obtain ⟨hcount, hparams, htick, hnet, hstart, hraised, hradial⟩ := crossingTaken_keeps (edgeTaken e)
  exact ⟨hcount.trans hzero, hnet, crossingTaken_highWater (e := edgeTaken e) hnew, htick, hstart, hraised, hradial, hparams⟩

/-- Settles O22: the event is taken by the plan in its state, and the tails follow the entry into TAIL. -/
theorem newRevolutionsRunPasses : Obligations.NewRevolutionsRunPasses := by
  refine ⟨fun s after order a hr hcross hnet hnew hs ha hin => ?_, fun s after order a hr hcross hnet hnew hs ha => ?_⟩
  · let u : State := onEncoder (fun e => crossingTaken (edgeTaken e)) (elapse after s)
    obtain ⟨hcount, hrevs, hhigh, htick, hstart, hraised, hradial, hparams⟩ :=
      newRevolution_encoder (e := (elapse after s).eu) hnew hcross.2
    let P (t : State) : Prop := (t.spe = { s.spe with
        state := .acquiring, pass := s.spe.passesDone + 1, armTimer := none, drift := false } ∧
      t.tu.period = match a.step.mode with
        | .time _ => some u.eu.tick
        | .angle _ => none) ∧ t.bus = s.bus
    have hP : TakersKeep P := by
      rintro x y (⟨_, _, rfl⟩ | ⟨_, _, _, rfl, -, -⟩ | ⟨_, _, rfl⟩) h <;> exact h
    have hplan (t : State) (heu : t.eu = u.eu) (hrm : t.rm = u.rm) (hrs : t.rs = u.rs) (hspe : t.spe = u.spe)
        (_ : t.tu.period = u.tu.period) (_ : t.ax.passEnd = u.ax.passEnd) (hbus : t.bus = u.bus) :
        (planNewRevolution t).eu = u.eu ∧ (planNewRevolution t).rm = u.rm ∧ (planNewRevolution t).rs = u.rs ∧
          P (planNewRevolution t) := by
      have hactive : t.spe.active = some a := by rw [hspe]; exact ha
      have hradius : radius t = radius s := radius_congr (heu ▸ hradial) (heu ▸ hparams)
      have hstall : ({ t.eu with stallStart := t.eu.tick, stallRaised := false } : Encoder) = u.eu := by
        rw [heu, show u.eu.tick = u.eu.stallStart from htick.trans hstart.symm, ← show u.eu.stallRaised = false from hraised]
      rw [planNewRevolution_armed hactive (by rw [hspe]; exact hs), enterAcquiring_within hactive (hradius ▸ hin)]
      refine ⟨hstall, hrm, hrs, ⟨?_, ?_⟩, hbus⟩
      · rw [hspe]; rfl
      · rw [heu]
    obtain ⟨heu, hrm, hrs, -, hafter⟩ := foldl_aroundPlan (edge := true) (order := order) hP hplan
    obtain ⟨⟨hspe, hperiod⟩, hbus⟩ := hafter List.not_mem_nil
    refine ⟨_, exec_newRevolution hr hcross hnet hnew, ?_⟩
    have htail : takeAll order true true u = (takersInOrder order).foldl (takeBy true true) u :=
      tailEnds_of_not_tail (by rw [hspe]; exact PlanState.noConfusion)
    rw [show takeAll order true true (onEncoder (fun e => crossingTaken (edgeTaken e)) (elapse after s)) = _ from htail, heu]
    exact ⟨hspe, hcount, hrevs, hhigh, hstart.trans htick.symm, hraised, hrm, hrs, hbus, hperiod⟩
  · let u : State := onEncoder (fun e => crossingTaken (edgeTaken e)) (elapse after s)
    obtain ⟨-, -, hhigh, -⟩ := newRevolution_encoder (e := (elapse after s).eu) hnew hcross.2
    let goesOn : Prop := s.spe.pass < a.step.passes ∧ ∀ slot, s.spe.interjection ≠ .pending slot
    let Q (q : ScanPlan) (period pulse : Option Tick) : Prop := period = s.tu.period ∧
      (goesOn → q = { s.spe with passesDone := s.spe.pass, pass := s.spe.pass + 1 } ∧ pulse = s.ax.passEnd) ∧
      (¬ goesOn → q = { s.spe with passesDone := s.spe.pass, state := .tail } ∧ pulse = some u.eu.tick)
    let P (t : State) : Prop := Q t.spe t.tu.period t.ax.passEnd ∧ (¬ goesOn → ∀ h, (t.tu.heads.get h).tail ≠ .none)
    have hplan (t : State) (heu : t.eu = u.eu) (hrm : t.rm = u.rm) (hrs : t.rs = u.rs) (hspe : t.spe = u.spe)
        (hperiod : t.tu.period = u.tu.period) (hpulse : t.ax.passEnd = u.ax.passEnd) (_ : t.bus = u.bus) :
        (planNewRevolution t).eu = u.eu ∧ (planNewRevolution t).rm = u.rm ∧ (planNewRevolution t).rs = u.rs ∧
          P (planNewRevolution t) := by
      have hactive : t.spe.active = some a := by rw [hspe]; exact ha
      have hstate : t.spe.state = .acquiring := by rw [hspe]; exact hs
      by_cases hgo : goesOn
      · rw [planNewRevolution_next_pass hactive hstate (by rw [hspe]; exact hgo.1) (by rw [hspe]; exact hgo.2)]
        refine ⟨heu, hrm, hrs, ⟨hperiod, fun _ => ⟨?_, hpulse⟩, fun h => absurd hgo h⟩, fun h => absurd hgo h⟩
        show { t.spe with passesDone := t.spe.pass, pass := t.spe.pass + 1 } = _
        rw [hspe]
        rfl
      · rw [planNewRevolution_tail hactive hstate (by rw [hspe]; exact hgo)]
        obtain ⟨x, n, htail, hx⟩ := enterTail_eq a (onPlan (fun q => { q with passesDone := t.spe.pass }) t)
        rw [htail]
        refine ⟨heu, hrm, hrs, ⟨hperiod, fun h => absurd h hgo, fun _ => ⟨?_, congrArg (fun e => some e.tick) heu⟩⟩, fun _ h => ?_⟩
        · show { t.spe with passesDone := t.spe.pass, state := .tail } = _
          rw [hspe]
          rfl
        · obtain ⟨m, hm⟩ := hx h
          show (x.get h).tail ≠ .none
          rw [hm]
          exact tailFor_ne_none h
    obtain ⟨heu, hrm, hrs, -, hafter⟩ := foldl_aroundPlan (edge := true) (order := order) (takersKeep_plan Q _) hplan
    obtain ⟨⟨hperiod, hnext, hends⟩, htails⟩ := hafter List.not_mem_nil
    obtain ⟨pe, bus, hrecords⟩ := tailEnds_recordsOnly ((takersInOrder order).foldl (takeBy true true) u)
    refine ⟨_, exec_newRevolution hr hcross hnet hnew, ?_⟩
    rw [show takeAll order true true (onEncoder (fun e => crossingTaken (edgeTaken e)) (elapse after s)) = _ from hrecords]
    refine ⟨hrm, hrs, hperiod, (congrArg Encoder.highWater heu).trans hhigh, ?_⟩
    by_cases hgo : goesOn
    · rw [if_pos hgo]
      exact hnext hgo
    · rw [if_neg hgo]
      exact ⟨(hends hgo).1, (hends hgo).2.trans (congrArg (fun e => some e.tick) heu.symm), htails hgo⟩

/-- Settles O23: each head's tail start is its own turn, and a later head's turn leaves it alone. -/
theorem tailsStartAtPassEnd : Obligations.TailsStartAtPassEnd := by
  intro s after order a hr hd hlines href hon hhigh hnet hnew hs ha hpasses hnone
  let t := elapse after s
  let u : State := onEncoder (fun e => crossingTaken { e with count := 0 }) (slipSent (indexSlips t) t)
  have hslip : ∃ bus, slipSent (indexSlips t) t = { t with bus := bus } := by
    unfold slipSent
    split
    · exact ⟨_, rfl⟩
    · exact ⟨t.bus, rfl⟩
  obtain ⟨bus, hbus⟩ := hslip
  have hu : u = { t with eu := crossingTaken { t.eu with count := 0 }, bus := bus } := by
    show onEncoder _ (slipSent _ t) = _
    rw [hbus]
    rfl
  have hplan : planNewRevolution u = enterTail a (onPlan (fun q => { q with passesDone := s.spe.pass }) u) := by
    rw [hu]
    exact planNewRevolution_tail (s := { t with eu := _, bus := bus }) ha hs fun h => absurd h.1 (Nat.not_lt.2 hpasses)
  obtain ⟨x, n, htail, hx⟩ := enterTail_eq a (onPlan (fun q => { q with passesDone := s.spe.pass }) u)
  have hfold : (takersInOrder order).foldl (takeBy true false) u = planNewRevolution u := by
    have hstands := foldl_takers (revolution := true) (edge := false) (order := order) (s := u)
      (Q := fun rest v => v = if Taker.plan ∈ rest then u else planNewRevolution u) (fun k rest v hk hv => ?_)
      fun ks hks => (if_pos (hks .plan)).symm
    · exact hstands
    cases k with
    | plan => rw [hv, if_pos List.mem_cons_self, if_neg hk]; rfl
    | blades =>
      have hentries : v.bt = s.bt := by
        rw [hv]
        split
        · rw [hu]; rfl
        · rw [hplan, htail, hu]; rfl
      have hsame : takeBy true false v .blades = v := bladesNewRevolution_of_none_pending (hentries ▸ hnone)
      rw [hsame, hv]
      simp only [List.mem_cons, reduceCtorEq, false_or]
    | due => show v = _; rw [hv]; simp only [List.mem_cons, reduceCtorEq, false_or]
    | strobe => show v = _; rw [hv]; simp only [List.mem_cons, reduceCtorEq, false_or]
  have hexec : exec (.index after order) s = .next (tailEnds (planNewRevolution u)) := by
    rw [exec_index _ _ _ hr, dedicatedIndex_eq order (s := t) hlines, indexEdge_referenced order (s := t) hd href,
      checkedIndex_upper_on order (s := t) hhigh hon hnet,
      show decide (t.eu.highWater < t.eu.netRevs + 1) = true from decide_eq_true hnew, takeAll]
    exact congrArg (fun v => Host.Outcome.next (tailEnds v)) hfold
  obtain ⟨pe, bus', hrecords⟩ := tailEnds_recordsOnly (planNewRevolution u)
  refine ⟨_, hexec, ?_⟩
  rw [hrecords, hplan, htail]
  refine ⟨?_, ?_, fun h => ?_⟩
  · rw [hu]; exact (crossingTaken_keeps _).1
  · rw [hu]; rfl
  · obtain ⟨m, hm⟩ := hx h
    have hangle : crossingAngle h ({ onPlan (fun q => { q with passesDone := s.spe.pass }) u with freeCount := m } : State) =
        (s.hp.get h).params.azimuth - s.eu.params.zeroOffset := by
      rw [crossingAngle, hu]
      show (s.hp.get h).params.azimuth - (crossingTaken { t.eu with count := 0 }).params.zeroOffset = _
      rw [(crossingTaken_keeps { t.eu with count := 0 }).2.1]
      rfl
    have hbt : ({ onPlan (fun q => { q with passesDone := s.spe.pass }) u with freeCount := m } : State).bt = s.bt := by
      rw [hu]; rfl
    have hcases := tailFor_cases (a := a)
      (s := { onPlan (fun q => { q with passesDone := s.spe.pass }) u with freeCount := m }) h
    rw [hangle, hbt] at hcases
    show (x.get h).seq = _ ∧ _
    rw [hm]
    refine ⟨by rw [hu]; rfl, ?_⟩
    intro guard angle holds runs
    rcases hcases with ⟨hmask, hlearn, i, hi, hrun⟩ | ⟨hend, hnot⟩
    · have hholds : holds i := mem_spansHolding.1 hi
      exact ⟨fun _ => ⟨i, hholds, hrun⟩, fun hno => absurd ⟨hmask, hlearn, i, hholds⟩ hno⟩
    · refine ⟨fun ⟨hmask, hlearn, i, hi⟩ => ?_, fun _ => hend⟩
      rcases hnot with hno | hno | hno
      · rw [hmask] at hno; cases hno
      · rw [hlearn] at hno; cases hno
      · have hmem : i ∈ spansHolding a.step (spanGuard a.step) s.bt.current angle := mem_spansHolding.2 hi
        rw [hno] at hmem; cases hmem

end Sys2Proof.Proofs
end

