-- ==== Sys2Proof/Proofs/Generations.lean ====
section
/-! PROOF. The new generation that a new-revolution event makes of the blade table (R57, R64 to R69). -/

open Sys2Proof Sys2Proof.Machine

namespace Sys2Proof.Proofs

/-! ## The free span of a blade (R66) -/

theorem laterEnd_le_iff {limit : Nat} {turn x : Int} {q : BladeEntry} :
    laterEnd limit turn q ≤ x ↔ ∀ o, standsAt limit q o → beginsAt turn q o + q.width ≤ x := by
  unfold laterEnd candidateOffset standsAt
  cases hp : q.pendingOffset with
  | none =>
    simp only [Option.map_none, reduceCtorEq, false_and, exists_false, or_false, forall_eq]
  | some p =>
    simp only [Option.map_some, max_le_iff, Option.some.injEq, exists_eq_left', limited, clampInt]
    exact ⟨fun ⟨h1, h2⟩ o ho => ho.elim (fun e => e ▸ h1) (fun e => e ▸ h2), fun h => ⟨h _ (.inl rfl), h _ (.inr rfl)⟩⟩

theorem le_earlierStart_iff {limit : Nat} {turn x : Int} {q : BladeEntry} :
    x ≤ earlierStart limit turn q ↔ ∀ o, standsAt limit q o → x ≤ beginsAt turn q o := by
  unfold earlierStart candidateOffset standsAt
  cases hp : q.pendingOffset with
  | none =>
    simp only [Option.map_none, reduceCtorEq, false_and, exists_false, or_false, forall_eq]
  | some p =>
    simp only [Option.map_some, le_min_iff, Option.some.injEq, exists_eq_left', limited, clampInt]
    exact ⟨fun ⟨h1, h2⟩ o ho => ho.elim (fun e => e ▸ h1) (fun e => e ▸ h2), fun h => ⟨h _ (.inl rfl), h _ (.inr rfl)⟩⟩

/-- The neighbour before blade `i`, a revolution back for the first blade. -/
theorem previous_place {i n : Nat} (hi : i < n) : (i + n - 1) % n = if i = 0 then n - 1 else i - 1 := by
  split
  · rename_i h
    rw [h, Nat.zero_add, Nat.mod_eq_of_lt (by omega)]
  · rw [show i + n - 1 = i - 1 + n by omega, Nat.add_mod_right, Nat.mod_eq_of_lt (by omega)]

theorem next_place {i n : Nat} (hi : i < n) : (i + 1) % n = if i + 1 < n then i + 1 else 0 := by
  split
  · rename_i h
    exact Nat.mod_eq_of_lt h
  · rw [show i + 1 = n by omega, Nat.mod_self]

theorem candidatePasses_iff_fits {limit i : Nat} {es : List BladeEntry} {e : BladeEntry} {o : Int} (hi : i < es.length) :
    candidatePasses limit es i e o = true ↔ fitsFreeSpan limit es i e o := by
  by_cases hone : es.length ≤ 1
  · exact ⟨fun _ => .inl hone, fun _ => if_pos hone⟩
  obtain ⟨p, hp⟩ : ∃ p, es[(i + es.length - 1) % es.length]? = some p :=
    ⟨_, List.getElem?_eq_getElem (Nat.mod_lt _ (by omega))⟩
  obtain ⟨q, hq⟩ : ∃ q, es[(i + 1) % es.length]? = some q := ⟨_, List.getElem?_eq_getElem (Nat.mod_lt _ (by omega))⟩
  have hturn : (if i + 1 < es.length then 0 else 1 : Int) = if i + 1 = es.length then 1 else 0 := by
    by_cases hlast : i + 1 = es.length
    · rw [if_neg (by omega), if_pos hlast]
    · rw [if_pos (by omega), if_neg hlast]
  rw [candidatePasses_iff (by omega) (previous_place hi ▸ hp) (next_place hi ▸ hq), hturn, laterEnd_le_iff,
    le_earlierStart_iff]
  simp only [fitsFreeSpan, hone, false_or, hp, hq, Option.some.injEq]
  constructor
  · rintro ⟨h1, h2⟩
    exact ⟨fun r o hr => hr ▸ h1 o, fun r o hr => hr ▸ h2 o⟩
  · rintro ⟨h1, h2⟩
    exact ⟨fun o => h1 p o rfl, fun o => h2 q o rfl⟩

/-! ## The two stages of an entry (R65, R68) -/

section
variable {limit i : Nat} {gen : Id16} {es : List BladeEntry} {e : BladeEntry}

theorem stateAfterUpdate_applied (c : Bool) (st : BladeState) : stateAfterUpdate false c st =
    if st = .excluded then .excluded else if c then .displaced else if st = .displaced then .active else st := by
  cases st <;> cases c <;> rfl

theorem stateAfterUpdate_refused (st : BladeState) :
    stateAfterUpdate true false st = if st = .excluded then .excluded else .displaced := by
  cases st <;> rfl

theorem applyOffset_taken (hi : i < es.length) :
    offsetTaken limit gen es i e (applyOffset limit gen es i e).1 (applyOffset limit gen es i e).2 := by
  unfold applyOffset
  refine ⟨fun hnone => ?_, fun p hp => ⟨fun hfits => ?_, fun hnot => ?_⟩⟩
  · simp only [hnone, and_self]
  · have hpasses : candidatePasses limit es i e (limited limit p) = true := (candidatePasses_iff_fits hi).2 hfits
    have hne : (limited limit p != p) = true ↔ max (-(limit : Int)) (min limit p) ≠ p := bne_iff_ne
    simp only [hp, hpasses, if_true, stateAfterUpdate_applied, hne, bladeNotice_eq]
    exact ⟨rfl, trivial⟩
  · have hpasses : candidatePasses limit es i e (limited limit p) = false :=
      Bool.eq_false_iff.2 (mt (candidatePasses_iff_fits hi).1 hnot)
    simp only [hp, hpasses, Bool.false_eq_true, if_false, stateAfterUpdate_refused, bladeNotice_eq, and_self]

theorem applyMark_taken : markTaken gen i e (applyMark gen i e).1 (applyMark gen i e).2 := by
  unfold applyMark
  refine ⟨fun hnone => ?_, fun hex => ?_, fun hin => ?_⟩
  · simp only [hnone, and_self]
  · by_cases hst : e.state = .excluded
    · simp only [hex, hst, if_true, bladeSaid, and_self]
    · simp only [hex, hst, if_false, bladeNotice_eq, and_self]
  · by_cases hst : e.state = .excluded
    · simp only [hin, hst, if_true, bladeNotice_eq, and_self]
    · simp only [hin, hst, if_false, bladeSaid, if_true, and_self]

/-- A blade's passes through both stages leave what was learned of it, and nothing pending. -/
theorem advanceBlade_rest (limit : Nat) (gen : Id16) (es : List BladeEntry) (i : Nat) (e : BladeEntry) :
    (advanceBlade limit gen es i e).1.seen = e.seen ∧ (advanceBlade limit gen es i e).1.smoothed = e.smoothed ∧
      (advanceBlade limit gen es i e).1.pendingOffset = none ∧ (advanceBlade limit gen es i e).1.pendingMark = none := by
  have hoffset (f : BladeEntry) : (applyMark gen i f).1.seen = f.seen ∧ (applyMark gen i f).1.smoothed = f.smoothed ∧
      (applyMark gen i f).1.pendingOffset = f.pendingOffset ∧ (applyMark gen i f).1.pendingMark = none := by
    unfold applyMark
    split
    · exact ⟨rfl, rfl, rfl, ‹_›⟩
    all_goals split <;> exact ⟨rfl, rfl, rfl, rfl⟩
  have hmark : (applyOffset limit gen es i e).1.seen = e.seen ∧ (applyOffset limit gen es i e).1.smoothed = e.smoothed ∧
      (applyOffset limit gen es i e).1.pendingOffset = none := by
    cases hp : e.pendingOffset with
    | none => simp only [applyOffset, hp, and_self]
    | some p =>
      simp only [applyOffset, hp]
      split <;> exact ⟨rfl, rfl, rfl⟩
  obtain ⟨hseen, hsmoothed, hpending, hnone⟩ := hoffset (applyOffset limit gen es i e).1
  obtain ⟨hseen', hsmoothed', hpending'⟩ := hmark
  exact ⟨hseen.trans hseen', hsmoothed.trans hsmoothed', hpending.trans hpending', hnone⟩

theorem offsetMade_limited (h : e.offset.natAbs ≤ limit) : (offsetMade limit es i e).natAbs ≤ limit := by
  have hlimited (p : Int) : (limited limit p).natAbs ≤ limit := by
    rw [limited, clampInt]
    omega
  unfold offsetMade
  split
  · exact h
  · split
    · exact hlimited _
    · exact h

end

/-! ## All entries -/

/-- The entries of the new generation, and what is said of each. -/
def advanced (b : BladeTable) : List (BladeEntry × List Notice) := advanceBlades b.params.limit (b.gen + 1) b.entries

section
variable {b : BladeTable}

theorem getElem?_advanced {i : Nat} {e : BladeEntry} (h : b.entries[i]? = some e) :
    (advanced b)[i]? = some (advanceBlade b.params.limit (b.gen + 1) b.entries i e) := by
  rw [advanced, getElem?_advanceBlades, h, Option.map_some]

/-- An entry of the new generation is an old one through both stages. -/
theorem mem_advanced {f : BladeEntry} (h : f ∈ (advanced b).map (·.1)) : ∃ i e, b.entries[i]? = some e ∧
    f = (advanceBlade b.params.limit (b.gen + 1) b.entries i e).1 := by
  obtain ⟨p, hp, rfl⟩ := List.mem_map.1 h
  obtain ⟨⟨e, i⟩, hei, rfl⟩ := List.mem_map.1 hp
  exact ⟨i, e, List.mem_zipIdx_iff_getElem?.1 hei, rfl⟩

theorem advanced_entries : ((advanced b).map (·.1)).map (fun e => (e.id, e.nominal, e.width, e.seen, e.smoothed)) =
    b.entries.map (fun e => (e.id, e.nominal, e.width, e.seen, e.smoothed)) := by
  refine List.ext_getElem? fun i => ?_
  simp only [List.getElem?_map, advanced, getElem?_advanceBlades, Option.map_map]
  refine congrArg (fun f => Option.map f b.entries[i]?) (funext fun e => ?_)
  obtain ⟨hid, hnominal, hwidth, -⟩ := advanceBlade_entry b.params.limit (b.gen + 1) b.entries i e
  obtain ⟨hseen, hsmoothed, -, -⟩ := advanceBlade_rest b.params.limit (b.gen + 1) b.entries i e
  simp only [Function.comp_apply, hid, hnominal, hwidth, hseen, hsmoothed]

theorem bladesNewRevolution_advanced {s : State} (h : ∃ e ∈ s.bt.entries, e.pendingOffset ≠ none ∨ e.pendingMark ≠ none) :
    bladesNewRevolution s = queueNotices ((advanced s.bt).flatMap (·.2))
      { s with bt := newGeneration ((advanced s.bt).map (·.1)) s.bt } :=
  if_pos (any_hasPending.2 h)

end

/-- The plan's taking leaves the blade table and the notices. -/
theorem planNewRevolution_table (s : State) :
    (planNewRevolution s).bt = s.bt ∧ (planNewRevolution s).lp = s.lp := by
  rcases planNewRevolution_cases s with e | ⟨a, -, ⟨-, e⟩ | ⟨-, -, -, e⟩ | ⟨-, -, e⟩⟩
  · rw [e]; exact ⟨rfl, rfl⟩
  · rw [e, enterAcquiring]
    rcases driftTest_cases _ with h | ⟨_, -, -, ⟨-, -, h⟩ | ⟨-, h⟩⟩ <;> rw [h] <;> exact ⟨rfl, rfl⟩
  · rw [e]; exact ⟨rfl, rfl⟩
  · obtain ⟨x, n, h, -⟩ := enterTail_eq a (onPlan (fun q => { q with passesDone := s.spe.pass }) s)
    rw [e, h]
    exact ⟨rfl, rfl⟩

/-- The blade table takes the event once, whatever the order, and nothing else bears on it. -/
theorem takeAll_table (order : List Taker) (u : State) :
    (takeAll order true true u).bt = (bladesNewRevolution u).bt ∧ (takeAll order true true u).lp = (bladesNewRevolution u).lp := by
  obtain ⟨pe, bus, hrecords⟩ := tailEnds_recordsOnly ((takersInOrder order).foldl (takeBy true true) u)
  have hfold : ((takersInOrder order).foldl (takeBy true true) u).bt = (bladesNewRevolution u).bt ∧
      ((takersInOrder order).foldl (takeBy true true) u).lp = (bladesNewRevolution u).lp := by
    have hstands := foldl_takers (revolution := true) (edge := true) (order := order) (s := u)
      (Q := fun rest v => (v.bt, v.lp) = if Taker.blades ∈ rest then (u.bt, u.lp) else
        ((bladesNewRevolution u).bt, (bladesNewRevolution u).lp)) (fun k rest v hk hv => ?_)
      fun ks hks => (if_pos (hks .blades)).symm
    · exact Prod.mk.inj hstands
    have hkept (w : State) (hbt : w.bt = v.bt) (hlp : w.lp = v.lp) (hne : k ≠ .blades) :
        (w.bt, w.lp) = if Taker.blades ∈ rest then (u.bt, u.lp) else ((bladesNewRevolution u).bt, (bladesNewRevolution u).lp) := by
      rw [hbt, hlp, hv]
      simp only [List.mem_cons, Ne.symm hne, false_or]
    cases k with
    | plan => exact hkept _ (planNewRevolution_table v).1 (planNewRevolution_table v).2 (by decide)
    | blades =>
      rw [if_pos List.mem_cons_self] at hv
      obtain ⟨hbt, hlp⟩ := Prod.mk.inj hv
      rw [if_neg hk]
      show ((bladesNewRevolution v).bt, (bladesNewRevolution v).lp) = _
      unfold bladesNewRevolution
      rw [hbt]
      split
      · rw [queueNotices_lp, queueNotices_lp, hlp]
        rfl
      · rw [hbt, hlp]
    | due =>
      obtain ⟨x, hp, pe, h, -, -⟩ := angleDue_triggersOnly v
      exact hkept (angleDue v) (by rw [h]) (by rw [h]) (by decide)
    | strobe =>
      obtain ⟨x, w, h⟩ := strobeEdge_strobeOnly v
      exact hkept (strobeEdge v) (by rw [h]) (by rw [h]) (by decide)
  rw [show takeAll order true true u = _ from hrecords]
  exact hfold

/-- Settles O21: the entries advance one by one, and each notice is that of its own entry. -/
theorem newRevolutionMakesGeneration : Obligations.NewRevolutionMakesGeneration := by
  intro s after order hr hcross hnet hnew hpending
  let u : State := onEncoder (fun e => crossingTaken (edgeTaken e)) (elapse after s)
  obtain ⟨hbt, hlp⟩ := takeAll_table order u
  rw [bladesNewRevolution_advanced (s := u) hpending] at hbt hlp
  refine ⟨takeAll order true true u, (advanced s.bt).map (·.2), exec_newRevolution hr hcross hnet hnew, ?_⟩
  rw [hbt, hlp]
  refine ⟨rfl, rfl, rfl, rfl, advanced_entries, fun f hf => ?_, fun hlimit f hf => ?_, ?_, fun i e he => ?_, fun hroom => ?_⟩
  · obtain ⟨i, e, -, rfl⟩ := mem_advanced hf
    obtain ⟨-, -, hoffset, hmark⟩ := advanceBlade_rest s.bt.params.limit (s.bt.gen + 1) s.bt.entries i e
    exact ⟨hoffset, hmark⟩
  · obtain ⟨i, e, he, rfl⟩ := mem_advanced hf
    have hoffset := (advanceBlade_entry s.bt.params.limit (s.bt.gen + 1) s.bt.entries i e).2.2.2
    exact (congrArg Int.natAbs hoffset).trans_le (offsetMade_limited (hlimit e (List.mem_of_getElem? he)))
  · rw [List.length_map, advanced, length_advanceBlades]
  · have hget := getElem?_advanced he
    have hlt : i < s.bt.entries.length := (List.getElem?_eq_some_iff.1 he).1
    refine ⟨_, _, _, _, ?_, ?_, applyOffset_taken hlt, applyMark_taken⟩
    · show ((advanced s.bt).map (·.1))[i]? = _
      rw [List.getElem?_map, hget]
      rfl
    · rw [List.getElem?_map, hget]
      rfl
  · rw [← List.flatMap_def] at hroom ⊢
    exact congrArg State.lp (queueNotices_room
      (s := { u with bt := newGeneration ((advanced s.bt).map (·.1)) s.bt }) hroom)

end Sys2Proof.Proofs
end

