-- ==== Sys2Proof/Proofs/Faults.lean ====
section
/-! PROOF. The run teardown, the fault latch and the halts (R33, R87, R127, R141 to R148, R152). -/

open Sys2Proof Sys2Proof.Machine

namespace Sys2Proof.Proofs

/-! ## Records closed ABORTED (R87) -/

theorem hasFlag_withFlag (f : RecordFlag) (flags : BitVec 12) : hasFlag f (withFlag f flags) = true := by
  have hmask : (flagMask f).getLsbD (flagBit f) = true := by cases f <;> rfl
  rw [hasFlag, withFlag, BitVec.getLsbD_or, hmask, Bool.or_true]

/-- The close leaves whose record it is. -/
theorem finishRecord_identity (d : Detector) (aborted : Bool) (r : OpenRecord) :
    (finishRecord d aborted r).runId = r.runId ∧ (finishRecord d aborted r).blade = r.blade := by
  have hpoint (p : Point) (q : OpenRecord) : (appendPoint p q).runId = q.runId ∧ (appendPoint p q).blade = q.blade := by
    unfold appendPoint
    split <;> exact ⟨rfl, rfl⟩
  have hexit : (makeExit d r).runId = r.runId ∧ (makeExit d r).blade = r.blade := by
    unfold makeExit
    split
    · exact ⟨rfl, rfl⟩
    · split
      · exact ⟨rfl, rfl⟩
      · exact hpoint _ _
  unfold finishRecord
  split
  · exact ⟨rfl, rfl⟩
  · exact hexit
  · exact ⟨rfl, rfl⟩
  · exact ⟨rfl, rfl⟩

section
variable {a : ActiveStep} {h : Head} {s : State}

theorem closeHead_of_none {aborted : Bool} (hr : (s.pe.detectors.get h).record = none) : closeHead aborted h s = s := by
  simp only [closeHead, closeOpen, hr, deliverClosed, onDetector, PerHead.set_get_self]

/-- A teardown's close of one record: nothing is posted to the blade table, and the report and the record handed over carry
ABORTED. -/
theorem closeHead_aborted {r : OpenRecord} (ha : s.spe.active = some a) (hr : (s.pe.detectors.get h).record = some r) :
    ∃ q : OpenRecord, q.runId = r.runId ∧ q.blade = r.blade ∧ hasFlag .aborted q.flags = true ∧
      closeHead true h s = { s with
        pe := { s.pe with detectors := s.pe.detectors.set h (toOutside (s.pe.detectors.get h)) }
        bus := { s.bus with
          reports := s.bus.reports ++ [⟨q.flags, q.runId, q.blade, !a.step.flags.discard, q.stats⟩]
          handed := if a.step.flags.discard then s.bus.handed
            else s.bus.handed ++ [⟨sealRecord h a.step.flags.headerOnly q, s.eu.tick⟩] } } := by
  obtain ⟨hrun, hblade⟩ := finishRecord_identity (s.pe.detectors.get h) true r
  let f := finishRecord (s.pe.detectors.get h) true r
  let q : OpenRecord := { f with flags := withFlagIf false .reversed (withFlagIf true .aborted f.flags) }
  have hflag : hasFlag .aborted q.flags = true := hasFlag_withFlag .aborted f.flags
  refine ⟨q, hrun, hblade, hflag, ?_⟩
  have hclose : closeOpen true false (s.pe.detectors.get h) = (toOutside (s.pe.detectors.get h), some q) := by
    simp only [closeOpen, hr]
    rfl
  rw [closeHead, hclose]
  show deliver h q (onDetector h (fun _ => toOutside (s.pe.detectors.get h)) s) = _
  have hactive : (onDetector h (fun _ => toOutside (s.pe.detectors.get h)) s).spe.active = some a := ha
  simp only [deliver, hactive, hflag, Bool.not_true, Bool.and_false, Bool.false_eq_true, if_false]
  rfl

end

/-- The records that the heads of a list hold open have been closed ABORTED, in its order: from `s` to `t`. -/
def Aborted (a : ActiveStep) (hs : List Head) (s t : State) : Prop :=
  ∃ (d : PerHead Detector) (rs : List RecordReport) (ks : List Handed),
    t = { s with
      pe := { s.pe with detectors := d }
      bus := { s.bus with reports := s.bus.reports ++ rs, handed := s.bus.handed ++ ks } } ∧
    (∀ h, d.get h = s.pe.detectors.get h ∨ d.get h = toOutside (s.pe.detectors.get h)) ∧
    (rs.map (fun r => (r.runId, r.blade)) =
      (hs.filterMap fun h => (s.pe.detectors.get h).record).map (fun r => (r.runId, r.blade)) ∧
      ∀ r ∈ rs, hasFlag .aborted r.flags = true) ∧
    (a.step.flags.discard = true → ks = []) ∧
    (a.step.flags.discard = false → ks.map (fun x => x.record.head) =
        hs.filter (fun h => (s.pe.detectors.get h).record.isSome) ∧
      ∀ x ∈ ks, hasFlag .aborted x.record.flags = true ∧ x.tick = s.eu.tick)

theorem foldl_closeHead_aborted {a : ActiveStep} (hs : List Head) (hnodup : hs.Nodup) (s : State)
    (ha : s.spe.active = some a) : Aborted a hs s (hs.foldl (fun t h => closeHead true h t) s) := by
  induction hs generalizing s with
  | nil =>
    refine ⟨s.pe.detectors, [], [], ?_, fun _ => .inl rfl, ⟨rfl, fun r hr => nomatch hr⟩, fun _ => rfl,
      fun _ => ⟨rfl, fun x hx => nomatch hx⟩⟩
    rw [List.append_nil, List.append_nil]
    rfl
  | cons g gs ih =>
    obtain ⟨hg, hgs⟩ := List.nodup_cons.1 hnodup
    rw [List.foldl_cons]
    cases hr : (s.pe.detectors.get g).record with
    | none =>
      obtain ⟨d, rs, ks, ht, hd, hreports, hdiscard, hhanded⟩ := ih hgs s ha
      rw [closeHead_of_none hr]
      refine ⟨d, rs, ks, ht, hd, ?_, hdiscard, fun hno => ?_⟩
      · rw [List.filterMap_cons, hr]
        exact hreports
      · rw [List.filter_cons, hr]
        exact hhanded hno
    | some r =>
      obtain ⟨q, hrun, hblade, hflag, hclose⟩ := closeHead_aborted ha hr
      obtain ⟨d, rs, ks, ht, hd, ⟨hreports, hall⟩, hdiscard, hhanded⟩ := ih hgs (closeHead true g s) (by rw [hclose]; exact ha)
      have hothers : ∀ h ∈ gs, (closeHead true g s).pe.detectors.get h = s.pe.detectors.get h := fun h hh => by
        rw [hclose]
        exact PerHead.get_set_ne _ _ fun e => hg (e ▸ hh)
      have hmap : (gs.filterMap fun h => ((closeHead true g s).pe.detectors.get h).record) =
          gs.filterMap fun h => (s.pe.detectors.get h).record :=
        List.filterMap_congr fun h hh => by rw [hothers h hh]
      have hfilter : (gs.filter fun h => ((closeHead true g s).pe.detectors.get h).record.isSome) =
          gs.filter fun h => (s.pe.detectors.get h).record.isSome :=
        List.filter_congr fun h hh => by rw [hothers h hh]
      rw [hmap] at hreports
      rw [hfilter] at hhanded
      rw [ht, hclose]
      refine ⟨d, ⟨q.flags, q.runId, q.blade, !a.step.flags.discard, q.stats⟩ :: rs,
        (if a.step.flags.discard then [] else [⟨sealRecord g a.step.flags.headerOnly q, s.eu.tick⟩]) ++ ks,
        ?_, fun h => ?_, ⟨?_, ?_⟩, fun hyes => ?_, fun hno => ?_⟩
      · cases a.step.flags.discard <;> simp
      · rcases hd h with e | e
        · rw [e, hclose]
          by_cases hh : h = g
          · subst hh
            exact .inr (PerHead.get_set_self _ _ _)
          · exact .inl (PerHead.get_set_ne _ _ hh)
        · rw [e, hclose]
          by_cases hh : h = g
          · subst hh
            refine .inr ?_
            rw [PerHead.get_set_self]
            rfl
          · exact .inr (congrArg toOutside (PerHead.get_set_ne _ _ hh))
      · rw [List.filterMap_cons, hr, List.map_cons, hreports, List.map_cons, hrun, hblade]
      · intro x hx
        rcases List.mem_cons.1 hx with rfl | hmem
        · exact hflag
        · exact hall x hmem
      · rw [hyes, hdiscard hyes]
        rfl
      · obtain ⟨hheads, haborted⟩ := hhanded hno
        have htick : (closeHead true g s).eu.tick = s.eu.tick := by rw [hclose]
        rw [hno]
        refine ⟨?_, fun x hx => ?_⟩
        · rw [List.filter_cons, hr]
          exact congrArg (g :: ·) hheads
        · rcases List.mem_cons.1 hx with rfl | hmem
          · exact ⟨hflag, rfl⟩
          · exact htick ▸ haborted x hmem

theorem foldl_closeHead_of_none {s : State} {aborted : Bool} (hs : List Head)
    (h : ∀ g, (s.pe.detectors.get g).record = none) : hs.foldl (fun t g => closeHead aborted g t) s = s := by
  induction hs with
  | nil => rfl
  | cons g gs ih => rw [List.foldl_cons, closeHead_of_none (h g), ih]

theorem openRecords_eq (s : State) : openRecords s = (openInOrder s).length := by
  have hcount (hs : List Head) : (hs.filter fun h => recordOpen h s).length =
      (hs.filterMap fun h => (s.pe.detectors.get h).record).length := by
    induction hs with
    | nil => rfl
    | cons h hs ih =>
      cases hr : (s.pe.detectors.get h).record with
      | none => simpa [List.filter_cons, List.filterMap_cons, recordOpen, hr] using ih
      | some r => simpa [List.filter_cons, List.filterMap_cons, recordOpen, hr] using ih
  exact hcount heads

theorem none_open {s : State} (h : openInOrder s = []) (g : Head) : (s.pe.detectors.get g).record = none :=
  List.filterMap_eq_nil_iff.1 h g (mem_heads g)

/-! ## The teardown (R33, R127) -/

theorem emptyPlan_eq (st : PlanState) (p : ScanPlan) : emptyPlan st p = planAtRest st p := rfl

theorem stopTails_eq (s : State) : stopTails s = { s with tu := tailsStopped s.tu } := rfl

theorem dropAcc_eq (m : RunoutMap) : dropAcc m = { m with acc := accumulatorsAt none, saved := none } := rfl

section
variable (st : PlanState) (s : State)

/-- What a teardown leaves of the blocks that no record bears on. -/
theorem teardown_frames : (teardown st s).eu = s.eu ∧ (teardown st s).bt = s.bt ∧ (teardown st s).rs = s.rs ∧
    (teardown st s).lp = s.lp ∧ (teardown st s).spe = { planAtRest st s.spe with drift := false } := by
  obtain ⟨pe, bus, h⟩ := RecordsOnly.foldl (fun t h => closeHead_recordsOnly true h t) heads s
  simp only [teardown, abortRecords, h]
  exact ⟨rfl, rfl, rfl, rfl, rfl⟩

variable {s}

theorem teardown_bus_of_none (h : openInOrder s = []) : (teardown st s).bus = s.bus := by
  simp only [teardown, abortRecords, foldl_closeHead_of_none heads (none_open h)]
  rfl

theorem teardown_tornDown {a : ActiveStep} (ha : s.spe.active = some a) :
    tornDown a s (teardown st s) ∧ (teardown st s).bus.raisings = s.bus.raisings := by
  obtain ⟨d, rs, ks, ht, hd, hreports, hdiscard, hhanded⟩ := foldl_closeHead_aborted heads (by decide) s ha
  have hoff (h : Head) : toOutside (d.get h) = toOutside (s.pe.detectors.get h) := by
    rcases hd h with e | e <;> rw [e]
    rfl
  simp only [teardown, abortRecords, ht]
  refine ⟨⟨⟨rfl, rfl, rfl, rfl, rfl, rfl, rfl, rfl⟩, fun h => ?_, rfl, rfl, ⟨rs, rfl, hreports⟩, fun hyes => ?_,
    fun hno => ⟨ks, rfl, hhanded hno⟩⟩, rfl⟩
  · have hport : (s.hp.map fun p => { p with outstanding := [], queue := [] }).get h =
        { s.hp.get h with outstanding := [], queue := [] } := PerHead.get_map _ _ _
    have hdetector : (d.map toOutside).get h = toOutside (s.pe.detectors.get h) := (PerHead.get_map _ _ _).trans (hoff h)
    refine ⟨hport, ?_⟩
    show ((d.map toOutside).get h).state = _ ∧ ((d.map toOutside).get h).record = _ ∧ ((d.map toOutside).get h).lastSeq = _ ∧
      ((d.map toOutside).get h).recorded = _
    rw [hdetector]
    exact ⟨rfl, rfl, rfl, rfl⟩
  · show s.bus.handed ++ ks = _
    rw [hdiscard hyes, List.append_nil]

end

/-! ## The halt (R147) -/

theorem takeHalt_eq {r : FaultRecord} {s : State} (hl : s.spe.latch = some r) (hroom : s.lp.notices.length < 32) :
    takeHalt s = { haltTaken r s with lp := { s.lp with
      notices := s.lp.notices ++ [.faultHalted { r with taken := true } .faulted s.spe.secondary] } } := by
  simp only [takeHalt, hl]
  exact queueNotice_room (s := { stopTails s with rm := _, spe := _ }) hroom

theorem haltPending_eq {r : FaultRecord} {s : State} (hl : s.spe.latch = some r) (hp : r.policy = .haltAtStepEnd)
    (ht : r.taken = false) : haltPending s = true := by
  simp only [haltPending, hl, hp, ht, beq_self_eq_true, Bool.not_false, Bool.and_self]

theorem haltPending_of_clear {s : State} (hl : s.spe.latch = none) : haltPending s = false := by
  simp only [haltPending, hl]

/-! ## A raising (R141 to R148) -/

theorem policyOf_eq {cls : FaultClass} {s : State} (h : cls ≠ .stepInvalid) :
    policyOf cls s = s.spe.params.policies[classIndex cls] := by
  cases cls <;> first | rfl | exact absurd rfl h

section
variable {x : Raising} {s : State}

theorem raiseFault_report (hp : policyOf x.cls s = .report) (hroom : s.lp.notices.length < 32) :
    raiseFault x s = { s with
      spe := { s.spe with faultCounters := s.spe.faultCounters.set (classIndex x.cls) (satInc s.spe.faultCounters[classIndex x.cls]) }
      lp := { s.lp with notices := s.lp.notices ++
        [.faultRaised x.cls x.head x.tag x.pass x.tick .reported s.spe.state s.spe.secondary 0] } } := by
  refine (if_pos (show (recordOf x (policyOf x.cls s)).policy = .report from hp)).trans ?_
  exact queueNotice_room (s := onPlan (countFault x.cls) s) hroom

theorem raiseFault_latches (hp : policyOf x.cls s ≠ .report) (hl : s.spe.latch = none) :
    raiseFault x s = latchFirst (recordOf x (policyOf x.cls s)) (onPlan (countFault x.cls) s) := by
  refine (if_neg (show ¬ (recordOf x (policyOf x.cls s)).policy = .report from hp)).trans ?_
  rw [show (onPlan (countFault x.cls) s).spe.latch = none from hl]

theorem raiseFault_second {held : FaultRecord} (hp : policyOf x.cls s ≠ .report) (hl : s.spe.latch = some held) :
    raiseFault x s = latchSecond held (recordOf x (policyOf x.cls s)) (onPlan (countFault x.cls) s) := by
  refine (if_neg (show ¬ (recordOf x (policyOf x.cls s)).policy = .report from hp)).trans ?_
  rw [show (onPlan (countFault x.cls) s).spe.latch = some held from hl]

/-- A record under HALT_AT_STEP_END latched in a run waits for the step's end (R146). -/
theorem latchFirst_waits {r : FaultRecord} (hp : r.policy = .haltAtStepEnd)
    (hs : s.spe.state ∈ [.settling, .armed, .acquiring, .tail]) (hroom : s.lp.notices.length < 32) :
    latchFirst r s = { s with
      spe := { s.spe with latch := some r }
      lp := { s.lp with notices := s.lp.notices ++ [raisedNotice r .latchedHalt 0 s] } } := by
  have hrest : ¬ (s.spe.state = .idle ∨ s.spe.state = .halted) := by
    rintro (h | h) <;> rw [h] at hs <;> exact absurd hs (by decide)
  refine (if_neg (by rw [hp]; decide)).trans ((if_neg hrest).trans ?_)
  exact queueNotice_room (s := onPlan (fun p => { p with latch := some r }) s) hroom

/-- A record under HALT_AT_STEP_END latched with no run to wait for halts at once (R146, R147). -/
theorem latchFirst_halts {r : FaultRecord} (hp : r.policy = .haltAtStepEnd)
    (hs : s.spe.state = .idle ∨ s.spe.state = .halted) (hroom : s.lp.notices.length + 2 ≤ 32) :
    latchFirst r s = { haltTaken r s with lp := { s.lp with notices := s.lp.notices ++
      [raisedNotice r .latchedHalt 0 s, .faultHalted { r with taken := true } .faulted s.spe.secondary] } } := by
  refine (if_neg (by rw [hp]; decide)).trans ((if_pos hs).trans ?_)
  refine (congrArg takeHalt (queueNotice_room (s := onPlan (fun p => { p with latch := some r }) s)
    (show s.lp.notices.length < 32 by omega))).trans ?_
  refine (takeHalt_eq (r := r) rfl ?_).trans ?_
  · show (s.lp.notices ++ [_]).length < 32
    rw [List.length_append, List.length_singleton]
    omega
  · show ({ haltTaken r s with lp := { s.lp with notices := s.lp.notices ++ [_] ++ [_] } } : State) = _
    rw [List.append_assoc]
    rfl

/-- A raising that stops the run (R145). -/
theorem raiseFault_stopNow (hp : policyOf x.cls s = .stopNow) (hl : s.spe.latch = none) (hroom : s.lp.notices.length < 32) :
    let t := raiseFault x s
    (t.eu = s.eu ∧ t.bt = s.bt ∧ t.rs = s.rs) ∧ t.spe = stoppedNow x s.spe ∧
      t.lp = { s.lp with notices := s.lp.notices ++ [stoppedSaid x s] } ∧ (openInOrder s = [] → t.bus = s.bus) ∧
      ∀ a, s.spe.active = some a → tornDown a s t ∧ t.bus.raisings = s.bus.raisings := by
  let u : State := onPlan (fun p => { p with latch := some (recordOf x .stopNow) }) (onPlan (countFault x.cls) s)
  obtain ⟨heu, hbt, hrs, hlp, hspe⟩ := teardown_frames .faulted u
  have hraise : raiseFault x s = queueNotice (raisedNotice (recordOf x .stopNow) .latchedStop (openRecords s) (teardown .faulted u))
      (teardown .faulted u) := by
    rw [raiseFault_latches (by rw [hp]; decide) hl, hp]
    exact if_pos rfl
  have hnotice : raisedNotice (recordOf x .stopNow) .latchedStop (openRecords s) (teardown .faulted u) = stoppedSaid x s := by
    rw [raisedNotice, hspe, openRecords_eq]
    rfl
  rw [hnotice, queueNotice_room (by rw [hlp]; exact hroom)] at hraise
  rw [hraise]
  refine ⟨⟨heu, hbt, hrs⟩, hspe, ?_, fun hnone => teardown_bus_of_none .faulted (s := u) hnone, fun a ha => ?_⟩
  · rw [hlp]
    rfl
  · exact teardown_tornDown .faulted (s := u) ha

/-- A raising that stops a run whose halt was waiting (R148). -/
theorem raiseFault_escalates {held : FaultRecord} {a : ActiveStep} (hp : policyOf x.cls s = .stopNow)
    (hl : s.spe.latch = some held) (hheld : held.policy = .haltAtStepEnd) (htaken : held.taken = false)
    (ha : s.spe.active = some a) (hroom : s.lp.notices.length < 32) :
    let t := raiseFault x s
    tornDown a s t ∧ t.bus.raisings = s.bus.raisings ∧
      t.spe = { planAtRest .faulted s.spe with
        drift := false
        faultCounters := s.spe.faultCounters.set (classIndex x.cls) (satInc s.spe.faultCounters[classIndex x.cls])
        latch := some { held with taken := true }, secondary := satInc s.spe.secondary } ∧
      t.lp = { s.lp with notices := s.lp.notices ++ [.faultRaised x.cls x.head x.tag x.pass x.tick .escalated .faulted
        (satInc s.spe.secondary) (openInOrder s).length] } := by
  let u : State := onPlan (fun p => { p with secondary := satInc p.secondary, latch := some { held with taken := true } })
    (onPlan (countFault x.cls) s)
  obtain ⟨-, -, -, hlp, hspe⟩ := teardown_frames .faulted u
  have hraise : raiseFault x s = queueNotice (raisedNotice (recordOf x .stopNow) .escalated (openRecords s) (teardown .faulted u))
      (teardown .faulted u) := by
    rw [raiseFault_second (by rw [hp]; decide) hl, hp]
    exact if_pos ⟨rfl, hheld, htaken⟩
  have hnotice : raisedNotice (recordOf x .stopNow) .escalated (openRecords s) (teardown .faulted u) =
      .faultRaised x.cls x.head x.tag x.pass x.tick .escalated .faulted (satInc s.spe.secondary) (openInOrder s).length := by
    rw [raisedNotice, hspe, openRecords_eq]
    rfl
  rw [hnotice, queueNotice_room (by rw [hlp]; exact hroom)] at hraise
  rw [hraise]
  obtain ⟨htorn, hraisings⟩ := teardown_tornDown .faulted (s := u) ha
  refine ⟨htorn, hraisings, hspe, ?_⟩
  rw [hlp]
  rfl

end

theorem exec_faultRaise_front {s : State} {r : Raising} {rest : List Raising} (hr : s.resetHeld = false)
    (h : s.bus.raisings = r :: rest) :
    exec (.faultRaise 0) s = .next (raiseFault r { s with bus := { s.bus with raisings := rest } }) := by
  rw [exec_faultRaise 0 s hr, takeRaising, h, takeOvertaking_front]

/-- Settles O45, one disposition of the latch at a time. -/
theorem raisingIsDisposed : Obligations.RaisingIsDisposed := by
  intro s r rest hr hfront hcls hroom i bus q falt notified latched
  let t : State := { s with bus := bus }
  have hexec : exec (.faultRaise 0) s = .next (raiseFault r t) := exec_faultRaise_front hr hfront
  have hpolicy : policyOf r.cls t = s.spe.params.policies[i] := policyOf_eq hcls
  refine ⟨fun hp => ?_, fun hp hl hs => ?_, fun hp hl hs => ?_, fun held hl hp => ?_⟩
  · rw [hexec, raiseFault_report (hpolicy.trans hp) (show t.lp.notices.length < 32 by show s.lp.notices.length < 32; omega)]
  · rw [hexec, raiseFault_latches (s := t) (by rw [hpolicy, hp]; decide) hl, hpolicy, hp]
    exact congrArg Host.Outcome.next
      (latchFirst_waits (s := onPlan (countFault r.cls) t) rfl hs (show s.lp.notices.length < 32 by omega))
  · rw [hexec, raiseFault_latches (s := t) (by rw [hpolicy, hp]; decide) hl, hpolicy, hp]
    exact congrArg Host.Outcome.next (latchFirst_halts (s := onPlan (countFault r.cls) t) rfl hs hroom)
  · have hother : ¬ ((recordOf r s.spe.params.policies[i]).policy = .stopNow ∧ held.policy = .haltAtStepEnd ∧ held.taken = false) := by
      rintro ⟨h1, h2, h3⟩
      have h1' : s.spe.params.policies[i] = .stopNow := h1
      rcases hp with hp | ⟨-, hp | hp⟩
      · rw [hp] at h1'; cases h1'
      · rw [hp] at h2; cases h2
      · rw [hp] at h3; cases h3
    have hnot : policyOf r.cls t ≠ .report := by
      rw [hpolicy]
      rcases hp with hp | ⟨hp, -⟩ <;> rw [hp] <;> decide
    rw [hexec, raiseFault_second (s := t) hnot hl, hpolicy]
    refine congrArg Host.Outcome.next ((if_neg hother).trans ?_)
    exact queueNotice_room (s := onPlan (fun p => { p with secondary := satInc p.secondary }) (onPlan (countFault r.cls) t))
      (show s.lp.notices.length < 32 by omega)

/-! ## A STOP (R126, R127) -/

section
variable {s : State} {a : ActiveStep} {byLine : Bool}

theorem stopRun_clear (ha : s.spe.active = some a) (hl : s.spe.latch = none) (hroom : s.lp.notices.length < 32) :
    stopRun byLine s = { teardown .idle s with lp := { s.lp with notices := s.lp.notices ++
      [.runStopped byLine a.slot a.step.tag a.runId s.spe.state s.spe.pass (openInOrder s).length] } } := by
  obtain ⟨-, -, -, hlp, -⟩ := teardown_frames .idle s
  simp only [stopRun, ha, hl]
  rw [queueNotice_room (by rw [hlp]; exact hroom), hlp, openRecords_eq]

theorem stopRun_latched {r : FaultRecord} (ha : s.spe.active = some a) (hl : s.spe.latch = some r)
    (hroom : s.lp.notices.length + 2 ≤ 32) :
    stopRun byLine s = { haltTaken r (teardown .faulted s) with lp := { s.lp with notices := s.lp.notices ++
      [.runStopped byLine a.slot a.step.tag a.runId s.spe.state s.spe.pass (openInOrder s).length,
       .faultHalted { r with taken := true } .faulted s.spe.secondary] } } := by
  obtain ⟨-, -, -, hlp, hspe⟩ := teardown_frames .faulted s
  simp only [stopRun, ha, hl]
  rw [queueNotice_room (by rw [hlp]; omega), hlp, openRecords_eq]
  refine (takeHalt_eq (r := r) (hspe ▸ hl) ?_).trans ?_
  · show (s.lp.notices ++ [_]).length < 32
    rw [List.length_append, List.length_singleton]
    omega
  · show ({ haltTaken r (teardown .faulted s) with lp := { s.lp with notices := s.lp.notices ++ [_] ++
      [.faultHalted { r with taken := true } .faulted (teardown .faulted s).spe.secondary] } } : State) = _
    rw [List.append_assoc, hspe]
    rfl

end

/-- A halt taken on a run that a teardown has ended tears nothing more down. -/
theorem tornDown_haltTaken {a : ActiveStep} {r : FaultRecord} {s t : State} (h : tornDown a s t) :
    tornDown a s (haltTaken r t) := by
  obtain ⟨⟨heu, hbt, hrs, htu, hrm, hax, hpe⟩, hrest⟩ := h
  refine ⟨⟨heu, hbt, hrs, ?_, ?_, hax, hpe⟩, hrest⟩
  · show tailsStopped t.tu = _
    rw [htu]
    exact congrArg (fun x => (⟨x, none⟩ : TriggerUnit)) (PerHead.ext_get fun h => by simp only [tailsStopped, PerHead.get_map])
  · show ({ t.rm with acc := accumulatorsAt none, saved := none } : RunoutMap) = _
    rw [hrm]

/-- Settles O46: the teardown closes each open record ABORTED in head order, and each disposal is a teardown with its own
notice. -/
theorem runIsTornDown : Obligations.RunIsTornDown := by
  intro s hr hroom n
  refine ⟨?_, ?_⟩
  · intro tag b rest ho link
    refine ⟨fun hs => ?_, fun hidle hfaulted a ha => ?_⟩
    · have hno : stoppable (dequeued rest s) = false := by
        show (!(s.spe.state == .idle || s.spe.state == .faulted)) = false
        rcases hs with h | h <;> rw [h] <;> rfl
      exact hostCommand_replied (f := withLength 1 fun _ s => stopCommand s) ho
        ((if_pos rfl).trans (if_neg (by rw [hno]; decide)))
    · let u := dequeued rest s
      have hyes : stoppable u = true := by
        show (!(s.spe.state == .idle || s.spe.state == .faulted)) = true
        simp [hidle, hfaulted]
      have hrun : exec .stop s = .next (onLink (fun l => { l with reply := some ⟨tag, keywordBytes .stop, .ok, []⟩ })
          (stopRun false u)) :=
        hostCommand_executed (f := withLength 1 fun _ s => stopCommand s) ho ((if_pos rfl).trans (if_pos hyes))
      cases hl : s.spe.latch with
      | none =>
        obtain ⟨htorn, hraisings⟩ := teardown_tornDown .idle (s := u) ha
        obtain ⟨-, -, -, -, hspe⟩ := teardown_frames .idle u
        rw [hrun, stopRun_clear (s := u) ha hl (show s.lp.notices.length < 32 by omega)]
        refine ⟨_, rfl, htorn, hraisings, ?_⟩
        intro rstp
        exact ⟨fun _ => ⟨hspe, rfl⟩, fun r h => by cases h⟩
      | some r =>
        obtain ⟨htorn, hraisings⟩ := teardown_tornDown .faulted (s := u) ha
        obtain ⟨-, -, -, -, hspe⟩ := teardown_frames .faulted u
        rw [hrun, stopRun_latched (s := u) ha hl hroom]
        refine ⟨_, rfl, tornDown_haltTaken (r := r) (t := teardown .faulted u) htorn, hraisings, ?_⟩
        intro rstp
        refine ⟨fun h => (by cases h), fun q hq => ?_⟩
        cases hq
        refine ⟨?_, rfl⟩
        show ({ planAtRest .faulted (teardown .faulted u).spe with latch := some { r with taken := true } } : ScanPlan) = _
        rw [hspe]
        rfl
  · intro r rest hfront hcls hpolicy
    let u : State := { s with bus := { s.bus with raisings := rest } }
    have hexec : exec (.faultRaise 0) s = .next (raiseFault r u) := exec_faultRaise_front hr hfront
    have hp : policyOf r.cls u = .stopNow := (policyOf_eq hcls).trans hpolicy
    have hnotices : u.lp.notices.length < 32 := by
      show s.lp.notices.length < 32
      omega
    refine ⟨fun a ha hl => ?_, fun ha hl hidle hn => ?_, fun a held ha hl hheld htaken => ?_⟩
    · obtain ⟨-, hspe, hlp, -, htorn⟩ := raiseFault_stopNow hp hl hnotices
      exact ⟨_, hexec, (htorn a ha).1, (htorn a ha).2, hspe, hlp⟩
    · obtain ⟨⟨heu, hbt, hrs⟩, hspe, hlp, hbus, -⟩ := raiseFault_stopNow hp hl hnotices
      refine ⟨_, hexec, heu, hbt, hrs, hbus (List.length_eq_zero_iff.1 hn), hspe, hlp.trans ?_⟩
      have hcount : (openInOrder u).length = 0 := hn
      rw [stoppedSaid, hcount]
    · obtain ⟨htorn, hraisings, hspe, hlp⟩ := raiseFault_escalates hp hl hheld htaken ha hnotices
      exact ⟨_, hexec, htorn, hraisings, hspe, hlp⟩

end Sys2Proof.Proofs
end

