-- ==== Sys2Proof/Proofs/LineChanges.lean ====
section
/-! PROOF. Level changes of the auxiliary lines and the edges they make (R182). -/

open Sys2Proof Sys2Proof.Machine

namespace Sys2Proof.Proofs

theorem inputActive_iff {f : AuxFunction} {a : AuxUnit} :
    inputActive f a = true ↔ ∃ i : Fin 8, a.lines[i].function = f ∧ a.lines[i].outside ≠ a.lines[i].activeLow := by
  simp only [inputActive, lineActive, List.any_eq_true, Bool.and_eq_true, beq_iff_eq, bne_iff_ne, Vector.mem_toList_iff,
    Vector.mem_iff_getElem]
  constructor
  · rintro ⟨_, ⟨i, hi, rfl⟩, h⟩
    exact ⟨⟨i, hi⟩, h⟩
  · rintro ⟨i, h⟩
    exact ⟨_, ⟨i.val, i.isLt, rfl⟩, h⟩

section
variable {i : Fin 8} {high : Bool} {order : List Taker} {s : State}

/-- The level `high` makes the function of line `i` active, with no other line of it active (R182). -/
def GoesActive (i : Fin 8) (high : Bool) (s : State) : Prop :=
  s.ax.lines[i].outside = s.ax.lines[i].activeLow ∧ high ≠ s.ax.lines[i].activeLow ∧
    ∀ j : Fin 8, j ≠ i → s.ax.lines[j].function = s.ax.lines[i].function → s.ax.lines[j].outside = s.ax.lines[j].activeLow

/-- The state in which line `i` has taken its level. -/
def lineTaken (i : Fin 8) (high : Bool) (s : State) : State := onLine i (fun l => { l with outside := high }) s

theorem lineTaken_same : (lineTaken i high s).ax.lines[i] = { s.ax.lines[i] with outside := high } :=
  Vector.getElem_set_self _

theorem lineTaken_ne {j : Fin 8} (h : j ≠ i) : (lineTaken i high s).ax.lines[j] = s.ax.lines[j] :=
  Vector.getElem_set_ne i.isLt j.isLt fun e => h (Fin.ext e.symm)

/-- A function goes active by a line's change exactly when no line of it was active and this one now is. -/
theorem goesActive_iff : GoesActive i high s ↔
    inputActive s.ax.lines[i].function s.ax = false ∧ inputActive s.ax.lines[i].function (lineTaken i high s).ax = true := by
  rw [inputActive_iff, Bool.eq_false_iff, Ne, inputActive_iff]
  constructor
  · rintro ⟨hbefore, hhigh, hothers⟩
    refine ⟨?_, i, ?_⟩
    · rintro ⟨j, hj, hactive⟩
      by_cases hji : j = i
      · exact hactive (hji ▸ hbefore)
      · exact hactive (hothers j hji hj)
    · rw [lineTaken_same]
      exact ⟨rfl, hhigh⟩
  · rintro ⟨hnone, j, hj, hactive⟩
    have hall (k : Fin 8) (hk : s.ax.lines[k].function = s.ax.lines[i].function) :
        s.ax.lines[k].outside = s.ax.lines[k].activeLow := by
      by_contra h
      exact hnone ⟨k, hk, h⟩
    have hji : j = i := by
      by_contra h
      rw [lineTaken_ne h] at hj hactive
      exact hactive (hall j hj)
    rw [hji, lineTaken_same] at hactive
    exact ⟨hall i rfl, hactive, fun k _ hk => hall k hk⟩

theorem lineChange_eq : lineChange i high order s =
    if inputActive s.ax.lines[i].function s.ax = inputActive s.ax.lines[i].function (lineTaken i high s).ax then
      lineTaken i high s
    else if s.ax.lines[i].function = .inposIn then settleTest (lineTaken i high s)
    else if inputActive s.ax.lines[i].function (lineTaken i high s).ax then
      risingEdge s.ax.lines[i].function order (lineTaken i high s)
    else lineTaken i high s := rfl

/-- A change that makes no edge only takes the level. -/
theorem lineChange_of_no_edge (hf : s.ax.lines[i].function ≠ .inposIn) (h : ¬ GoesActive i high s) :
    lineChange i high order s = lineTaken i high s := by
  rw [lineChange_eq, if_neg hf]
  split
  · rfl
  · rename_i hne
    split
    · rename_i hafter
      exact absurd (goesActive_iff.2 ⟨Bool.eq_false_iff.2 fun hbefore => hne (hbefore.trans hafter.symm), hafter⟩) h
    · rfl

/-- A change that makes its function go active makes its edge. -/
theorem lineChange_of_edge (hf : s.ax.lines[i].function ≠ .inposIn) (h : GoesActive i high s) :
    lineChange i high order s = risingEdge s.ax.lines[i].function order (lineTaken i high s) := by
  obtain ⟨hbefore, hafter⟩ := goesActive_iff.1 h
  rw [lineChange_eq, hbefore, hafter, if_neg Bool.false_ne_true, if_neg hf, if_pos rfl]

theorem lineChange_of_inposIn (hf : s.ax.lines[i].function = .inposIn) (hs : s.spe.state ≠ .settling) :
    lineChange i high order s = lineTaken i high s := by
  rw [lineChange_eq, if_pos hf, settleTest_of_not_settling (s := lineTaken i high s) hs, ite_self]

end

/-- A function that acts by no edge leaves the state as it is. -/
theorem risingEdge_of_other {f : AuxFunction} {order : List Taker} {s : State}
    (h : f ∉ [AuxFunction.inposIn, .radialHomeIn, .stopIn, .interjectIn, .indexIn]) : risingEdge f order s = s := by
  cases f <;> first | rfl | exact absurd (by decide) h

theorem stoppable_iff {s : State} : stoppable s = true ↔ s.spe.state ≠ .idle ∧ s.spe.state ≠ .faulted := by
  simp [stoppable]

theorem requestInterjection_waits {slot : Slot} {s : State} (ha : s.spe.active ≠ none) (hs : takingSamples s.spe.state) :
    requestInterjection slot s = onPlan (fun q => { q with interjection := .pending slot }) s := by
  obtain ⟨a, ha⟩ := Option.ne_none_iff_exists'.1 ha
  rcases hs with hs | hs <;> simp only [requestInterjection, ha, hs]

theorem interjectionRefusal_of_taking {s : State} (hs : takingSamples s.spe.state) (hi : s.spe.interjection = .none) :
    interjectionRefusal s = none := by
  have hstop : stoppable s = true := stoppable_iff.2 (by rcases hs with h | h <;> rw [h] <;> decide)
  rw [interjectionRefusal, hstop, if_neg (by decide), if_neg (not_not.2 hi)]

/-- Settles O60: a line of an edge function acts by `risingEdge` exactly when its function goes active. -/
theorem lineChangesMakeEdges : Obligations.LineChangesMakeEdges := by
  intro s after i high order hr u t line goesActive moves
  have hexec : moves = .next (lineChange i high order u) := by
    show Host.Outcome.next (lineChangeAny after i high order s) = _
    rw [lineChangeAny, if_neg (by rw [hr]; decide)]
  have hedge (f : AuxFunction) (hf : line.function = f) (hne : f ≠ .inposIn) (h : goesActive) :
      moves = .next (risingEdge f order t) := by
    rw [hexec, lineChange_of_edge (s := u) (show line.function ≠ _ from hf ▸ hne) h]
    exact congrArg (fun f => Host.Outcome.next (risingEdge f order t)) hf
  have hquiet (hne : line.function ≠ .inposIn) (h : ¬ goesActive) : moves = .next t := by
    rw [hexec, lineChange_of_no_edge (s := u) hne h]
    rfl
  have hthis (f : AuxFunction) (hf : line.function = f) (hne : f ≠ .inposIn) (h : risingEdge f order t = t) :
      moves = .next t := by
    by_cases hgoes : goesActive
    · rw [hedge f hf hne hgoes, h]
    · exact hquiet (hf ▸ hne) hgoes
  refine ⟨fun hf => ?_, hquiet, fun hf hs => ?_, fun hf hs => ?_, fun hf hgoes hidle hfaulted hl hroom a ha => ?_,
    fun hf hgoes hsettling hacquiring => ?_, fun hf hgoes htaking hi ha => ?_,
    fun hf hgoes => ⟨fun hd => ?_, fun hd href hs hroom => ?_, fun hd href hlow htail => ?_⟩⟩
  · exact hthis line.function rfl (fun h => hf (h ▸ List.mem_cons_self)) (risingEdge_of_other hf)
  · rw [hexec, lineChange_of_inposIn (s := u) hf hs]
    rfl
  · refine hthis .stopIn hf (by decide) (if_neg fun hstop => ?_)
    obtain ⟨hidle, hfaulted⟩ := stoppable_iff.1 hstop
    exact hs.elim hidle hfaulted
  · obtain ⟨htorn, hraisings⟩ := teardown_tornDown .idle (s := t) ha
    obtain ⟨-, -, -, -, hspe⟩ := teardown_frames .idle t
    have hstop : risingEdge .stopIn order t = stopRun true t := if_pos (stoppable_iff.2 ⟨hidle, hfaulted⟩)
    rw [hedge .stopIn hf (by decide) hgoes, hstop, stopRun_clear (s := t) ha hl hroom]
    exact ⟨_, rfl, htorn, hraisings, hspe, rfl⟩
  · rw [hedge .radialHomeIn hf (by decide) hgoes]
    exact congrArg Host.Outcome.next (radiusMoved_of_untested (s := t) _ _ hsettling hacquiring)
  · rw [hedge .interjectIn hf (by decide) hgoes]
    exact congrArg Host.Outcome.next ((if_pos (interjectionRefusal_of_taking (s := t) htaking hi)).trans
      (requestInterjection_waits (s := t) ha htaking))
  · rw [hedge .indexIn hf (by decide) hgoes]
    exact congrArg Host.Outcome.next (indexEdge_of_reverse order (s := t) hd)
  · rw [hedge .indexIn hf (by decide) hgoes]
    exact congrArg Host.Outcome.next (indexEdge_unreferenced order (s := t) hd href hs hroom)
  · rw [hedge .indexIn hf (by decide) hgoes]
    refine congrArg Host.Outcome.next (((indexEdge_referenced order (s := t) hd href).trans
      (checkedIndex_lower order (s := t) hlow)).trans ?_)
    rw [slipSent_eq (indexSlips_lower (s := t) hlow)]
    exact takeAll_of_nothing (fun h => Bool.noConfusion h) (fun h => Bool.noConfusion h) htail

end Sys2Proof.Proofs
end

