-- ==== Sys2Proof/Proofs/Settling.lean ====
section
/-! PROOF. The settle condition, the arm timer and the drift of the radius (R101, R115, R117, R119). -/

open Sys2Proof Sys2Proof.Machine

namespace Sys2Proof.Proofs

/-! ## The settle condition (R115) -/

theorem levelMet_iff {f : AuxFunction} {s : State} : levelMet f s = true ↔ lineConditionMet f s := by
  rw [levelMet, Bool.or_eq_true, Bool.not_eq_true', ← Bool.not_eq_true, assigned_iff, inputActive_iff, not_exists]
  rfl

theorem settled_iff {p : ScanStep} {s : State} : settled p s = true ↔ settleConditionMet p s := by
  rw [settled, Bool.and_eq_true, Bool.and_eq_true, levelMet_iff, Bool.not_eq_true', outOfTolerance, decide_eq_false_iff_not,
    Nat.not_lt, and_assoc]
  rfl

section
variable {a : ActiveStep} {s : State}

theorem endSettling_eq (p : ScanStep) (s : State) : endSettling p s = { s with
    spe := { s.spe with state := .armed, settleTimer := none }
    rm := if p.flags.learn then { s.rm with acc := { s.rm.acc with radius := some (radius s) } } else s.rm } := by
  unfold endSettling
  split <;> rfl

section
variable (ha : s.spe.active = some a) (hs : s.spe.state = .settling)
include ha hs

theorem settleTest_ends (hmet : settleConditionMet a.step s) (htime : a.step.settle ≤ s.spe.settleTimer.getD 0) :
    settleTest s = endSettling a.step s := by
  simp only [settleTest, ha, hs, settled_iff.2 hmet, htime, ne_eq, not_true_eq_false, if_false, if_true]

theorem settleTest_waits (hmet : settleConditionMet a.step s) (htime : s.spe.settleTimer.getD 0 < a.step.settle) :
    settleTest s = s := by
  simp only [settleTest, ha, hs, settled_iff.2 hmet, Nat.not_le.2 htime, ne_eq, not_true_eq_false, if_false, if_true]

theorem settleTest_fails (hnot : ¬ settleConditionMet a.step s) :
    settleTest s = onPlan (fun q => { q with settleTimer := some 0 }) s := by
  simp only [settleTest, ha, hs, mt settled_iff.1 hnot, ne_eq, not_true_eq_false, if_false, Bool.false_eq_true]

theorem settleTick_of_met (hmet : settleConditionMet a.step s) :
    settleTick s = settleTest (onPlan (fun q => { q with settleTimer := some (q.settleTimer.getD 0 + 1) }) s) := by
  simp only [settleTick, ha, hs, settled_iff.2 hmet, and_self, if_true]

theorem settleTick_of_not_met (hnot : ¬ settleConditionMet a.step s) :
    settleTick s = onPlan (fun q => { q with settleTimer := some 0 }) s := by
  have htest := settleTest_fails ha hs hnot
  simp only [settleTick, ha, mt settled_iff.1 hnot, and_false, if_false, htest, Bool.false_eq_true]

end

/-! ## The arm timer (R117) -/

theorem settleTick_of_not_settling (ha : s.spe.active = some a) (hs : s.spe.state ≠ .settling) : settleTick s = s := by
  simp only [settleTick, ha, hs, false_and, if_false, settleTest_of_not_settling hs]

theorem armTick_advances {m : Nat} (ha : s.spe.active = some a) (hm : s.spe.armTimer = some m)
    (hs : s.spe.state = .settling ∨ s.spe.state = .armed) (h : m + 1 < s.spe.armLimit) :
    armTick s = onPlan (fun q => { q with armTimer := some (m + 1) }) s := by
  simp only [armTick, ha, hm, hs, Nat.not_le.2 h, if_true, if_false]

theorem armTick_timesOut {m : Nat} (ha : s.spe.active = some a) (hm : s.spe.armTimer = some m)
    (hs : s.spe.state = .settling ∨ s.spe.state = .armed) (h : s.spe.armLimit ≤ m + 1) :
    armTick s = raiseFault ⟨.armTimeout, none, a.step.tag, armTimeoutPass s, s.eu.tick⟩
      (onPlan (fun q => { q with armTimer := none }) s) := by
  simp only [armTick, ha, hm, hs, h, if_true]

/-! ## Drift (R119) -/

theorem outOfTolerance_iff {p : ScanStep} {r : Nat} :
    outOfTolerance p r = true ↔ p.tolerance < ((r : Int) - p.radius).natAbs := decide_eq_true_iff

/-- A drift episode begins with its raising on its way to the latch (R119, R141). -/
theorem driftTest_begins (ha : s.spe.active = some a) (hs : s.spe.state = .acquiring)
    (h : a.step.tolerance < ((radius s : Int) - a.step.radius).natAbs) (hd : s.spe.drift = false) :
    driftTest s = { s with
      spe := { s.spe with drift := true }
      bus := { s.bus with raisings := s.bus.raisings ++ [⟨.radiusDrift, none, a.step.tag, s.spe.pass, s.eu.tick⟩] } } := by
  have hraising : raisedNow .radiusDrift none s = ⟨.radiusDrift, none, a.step.tag, s.spe.pass, s.eu.tick⟩ := by
    rw [raisedNow_eq, raisingOf, ha]
    rfl
  have hdrift : driftTest s = sendRaising (raisedNow .radiusDrift none s) (onPlan (fun q => { q with drift := true }) s) := by
    simp only [driftTest, ha, hs, outOfTolerance_iff.2 h, hd, ne_eq, not_true_eq_false, if_false, if_true, Bool.false_eq_true]
  rw [hdrift, hraising]
  rfl

theorem driftTest_goes_on (ha : s.spe.active = some a)
    (h : a.step.tolerance < ((radius s : Int) - a.step.radius).natAbs) (hd : s.spe.drift = true) : driftTest s = s := by
  simp only [driftTest, ha, outOfTolerance_iff.2 h, hd, if_true, ite_self]

end

/-- Settles O26: the settle test and the arm timer are cases of their own at a millisecond boundary, and the drift test of a
radial transition has three. -/
theorem radiusIsTested : Obligations.RadiusIsTested := by
  refine ⟨?_, ?_, ?_⟩
  · intro s after a n m hr hs ha hn hm hlimit t hms q
    let u : State := { t with spe := { s.spe with msMark := s.spe.msMark + 100000 } }
    have hexec : exec (.millisecondBoundary after) s = .next (armTick (settleTick u)) :=
      (exec_millisecondBoundary after s hr).trans (congrArg Host.Outcome.next (if_pos (passedAtLeast_iff.2 hms)))
    have htimer (v : Nat) : (u.spe.settleTimer.getD 0 + v) = n + v := by
      show (s.spe.settleTimer.getD 0 + v) = n + v
      rw [hn]
      rfl
    refine ⟨fun hmet htime => ?_, fun hmet htime => ?_, fun hnot => ?_⟩
    · let v : State := onPlan (fun q => { q with settleTimer := some (q.settleTimer.getD 0 + 1) }) u
      have htest : settleTest v = endSettling a.step v :=
        settleTest_ends (s := v) ha hs hmet (show a.step.settle ≤ u.spe.settleTimer.getD 0 + 1 by rw [htimer]; exact htime)
      rw [hexec, settleTick_of_met (s := u) ha hs hmet, htest, endSettling_eq]
      exact congrArg Host.Outcome.next (armTick_advances (s := { v with spe := _, rm := _ }) ha hm (.inr rfl) hlimit)
    · let v : State := onPlan (fun q => { q with settleTimer := some (q.settleTimer.getD 0 + 1) }) u
      have htest : settleTest v = v :=
        settleTest_waits (s := v) ha hs hmet (show u.spe.settleTimer.getD 0 + 1 < a.step.settle by rw [htimer]; exact htime)
      rw [hexec, settleTick_of_met (s := u) ha hs hmet, htest]
      refine congrArg Host.Outcome.next ((armTick_advances (s := v) ha hm (.inl hs) hlimit).trans ?_)
      show ({ t with spe := { q with settleTimer := some (u.spe.settleTimer.getD 0 + 1) } } : State) = _
      rw [htimer]
    · rw [hexec, settleTick_of_not_met (s := u) ha hs hnot]
      exact congrArg Host.Outcome.next (armTick_advances (s := { u with spe := _ }) ha hm (.inl hs) hlimit)
  · intro s after a m hr hs ha hm hlimit hroom u hms
    let v : State := { u with spe := { s.spe with msMark := s.spe.msMark + 100000 } }
    let w : State := onPlan (fun q => { q with armTimer := none }) v
    have hexec : exec (.millisecondBoundary after) s =
        .next (raiseFault ⟨.armTimeout, none, a.step.tag, armTimeoutPass v, u.eu.tick⟩ w) := by
      refine (exec_millisecondBoundary after s hr).trans (congrArg Host.Outcome.next
        ((if_pos (passedAtLeast_iff.2 hms)).trans ?_))
      refine (congrArg armTick (settleTick_of_not_settling (s := v) ha (show s.spe.state ≠ _ by rw [hs]; decide))).trans ?_
      exact armTick_timesOut (s := v) ha hm (.inr hs) hlimit
    refine ⟨armTimeoutPass v, armTimeoutPass_cases v, ?_⟩
    intro r q
    have hpolicy : policyOf r.cls w = s.spe.params.policies[4] :=
      policyOf_eq (cls := .armTimeout) (by decide)
    refine ⟨fun hp => ?_, fun hp hl => ?_⟩
    · rw [hexec, ← hs]
      exact congrArg Host.Outcome.next (raiseFault_report (s := w) (hpolicy.trans hp) hroom)
    · obtain ⟨-, hspe, hlp, -, htorn⟩ := raiseFault_stopNow (s := w) (hpolicy.trans hp) hl hroom
      exact ⟨_, hexec, (htorn a ha).1, hspe, (htorn a ha).2, hlp⟩
  · intro s after a hr hs ha t hmoved
    have hexec : exec (.radialEdge after .forward) s = .next (driftTest t) := by
      refine (exec_radialEdge after _ s hr).trans (congrArg Host.Outcome.next ((if_neg hmoved).trans (congrArg driftTest ?_)))
      exact settleTest_of_not_settling (s := t) (show s.spe.state ≠ _ by rw [hs]; decide)
    refine ⟨fun hout hd => ?_, fun hout hd => ?_, fun hin => ?_⟩
    · rw [hexec, driftTest_begins (s := t) ha hs hout hd]
      rfl
    · rw [hexec, driftTest_goes_on (s := t) ha hout hd]
    · rw [hexec, driftTest_within (s := t) ha hs hin]
      rfl

end Sys2Proof.Proofs
end

