-- ==== Sys2Proof/Proofs/DueInstants.lean ====
section
/-! PROOF. Due instants: each head of the mask is judged on its own (R19 to R24, R32). -/

open Sys2Proof Sys2Proof.Machine

namespace Sys2Proof.Proofs

/-! ## One head's turn -/

/-- What is read at head `h`'s turn of a due instant stands in `t` as in `s`. -/
def SameFor (h : Head) (s t : State) : Prop :=
  t.eu = s.eu ∧ t.spe = s.spe ∧ t.bt = s.bt ∧ t.ax.lines = s.ax.lines ∧ t.tu.heads.get h = s.tu.heads.get h ∧
  t.hp.get h = s.hp.get h ∧ t.pe.detectors.get h = s.pe.detectors.get h

theorem SameFor.refl (h : Head) (s : State) : SameFor h s s := ⟨rfl, rfl, rfl, rfl, rfl, rfl, rfl⟩

theorem SameFor.trans {h : Head} {s t u : State} (a : SameFor h s t) (b : SameFor h t u) : SameFor h s u := by
  obtain ⟨a1, a2, a3, a4, a5, a6, a7⟩ := a
  obtain ⟨b1, b2, b3, b4, b5, b6, b7⟩ := b
  exact ⟨b1.trans a1, b2.trans a2, b3.trans a3, b4.trans a4, b5.trans a5, b6.trans a6, b7.trans a7⟩

/-- Only head `h`'s share of the trigger unit, its port and its detector have changed. -/
def HeadOnly (h : Head) (s t : State) : Prop :=
  ∃ x p d, t = { s with
    tu := { s.tu with heads := s.tu.heads.set h x }, hp := s.hp.set h p
    pe := { s.pe with detectors := s.pe.detectors.set h d } }

theorem HeadOnly.refl (h : Head) (s : State) : HeadOnly h s s :=
  ⟨s.tu.heads.get h, s.hp.get h, s.pe.detectors.get h, by simp only [PerHead.set_get_self]⟩

theorem HeadOnly.sameFor {g h : Head} {s t : State} (ho : HeadOnly g s t) (hne : h ≠ g) : SameFor h s t := by
  obtain ⟨x, p, d, rfl⟩ := ho
  exact ⟨rfl, rfl, rfl, rfl, PerHead.get_set_ne _ _ hne, PerHead.get_set_ne _ _ hne, PerHead.get_set_ne _ _ hne⟩

theorem onTrigger_headOnly (h : Head) (f : TriggerHead → TriggerHead) (s : State) : HeadOnly h s (onTrigger h f s) :=
  ⟨f (s.tu.heads.get h), s.hp.get h, s.pe.detectors.get h, by simp only [PerHead.set_get_self]; rfl⟩

section
variable (a : ActiveStep) (h : Head) (s : State)

/-- A skip (R22): the head's counter goes up, and its open record is flagged. -/
theorem skip_eq (f : HeadCounters → HeadCounters) : flagOpen .overrun h (onCounters h f s) = { s with
    hp := s.hp.set h { s.hp.get h with counters := f (s.hp.get h).counters }
    pe := { s.pe with detectors := s.pe.detectors.set h (flagDetector .overrun (s.pe.detectors.get h)) } } := rfl

/-- A trigger (R24). -/
theorem issueTrigger_eq : issueTrigger a h s = { s with
    tu := { s.tu with heads := s.tu.heads.set h { s.tu.heads.get h with
      seq := (s.tu.heads.get h).seq + 1, lastTrigger := some s.eu.tick, pulse := some s.eu.tick } }
    hp := s.hp.set h { s.hp.get h with
      outstanding := (s.hp.get h).outstanding ++ [captured a h s]
      counters := { (s.hp.get h).counters with issued := satInc (s.hp.get h).counters.issued } } } := rfl

theorem attemptTrigger_headOnly : HeadOnly h s (attemptTrigger a h s) := by
  have hskip (f : HeadCounters → HeadCounters) : HeadOnly h s (flagOpen .overrun h (onCounters h f s)) :=
    ⟨s.tu.heads.get h, _, _, by rw [PerHead.set_get_self]; exact skip_eq h s f⟩
  rcases attemptTrigger_cases a h s with ⟨-, e⟩ | ⟨-, -, e⟩ | ⟨-, -, e⟩
  · exact e ▸ hskip _
  · exact e ▸ hskip _
  · rw [e]
    exact ⟨_, _, s.pe.detectors.get h, by rw [PerHead.set_get_self s.pe.detectors]; exact issueTrigger_eq a h s⟩

theorem dueHead_headOnly : HeadOnly h s (dueHead a h s) := by
  unfold dueHead
  split
  · exact .refl h s
  split
  · split
    · exact attemptTrigger_headOnly a h s
    · exact .refl h s
  · split
    · split
      · exact attemptTrigger_headOnly a h s
      · exact .refl h s
    · exact onTrigger_headOnly h _ s
  · exact .refl h s

theorem foldl_dueHead_sameFor {hs : List Head} (hh : h ∉ hs) : SameFor h s (hs.foldl (fun t g => dueHead a g t) s) := by
  induction hs generalizing s with
  | nil => exact .refl h s
  | cons g gs ih =>
    obtain ⟨hne, hgs⟩ := List.ne_and_not_mem_of_not_mem_cons hh
    exact ((dueHead_headOnly a g s).sameFor hne).trans (ih _ hgs)

/-- Each head has its own turn, which finds and leaves what the head's own turn reads. -/
theorem dueInstant_turn : ∃ u : State, SameFor h s u ∧ SameFor h (dueHead a h u) (dueInstant a s) := by
  obtain ⟨before, after, hheads⟩ := List.append_of_mem (mem_heads h)
  have hnodup : (before ++ h :: after).Nodup := hheads ▸ (by decide : heads.Nodup)
  obtain ⟨-, hafter, hdisjoint⟩ := List.nodup_append.1 hnodup
  refine ⟨before.foldl (fun t g => dueHead a g t) s, foldl_dueHead_sameFor a h s fun hmem =>
    hdisjoint h hmem h List.mem_cons_self rfl, ?_⟩
  rw [dueInstant, hheads, List.foldl_append, List.foldl_cons]
  exact foldl_dueHead_sameFor a h _ (List.nodup_cons.1 hafter).1

end

/-! ## The five checks in ACQUIRING (R21, R22, R24) -/

section
variable {a : ActiveStep} {h : Head} {s : State}

theorem triggersAllowed_iff : triggersAllowed s = true ↔ s.eu.direction = .forward ∧ lineConditionMet .gateIn s := by
  rw [triggersAllowed, Bool.and_eq_true, beq_iff_eq, levelMet_iff]

theorem predictedInWindow_iff : predictedInWindow a h s = true ↔
    (a.step.windowed = true → a.step.flags.learn = false → inGuardedSpan a.step (predictedAngle h s) s) := by
  have hspan : (!(spansHolding a.step a.step.guard s.bt.current (predictedAngle h s)).isEmpty) = true ↔
      inGuardedSpan a.step (predictedAngle h s) s := by
    rw [Bool.not_eq_true', List.isEmpty_eq_false_iff_exists_mem]
    exact exists_congr fun i => mem_spansHolding
  rw [predictedInWindow, Bool.or_eq_true, Bool.or_eq_true, hspan]
  cases a.step.windowed <;> cases a.step.flags.learn <;> simp

theorem spacingMet_iff : spacingMet h s = true ↔
    ∀ last ∈ (s.tu.heads.get h).lastTrigger, (s.hp.get h).params.minSpacing ≤ (s.eu.tick - last).toNat := by
  rw [spacingMet]
  cases (s.tu.heads.get h).lastTrigger with
  | none => exact iff_of_true rfl fun _ hlast => nomatch hlast
  | some last => exact passedAtLeast_iff.trans ⟨fun hp _ e => (Option.mem_some.1 e) ▸ hp, fun hall => hall last rfl⟩

theorem listHasRoom_iff : listHasRoom h s = true ↔ (s.hp.get h).outstanding.length < 16 := decide_eq_true_iff

theorem dueHead_passed_over (h' : ¬ (a.step.mask.get h = true ∧ triggersAllowed s = true ∧ predictedInWindow a h s = true))
    (hs : s.spe.state = .acquiring) : dueHead a h s = s := by
  unfold dueHead
  split
  · rfl
  rename_i hmask
  rw [hs]
  refine if_neg fun hchecks => h' ⟨?_, Bool.and_eq_true_iff.1 hchecks⟩
  rwa [Bool.not_eq_true', Bool.not_eq_false] at hmask

theorem dueHead_attempted (hmask : a.step.mask.get h = true) (hallowed : triggersAllowed s = true)
    (hwindow : predictedInWindow a h s = true) (hs : s.spe.state = .acquiring) :
    dueHead a h s = attemptTrigger a h s := by
  unfold dueHead
  rw [hmask, if_neg (by decide), hs]
  exact if_pos (Bool.and_eq_true_iff.2 ⟨hallowed, hwindow⟩)

/-- The judgement of a head speaks of what its own turn reads. -/
theorem headJudged_of_sameFor {u v t : State} (hu : SameFor h s u) (ht : SameFor h v t) (hj : headJudged a h u v) :
    headJudged a h s t := by
  obtain ⟨heu, hspe, hbt, hlines, htu, hhp, hpe⟩ := hu
  obtain ⟨-, -, -, -, htu', hhp', hpe'⟩ := ht
  simpa only [headJudged, lineConditionMet, inGuardedSpan, heu, hspe, hbt, hlines, htu, hhp, hpe, htu', hhp', hpe'] using hj

theorem dueHead_judged (hs : s.spe.state = .acquiring) : headJudged a h s (dueHead a h s) := by
  have hdue : (a.step.mask.get h = true ∧ triggersAllowed s = true ∧ predictedInWindow a h s = true) ↔
      (a.step.mask.get h = true ∧ s.eu.direction = .forward ∧ lineConditionMet .gateIn s ∧
        (a.step.windowed = true → a.step.flags.learn = false → inGuardedSpan a.step (predictedAngle h s) s)) := by
    rw [triggersAllowed_iff, predictedInWindow_iff, and_assoc]
  refine ⟨fun hnot => ?_, fun hyes hspacing => ?_, fun hyes hspacing hfull => ?_, fun hyes hspacing hroom => ?_⟩
  · rw [dueHead_passed_over (mt hdue.1 hnot) hs]
    exact ⟨rfl, rfl, rfl⟩
  all_goals
    obtain ⟨hmask, hallowed, hwindow⟩ := hdue.2 hyes
    rw [dueHead_attempted hmask hallowed hwindow hs, attemptTrigger]
  · rw [Bool.eq_false_iff.2 (mt spacingMet_iff.1 hspacing), Bool.not_false, if_pos rfl, skip_eq]
    exact ⟨rfl, PerHead.get_set_self _ _ _, PerHead.get_set_self _ _ _⟩
  · rw [spacingMet_iff.2 hspacing, if_neg (by decide), Bool.eq_false_iff.2 (mt listHasRoom_iff.1 (Nat.not_lt.2 hfull)),
      Bool.not_false, if_pos rfl, skip_eq]
    exact ⟨rfl, PerHead.get_set_self _ _ _, PerHead.get_set_self _ _ _⟩
  · rw [spacingMet_iff.2 hspacing, if_neg (by decide), listHasRoom_iff.2 hroom, if_neg (by decide), issueTrigger_eq]
    exact ⟨PerHead.get_set_self _ _ _, PerHead.get_set_self _ _ _, rfl⟩

theorem dueInstant_judged (hs : s.spe.state = .acquiring) : headJudged a h s (dueInstant a s) := by
  obtain ⟨u, hu, ht⟩ := dueInstant_turn a h s
  exact headJudged_of_sameFor hu ht (dueHead_judged (hu.2.1 ▸ hs))

/-! ## Tails at a due instant (R32) -/

theorem attemptTrigger_tail : ((attemptTrigger a h s).tu.heads.get h).tail = (s.tu.heads.get h).tail := by
  rcases attemptTrigger_cases a h s with ⟨-, e⟩ | ⟨-, -, e⟩ | ⟨-, -, e⟩
  · rw [e, skip_eq]
  · rw [e, skip_eq]
  · rw [e, issueTrigger_eq]
    show ((s.tu.heads.set h _).get h).tail = _
    rw [PerHead.get_set_self]

section
variable (hs : s.spe.state = .tail) (hmask : a.step.mask.get h = true)
include hs hmask

theorem dueHead_of_ended (ht : (s.tu.heads.get h).tail = .ended) : dueHead a h s = s := by
  simp only [dueHead, hmask, hs, ht, Bool.not_true, Bool.false_eq_true, if_false]

theorem dueHead_leaves_span {b : Nat} (ht : (s.tu.heads.get h).tail = .running b) (hout : inTailSpan a h b s = false) :
    dueHead a h s = onTrigger h (fun t => { t with tail := .ended }) s := by
  simp only [dueHead, hmask, hs, ht, hout, Bool.not_true, Bool.false_eq_true, if_false]

theorem dueHead_in_span {b : Nat} (ht : (s.tu.heads.get h).tail = .running b) (hin : inTailSpan a h b s = true) :
    ((dueHead a h s).tu.heads.get h).tail = .running b := by
  have hdue : dueHead a h s = if triggersAllowed s then attemptTrigger a h s else s := by
    simp only [dueHead, hmask, hs, ht, hin, Bool.not_true, Bool.false_eq_true, if_false, if_true]
  rw [hdue]
  split
  · rw [attemptTrigger_tail, ht]
  · exact ht

end

theorem inTailSpan_eq {b : Nat} {w : Window} (hw : s.bt.current[b]? = some w) :
    inTailSpan a h b s = inSpan (spanGuard a.step) w (predictedAngle h s) := by
  simp only [inTailSpan, hw]

end

/-! ## The ANGLE due instants of a forward edge (R19) -/

/-- The ANGLE due instant that falls in `u` has been judged, and has left `t`. -/
def AngleJudged (a : ActiveStep) (m : Nat) (u t : State) : Prop :=
  (u.eu.count % m = 0 → ∀ h : Head, headJudged a h u t) ∧
  (u.eu.count % m ≠ 0 → t.tu = u.tu ∧ t.hp = u.hp ∧ t.pe = u.pe)

/-- What holds while the takers of an edge that is no crossing act: the triggers change when their due instant has been
judged. -/
def Judging (a : ActiveStep) (m : Nat) (u : State) (rest : List Taker) (t : State) : Prop :=
  t.eu = u.eu ∧ t.spe = u.spe ∧ t.bt = u.bt ∧ t.bus = u.bus ∧ t.lp = u.lp ∧ t.tu.period = u.tu.period ∧
  t.ax.lines = u.ax.lines ∧ (.due ∈ rest → t.tu = u.tu ∧ t.hp = u.hp ∧ t.pe = u.pe) ∧ (.due ∉ rest → AngleJudged a m u t)

theorem angleDue_judged {a : ActiveStep} {m : Nat} {u t : State} (hs : u.spe.state = .acquiring)
    (ha : u.spe.active = some a) (hm : a.step.mode = .angle m) (heu : t.eu = u.eu) (hspe : t.spe = u.spe)
    (hbt : t.bt = u.bt) (hlines : t.ax.lines = u.ax.lines) (hsame : t.tu = u.tu ∧ t.hp = u.hp ∧ t.pe = u.pe) :
    AngleJudged a m u (angleDue t) := by
  obtain ⟨htu, hhp, hpe⟩ := hsame
  have hdue : angleDue t = if u.eu.count % m = 0 then dueInstant a t else t := by
    simp only [angleDue, hspe, ha, hm, heu]
  rw [hdue]
  refine ⟨fun hzero h => ?_, fun hne => ?_⟩
  · rw [if_pos hzero]
    refine headJudged_of_sameFor (u := t) ⟨heu, hspe, hbt, hlines, by rw [htu], by rw [hhp], by rw [hpe]⟩ (.refl h _)
      (dueInstant_judged ?_)
    rw [hspe]
    exact hs
  · rw [if_neg hne]
    exact ⟨htu, hhp, hpe⟩

theorem takeBy_judging {a : ActiveStep} {m : Nat} {u : State} (hs : u.spe.state = .acquiring) (ha : u.spe.active = some a)
    (hm : a.step.mode = .angle m) (k : Taker) (rest : List Taker) (t : State) (hk : k ∉ rest)
    (h : Judging a m u (k :: rest) t) : Judging a m u rest (takeBy false true t k) := by
  obtain ⟨heu, hspe, hbt, hbus, hlp, hperiod, hlines, hbefore, hafter⟩ := h
  have hwaits (hmem : Taker.due ∈ rest) := hbefore (List.mem_cons_of_mem k hmem)
  have hdone (hne : k ≠ .due) (hmem : Taker.due ∉ rest) : AngleJudged a m u t :=
    hafter fun hin => (List.mem_cons.1 hin).elim (fun e => hne e.symm) hmem
  cases k with
  | plan => exact ⟨heu, hspe, hbt, hbus, hlp, hperiod, hlines, hwaits, hdone (by decide)⟩
  | blades => exact ⟨heu, hspe, hbt, hbus, hlp, hperiod, hlines, hwaits, hdone (by decide)⟩
  | due =>
    have hjudged := angleDue_judged hs ha hm heu hspe hbt hlines (hbefore List.mem_cons_self)
    show Judging a m u rest (angleDue t)
    obtain ⟨x, hp, pe, hdue, -, -⟩ := angleDue_triggersOnly t
    rw [hdue] at hjudged ⊢
    exact ⟨heu, hspe, hbt, hbus, hlp, hperiod, hlines, fun hmem => absurd hmem hk, fun _ => hjudged⟩
  | strobe =>
    obtain ⟨strobe, window, hstrobe⟩ := strobeEdge_strobeOnly t
    show Judging a m u rest (strobeEdge t)
    rw [hstrobe]
    exact ⟨heu, hspe, hbt, hbus, hlp, hperiod, hlines, hwaits, hdone (by decide)⟩

/-! ## The TIME due instants (R20) -/

theorem timeDue_eq {a : ActiveStep} {t0 : Tick} {tp : Nat} {s : State} (ha : s.spe.active = some a)
    (hm : a.step.mode = .time tp) (ht : s.tu.period = some t0) (hp : tp ≤ (s.eu.tick - t0).toNat) :
    timeDue s = tailEnds (dueInstant a { s with tu := { s.tu with period := some (t0 + BitVec.ofNat 32 tp) } }) := by
  simp only [timeDue, ha, ht, hm, passedAtLeast_iff.2 hp, if_true]

/-- Settles O27: each head has its own turn, whose result is that of its own judgement alone. -/
theorem dueInstantJudgesHeads : Obligations.DueInstantJudgesHeads := by
  refine ⟨?_, ?_, ?_⟩
  · intro s after a t0 tp hr hs ha hm ht u hp
    let v : State := { u with tu := { s.tu with period := some (t0 + BitVec.ofNat 32 tp) } }
    obtain ⟨x, hp', pe, hdue, -, -⟩ := dueInstant_triggersOnly a v
    have hnot : (dueInstant a v).spe.state ≠ .tail := by
      rw [hdue]
      show s.spe.state ≠ .tail
      rw [hs]
      decide
    have hexec : exec (.timeDueInstant after) s = .next (dueInstant a v) :=
      (exec_timeDueInstant after s hr).trans (congrArg Host.Outcome.next
        ((timeDue_eq (s := u) ha hm ht hp).trans (tailEnds_of_not_tail hnot)))
    have hjudged (h : Head) : headJudged a h u (dueInstant a v) :=
      headJudged_of_sameFor (u := v) ⟨rfl, rfl, rfl, rfl, rfl, rfl, rfl⟩ (.refl h _) (dueInstant_judged (s := v) hs)
    rw [hexec]
    rw [hdue] at hjudged ⊢
    exact ⟨_, rfl, rfl, rfl, rfl, rfl, rfl, rfl, hjudged⟩
  · intro s after a t0 tp hr hs ha hm ht hp
    let v : State := { elapse after s with tu := { s.tu with period := some (t0 + BitVec.ofNat 32 tp) } }
    have hexec : exec (.timeDueInstant after) s = .next (tailEnds (dueInstant a v)) :=
      (exec_timeDueInstant after s hr).trans (congrArg Host.Outcome.next (timeDue_eq (s := elapse after s) ha hm ht hp))
    obtain ⟨x, hp', pe', hdue, -, -⟩ := dueInstant_triggersOnly a v
    obtain ⟨pe, bus, htails⟩ := tailEnds_recordsOnly (dueInstant a v)
    refine ⟨_, hexec, ?_, fun h hmask => ?_⟩
    · rw [htails, hdue]
      rfl
    · intro guard angle
      obtain ⟨u, ⟨heu, hspe, hbt, -, htu, hhp, -⟩, -, -, -, -, htu', hhp', -⟩ := dueInstant_turn a h v
      have hstate : u.spe.state = .tail := hspe ▸ hs
      have hangle : predictedAngle h u = angle := by
        rw [predictedAngle, angleAt, heu, hhp]
        rfl
      rw [htails]
      show (∀ (b : Nat) (w : Window), _ → _ → (_ → (dueInstant a v).tu.heads.get h = _ ∧ (dueInstant a v).hp.get h = _) ∧
        (_ → ((dueInstant a v).tu.heads.get h).tail = _)) ∧
        (_ → (dueInstant a v).tu.heads.get h = _ ∧ (dueInstant a v).hp.get h = _)
      rw [htu', hhp']
      refine ⟨fun b w hrunning hw => ?_, fun hended => ?_⟩
      · have hspan : inTailSpan a h b u = inSpan guard w angle := by
          rw [inTailSpan_eq (hbt ▸ hw), hangle]
          rfl
        have hrunning' : (u.tu.heads.get h).tail = .running b := htu ▸ hrunning
        refine ⟨fun hout => ?_, fun hin => ?_⟩
        · rw [dueHead_leaves_span hstate hmask hrunning' (hspan.trans (decide_eq_false (Nat.not_lt.2 hout)))]
          refine ⟨(PerHead.get_set_self _ _ _).trans ?_, hhp⟩
          rw [htu]
        · exact dueHead_in_span hstate hmask hrunning' (hspan.trans (decide_eq_true hin))
      · rw [dueHead_of_ended hstate hmask (htu ▸ hended)]
        exact ⟨htu, hhp⟩
  · intro s after order a m hr hs ha hm hnot u
    have hjudging := foldl_takers (order := order) (takeBy_judging (u := u) hs ha hm)
      fun ks hks => ⟨rfl, rfl, rfl, rfl, rfl, rfl, rfl, fun _ => ⟨rfl, rfl, rfl⟩, fun hnone => absurd (hks .due) hnone⟩
    obtain ⟨heu, hspe, hbt, hbus, hlp, hperiod, -, -, hjudged⟩ := hjudging
    have hexec : exec (.tableEdge after .forward order) s = .next ((takersInOrder order).foldl (takeBy false true) u) := by
      rw [exec_tableEdge _ _ _ _ hr, tableTransition, forwardEdge_of_not_crossing order (s := elapse after s) hnot]
      refine congrArg Host.Outcome.next (tailEnds_of_not_tail ?_)
      rw [show (List.foldl (takeBy false true) (onEncoder edgeTaken (elapse after s)) (takersInOrder order)).spe = s.spe from hspe, hs]
      decide
    exact ⟨_, hexec, heu, hspe, hbt, hbus, hlp, hperiod, hjudged List.not_mem_nil⟩

end Sys2Proof.Proofs
end

