-- ==== Sys2Proof/Proofs/Arming.lean ====
section
/-! PROOF. Arming a slot (R113, R114), and the commands of the scan plan engine (R112, R124, R129, R150). -/

open Sys2Proof Sys2Proof.Machine

namespace Sys2Proof.Proofs

/-! ## The tests before an arming (R113) -/

section
variable {slot : Slot} {s : State}

theorem armable_of {p : ScanStep} (hp : s.spe.slots[slot] = some p) (h : armableStep p s) : armable slot s = some p := by
  simp only [armable, hp]
  rcases h with hlearn | ⟨hne, hmap⟩
  · rw [if_pos hlearn]
  · split
    · rfl
    · rw [if_neg (by rwa [List.isEmpty_iff]), if_neg fun h => hmap h.1 h.2]

theorem armable_eq_none (h : ∀ p : ScanStep, s.spe.slots[slot] = some p → ¬ armableStep p s) : armable slot s = none := by
  unfold armable
  split
  · rfl
  rename_i p hp
  obtain ⟨hlearn, hrest⟩ := not_or.1 (h p hp)
  rw [if_neg hlearn]
  by_cases hempty : s.bt.entries = []
  · rw [hempty]
    rfl
  · have hscaled : p.flags.scaleMap = true ∧ s.rm.radius = 0 := by
      by_contra hnot
      exact hrest ⟨hempty, fun hs hr => hnot ⟨hs, hr⟩⟩
    rw [if_neg (by rwa [List.isEmpty_iff]), if_pos hscaled]

theorem slotTag_eq : slotTag slot s = s.spe.slots[slot].elim 0 (·.tag) := by
  rw [slotTag]
  cases s.spe.slots[slot] <;> rfl

end

/-! ## What an arming leaves (R114, R138) -/

/-- The passes that an arming starts from. -/
def Arming.done : Arming → Nat
  | .fresh => 0
  | .resumed c => c.passesDone

/-- The counters that an arming starts from. -/
def Arming.counters : Arming → StepCounters
  | .fresh => ⟨0, 0, 0, 0, 0⟩
  | .resumed c => c.counters

/-- The state in which the step of the slot has been armed and its settle condition has not yet been tested. -/
def armedState (how : Arming) (slot : Slot) (p : ScanStep) (s : State) : State :=
  { s with
    tu := tailsStopped s.tu
    spe := { s.spe with
      state := .settling, active := some ⟨slot, stepCopy p s, s.spe.runId + 1⟩, runId := s.spe.runId + 1
      pass := Arming.done how, passesDone := Arming.done how, firstPass := Arming.done how + 1
      counters := Arming.counters how, settleTimer := some 0, armTimer := some 0, armLimit := s.spe.params.armTimeout
      drift := false, pendingDecision := none }
    eu := { s.eu with highWater := s.eu.netRevs }
    pe := { s.pe with detectors := s.pe.detectors.map armDetector }
    rm := if p.flags.learn then armMap how s.rm else s.rm }

section
variable {how : Arming} {slot : Slot} {p : ScanStep} {s : State}

theorem armSlot_of_armable (h : armable slot s = some p) : armSlot how slot s = settleTest (armedState how slot p s) := by
  simp only [armSlot, h]
  cases how <;> rfl

theorem armSlot_of_none (h : armable slot s = none) : armSlot how slot s = stepInvalid (slotTag slot s) s := by
  simp only [armSlot, h]

/-- The blade range alone is clamped in the active-step copy. -/
theorem stepCopy_keeps (p : ScanStep) (s : State) : (stepCopy p s).flags = p.flags ∧ (stepCopy p s).radius = p.radius ∧
    (stepCopy p s).tolerance = p.tolerance ∧ (stepCopy p s).settle = p.settle := by
  unfold stepCopy
  split <;> exact ⟨rfl, rfl, rfl, rfl⟩

theorem settleConditionMet_armedState :
    settleConditionMet (stepCopy p s) (armedState how slot p s) ↔ settleConditionMet p s := by
  obtain ⟨-, hradius, htolerance, -⟩ := stepCopy_keeps p s
  rw [settleConditionMet, hradius, htolerance]
  rfl

theorem settleTest_armedState_at_once (h : settleConditionMet p s ∧ p.settle = 0) :
    settleTest (armedState how slot p s) = endSettling (stepCopy p s) (armedState how slot p s) := by
  obtain ⟨-, -, -, hsettle⟩ := stepCopy_keeps p s
  exact settleTest_ends (a := ⟨slot, stepCopy p s, s.spe.runId + 1⟩) rfl rfl (settleConditionMet_armedState.2 h.1)
    (le_of_eq (hsettle.trans h.2))

theorem settleTest_armedState_later (h : ¬ (settleConditionMet p s ∧ p.settle = 0)) :
    settleTest (armedState how slot p s) = armedState how slot p s := by
  obtain ⟨-, -, -, hsettle⟩ := stepCopy_keeps p s
  by_cases hmet : settleConditionMet p s
  · exact settleTest_waits (a := ⟨slot, stepCopy p s, s.spe.runId + 1⟩) rfl rfl (settleConditionMet_armedState.2 hmet)
      (Nat.pos_of_ne_zero fun hzero => h ⟨hmet, hsettle.symm.trans hzero⟩)
  · exact settleTest_fails (a := ⟨slot, stepCopy p s, s.spe.runId + 1⟩) rfl rfl (mt settleConditionMet_armedState.1 hmet)

/-- An arming leaves what the specification says, and nothing of the interjection or the link (R114, R138). -/
theorem armSlot_armed (hp : s.spe.slots[slot] = some p) (h : armableStep p s) :
    let t := armSlot how slot s
    armedWith (if p.flags.learn then armMap how s.rm else s.rm) slot p (Arming.done how) (Arming.counters how) s t ∧
      t.lp = s.lp ∧ t.spe.interjection = s.spe.interjection ∧ t.spe.context = s.spe.context := by
  have hdetector (g : Head) : (s.pe.detectors.map armDetector).get g = armDetector (s.pe.detectors.get g) :=
    PerHead.get_map _ _ _
  have hdetectors (g : Head) : ((s.pe.detectors.map armDetector).get g).state = .outside ∧
      ((s.pe.detectors.map armDetector).get g).record = none ∧ ((s.pe.detectors.map armDetector).get g).lastSeq = none ∧
      ((s.pe.detectors.map armDetector).get g).runIn = true ∧ ((s.pe.detectors.map armDetector).get g).runInWindow = none ∧
      ((s.pe.detectors.map armDetector).get g).recorded = Vector.replicate 128 none := by
    rw [hdetector]
    exact ⟨rfl, rfl, rfl, rfl, rfl, rfl⟩
  obtain ⟨hflags, -, -, -⟩ := stepCopy_keeps p s
  rw [armSlot_of_armable (armable_of hp h)]
  by_cases honce : settleConditionMet p s ∧ p.settle = 0
  · rw [settleTest_armedState_at_once honce, endSettling_eq, hflags]
    refine ⟨⟨⟨rfl, rfl, rfl, rfl, rfl, rfl, rfl, rfl, rfl, rfl, rfl, rfl, rfl, rfl⟩, fun _ => ⟨rfl, rfl⟩,
      fun hnot => absurd honce hnot, ⟨rfl, rfl, rfl, rfl, rfl, rfl, rfl, rfl, rfl⟩, hdetectors, fun hor => ?_,
      fun hlearn _ => if_pos hlearn⟩, rfl, rfl, rfl⟩
    have hlearn : p.flags.learn = false := hor.resolve_right fun hnot => hnot honce
    exact if_neg (by rw [hlearn]; decide)
  · rw [settleTest_armedState_later honce]
    exact ⟨⟨⟨rfl, rfl, rfl, rfl, rfl, rfl, rfl, rfl, rfl, rfl, rfl, rfl, rfl, rfl⟩, fun hyes => absurd hyes honce,
      fun _ => ⟨rfl, rfl⟩, ⟨rfl, rfl, rfl, rfl, rfl, rfl, rfl, rfl, rfl⟩, hdetectors, fun _ => rfl,
      fun _ hyes => absurd hyes honce⟩, rfl, rfl, rfl⟩

theorem armSlot_fresh (hp : s.spe.slots[slot] = some p) (h : armableStep p s) :
    let t := armSlot .fresh slot s
    armedAs slot p 0 ⟨0, 0, 0, 0, 0⟩ s t ∧ t.lp = s.lp ∧ t.spe.interjection = s.spe.interjection ∧
      t.spe.context = s.spe.context := armSlot_armed (how := .fresh) hp h

end

/-- STEP_INVALID stops the run (R113, R141, R145). -/
theorem stepInvalid_stops {tag : Id16} {s : State} (hl : s.spe.latch = none) (hroom : s.lp.notices.length < 32) :
    let r : Raising := ⟨.stepInvalid, none, tag, 0, s.eu.tick⟩
    let t := stepInvalid tag s
    (t.eu = s.eu ∧ t.bt = s.bt ∧ t.rs = s.rs) ∧ t.spe = stoppedNow r s.spe ∧
      t.lp = { s.lp with notices := s.lp.notices ++ [stoppedSaid r s] } ∧ (openInOrder s = [] → t.bus = s.bus) ∧
      ∀ a, s.spe.active = some a → tornDown a s t ∧ t.bus.raisings = s.bus.raisings :=
  raiseFault_stopNow rfl hl hroom

/-! ## RUNP (R112) -/

theorem slotOfNat_lt {n : Nat} (h : n < 64) : slotOfNat n = some ⟨n, h⟩ := dif_pos h

/-- Settles O47, one test of RUNP at a time. -/
theorem runpArmsSlot : Obligations.RunpArmsSlot := by
  intro s tag b rest ho answers
  let u := dequeued rest s
  have hrun {st : Status} {t : State} (hf : runSlot [b] u = ⟨st, [], t⟩) :
      exec .runp s = .next (onLink (fun l => { l with reply := some ⟨tag, keywordBytes .runp, st, []⟩ }) t) :=
    hostCommand_executed ho ((withLength_of_eq rfl).trans hf)
  have hslot (hb : b.toNat < 64) : runSlot [b] u = if u.spe.latch.isSome then refuse .faultLatched u
      else if u.spe.state ≠ .idle then refuse .wrongState u else done [] (armSlot .fresh ⟨b.toNat, hb⟩ u) := by
    rw [runSlot, natAt_zero_one, slotOfNat_lt hb]
  refine ⟨fun hb => ?_, fun hb hl => ?_, fun hb hl hs => ?_, fun slot hb hl hs => ?_⟩
  · refine hrun (st := .invalid) (t := u) ?_
    rw [runSlot, natAt_zero_one, slotOfNat_eq_none hb]
    rfl
  · refine hrun (st := .faultLatched) (t := u) ((hslot hb).trans (if_pos ?_))
    exact Option.isSome_iff_ne_none.2 hl
  · refine hrun (st := .wrongState) (t := u) ((hslot hb).trans ((if_neg ?_).trans (if_pos hs)))
    show ¬ s.spe.latch.isSome = true
    rw [hl]
    decide
  · intro link
    have harm : exec .runp s =
        .next (onLink (fun l => { l with reply := some ⟨tag, keywordBytes .runp, .ok, []⟩ }) (armSlot .fresh slot u)) := by
      refine hrun ((hslot (hb ▸ slot.isLt)).trans ((if_neg ?_).trans ((if_neg (not_not.2 hs)).trans ?_)))
      · show ¬ s.spe.latch.isSome = true
        rw [hl]
        decide
      · rw [show (⟨b.toNat, hb ▸ slot.isLt⟩ : Slot) = slot from Fin.ext hb]
        rfl
    refine ⟨fun p hp harmable => ?_, fun hnot hroom => ?_⟩
    · obtain ⟨harmed, hlp, -, -⟩ := armSlot_fresh (s := u) hp harmable
      exact ⟨_, harm, harmed, congrArg (fun l : LinkPort => { l with reply := some ⟨tag, keywordBytes .runp, .ok, []⟩ }) hlp⟩
    · intro r
      obtain ⟨⟨heu, hbt, hrs⟩, hspe, hlp, -, -⟩ := stepInvalid_stops (tag := slotTag slot u) (s := u) hl hroom
      rw [armSlot_of_none (armable_eq_none (s := u) hnot)] at harm
      have htag : slotTag slot u = s.spe.slots[slot].elim 0 (·.tag) := slotTag_eq
      rw [htag] at harm heu hbt hrs hspe hlp
      exact ⟨_, harm, heu, hbt, hrs, congrArg ScanPlan.state hspe, hspe,
        congrArg (fun l : LinkPort => { l with reply := some ⟨tag, keywordBytes .runp, .ok, []⟩ }) hlp⟩

/-! ## CONT, INTJ and FCLR (R124, R129, R150) -/

theorem finishPlan_eq {a : ActiveStep} {s : State} (ha : s.spe.active = some a) (hroom : s.lp.notices.length < 32) :
    finishPlan s = { s with
      tu := tailsStopped s.tu, spe := planAtRest .idle s.spe
      lp := { s.lp with notices := s.lp.notices ++ [.runDone a.slot a.step.tag a.runId] } } := by
  simp only [finishPlan, ha]
  rw [queueNotice_room (s := stopTails s) hroom]
  rfl

theorem continuePlan_of_not_halted {s : State} (h : s.spe.state ≠ .halted) : continuePlan s = refuse .wrongState s := by
  unfold continuePlan
  split
  · exact absurd ‹_› h
  · exact absurd ‹_› h
  · exact absurd ‹_› h
  · rfl

theorem continuePlan_arm {s : State} {n : Slot} (hs : s.spe.state = .halted) (hd : s.spe.pendingDecision = some (some n)) :
    continuePlan s = done [] (armSlot .fresh n s) := by
  simp only [continuePlan, hs, hd]

theorem continuePlan_end {s : State} (hs : s.spe.state = .halted) (hd : s.spe.pendingDecision = some none) :
    continuePlan s = done [] (finishPlan s) := by
  simp only [continuePlan, hs, hd]

theorem interjectionRefusal_none {s : State} (hs : stoppable s = true) (hi : s.spe.interjection = .none) :
    interjectionRefusal s = none := by
  rw [interjectionRefusal, hs, if_neg (by decide), if_neg (not_not.2 hi)]

theorem interjectSlot_none {b : Byte} (s : State) (h : 64 ≤ b.toNat) : interjectSlot [b] s = refuse .invalid s := by
  rw [interjectSlot, natAt_zero_one, slotOfNat_eq_none h]

theorem interjectSlot_refused {b : Byte} {s : State} {st : Status} (hb : b.toNat < 64) (h : interjectionRefusal s = some st) :
    interjectSlot [b] s = refuse st s := by
  rw [interjectSlot, natAt_zero_one, slotOfNat_lt hb, h]

theorem interjectSlot_accepted {b : Byte} {slot : Slot} {s : State} (hb : b.toNat = slot.val)
    (h : interjectionRefusal s = none) : interjectSlot [b] s = done [] (requestInterjection slot s) := by
  rw [interjectSlot, natAt_zero_one, slotOfNat_eq_some.2 hb, h]

section
variable {a : ActiveStep} {slot : Slot} {s : State} (ha : s.spe.active = some a)
include ha

theorem requestInterjection_restarts (hs : s.spe.state = .settling ∨ s.spe.state = .armed) :
    requestInterjection slot s =
      startInterjection ⟨a.slot, a.step.tag, a.runId, .restart, 0, ⟨0, 0, 0, 0, 0⟩, none⟩ slot s := by
  rcases hs with hs | hs <;> simp only [requestInterjection, ha, hs] <;> rfl

theorem requestInterjection_halted {f : Option Slot} (hs : s.spe.state = .halted) (hd : s.spe.pendingDecision = some f) :
    requestInterjection slot s = startInterjection
      ⟨a.slot, a.step.tag, a.runId, .halted, s.spe.passesDone, s.spe.counters, some (.halt f)⟩ slot s := by
  simp only [requestInterjection, ha, hs, hd]
  rfl

end

/-- The interjected step is armed afresh, with the context saved (R131, R137). -/
theorem startInterjection_armed {c : Context} {slot : Slot} {p : ScanStep} {s : State} (hp : s.spe.slots[slot] = some p)
    (h : armableStep p s) :
    let t := startInterjection c slot s
    armedAs slot p 0 ⟨0, 0, 0, 0, 0⟩ s t ∧ t.lp = s.lp ∧ t.spe.interjection = .running ∧ t.spe.context = some c :=
  armSlot_fresh (s := onPlan (fun q => { q with interjection := .running, context := some c }) s) hp h

/-- Settles O48: CONT, INTJ and FCLR, each by the plan state. -/
theorem planCommandsAct : Obligations.PlanCommandsAct := by
  intro s tag b rest
  let u := dequeued rest s
  refine ⟨fun ho => ?_, fun ho => ?_, fun ho => ?_⟩
  · intro link
    have hrun {st : Status} {t : State} (hf : continuePlan u = ⟨st, [], t⟩) :
        exec .cont s = .next (onLink (fun l => { l with reply := some ⟨tag, keywordBytes .cont, st, []⟩ }) t) :=
      hostCommand_executed (f := withLength 1 fun _ s => continuePlan s) ho ((if_pos rfl).trans hf)
    refine ⟨fun hs => hrun (continuePlan_of_not_halted (s := u) hs), fun a hs ha hd hroom => ?_, fun n p hs hd hp harm => ?_⟩
    · rw [hrun (continuePlan_end (s := u) hs hd), finishPlan_eq (s := u) ha hroom]
      rfl
    · obtain ⟨harmed, hlp, -, -⟩ := armSlot_fresh (s := u) hp harm
      refine ⟨_, hrun (continuePlan_arm (s := u) hs hd), harmed, ?_⟩
      refine (congrArg (fun l : LinkPort => { l with reply := some ⟨tag, keywordBytes .cont, .ok, []⟩ }) hlp).trans ?_
      show _ = ({ s.lp with queue := rest, reply := _, notices := s.lp.notices ++ [] } : LinkPort)
      rw [List.append_nil]
      rfl
  · intro answers
    have hrun {st : Status} {t : State} (hf : interjectSlot [b] u = ⟨st, [], t⟩) :
        exec .intj s = .next (onLink (fun l => { l with reply := some ⟨tag, keywordBytes .intj, st, []⟩ }) t) :=
      hostCommand_executed ho ((withLength_of_eq rfl).trans hf)
    refine ⟨fun hb => hrun (interjectSlot_none u hb), fun hb hs => hrun (interjectSlot_refused hb ?_),
      fun hb hidle hfaulted hi => hrun (interjectSlot_refused hb ?_), fun slot a hb hi ha => ⟨fun hs => ?_, fun p hp harm => ?_⟩⟩
    · have hnot : stoppable u = false := by
        rw [Bool.eq_false_iff, ne_eq, stoppable_iff, not_and_or, not_not, not_not]
        exact hs
      rw [interjectionRefusal, hnot, if_pos (by decide)]
    · rw [interjectionRefusal, (stoppable_iff (s := u)).2 ⟨hidle, hfaulted⟩, if_neg (by decide)]
      exact if_pos hi
    · rw [hrun (interjectSlot_accepted hb (interjectionRefusal_of_taking (s := u) hs hi)),
        requestInterjection_waits (s := u) (by rw [show u.spe.active = some a from ha]; exact Option.some_ne_none a) hs]
      rfl
    · intro starts
      have hstarts (c : Context) (hstop : stoppable u = true) (hreq : requestInterjection slot u = startInterjection c slot u) :
          starts c := by
        obtain ⟨harmed, hlp, hi', hc⟩ := startInterjection_armed (c := c) (s := u) hp harm
        exact ⟨_, hrun ((interjectSlot_accepted hb (interjectionRefusal_none hstop hi)).trans (congrArg (done []) hreq)), harmed,
          hi', hc, congrArg (fun l : LinkPort => { l with reply := some ⟨tag, keywordBytes .intj, .ok, []⟩ }) hlp⟩
      refine ⟨fun hs => hstarts _ ?_ (requestInterjection_restarts (s := u) ha hs), fun f hs hd =>
        hstarts _ ?_ (requestInterjection_halted (s := u) ha hs hd)⟩
      · rw [stoppable_iff]
        show s.spe.state ≠ _ ∧ s.spe.state ≠ _
        rcases hs with hs | hs <;> rw [hs] <;> decide
      · rw [stoppable_iff]
        show s.spe.state ≠ _ ∧ s.spe.state ≠ _
        rw [hs]
        decide
  · have hrun {st : Status} {t : State} (hf : clearFault u = ⟨st, [], t⟩) :
        exec .fclr s = .next (onLink (fun l => { l with reply := some ⟨tag, keywordBytes .fclr, st, []⟩ }) t) :=
      hostCommand_executed (f := withLength 1 fun _ s => clearFault s) ho ((if_pos rfl).trans hf)
    exact ⟨fun hs => hrun (if_neg hs), fun hs => hrun (if_pos hs)⟩

end Sys2Proof.Proofs
end

