-- ==== Sys2Proof/Proofs/Completion.lean ====
section
/-! PROOF. The completion of a step and the interjection (R102, R121 to R123, R131 to R138). -/

open Sys2Proof Sys2Proof.Machine

namespace Sys2Proof.Proofs

/-! ## The conditions of TAIL (R121, R133) -/

theorem all_heads {f : Head → Bool} : heads.all f = true ↔ ∀ h, f h = true :=
  List.all_eq_true.trans ⟨fun hall h => hall h (mem_heads h), fun hall h _ => hall h⟩

theorem tailOver_iff {s : State} : tailOver s = true ↔ tailIsOver s := by
  simp only [tailOver, tailIsOver, recordOpen, Bool.and_eq_true, all_heads, beq_iff_eq, List.isEmpty_iff, Option.isNone_iff_eq_none,
    Bool.not_eq_true', Option.isSome_eq_false_iff, forall_and]
  tauto

theorem inInterjectionTail_iff {a : ActiveStep} {s : State} :
    inInterjectionTail a s = true ↔ (∃ slot, s.spe.interjection = .pending slot) ∧ s.spe.passesDone < a.step.passes := by
  rw [inInterjectionTail, Bool.and_eq_true, decide_eq_true_iff]
  refine and_congr_left fun _ => ?_
  unfold interjectionPending
  cases s.spe.interjection <;> simp

theorem exec_interjectionTailEnd_not_over {s : State} (hr : s.resetHeld = false) (h : ¬ tailIsOver s) : exec .interjectionTailEnd s = .next s := by
  rw [exec_interjectionTailEnd s hr]
  unfold finishInterjectionTail
  split
  · rw [if_neg fun hboth => h (tailOver_iff.1 (Bool.and_eq_true_iff.1 hboth).1)]
  · rfl

section
variable {a : ActiveStep} {s : State} (hr : s.resetHeld = false) (ha : s.spe.active = some a)
include hr ha

theorem exec_stepCompletion_not_over (h : ¬ tailIsOver s) : exec .stepCompletion s = .next s := by
  rw [exec_stepCompletion s hr]
  simp only [completeStep, ha, Bool.eq_false_iff.2 (mt tailOver_iff.1 h), Bool.false_and, Bool.false_eq_true, if_false]

theorem exec_stepCompletion_interjection_tail {slot : Slot} (hi : s.spe.interjection = .pending slot)
    (hpasses : s.spe.passesDone < a.step.passes) : exec .stepCompletion s = .next s := by
  have hin : inInterjectionTail a s = true := inInterjectionTail_iff.2 ⟨⟨slot, hi⟩, hpasses⟩
  rw [exec_stepCompletion s hr]
  simp only [completeStep, ha, hin, Bool.not_true, Bool.and_false, Bool.false_eq_true, if_false]

theorem exec_stepCompletion_over (hover : tailIsOver s)
    (h : (∀ slot, s.spe.interjection ≠ .pending slot) ∨ a.step.passes ≤ s.spe.passesDone) :
    exec .stepCompletion s = .next (afterStep a (reportStep a s)) := by
  have hout : inInterjectionTail a s = false := by
    rw [Bool.eq_false_iff, ne_eq, inInterjectionTail_iff]
    rintro ⟨⟨slot, hi⟩, hpasses⟩
    exact h.elim (fun hnot => hnot slot hi) fun hdone => absurd hpasses (Nat.not_lt.2 hdone)
  rw [exec_stepCompletion s hr]
  simp only [completeStep, ha, tailOver_iff.2 hover, hout, Bool.not_false, Bool.and_self, if_true]

theorem exec_interjectionTailEnd_over {slot : Slot} (hover : tailIsOver s) (hi : s.spe.interjection = .pending slot)
    (hpasses : s.spe.passesDone < a.step.passes) :
    exec .interjectionTailEnd s = .next (endInterjectionTail a slot s) := by
  have hin : inInterjectionTail a s = true := inInterjectionTail_iff.2 ⟨⟨slot, hi⟩, hpasses⟩
  rw [exec_interjectionTailEnd s hr]
  simp only [finishInterjectionTail, ha, hi, tailOver_iff.2 hover, hin, Bool.and_self, if_true]

end

/-! ## The learn and the STEP_DONE notice (R122) -/

theorem learnTaken_eq (a : ActiveStep) (s : State) :
    learnTaken a s = { s with rm := if a.step.flags.learn then (completeLearn s.rm).1 else s.rm } := by
  unfold learnTaken
  split <;> rfl

theorem learnTaken_saved (a : ActiveStep) (s : State) : (learnTaken a s).rm.saved = s.rm.saved := by
  rw [learnTaken]
  split
  · show (completeLearn s.rm).1.saved = _
    unfold completeLearn
    dsimp only
    split <;> rfl
  · rfl

theorem reportStep_eq {a : ActiveStep} {s : State} {m : RunoutMap} (hm : learnTaken a s = { s with rm := m })
    (hroom : s.lp.notices.length < 32) : reportStep a s = { s with
      rm := m
      lp := { s.lp with notices := s.lp.notices ++ [stepDoneOf a (s.spe.interjection == .running) s] } } := by
  show queueNotice (stepDoneOf a (s.spe.interjection == .running) s) (learnTaken a s) = _
  rw [hm]
  exact queueNotice_room (s := { s with rm := m }) hroom

theorem stepDoneOf_of_not_learn {a : ActiveStep} {interjected : Bool} {s : State} (h : a.step.flags.learn = false) :
    stepDoneOf a interjected s = .stepDone a.slot a.step.tag a.runId s.spe.passesDone interjected s.spe.counters
      (missingIn a.step.first a.step.last s.bt.entries) none := by
  rw [stepDoneOf, h]
  rfl

/-! ## The after-step decision (R123) -/

section
variable {a : ActiveStep} {s : State}

theorem skips_iff {p : ScanStep} {c : StepCounters} : skips p c = true ↔
    p.flags.skipIfClean = true ∧ 1 ≤ c.made ∧ c.clean = c.made ∧ c.headerOnly = 0 ∧ c.lost = 0 := by
  rw [skips, Bool.and_eq_true, decide_eq_true_iff]

theorem following_eq {f : Option Slot} (h : followingSlot a s f) : following a s = some f := by
  obtain ⟨hplain, hskip⟩ := h
  unfold following
  split
  · rename_i hs
    obtain ⟨hend, hnext⟩ := hskip (skips_iff.1 hs)
    split
    · rw [hend ‹_›]
    · obtain ⟨p, hp, rfl⟩ := hnext _ ‹_›
      rw [hp]
      rfl
  · rename_i hs
    rw [hplain (mt skips_iff.2 hs)]

theorem following_eq_none {n : Slot} (hs : skips a.step s.spe.counters = true) (hn : a.step.next = some n)
    (hempty : s.spe.slots[n] = none) : following a s = none := by
  simp only [following, hs, hn, hempty, if_true, Option.map_none]

/-- The decision of a step whose following slot is `f`. -/
theorem ownDecision_eq {f : Option Slot} (h : followingSlot a s f) :
    ownDecision a s = some (if a.step.flags.haltAfter then .halt f else f.elim .finish .arm) := by
  rw [ownDecision, following_eq h]
  cases f <;> rfl

theorem afterStep_halts (h : haltPending s = true) : afterStep a s = takeHalt s := if_pos h

theorem afterStep_decides {d : Decision} (hl : s.spe.latch = none) (hi : s.spe.interjection = .none)
    (hd : ownDecision a s = some d) : afterStep a s = carryOut d s := by
  simp only [afterStep, haltPending_of_clear hl, hi, hd, Bool.false_eq_true, if_false]

theorem afterStep_invalid (hl : s.spe.latch = none) (hi : s.spe.interjection = .none) (hd : ownDecision a s = none) :
    afterStep a s = stepInvalid 0 s := by
  simp only [afterStep, haltPending_of_clear hl, hi, hd, Bool.false_eq_true, if_false]

theorem afterStep_interjects {slot : Slot} {d : Decision} (hl : s.spe.latch = none) (hi : s.spe.interjection = .pending slot)
    (hd : ownDecision a s = some d) : afterStep a s =
      startInterjection ⟨a.slot, a.step.tag, a.runId, .decided, s.spe.passesDone, s.spe.counters, some d⟩ slot s := by
  simp only [afterStep, haltPending_of_clear hl, hi, hd, Bool.false_eq_true, if_false]
  rfl

theorem afterStep_restores {c : Context} (hl : s.spe.latch = none) (hi : s.spe.interjection = .running)
    (hc : s.spe.context = some c) : afterStep a s = restoreContext c s := by
  simp only [afterStep, haltPending_of_clear hl, hi, hc, Bool.false_eq_true, if_false]

theorem endInterjectionTail_halts {slot : Slot} (h : haltPending s = true) : endInterjectionTail a slot s = takeHalt s :=
  if_pos h

theorem endInterjectionTail_starts {slot : Slot} (hl : s.spe.latch = none) : endInterjectionTail a slot s =
    startInterjection ⟨a.slot, a.step.tag, a.runId, .resumePasses, s.spe.passesDone, s.spe.counters, none⟩ slot
      (if a.step.flags.learn then { s with rm := saveAcc s.rm } else s) := by
  simp only [endInterjectionTail, haltPending_of_clear hl, Bool.false_eq_true, if_false]
  rfl

end

/-- Settles O42: the end of TAIL, the report, and the decision, one case of the decision at a time. -/
theorem stepCompletes : Obligations.StepCompletes := by
  intro s a f hr ha sdon notified
  have hreport (hlearn : a.step.flags.learn = false) (hroom : s.lp.notices.length + 2 ≤ 32) :
      reportStep a s = { s with lp := notified [sdon (s.spe.interjection == .running)] } := by
    rw [reportStep_eq (a := a) (s := s) (m := s.rm) (if_neg (by rw [hlearn]; decide)) (by omega),
      stepDoneOf_of_not_learn hlearn]
  have hnotices (n : Notice) (hroom : s.lp.notices.length + 2 ≤ 32) : (s.lp.notices ++ [n]).length < 32 := by
    rw [List.length_append, List.length_singleton]
    omega
  have htwice (n m : Notice) : ({ s.lp with notices := s.lp.notices ++ [n] ++ [m] } : LinkPort) = notified [n, m] := by
    rw [List.append_assoc]
    rfl
  refine ⟨exec_stepCompletion_not_over hr ha, ?_, ?_, ?_⟩
  · intro hover hlearn hi hl hf hroom
    let u : State := { s with lp := notified [sdon false] }
    have hcomplete : exec .stepCompletion s =
        .next (carryOut (if a.step.flags.haltAfter then .halt f else f.elim .finish .arm) u) := by
      rw [exec_stepCompletion_over hr ha hover (.inl fun slot => by rw [hi]; exact Interjection.noConfusion),
        hreport hlearn hroom, hi]
      exact congrArg Host.Outcome.next (afterStep_decides (s := u) hl hi (ownDecision_eq hf))
    refine ⟨fun hhalt => ?_, fun hgo hend => ?_, fun hgo n p hn hp harm => ?_⟩
    · rw [hcomplete, hhalt]
      rfl
    · rw [hcomplete, hgo, hend]
      refine congrArg Host.Outcome.next ((finishPlan_eq (s := u) ha (hnotices _ hroom)).trans ?_)
      exact congrArg (fun l => ({ s with tu := _, spe := _, lp := l } : State)) (htwice _ _)
    · rw [hcomplete, hgo, hn]
      obtain ⟨harmed, hlp, -, -⟩ := armSlot_fresh (s := u) hp harm
      exact ⟨_, rfl, harmed, hlp⟩
  · intro hover hlearn hi hroom r hl hp ht interjected
    rw [exec_stepCompletion_over hr ha hover (.inl hi), hreport hlearn hroom]
    let u : State := { s with lp := notified [sdon interjected] }
    refine congrArg Host.Outcome.next ((afterStep_halts (s := u) (haltPending_eq (s := u) hl hp ht)).trans
      ((takeHalt_eq (s := u) hl (hnotices _ hroom)).trans ?_))
    exact congrArg (fun l => ({ haltTaken r s with lp := l } : State)) (htwice _ _)
  · intro hover hlearn hi hl hroom hskip hmade hclean hheader hlost n hn hempty r
    have hover' := hover
    obtain ⟨-, -, -, -, -, hheads⟩ := hover'
    have hnone : openInOrder s = [] := List.filterMap_eq_nil_iff.2 fun h _ => (hheads h).2.2.2
    let u : State := { s with lp := notified [sdon false] }
    have hcomplete : exec .stepCompletion s = .next (stepInvalid 0 u) := by
      have hdecision : ownDecision a u = none := by
        rw [ownDecision, following_eq_none (s := u) (skips_iff.2 ⟨hskip, hmade, hclean, hheader, hlost⟩) hn hempty]
        rfl
      rw [exec_stepCompletion_over hr ha hover (.inl fun slot => by rw [hi]; exact Interjection.noConfusion),
        hreport hlearn hroom, hi]
      exact congrArg Host.Outcome.next (afterStep_invalid (s := u) hl hi hdecision)
    obtain ⟨-, hspe, hlp, hbus, htorn⟩ := stepInvalid_stops (tag := 0) (s := u) hl (hnotices _ hroom)
    exact ⟨_, hcomplete, (htorn a ha).1, hbus hnone, hspe, hlp.trans (htwice _ _)⟩

/-! ## The return from an interjected step (R138) -/

section
variable {c : Context} {p : ScanStep} {s : State}

theorem holdMain_eq (hp : s.spe.slots[c.slot] = some p) : holdMain c s = { s with spe := { s.spe with
    active := some ⟨c.slot, { stepCopy p s with tag := c.tag }, c.runId⟩
    pass := c.passesDone, passesDone := c.passesDone, counters := c.counters } } := by
  simp only [holdMain, onPlan, hp, Option.map_some]

theorem finishPlan_holdMain (hp : s.spe.slots[c.slot] = some p) (hroom : s.lp.notices.length < 32) :
    finishPlan (holdMain c s) = { s with
      tu := tailsStopped s.tu, spe := planAtRest .idle s.spe
      lp := { s.lp with notices := s.lp.notices ++ [.runDone c.slot c.tag c.runId] } } := by
  have ha : (holdMain c s).spe.active = some ⟨c.slot, { stepCopy p s with tag := c.tag }, c.runId⟩ := by rw [holdMain_eq hp]
  exact finishPlan_eq (s := holdMain c s) ha hroom

/-- The state that the saved context has left. -/
def contextTaken (s : State) : State := { s with spe := { s.spe with interjection := .none, context := none } }

theorem restoreContext_resumes (h : c.phase = .resumePasses) :
    restoreContext c s = armSlot (.resumed c) c.slot (contextTaken s) := by
  simp only [restoreContext, h]
  rfl

theorem restoreContext_restarts (h : c.phase = .restart) : restoreContext c s = armSlot .fresh c.slot (contextTaken s) := by
  simp only [restoreContext, h]
  rfl

theorem restoreContext_decided {d : Decision} (h : c.phase = .decided ∨ c.phase = .halted) (hd : c.decision = some d) :
    restoreContext c s = carryOut d (holdMain c (contextTaken s)) := by
  rcases h with h | h <;> simp only [restoreContext, h, hd] <;> rfl

/-- A decision to arm leaves nothing of the main step that was held (R138). -/
theorem armSlot_holdMain {n : Slot} {q : ScanStep} (hq : s.spe.slots[n] = some q) (h : armableStep q s) :
    let t := armSlot .fresh n (holdMain c (contextTaken s))
    armedAs n q 0 ⟨0, 0, 0, 0, 0⟩ s t ∧ t.lp = s.lp ∧ t.spe.interjection = .none ∧ t.spe.context = none :=
  armSlot_fresh (s := holdMain c (contextTaken s)) hq h

end

/-- Settles O44: the interjection tail, the waiting request, and each phase of the saved context. -/
theorem interjectionSavesAndResumes : Obligations.InterjectionSavesAndResumes := by
  intro s a hr ha notified sdon u
  obtain ⟨m, hm⟩ : ∃ m, learnTaken a s = { s with rm := m } := ⟨_, learnTaken_eq a s⟩
  have hsaved : m.saved = s.rm.saved := by
    have h := learnTaken_saved a s
    rw [hm] at h
    exact h
  have hu : u = { s with rm := m } := hm
  clear_value u
  subst hu
  have hreport (hroom : s.lp.notices.length < 32) :
      reportStep a s = { s with rm := m, lp := notified [sdon (s.spe.interjection == .running)] } := reportStep_eq hm hroom
  refine ⟨fun hnot => ⟨exec_interjectionTailEnd_not_over hr hnot, exec_stepCompletion_not_over hr ha hnot⟩,
    fun hover => ⟨fun slot hi hpasses => ⟨exec_stepCompletion_interjection_tail hr ha hi hpasses, fun p hl hp harm => ?_,
      fun r hl hp ht hroom => ?_⟩, fun slot p f hi hpasses hl hf hroom hp harm => ?_, fun c hi hc hl hroom => ?_⟩⟩
  · intro saved
    have hsavedState : (if a.step.flags.learn then { s with rm := saveAcc s.rm } else s) =
        { s with rm := if a.step.flags.learn then saveAcc s.rm else s.rm } := by
      split <;> rfl
    have hsavedState' : saved = { s with rm := if a.step.flags.learn then saveAcc s.rm else s.rm } := hsavedState
    have harm' : armableStep p { s with rm := if a.step.flags.learn then saveAcc s.rm else s.rm } := by
      split
      · exact harm
      · exact harm
    rw [exec_interjectionTailEnd_over hr ha hover hi hpasses, endInterjectionTail_starts hl, hsavedState, hsavedState']
    obtain ⟨harmed, hlp, hrunning, hcontext⟩ := startInterjection_armed
      (s := { s with rm := if a.step.flags.learn then saveAcc s.rm else s.rm })
      (c := ⟨a.slot, a.step.tag, a.runId, .resumePasses, s.spe.passesDone, s.spe.counters, none⟩) hp harm'
    exact ⟨_, rfl, harmed, hrunning, hlp, hcontext⟩
  · rw [exec_interjectionTailEnd_over hr ha hover hi hpasses, endInterjectionTail_halts (haltPending_eq hl hp ht),
      takeHalt_eq hl hroom]
  · intro decision
    rw [exec_stepCompletion_over hr ha hover (.inr hpasses), hreport hroom, hi]
    let v : State := { s with rm := m, lp := notified [sdon false] }
    obtain ⟨harmed, hlp, hrunning, hcontext⟩ := startInterjection_armed (s := v)
      (c := ⟨a.slot, a.step.tag, a.runId, .decided, s.spe.passesDone, s.spe.counters, some decision⟩) hp harm
    exact ⟨_, congrArg Host.Outcome.next (afterStep_interjects (s := v) hl hi (ownDecision_eq (s := v) hf)), harmed, hrunning,
      hlp, hcontext⟩
  · intro rearmed afresh
    let v : State := { s with rm := m, lp := notified [sdon true] }
    have hcomplete : exec .stepCompletion s = .next (restoreContext c v) := by
      rw [exec_stepCompletion_over hr ha hover (.inl fun slot => by rw [hi]; exact Interjection.noConfusion),
        hreport (by omega), hi]
      exact congrArg Host.Outcome.next (afterStep_restores (s := v) hl hi hc)
    refine ⟨fun p hphase hp harm => ?_, fun p hphase hp harm => ?_, fun n p hphase hd hp harm => ?_,
      fun p hphase hd hp => ?_, fun f p hphase hd hp => ?_⟩
    · rw [restoreContext_resumes hphase] at hcomplete
      obtain ⟨harmed, hlp, hinterjection, hcontext⟩ :=
        armSlot_armed (how := .resumed c) (s := contextTaken v) hp harm
      refine ⟨fun hlearn => ⟨_, hcomplete, ?_, hinterjection, hcontext, hlp⟩, fun hlearn acc hacc =>
        ⟨_, hcomplete, ?_, hinterjection, hcontext, hlp⟩⟩
      · rw [hlearn] at harmed
        rw [armedAs, hlearn]
        exact harmed
      · rw [hlearn] at harmed
        have hmap : restoreAcc m = { m with acc := acc, saved := none } := by
          simp only [restoreAcc, hsaved, hacc]
        rw [← hmap]
        exact harmed
    · rw [restoreContext_restarts hphase] at hcomplete
      obtain ⟨harmed, hlp, hinterjection, hcontext⟩ := armSlot_fresh (s := contextTaken v) hp harm
      exact ⟨_, hcomplete, harmed, hinterjection, hcontext, hlp⟩
    · rw [restoreContext_decided (.inl hphase) hd] at hcomplete
      obtain ⟨harmed, hlp, hinterjection, hcontext⟩ := armSlot_holdMain (c := c) (s := v) hp harm
      exact ⟨_, hcomplete, harmed, hinterjection, hcontext, hlp⟩
    · rw [hcomplete, restoreContext_decided (.inl hphase) hd]
      refine congrArg Host.Outcome.next ((finishPlan_holdMain (s := contextTaken v) hp ?_).trans ?_)
      · show (s.lp.notices ++ [_]).length < 32
        rw [List.length_append, List.length_singleton]
        omega
      · show ({ s with rm := m, tu := _, spe := _, lp := { s.lp with notices := s.lp.notices ++ [_] ++ [_] } } : State) = _
        rw [List.append_assoc]
        rfl
    · rw [hcomplete, restoreContext_decided hphase hd, holdMain_eq (s := contextTaken v) hp]
      rfl

end Sys2Proof.Proofs
end

