-- ==== Sys2Proof/Proofs/Learning.lean ====
section
/-! PROOF. The learn of the runout map (R103 to R105). -/

open Sys2Proof Sys2Proof.Machine

namespace Sys2Proof.Proofs

section
variable {a : Accumulators} {k : Fin 256}

theorem binMean_of_filled (h : a.counts[k] ≠ 0) : binMean a k = some (roundHalfAway a.sums[k] a.counts[k]) := if_neg h

theorem binMean_of_empty (h : a.counts[k] = 0) : binMean a k = none := if_pos h

theorem meanBelow_of_filled (fuel : Nat) (h : a.counts[k] ≠ 0) :
    meanBelow a (fuel + 1) k = roundHalfAway a.sums[k] a.counts[k] := by
  rw [meanBelow, binMean_of_filled h]

theorem meanBelow_of_empty (fuel : Nat) (h : a.counts[k] = 0) : meanBelow a (fuel + 1) k = meanBelow a fuel (k - 1) := by
  rw [meanBelow, binMean_of_empty h]

/-- Once a filled bin is in reach, looking further below changes nothing. -/
theorem meanBelow_succ (fuel : Nat) (d j : Fin 256) (hd : d.val < fuel) (hj : k - d = j) (h : a.counts[j] ≠ 0) :
    meanBelow a (fuel + 1) k = meanBelow a fuel k := by
  induction fuel generalizing k d with
  | zero => exact absurd hd (Nat.not_lt_zero _)
  | succ fuel ih =>
    by_cases hk : a.counts[k] = 0
    · have hne : d ≠ 0 := by
        rintro rfl
        rw [sub_zero] at hj
        subst hj
        exact h hk
      have hpos : d.val ≠ 0 := fun e => hne (Fin.ext e)
      have hval : (d - 1).val = d.val - 1 := by omega
      rw [meanBelow_of_empty (fuel + 1) hk, meanBelow_of_empty fuel hk]
      exact ih (k := k - 1) (d - 1) (by omega) ((sub_sub_sub_cancel_right k d 1).trans hj) h
    · rw [meanBelow_of_filled _ hk, meanBelow_of_filled _ hk]

/-- An empty bin takes the mean of the bin below it (R104 step 2). -/
theorem meanBelow_empty_eq_below (hfilled : ∃ j : Fin 256, a.counts[j] ≠ 0) (hk : a.counts[k] = 0) :
    meanBelow a 256 k = meanBelow a 256 (k - 1) := by
  obtain ⟨j, hj⟩ := hfilled
  have hne : k - j ≠ 0 := by
    intro e
    obtain rfl : k = j := sub_eq_zero.1 e
    exact hj hk
  have hpos : (k - j).val ≠ 0 := fun e => hne (Fin.ext e)
  have hval : (k - j - 1).val = (k - j).val - 1 := by omega
  have hsub : k - 1 - (k - j - 1) = j := (sub_sub_sub_cancel_right k (k - j) 1).trans (sub_sub_cancel k j)
  rw [meanBelow_of_empty 255 hk]
  exact (meanBelow_succ (k := k - 1) 255 (k - j - 1) j (by omega) hsub hj).symm

end

theorem filledBins_eq (a : Accumulators) :
    filledBins a = (a.counts.toList.filter fun n => decide (n ≠ 0)).length := by
  unfold filledBins
  simp only [Nat.pos_iff_ne_zero]

theorem exists_filled {a : Accumulators} (h : 0 < filledBins a) : ∃ k : Fin 256, a.counts[k] ≠ 0 := by
  obtain ⟨n, hn⟩ := List.exists_mem_of_length_pos h
  obtain ⟨hmem, hpos⟩ := List.mem_filter.1 hn
  obtain ⟨i, hi, rfl⟩ := Vector.mem_iff_getElem.1 (Vector.mem_toList_iff.1 hmem)
  exact ⟨⟨i, hi⟩, Nat.pos_iff_ne_zero.1 (of_decide_eq_true hpos)⟩

theorem clampBin_eq (w : Int) : clampBin w = max (-32768) (min 32767 w) := rfl

theorem clampBin_ne_iff {w : Int} : clampBin w ≠ w ↔ w < -32768 ∨ 32767 < w := by
  rw [clampBin_eq]
  omega

section
variable (a : Accumulators)

theorem meanAll_eq : meanAll (learnedMeans a) = roundHalfAway (List.ofFn (meanBelow a 256)).sum 256 := by
  rw [meanAll, learnedMeans, List.ofFn_eq_map]

theorem learnedBins_eq :
    learnedBins a = Vector.ofFn fun k => max (-32768) (min 32767 (meanBelow a 256 k - meanAll (learnedMeans a))) := by
  refine congrArg Vector.ofFn (funext fun k => ?_)
  have hget : (learnedMeans a).getD k.val 0 = meanBelow a 256 k := by simp [learnedMeans]
  show clampBin ((learnedMeans a).getD k.val 0 - meanAll (learnedMeans a)) = _
  rw [hget]
  rfl

theorem saturatedBins_eq : saturatedBins a = ((List.finRange 256).filter fun k =>
    decide (meanBelow a 256 k - meanAll (learnedMeans a) < -32768 ∨
      32767 < meanBelow a 256 k - meanAll (learnedMeans a))).length := by
  show ((learnedMeans a).filter fun x =>
    clampBin (x - meanAll (learnedMeans a)) != x - meanAll (learnedMeans a)).length = _
  generalize meanAll (learnedMeans a) = m
  rw [learnedMeans, List.filter_map, List.length_map]
  refine congrArg List.length (List.filter_congr fun k _ => ?_)
  rw [Bool.eq_iff_iff, Function.comp_apply, bne_iff_ne, clampBin_ne_iff, decide_eq_true_iff]

end

theorem completeLearn_sparse {m : RunoutMap} (h : filledBins m.acc < 192) :
    completeLearn m = ({ m with acc := accumulatorsAt none }, ⟨true, filledBins m.acc, 0, m.gen⟩) := if_pos h

theorem completeLearn_filled {m : RunoutMap} (h : 192 ≤ filledBins m.acc) : completeLearn m =
    ({ m with bins := learnedBins m.acc, state := .learned, radius := m.acc.radius.getD 0, gen := m.gen + 1
              acc := accumulatorsAt none },
     ⟨false, filledBins m.acc, saturatedBins m.acc, m.gen + 1⟩) := if_neg (Nat.not_lt.2 h)

/-- A learning step that ends its plan reports its learn and the end. -/
theorem learning_step_ends {s : State} {a : ActiveStep} (hr : s.resetHeld = false) (ha : s.spe.active = some a)
    (hover : tailIsOver s) (hlearn : a.step.flags.learn = true) (hhalt : a.step.flags.haltAfter = false)
    (hskip : a.step.flags.skipIfClean = false) (hnext : a.step.next = none) (hi : s.spe.interjection = .none)
    (hl : s.spe.latch = none) (hroom : s.lp.notices.length + 2 ≤ 32) :
    exec .stepCompletion s = .next { s with
      tu := tailsStopped s.tu, spe := planAtRest .idle s.spe, rm := (completeLearn s.rm).1
      lp := { s.lp with notices := s.lp.notices ++
        [.stepDone a.slot a.step.tag a.runId s.spe.passesDone false s.spe.counters 0 (some (completeLearn s.rm).2),
         .runDone a.slot a.step.tag a.runId] } } := by
  have hfollowing : followingSlot a s none := by
    refine ⟨fun _ => hnext.symm, fun hskips => ?_⟩
    rw [hskips.1] at hskip
    exact Bool.noConfusion hskip
  have hdone : stepDoneOf a (s.spe.interjection == .running) s =
      .stepDone a.slot a.step.tag a.runId s.spe.passesDone false s.spe.counters 0 (some (completeLearn s.rm).2) := by
    rw [stepDoneOf, hlearn, hi]
    rfl
  have hreport := reportStep_eq (s := s) (a := a) (m := (completeLearn s.rm).1) (if_pos hlearn) (by omega)
  rw [hdone] at hreport
  have hdecision := ownDecision_eq hfollowing
  rw [hhalt] at hdecision
  rw [exec_stepCompletion_over hr ha hover (.inl fun slot => by rw [hi]; exact Interjection.noConfusion), hreport]
  let u : State := { s with
    rm := (completeLearn s.rm).1
    lp := { s.lp with notices := s.lp.notices ++
      [.stepDone a.slot a.step.tag a.runId s.spe.passesDone false s.spe.counters 0 (some (completeLearn s.rm).2)] } }
  refine congrArg Host.Outcome.next ((afterStep_decides (s := u) hl hi hdecision).trans
    ((finishPlan_eq (s := u) ha ?_).trans ?_))
  · show (s.lp.notices ++ [_]).length < 32
    rw [List.length_append, List.length_singleton]
    omega
  · show ({ s with tu := _, spe := _, rm := _, lp := { s.lp with notices := s.lp.notices ++ [_] ++ [_] } } : State) = _
    rw [List.append_assoc]
    rfl

/-- Settles O43: the bin means are those that the search below each bin finds. -/
theorem learningStepCompletes : Obligations.LearningStepCompletes := by
  intro s a hr ha hover hlearn hhalt hskip hnext hi hl hroom acc filled ends
  have hexec := learning_step_ends hr ha hover hlearn hhalt hskip hnext hi hl hroom
  have hfilled : filledBins s.rm.acc = filled := filledBins_eq acc
  refine ⟨fun hsparse => ?_, fun henough => ⟨meanBelow acc 256, fun k hk => meanBelow_of_filled 255 hk, fun k hk =>
    meanBelow_empty_eq_below (exists_filled (a := acc) ?_) hk, ?_⟩⟩
  · rw [completeLearn_sparse (hfilled ▸ hsparse), hfilled] at hexec
    exact hexec
  · show 0 < filledBins s.rm.acc
    omega
  · intro all saturated
    rw [completeLearn_filled (by omega), hfilled, learnedBins_eq, saturatedBins_eq, meanAll_eq] at hexec
    exact hexec

end Sys2Proof.Proofs
end

