-- ==== Sys2Proof/Proofs/Samples.lean ====
section
/-! PROOF. A placed sample at its edge detector: the marks, the open record, and the opening of a record (R44, R47 to R54, R73
to R84, R88, R89). -/

open Sys2Proof Sys2Proof.Machine

namespace Sys2Proof.Proofs

/-! ## The placed sample (R44, R47 to R52) -/

theorem advanceOf_saturates (latency : Nat) (e : Outstanding) : (advanceOf latency e).2 = advanceSaturates latency e := by
  unfold advanceOf advanceSaturates
  rcases e.speed with _ | _ | q
  · rfl
  · by_cases h : 0 < latency <;> simp [h]
  · rfl

theorem correctionAt_eq (p : ScanStep) (s : State) (angle : Angle) :
    correctionAt p (radius s) s.rm angle = correctionInForce p s angle := rfl

section
variable {a : ActiveStep} {ws : List Window} {h : Head} {x : Sample} {s : State} {q : Answer}

/-- The class of an answer that is present: measured exactly when its code is OK (R47). -/
theorem present_class {threshold : Nat}
    (hpresent : q.code = .ok ∧ threshold ≤ q.intensity.toNat ∨ q.code = .saturated ∨ q.code = .multiPeak) :
    isPresent threshold q = true ∧ isMeasured threshold q = decide (q.code = .ok) := by
  rcases hpresent with ⟨hcode, hthreshold⟩ | hcode | hcode <;> simp [isPresent, isMeasured, *]

theorem placedSample_present (hq : x.answer = some q)
    (hpresent : q.code = .ok ∧ a.step.threshold ≤ q.intensity.toNat ∨ q.code = .saturated ∨ q.code = .multiPeak) :
    let hp := (s.hp.get h).params
    let w := correctionInForce a.step s (exposureAngle s.eu.params hp x.entry)
    let exact : Int := if hp.facing = .down then hp.reference - q.distance.toNat else hp.reference + q.distance.toNat
    let raw := max (-8388608) (min 8388607 exact)
    let z := max (-8388608) (min 8388607 (raw - w))
    let p := placedSample a ws h x s
    p.surface = some (z, q.intensity, q.code, decide (q.code = .ok)) ∧ p.placeholder = false ∧
      (p.clamped = true ↔ advanceSaturates hp.latency x.entry = true ∨ raw ≠ exact ∨ z ≠ raw - w) := by
  intro hp w exact raw z p
  obtain ⟨hin, hmeasured⟩ := present_class hpresent
  have hfilter : x.answer.filter (isPresent a.step.threshold) = some q := by rw [hq, Option.filter_some, if_pos hin]
  have hexact : exactHeight hp q = exact := exactHeight_eq hp q
  have hheight : correctedHeight (exactHeight hp q) w = (z, raw != exact || z != raw - w) := by
    rw [hexact]
    rfl
  refine ⟨?_, ?_, ?_⟩
  · show (x.answer.filter _).map _ = _
    rw [hfilter, Option.map_some, hmeasured]
    exact congrArg (fun y : Int × Bool => some (y.1, q.intensity, q.code, decide (q.code = .ok))) hheight
  · show x.answer.isNone = false
    rw [hq]
    rfl
  · show ((advanceOf hp.latency x.entry).2 || (x.answer.filter _).any _) = true ↔ _
    rw [hfilter, Option.any_some, advanceOf_saturates, Bool.or_eq_true]
    refine or_congr_right ?_
    show (correctedHeight (exactHeight hp q) w).2 = true ↔ _
    rw [hheight, Bool.or_eq_true, bne_iff_ne, bne_iff_ne]

theorem placedSample_absent
    (habsent : ∀ q : Answer, x.answer = some q → q.code = .noPeak ∨ q.code = .ok ∧ q.intensity.toNat < a.step.threshold) :
    let p := placedSample a ws h x s
    p.surface = none ∧ (p.placeholder = true ↔ x.answer = none) ∧
      p.clamped = advanceSaturates (s.hp.get h).params.latency x.entry := by
  have hfilter : x.answer.filter (isPresent a.step.threshold) = none := by
    rw [Option.filter_eq_none_iff]
    intro q hq
    rcases habsent q hq with hcode | ⟨hcode, hlow⟩ <;> simp [isPresent, *]
  refine ⟨?_, Option.isNone_iff_eq_none, ?_⟩
  · show (x.answer.filter _).map _ = none
    rw [hfilter]
    rfl
  · show ((advanceOf _ x.entry).2 || (x.answer.filter _).any _) = _
    rw [hfilter, advanceOf_saturates, Option.any_none, Bool.or_false]

end

/-! ## The marks of a sample (R89) -/

/-- The flags with the marks of a sample. -/
def markedFlags (clamped placeholder : Bool) (f : BitVec 12) : BitVec 12 :=
  withFlagIf placeholder .noResponse (withFlagIf clamped .clamped f)

/-- The detector with the marks of a sample on its open record. -/
def marksTaken (clamped placeholder : Bool) (d : Detector) : Detector :=
  { d with record := d.record.map fun r => { r with flags := markedFlags clamped placeholder r.flags } }

theorem marksTaken_of_record {d : Detector} {r : OpenRecord} (c b : Bool) (hr : d.record = some r) :
    marksTaken c b d = { d with record := some { r with flags := markedFlags c b r.flags } } := by
  rw [marksTaken, hr]
  rfl

theorem flagDetector_if (c : Bool) (f : RecordFlag) (d : Detector) : (if c then flagDetector f d else d) =
    { d with record := d.record.map fun r => { r with flags := withFlagIf c f r.flags } } := by
  cases c with
  | true => rfl
  | false =>
    show d = { d with record := d.record.map id }
    rw [Option.map_id, id]

theorem joinRecord_eq (e : Surroundings) (u : Nat) (p : Placed) (d : Detector) : joinRecord e u p d =
    marksTaken p.clamped p.placeholder (takeSample e.step { d with prevOffset := u } (surfaceAt u p)) := by
  simp only [joinRecord, flagDetector_if, Option.map_map]
  rfl

theorem markedFlags_present {c : Bool} {p : Prop} [Decidable p] (hc : c = true ↔ p) (f : BitVec 12) :
    markedFlags c false f = if p then f ||| flagMask .clamped else f :=
  if_congr hc rfl rfl

theorem markedFlags_absent {c b : Bool} {p : Prop} [Decidable p] (hb : b = true ↔ p) (f : BitVec 12) :
    markedFlags c b f =
      if p then (if c then f ||| flagMask .clamped else f) ||| flagMask .noResponse else if c then f ||| flagMask .clamped else f :=
  if_congr hb rfl rfl

/-! ## A sample that joins the open record (R74, R79, R80) -/

theorem arrive_joins {e : Surroundings} {p : Placed} {d : Detector} {r : OpenRecord} (hrecord : d.record = some r)
    (hseq : d.lastSeq = some (p.seq - 1)) (hin : (p.angle - r.start).toNat < r.width)
    (hback : d.prevOffset ≤ (p.angle - r.start).toNat + 64) :
    arrive e p d =
      (joinRecord e (max (p.angle - r.start).toNat d.prevOffset) p { d with lastSeq := some p.seq }, none) := by
  have hgap : seqGap d p.seq = false := by simp [seqGap, hseq]
  simp only [arrive, hgap, hrecord, Bool.false_eq_true, if_false, Nat.not_le.2 hin, Nat.not_lt.2 hback]

theorem windowSet_kept {b : BladeTable} {g : Id16} (h : g = b.gen ∨ g = b.gen - 1) : ∃ ws, windowSet b g = some ws := by
  unfold windowSet
  split
  · exact ⟨_, rfl⟩
  · exact ⟨_, if_pos (h.resolve_left ‹_›)⟩

/-- The end of a placement that hands its sample over (R54, R55). -/
theorem exec_placementEnd_handOver {after : Nat} {a : ActiveStep} {h : Head} {x : Sample} {ws : List Window} {s : State}
    (hr : s.resetHeld = false) (hstate : s.spe.state ≠ .tail) (ha : s.spe.active = some a)
    (hlearn : a.step.flags.learn = false) (hbusy : s.pe.busy = some (h, x)) (hws : windowSet s.bt x.entry.gen = some ws) :
    exec (.placementEnd after) s = .next (handOver a ws h x (engineFreed (elapse after s))) := by
  have hset : windowSet (engineFreed (elapse after s)).bt x.entry.gen = some ws := hws
  rw [exec_placementEnd_active hr hstate ha hbusy, placeSample, if_neg (by rw [hlearn]; decide), hset]

theorem placementLeaves_joins {after : Nat} {a : ActiveStep} {h : Head} {x : Sample} {r : OpenRecord} {u : Nat} {s : State}
    (hj : joinsRecord a h x r u s) :
    ∃ (ws : List Window) (p : Placed), p = placedSample a ws h x s ∧
      placementLeaves after h (marksTaken p.clamped p.placeholder (takeSample a.step
        { s.pe.detectors.get h with lastSeq := some x.entry.seq, prevOffset := u } (surfaceAt u p))) s := by
  obtain ⟨hr, hstate, ha, hlearn, hbusy, hgen, hrecord, hseq, hin, hback, hu⟩ := hj
  obtain ⟨ws, hws⟩ := windowSet_kept hgen
  refine ⟨ws, _, rfl, ?_⟩
  have harrive := arrive_joins (e := surroundings a h (engineFreed (elapse after s)))
    (p := placedSample a ws h x s) (d := s.pe.detectors.get h) hrecord hseq hin hback
  have hexec := exec_placementEnd_handOver (after := after) hr hstate ha hlearn hbusy hws
  have hhand : handOver a ws h x (engineFreed (elapse after s)) =
      onDetector h (fun _ => joinRecord (surroundings a h (engineFreed (elapse after s)))
        (max (exposureAngle s.eu.params (s.hp.get h).params x.entry - r.start).toNat (s.pe.detectors.get h).prevOffset)
        (placedSample a ws h x s) { s.pe.detectors.get h with lastSeq := some x.entry.seq })
        (engineFreed (elapse after s)) :=
    congrArg (fun y : Detector × Option OpenRecord =>
      deliverClosed h y.2 (onDetector h (fun _ => y.1) (engineFreed (elapse after s)))) harrive
  rw [hhand, joinRecord_eq, ← hu] at hexec
  exact hexec

/-! ## The states of a detector (R81 to R84, R88) -/

theorem countSurface_eq (c : Surface) (s : Stats) : countSurface c s =
    { count := if c.measured = true then satInc s.count else s.count
      sum := if c.measured = true then s.sum + c.point.z else s.sum
      range := if c.measured = true then
          some (s.range.elim (c.point.z, c.point.z) fun m => (min m.1 c.point.z, max m.2 c.point.z))
        else s.range
      dropouts := s.dropouts
      saturated := if c.point.code = .saturated then satInc s.saturated else s.saturated
      multiPeak := if c.point.code = .multiPeak then satInc s.multiPeak else s.multiPeak } := by
  unfold countSurface
  rcases s with ⟨count, sum, range, dropouts, saturated, multiPeak⟩
  cases c.measured <;> cases c.point.code <;> cases range <;> rfl

theorem appendPoint_eq (p : Point) (r : OpenRecord) : appendPoint p r = { r with
    points := if r.points.length < 1024 then r.points ++ [p] else r.points
    flags := if r.points.length < 1024 then r.flags else r.flags ||| flagMask .truncated } := by
  show (if r.points.length < 1024 then _ else _) = _
  split <;> rfl

/-- The index that the next present sample takes (R82). -/
def nextIndex (l : Option LastPresent) : Nat := l.elim 0 fun l => l.index + 1

/-- The record with the point of a present sample, where decimation keeps it (R82). -/
def pointTaken (decimation : Nat) (d : Detector) (c : Surface) (r : OpenRecord) : OpenRecord :=
  if nextIndex d.lastPresent % 2 ^ decimation = 0 then appendPoint c.point r else r

theorem pointTaken_eq (decimation : Nat) (d : Detector) (c : Surface) (r : OpenRecord) :
    pointTaken decimation d c r = { r with
      points := if nextIndex d.lastPresent % 2 ^ decimation = 0 ∧ r.points.length < 1024 then r.points ++ [c.point]
        else r.points
      flags := if nextIndex d.lastPresent % 2 ^ decimation = 0 ∧ ¬ r.points.length < 1024 then
          r.flags ||| flagMask .truncated
        else r.flags } := by
  rw [pointTaken, appendPoint_eq]
  by_cases hkeep : nextIndex d.lastPresent % 2 ^ decimation = 0
  · by_cases hroom : r.points.length < 1024
    · rw [if_pos hkeep, if_pos hroom, if_pos hroom, if_pos ⟨hkeep, hroom⟩, if_neg fun h => h.2 hroom]
    · rw [if_pos hkeep, if_neg hroom, if_neg hroom, if_neg fun h => hroom h.2, if_pos ⟨hkeep, hroom⟩]
  · rw [if_neg hkeep, if_neg fun h => hkeep h.1, if_neg fun h => hkeep h.1]

theorem takeSurface_pointTaken {decimation : Nat} {d : Detector} {c : Surface} {r : OpenRecord} (hr : d.record = some r) :
    takeSurface decimation d c = { d with
      record := some { pointTaken decimation d c r with
        stats := { countSurface c (pointTaken decimation d c r).stats with
          dropouts := satAdd (countSurface c (pointTaken decimation d c r).stats).dropouts d.absentRun } }
      lastPresent := some ⟨c.point, nextIndex d.lastPresent,
        decide (nextIndex d.lastPresent % 2 ^ decimation = 0 ∧ r.points.length < 1024)⟩
      absentRun := 0 } := by
  obtain ⟨state, record, presentRun, candidates, absentRun, prevOffset, lastPresent, lastSeq, runIn, runInWindow, recorded⟩ := d
  cases hr
  cases lastPresent <;> rfl

theorem takeSurface_eq {decimation : Nat} {d : Detector} {c : Surface} {r : OpenRecord} (hr : d.record = some r) :
    takeSurface decimation d c = { d with
      record := some { r with
        points := if nextIndex d.lastPresent % 2 ^ decimation = 0 ∧ r.points.length < 1024 then r.points ++ [c.point]
          else r.points
        flags := if nextIndex d.lastPresent % 2 ^ decimation = 0 ∧ ¬ r.points.length < 1024 then
            r.flags ||| flagMask .truncated
          else r.flags
        stats := { countSurface c r.stats with dropouts := satAdd r.stats.dropouts d.absentRun } }
      lastPresent := some ⟨c.point, nextIndex d.lastPresent,
        decide (nextIndex d.lastPresent % 2 ^ decimation = 0 ∧ r.points.length < 1024)⟩
      absentRun := 0 } := by
  have hdropouts : (countSurface c r.stats).dropouts = r.stats.dropouts := by rw [countSurface_eq]
  rw [takeSurface_pointTaken hr, pointTaken_eq]
  show ({ d with record := some { r with points := _, flags := _, stats := { countSurface c r.stats with
    dropouts := satAdd (countSurface c r.stats).dropouts d.absentRun } }, lastPresent := _, absentRun := 0 } : Detector) = _
  rw [hdropouts]

/-! ## The candidates that make an entry (R81, R82, R88) -/

/-- The statistics of a record after a run of present samples. -/
theorem foldl_countSurface (run : List Surface) (s : Stats) :
    let t := run.foldl (fun t c => countSurface c t) s
    let taken := run.filter (·.measured)
    let coded (k : HeadCode) := ((run.map (·.point)).filter fun p => p.code == k).length
    t.count = satInc^[taken.length] s.count ∧ t.sum = s.sum + (taken.map (·.point.z)).sum ∧
      t.range = taken.foldl (fun m c => some (m.elim (c.point.z, c.point.z) fun b =>
        (min b.1 c.point.z, max b.2 c.point.z))) s.range ∧
      t.saturated = satInc^[coded .saturated] s.saturated ∧ t.multiPeak = satInc^[coded .multiPeak] s.multiPeak := by
  induction run generalizing s with
  | nil => exact ⟨rfl, (Int.add_zero _).symm, rfl, rfl, rfl⟩
  | cons c run ih =>
    intro t taken coded
    obtain ⟨hcount, hsum, hrange, hsaturated, hmultiPeak⟩ := ih (countSurface c s)
    have hcoded (k : HeadCode) (n : Nat) : satInc^[coded k] n =
        satInc^[((run.map (·.point)).filter fun p => p.code == k).length] (if c.point.code = k then satInc n else n) := by
      show satInc^[((c.point :: run.map (·.point)).filter fun p => p.code == k).length] n = _
      by_cases hk : c.point.code = k
      · rw [List.filter_cons_of_pos (by simpa using hk), List.length_cons, if_pos hk, Function.iterate_succ_apply]
      · rw [List.filter_cons_of_neg (by simpa using hk), if_neg hk]
    refine ⟨hcount.trans ?_, hsum.trans ?_, hrange.trans ?_, hsaturated.trans ?_, hmultiPeak.trans ?_⟩
    all_goals rw [countSurface_eq]
    · by_cases hm : c.measured = true
      · simp only [taken, List.filter_cons_of_pos hm, List.length_cons, Function.iterate_succ_apply, if_pos hm]
      · simp only [taken, List.filter_cons_of_neg hm, if_neg hm]
    · by_cases hm : c.measured = true
      · simp only [taken, List.filter_cons_of_pos hm, List.map_cons, List.sum_cons, if_pos hm, Int.add_assoc]
      · simp only [taken, List.filter_cons_of_neg hm, if_neg hm]
    · by_cases hm : c.measured = true
      · simp only [taken, List.filter_cons_of_pos hm, List.foldl_cons, if_pos hm]
      · simp only [taken, List.filter_cons_of_neg hm, if_neg hm]
    · exact (hcoded _ _).symm
    · exact (hcoded _ _).symm

/-- The dropouts of a record are no part of what its present samples count. -/
theorem countSurface_dropouts (c : Surface) (s : Stats) (k : Nat) :
    countSurface c { s with dropouts := k } = { countSurface c s with dropouts := k } := by
  rw [countSurface_eq, countSurface_eq]

theorem foldl_countSurface_dropouts (run : List Surface) (s : Stats) (k : Nat) :
    run.foldl (fun t c => countSurface c t) { s with dropouts := k } =
      { run.foldl (fun t c => countSurface c t) s with dropouts := k } := by
  induction run generalizing s with
  | nil => rfl
  | cons c run ih => rw [List.foldl_cons, countSurface_dropouts, ih, List.foldl_cons]

/-- A present sample that decimation 0 keeps, with room for its point (R82). -/
theorem takeSurface_kept {d : Detector} {c : Surface} {r : OpenRecord} (hr : d.record = some r)
    (hroom : r.points.length < 1024) : takeSurface 0 d c = { d with
      record := some { r with
        points := r.points ++ [c.point]
        stats := { countSurface c r.stats with dropouts := satAdd r.stats.dropouts d.absentRun } }
      lastPresent := some ⟨c.point, nextIndex d.lastPresent, true⟩
      absentRun := 0 } := by
  have hkeep : nextIndex d.lastPresent % 2 ^ 0 = 0 ∧ r.points.length < 1024 := ⟨Nat.mod_one _, hroom⟩
  rw [takeSurface_eq hr, if_pos hkeep, if_neg fun h => h.2 hroom, decide_eq_true hkeep]

/-- A run of present samples that all become points (R82). -/
theorem foldl_takeSurface (run : List Surface) {d : Detector} {r : OpenRecord} (hr : d.record = some r)
    (habsent : d.absentRun = 0) (hroom : r.points.length + run.length ≤ 1024) :
    ∃ (l : Option LastPresent) (n : Nat), nextIndex l = nextIndex d.lastPresent + run.length ∧
      run.foldl (takeSurface 0) d = { d with
        record := some { r with
          points := r.points ++ run.map (·.point)
          stats := { run.foldl (fun t c => countSurface c t) r.stats with dropouts := n } }
        lastPresent := l, absentRun := 0 } := by
  induction run generalizing d r with
  | nil =>
    refine ⟨d.lastPresent, r.stats.dropouts, rfl, ?_⟩
    rw [List.map_nil, List.append_nil]
    show d = { d with record := some r, absentRun := 0 }
    rw [← hr, ← habsent]
  | cons c run ih =>
    rw [List.length_cons] at hroom
    have hfirst := takeSurface_kept (c := c) hr (by omega)
    obtain ⟨l, n, hindex, hrest⟩ := ih (d := takeSurface 0 d c) (r := _) (by rw [hfirst]) (by rw [hfirst])
      (by rw [List.length_append, List.length_singleton]; omega)
    refine ⟨l, n, ?_, ?_⟩
    · rw [hindex, hfirst, List.length_cons]
      show nextIndex d.lastPresent + 1 + run.length = _
      omega
    · rw [List.foldl_cons, hrest, hfirst, foldl_countSurface_dropouts, List.append_assoc]
      rfl

/-! ## The states of an open record -/

section
variable {p : ScanStep} {d : Detector} {r : OpenRecord} {c : Surface} (hr : d.record = some r)
include hr

theorem takeSample_on_surface (hs : d.state = .onSurface) : takeSample p d (some c) = takeSurface p.decimation d c := by
  simp only [takeSample, hr, hs]

theorem takeSample_candidate (hs : d.state = .seeking) (hrun : d.presentRun + 1 < p.kOn) :
    takeSample p d (some c) = { d with presentRun := d.presentRun + 1, candidates := d.candidates ++ [c] } := by
  simp only [takeSample, hr, hs, seekPresent, Nat.not_le.2 hrun, if_false]

theorem takeSample_entry (hs : d.state = .seeking) (hrun : p.kOn ≤ d.presentRun + 1) :
    takeSample p d (some c) = (d.candidates ++ [c]).foldl (takeSurface p.decimation)
      { d with
        state := .onSurface
        record := some { r with entry := some (((d.candidates ++ [c]).head?.map (·.point.u)).getD c.point.u) }
        presentRun := 0, candidates := [], absentRun := 0, lastPresent := none } := by
  simp only [takeSample, hr, hs, seekPresent, hrun, if_true]

theorem takeSample_after_exit (hs : d.state = .afterExit) : takeSample p d (some c) =
    if d.presentRun + 1 < p.kOn then { d with presentRun := d.presentRun + 1 }
    else { d with presentRun := 0, record := some { r with flags := r.flags ||| flagMask .extraSurface } } := by
  simp only [takeSample, hr, hs]
  by_cases hrun : d.presentRun + 1 < p.kOn
  · rw [if_pos hrun, if_neg (Nat.not_le.2 hrun)]
  · rw [if_neg hrun, if_pos (Nat.not_lt.1 hrun)]
    rfl

theorem takeSample_lost_run (hs : d.state = .seeking) :
    takeSample p d none = { d with presentRun := 0, candidates := [] } := by
  simp only [takeSample, hr, hs]

theorem takeSample_dropout (hs : d.state = .onSurface) (hrun : d.absentRun + 1 < p.kOff) :
    takeSample p d none = { d with absentRun := d.absentRun + 1 } := by
  simp only [takeSample, hr, hs, Nat.not_le.2 hrun, if_false]

theorem takeSample_exit (hs : d.state = .onSurface) (hrun : p.kOff ≤ d.absentRun + 1) : takeSample p d none =
    { d with
      state := .afterExit, record := some (makeExit d r), absentRun := 0, presentRun := 0, lastPresent := none } := by
  simp only [takeSample, hr, hs, hrun, if_true]

theorem takeSample_lost_extra (hs : d.state = .afterExit) : takeSample p d none = { d with presentRun := 0 } := by
  simp only [takeSample, hr, hs]

end

theorem makeExit_eq {d : Detector} {r : OpenRecord} {l : LastPresent} (hl : d.lastPresent = some l) :
    makeExit d r = exitAt l r := by
  simp only [makeExit, hl, exitAt, appendPoint_eq]
  cases l.kept with
  | true => rfl
  | false =>
    rw [if_neg Bool.false_ne_true, if_neg Bool.false_ne_true]
    split <;> rfl

/-- The entry made at the first candidate of a run, every sample of which becomes a point (R81, R82). -/
theorem takeSample_entry_points {p : ScanStep} {d : Detector} {r : OpenRecord} {c : Surface} (hr : d.record = some r)
    (hs : d.state = .seeking) (hrun : p.kOn ≤ d.presentRun + 1) (hdecimation : p.decimation = 0)
    (hroom : r.points.length + d.candidates.length < 1024) :
    let run := d.candidates ++ [c]
    ∃ n : Nat, takeSample p d (some c) = { d with
      state := .onSurface, presentRun := 0, candidates := [], absentRun := 0
      record := some { r with
        entry := (run.map (·.point)).head?.map (·.u), points := r.points ++ run.map (·.point)
        stats := { run.foldl (fun t c => countSurface c t) r.stats with dropouts := n } }
      lastPresent := some ⟨c.point, d.candidates.length, true⟩ } := by
  intro run
  have hentry : some ((run.head?.map (·.point.u)).getD c.point.u) = (run.map (·.point)).head?.map (·.u) := by
    show _ = (List.map (·.point) (d.candidates ++ [c])).head?.map (·.u)
    cases hc : d.candidates <;> simp [run, hc]
  let d0 : Detector := { d with
    state := .onSurface
    record := some { r with entry := (run.map (·.point)).head?.map (·.u) }
    presentRun := 0, candidates := [], absentRun := 0, lastPresent := none }
  obtain ⟨l, m, hindex, hbefore⟩ := foldl_takeSurface d.candidates (d := d0) rfl rfl (by show r.points.length + _ ≤ _; omega)
  have hfull : takeSample p d (some c) = takeSurface 0 (d.candidates.foldl (takeSurface 0) d0) c := by
    rw [takeSample_entry hr hs hrun, hdecimation]
    show (d.candidates ++ [c]).foldl (takeSurface 0) { d with
      state := .onSurface, record := some { r with entry := some ((run.head?.map (·.point.u)).getD c.point.u) }
      presentRun := 0, candidates := [], absentRun := 0, lastPresent := none } = _
    rw [hentry, List.foldl_append]
    rfl
  have hlen : (r.points ++ d.candidates.map (·.point)).length < 1024 := by
    rw [List.length_append, List.length_map]
    omega
  have hnext : nextIndex l = d.candidates.length := by
    rw [hindex]
    exact Nat.zero_add _
  refine ⟨satAdd m 0, hfull.trans ?_⟩
  rw [hbefore, takeSurface_kept rfl hlen, hnext, countSurface_dropouts]
  show _ = ({ d0 with
    record := some { r with
      entry := _, points := r.points ++ (d.candidates ++ [c]).map (·.point)
      stats := { (d.candidates ++ [c]).foldl (fun t c => countSurface c t) r.stats with dropouts := _ } }
    lastPresent := _ } : Detector)
  rw [List.map_append, ← List.append_assoc, List.foldl_append]
  rfl

/-- The end of the placement of a present sample that joins the open record. -/
theorem placementLeaves_present {after : Nat} {a : ActiveStep} {h : Head} {x : Sample} {r : OpenRecord} {u : Nat} {q : Answer}
    {s : State} (hj : joinsRecord a h x r u s) (hq : x.answer = some q)
    (hpresent : q.code = .ok ∧ a.step.threshold ≤ q.intensity.toNat ∨ q.code = .saturated ∨ q.code = .multiPeak) :
    let hp := (s.hp.get h).params
    let w := correctionInForce a.step s (exposureAngle s.eu.params hp x.entry)
    let exact : Int := if hp.facing = .down then hp.reference - q.distance.toNat else hp.reference + q.distance.toNat
    let raw := max (-8388608) (min 8388607 exact)
    let z := max (-8388608) (min 8388607 (raw - w))
    ∃ c : Bool, (c = true ↔ advanceSaturates hp.latency x.entry = true ∨ raw ≠ exact ∨ z ≠ raw - w) ∧
      placementLeaves after h (marksTaken c false (takeSample a.step
        { s.pe.detectors.get h with lastSeq := some x.entry.seq, prevOffset := u }
        (some ⟨⟨u, z, q.intensity, q.code⟩, decide (q.code = .ok)⟩))) s := by
  intro hp w exact raw z
  obtain ⟨ws, _, rfl, hleaves⟩ := placementLeaves_joins (after := after) hj
  obtain ⟨hsurface, hplaceholder, hclamped⟩ := placedSample_present (ws := ws) (h := h) (s := s) hq hpresent
  refine ⟨_, hclamped, ?_⟩
  have htaken : surfaceAt u (placedSample a ws h x s) = some ⟨⟨u, z, q.intensity, q.code⟩, decide (q.code = .ok)⟩ :=
    congrArg (Option.map _) hsurface
  rw [htaken, hplaceholder] at hleaves
  exact hleaves

/-- The end of the placement of an absent sample that joins the open record. -/
theorem placementLeaves_absent {after : Nat} {a : ActiveStep} {h : Head} {x : Sample} {r : OpenRecord} {u : Nat} {s : State}
    (hj : joinsRecord a h x r u s)
    (habsent : ∀ q : Answer, x.answer = some q → q.code = .noPeak ∨ q.code = .ok ∧ q.intensity.toNat < a.step.threshold) :
    ∃ b : Bool, (b = true ↔ x.answer = none) ∧
      placementLeaves after h (marksTaken (advanceSaturates (s.hp.get h).params.latency x.entry) b (takeSample a.step
        { s.pe.detectors.get h with lastSeq := some x.entry.seq, prevOffset := u } none)) s := by
  obtain ⟨ws, _, rfl, hleaves⟩ := placementLeaves_joins (after := after) hj
  obtain ⟨hsurface, hplaceholder, hclamped⟩ := placedSample_absent (ws := ws) (h := h) (s := s) habsent
  refine ⟨_, hplaceholder, ?_⟩
  have htaken : surfaceAt u (placedSample a ws h x s) = none := congrArg (Option.map _) hsurface
  rw [htaken, hclamped] at hleaves
  exact hleaves

/-- Settles O35, one state of the detector at a time. -/
theorem sampleExtendsSurface : Obligations.SampleExtendsSurface := by
  refine ⟨?_, ?_⟩
  · intro s after a h x r u q hj hq hpresent _ hp d w exact raw z point measured marked e
    have hrecord : e.record = some r := by
      obtain ⟨-, -, -, -, -, -, hrecord, -⟩ := hj
      exact hrecord
    obtain ⟨c, hc, hleaves⟩ := placementLeaves_present (after := after) hj hq hpresent
    have hmarked (f : BitVec 12) : markedFlags c false f = marked f := markedFlags_present hc f
    have hleft {d' : Detector} {r' : OpenRecord} (ht : takeSample a.step e (some ⟨point, decide measured⟩) = d')
        (hr' : d'.record = some r') :
        placementLeaves after h { d' with record := some { r' with flags := marked r'.flags } } s := by
      rw [← hmarked, ← marksTaken_of_record _ _ hr', ← ht]
      exact hleaves
    refine ⟨fun l hs hl => ?_, fun hs hrun => ?_, fun hs hrun hdecimation hroom => ?_, fun hs => ?_⟩
    · intro keep room
      have hindex : nextIndex e.lastPresent = l.index + 1 := by
        rw [show e.lastPresent = some l from hl]
        rfl
      have htaken := hleft ((takeSample_on_surface hrecord hs).trans (takeSurface_eq hrecord)) rfl
      rw [hindex, countSurface_eq] at htaken
      simp only [decide_eq_true_eq] at htaken
      exact htaken
    · exact hleft (takeSample_candidate hrecord hs hrun) hrecord
    · intro points run taken coded
      obtain ⟨n, hentry⟩ := takeSample_entry_points (c := ⟨point, decide measured⟩) hrecord hs hrun hdecimation hroom
      have hpoints : run.map (·.point) = points := List.map_append
      obtain ⟨hcount, hsum, hrange, hsaturated, hmultiPeak⟩ := foldl_countSurface run r.stats
      rw [hpoints] at hsaturated hmultiPeak
      refine ⟨_, _, hleft hentry rfl, rfl, rfl, rfl, rfl, rfl, rfl, rfl, ?_, rfl, ?_, rfl, hcount, hsum, hrange,
        hsaturated, hmultiPeak⟩
      · exact congrArg (fun ps : List Point => ps.head?.map (·.u)) hpoints
      · exact congrArg (r.points ++ ·) hpoints
    · have htaken := takeSample_after_exit (p := a.step) (c := ⟨point, decide measured⟩) hrecord hs
      by_cases hrun : d.presentRun + 1 < a.step.kOn
      · rw [if_pos hrun]
        exact hleft (htaken.trans (if_pos hrun)) hrecord
      · rw [if_neg hrun]
        exact hleft (htaken.trans (if_neg hrun)) rfl
  · intro s after a h x r u hj habsent d marked e
    have hrecord : d.record = some r := by
      obtain ⟨-, -, -, -, -, -, hrecord, -⟩ := hj
      exact hrecord
    obtain ⟨b, hb, hleaves⟩ := placementLeaves_absent (after := after) hj habsent
    let d0 : Detector := { d with lastSeq := some x.entry.seq, prevOffset := u }
    have hmarked (f : BitVec 12) : markedFlags (advanceSaturates (s.hp.get h).params.latency x.entry) b f = marked f :=
      markedFlags_absent hb f
    have hleft {d' : Detector} {r' : OpenRecord} (ht : takeSample a.step d0 none = d') (hr' : d'.record = some r') :
        placementLeaves after h { d' with record := some { r' with flags := marked r'.flags } } s := by
      rw [← hmarked, ← marksTaken_of_record _ b hr', ← ht]
      exact hleaves
    refine ⟨fun hs => ?_, fun hs hrun => ?_, fun l hs hl hrun => ?_, fun hs => ?_⟩
    · exact hleft (takeSample_lost_run (d := d0) hrecord hs) hrecord
    · exact hleft (takeSample_dropout (d := d0) hrecord hs hrun) hrecord
    · intro f
      have hexit : makeExit d0 r = f := makeExit_eq hl
      rw [← hexit]
      exact hleft (takeSample_exit (d := d0) hrecord hs hrun) rfl
    · exact hleft (takeSample_lost_extra (d := d0) hrecord hs) hrecord

end Sys2Proof.Proofs
end

