-- ==== Sys2Proof/Proofs/RecordEnds.lean ====
section
/-! PROOF. How a record opens, and how it closes and is handed on (R53, R61, R75 to R80, R85, R86, R88, R91 to R93, R125). -/

open Sys2Proof Sys2Proof.Machine

namespace Sys2Proof.Proofs

/-! ## The window that holds an angle (R53) -/

theorem mem_indexed {ws : List Window} {i : Nat} {w : Window} : (i, w) ∈ indexed ws ↔ ws[i]? = some w := by
  rw [indexed, List.mem_map]
  constructor
  · rintro ⟨⟨v, j⟩, hmem, he⟩
    cases he
    exact List.mem_zipIdx_iff_getElem?.1 hmem
  · intro hw
    exact ⟨(w, i), List.mem_zipIdx_iff_getElem?.2 hw, rfl⟩

theorem inSpan_zero_iff {w : Window} {angle : Angle} : inSpan 0 w angle = true ↔ (angle - w.start).toNat < w.width := by
  simp only [inSpan, decide_eq_true_eq, BitVec.add_zero, Nat.mul_zero, Nat.add_zero]

/-- In a set whose windows stand apart, a window that holds the angle is the one found. -/
theorem windowAt_eq_some {ws : List Window} {angle : Angle} {i : Nat} {w : Window} (hws : AtMostOne ws)
    (hw : ws[i]? = some w) (hin : (angle - w.start).toNat < w.width) : windowAt ws angle = some (i, w) := by
  have hspan : inSpan 0 w angle = true := inSpan_zero_iff.2 hin
  cases hfind : windowAt ws angle with
  | none => exact absurd hspan (List.find?_eq_none.1 hfind (i, w) (mem_indexed.2 hw))
  | some found =>
    obtain ⟨j, v⟩ := found
    have hfound : (indexed ws).find? (fun p => inSpan 0 p.2 angle) = some (j, v) := hfind
    have hv : ws[j]? = some v := mem_indexed.1 (List.mem_of_find?_eq_some hfound)
    have hholds := List.find?_some hfound
    have hj : j = i := hws angle j i v w hv hw hholds hspan
    subst hj
    rw [Option.some.inj (hv.symm.trans hw)]

theorem windowAt_eq_none {ws : List Window} {angle : Angle} (h : ∀ w ∈ ws, w.width ≤ (angle - w.start).toNat) :
    windowAt ws angle = none := by
  refine List.find?_eq_none.2 fun p hp hspan => ?_
  obtain ⟨i, w⟩ := p
  exact absurd (inSpan_zero_iff.1 hspan) (Nat.not_lt.2 (h w (List.mem_of_getElem? (mem_indexed.1 hp))))

/-! ## Flags -/

theorem getLsbD_flagMask (f g : RecordFlag) : (flagMask g).getLsbD (flagBit f) = decide (f = g) := by
  cases f <;> cases g <;> rfl

theorem hasFlag_withFlagIf (c : Bool) (f g : RecordFlag) (flags : BitVec 12) :
    hasFlag f (withFlagIf c g flags) = (hasFlag f flags || (c && decide (f = g))) := by
  cases c with
  | true => rw [withFlagIf, if_pos rfl, withFlag, hasFlag, BitVec.getLsbD_or, getLsbD_flagMask, Bool.true_and]; rfl
  | false => rw [withFlagIf, if_neg Bool.false_ne_true, Bool.false_and, Bool.or_false]

/-! ## The opening of a record (R75 to R78) -/

section
variable {e : Surroundings} {p : Placed} {d : Detector} {b : Nat} {w : Window} {gap : Bool}

/-- The sample is a run-in sample of blade `b` (R77). -/
def IsRunIn (e : Surroundings) (p : Placed) (d : Detector) (b : Nat) (w : Window) : Prop :=
  d.runIn = true ∧ p.pass = e.firstPass ∧
    (d.runInWindow = some b ∨ (d.runInWindow = none ∧ (e.crossing - w.start).toNat < w.width ∧
      (e.crossing - w.start).toNat ≤ (p.angle - w.start).toNat))

theorem runInBlade_iff (hw : p.window = some (b, w)) :
    (if d.runIn then runInBlade e d p else none) = some b ↔ IsRunIn e p d b w := by
  unfold IsRunIn
  cases hrun : d.runIn with
  | false => simp
  | true =>
    simp only [runInBlade, hw, if_true, true_and]
    by_cases hpass : p.pass = e.firstPass
    · rw [if_neg (not_not.2 hpass)]
      cases hheld : d.runInWindow with
      | none => simp [hpass, inSpan_zero_iff, localOffset]
      | some held => simp [hpass, eq_comm]
    · rw [if_pos hpass]
      simp [hpass]

theorem tryOpening_runIn (hw : p.window = some (b, w)) (h : IsRunIn e p d b w) :
    tryOpening e gap p d = { d with runInWindow := some b } := by
  rw [tryOpening, (runInBlade_iff hw).2 h]

theorem runInBlade_cases (hw : p.window = some (b, w)) : runInBlade e d p = none ∨ runInBlade e d p = some b := by
  simp only [runInBlade, hw]
  split
  · exact .inl rfl
  split
  · split
    · exact .inr rfl
    · exact .inl rfl
  · split
    · exact .inr rfl
    · exact .inl rfl

theorem tryOpening_opens (hw : p.window = some (b, w)) (h : ¬ IsRunIn e p d b w) (henabled : p.enabled = true)
    (hnew : passIsNew d b p.pass = true) : tryOpening e gap p d = joinRecord e (localOffset w p.angle) p
      { d with
        runIn := false, runInWindow := none, state := .seeking, record := some (newRecord e gap p b w)
        recorded := d.recorded.setIfInBounds b (some p.pass) } := by
  have hnone : (if d.runIn then runInBlade e d p else none) = none := by
    have hnot := mt (runInBlade_iff hw).1 h
    cases hrun : d.runIn with
    | false => rfl
    | true =>
      rw [hrun] at hnot
      exact (runInBlade_cases hw).resolve_right hnot
  have hnew' : passIsNew { d with runIn := false, runInWindow := none } b p.pass = true := hnew
  simp only [tryOpening, hnone, hw, henabled, hnew', and_self, if_true]

theorem passIsNew_of (h : ∀ pass : Nat, d.recorded[b]? = some (some pass) → pass < p.pass) : passIsNew d b p.pass = true := by
  unfold passIsNew
  split
  · exact decide_eq_true (h _ ‹_›)
  · rfl
  · rfl

/-- A detector that holds no record opens one, or takes a run-in sample (R74). -/
theorem arrive_of_none (h : d.record = none) :
    arrive e p d = (tryOpening e (seqGap d p.seq) p { d with lastSeq := some p.seq }, none) := by
  obtain ⟨state, record, presentRun, candidates, absentRun, prevOffset, lastPresent, lastSeq, runIn, runInWindow, recorded⟩ := d
  cases h
  unfold arrive
  cases seqGap _ p.seq <;> rfl

end

theorem seqGap_iff {d : Detector} {q : Seq} : seqGap d q = true ↔ ∃ l, d.lastSeq = some l ∧ q ≠ l + 1 := by
  unfold seqGap
  cases d.lastSeq <;> simp

/-- The end of a placement whose arrival closes no record. -/
theorem placementLeaves_arrives {after : Nat} {a : ActiveStep} {h : Head} {x : Sample} {ws : List Window} {d' : Detector}
    {s : State} (hr : s.resetHeld = false) (hstate : s.spe.state ≠ .tail) (ha : s.spe.active = some a)
    (hlearn : a.step.flags.learn = false) (hbusy : s.pe.busy = some (h, x)) (hws : windowSet s.bt x.entry.gen = some ws)
    (harrive : arrive ⟨a.step, radius s, crossingAngle h s, s.spe.firstPass⟩ (placedSample a ws h x s)
      (s.pe.detectors.get h) = (d', none)) : placementLeaves after h d' s := by
  refine (exec_placementEnd_handOver (after := after) hr hstate ha hlearn hbusy hws).trans ?_
  exact congrArg (fun y : Detector × Option OpenRecord => Host.Outcome.next
    (deliverClosed h y.2 (onDetector h (fun _ => y.1) (engineFreed (elapse after s))))) harrive

/-- Settles O34: the arrival at an empty detector is `tryOpening`, which opens or holds the run-in window. -/
theorem sampleOpensRecord : Obligations.SampleOpensRecord := by
  intro s after a h x b w hr hstate ha hlearn hbusy hgen hws hw hp d u crossing isRunIn hin hnone
  have hset : windowSet s.bt x.entry.gen = some s.bt.current := if_pos hgen
  let e : Surroundings := ⟨a.step, radius s, crossingAngle h s, s.spe.firstPass⟩
  let p : Placed := placedSample a s.bt.current h x s
  let d0 : Detector := { d with lastSeq := some x.entry.seq }
  have hwindow : p.window = some (b, w) := windowAt_eq_some hws hw hin
  have hleaves {d' : Detector} (ht : tryOpening e (seqGap d p.seq) p d0 = d') : placementLeaves after h d' s :=
    placementLeaves_arrives hr hstate ha hlearn hbusy hset ((arrive_of_none hnone).trans (congrArg (·, none) ht))
  refine ⟨fun hrun => hleaves (tryOpening_runIn hwindow hrun), ?_⟩
  intro hnot hincluded hfirst hlast hb hs hpresentRun hcandidates hpass hanswer
  have habsent (q : Answer) (hq : x.answer = some q) : q.code = .noPeak ∨ q.code = .ok ∧ q.intensity.toNat < a.step.threshold := by
    rcases hanswer with hno | ⟨q', hq', hcode⟩
    · rw [hno] at hq
      cases hq
    · rw [hq] at hq'
      cases hq'
      exact .inl hcode
  obtain ⟨hsurface, hplaceholder, hclamped⟩ := placedSample_absent (ws := s.bt.current) (h := h) (s := s) habsent
  have henabled : p.enabled = true := by
    show (windowAt s.bt.current _).any _ = true
    rw [show windowAt s.bt.current _ = some (b, w) from hwindow]
    simp [enabledFor, hfirst, hlast, hincluded]
  have htaken : surfaceAt u p = none := congrArg (Option.map _) hsurface
  let r0 := newRecord e (seqGap d p.seq) p b w
  let d1 : Detector := { d with
    state := .seeking, record := some r0, prevOffset := u, lastSeq := some x.entry.seq, runIn := false, runInWindow := none
    recorded := d.recorded.setIfInBounds b (some x.entry.pass) }
  have hopens : placementLeaves after h (marksTaken p.clamped p.placeholder (takeSample a.step d1 (surfaceAt u p))) s :=
    hleaves ((tryOpening_opens (e := e) (d := d0) hwindow hnot henabled (passIsNew_of hpass)).trans (joinRecord_eq _ _ _ _))
  rw [htaken, takeSample_lost_run (d := d1) rfl rfl, marksTaken_of_record _ _ (r := r0) rfl, hclamped] at hopens
  refine ⟨{ r0 with flags := markedFlags (advanceSaturates hp.latency x.entry) p.placeholder r0.flags }, ?_, rfl, rfl, rfl,
    rfl, rfl, rfl, rfl, rfl, rfl, rfl, rfl, rfl, rfl, rfl, ?_⟩
  · have hsame : ({ d1 with presentRun := 0, candidates := [] } : Detector) = d1 := by
      show ({ d1 with presentRun := 0, candidates := [] } : Detector) =
        { d1 with presentRun := d.presentRun, candidates := d.candidates }
      rw [hpresentRun, hcandidates]
    exact (congrArg (fun d' : Detector => placementLeaves after h { d' with record := some _ } s) hsame).mp hopens
  · have hflag (f : RecordFlag) : hasFlag f (markedFlags (advanceSaturates hp.latency x.entry) p.placeholder r0.flags) =
        (outOfTolerance a.step (radius s) && decide (f = .drift) || seqGap d x.entry.seq && decide (f = .loss) ||
          advanceSaturates hp.latency x.entry && decide (f = .clamped) || p.placeholder && decide (f = .noResponse)) := by
      have hzero : hasFlag f 0 = false := BitVec.getLsbD_zero
      show hasFlag f (withFlagIf _ _ (withFlagIf _ _ (withFlagIf (seqGap d x.entry.seq) _
        (withFlagIf (outOfTolerance a.step (radius s)) _ 0)))) = _
      rw [hasFlag_withFlagIf, hasFlag_withFlagIf, hasFlag_withFlagIf, hasFlag_withFlagIf, hzero, Bool.false_or]
    refine ⟨?_, ?_, ?_, ?_⟩
    · rw [hflag, ← seqGap_iff]
      simp
    · rw [hflag, ← outOfTolerance_iff]
      simp
    · rw [hflag, ← hplaceholder]
      simp [p]
    · rw [hflag]
      simp

/-! ## The close of a record (R86) -/

section
variable {d : Detector} {r : OpenRecord}

theorem hasFlag_or (f g : RecordFlag) (flags : BitVec 12) :
    hasFlag f (flags ||| flagMask g) = (hasFlag f flags || decide (f = g)) := by
  rw [hasFlag, BitVec.getLsbD_or, getLsbD_flagMask]
  rfl

theorem finishRecord_eq (h : d.state = .onSurface → d.lastPresent ≠ none) : finishRecord d false r = closedForm d r := by
  cases hs : d.state with
  | outside => simp only [finishRecord, closedForm, hs]
  | afterExit => simp only [finishRecord, closedForm, hs]
  | seeking =>
    simp only [finishRecord, closedForm, hs]
    rfl
  | onSurface =>
    obtain ⟨l, hl⟩ := Option.ne_none_iff_exists'.1 (h hs)
    simp only [finishRecord, closedForm, hs, hl, makeExit_eq hl]
    by_cases hrun : d.absentRun = 0
    · rw [if_pos hrun, hrun]
      rfl
    · rw [if_neg hrun, beq_false_of_ne hrun]
      rfl

theorem closedForm_aborted (d : Detector) (r : OpenRecord) :
    hasFlag .aborted (closedForm d r).flags = hasFlag .aborted r.flags := by
  have hor {f : RecordFlag} (hf : f ≠ .aborted) (flags : BitVec 12) :
      hasFlag .aborted (flags ||| flagMask f) = hasFlag .aborted flags := by
    rw [hasFlag_or, decide_eq_false (Ne.symm hf), Bool.or_false]
  have hexit (l : LastPresent) : hasFlag .aborted (exitAt l r).flags = hasFlag .aborted r.flags := by
    unfold exitAt
    split
    · rfl
    · split
      · rfl
      · exact hor (by decide) _
  unfold closedForm
  split
  · exact hor (by decide) _
  · dsimp only
    split
    · exact (hor (by decide) _).trans (hexit _)
    · exact hexit _
  · rfl

theorem closeOpen_eq (hr : d.record = some r) (h : d.state = .onSurface → d.lastPresent ≠ none) (reversed : Bool) :
    closeOpen false reversed d =
      (toOutside d, some { closedForm d r with flags := withFlagIf reversed .reversed (closedForm d r).flags }) := by
  rw [closeOpen_some hr, finishRecord_eq h]
  rfl

end

/-- A closed record that is not ABORTED is handed on (R61, R91 to R93, R125). -/
theorem deliver_handedOn {a : ActiveStep} {h : Head} {r : OpenRecord} {s u : State} (ha : u.spe.active = some a)
    (hlearn : a.step.flags.learn = false) (haborted : hasFlag .aborted r.flags = false) (hbus : u.bus = s.bus) :
    ∃ bus, deliver h r u = { u with bus := bus } ∧ handedOn a h r s { u with bus := bus } := by
  have hposted : (a.step.flags.track && !a.step.flags.learn && a.step.trackHead == h && !hasFlag .aborted r.flags) = true ↔
      a.step.flags.track = true ∧ a.step.trackHead = h := by
    rw [hlearn, haborted, Bool.not_false, Bool.and_true, Bool.and_true, Bool.and_eq_true, beq_iff_eq]
  have happend {α : Type} {c : Bool} {p : Prop} [Decidable p] (hc : c = true ↔ p) (xs ys : List α) :
      (if c then xs ++ ys else xs) = xs ++ (if p then ys else []) := by
    by_cases hp : p
    · rw [if_pos (hc.2 hp), if_pos hp]
    · rw [if_neg (mt hc.1 hp), if_neg hp, List.append_nil]
  refine ⟨_, by rw [deliver, ha], sealRecord h a.step.flags.headerOnly r, ?_,
    ⟨rfl, rfl, rfl, rfl, rfl, rfl, rfl, rfl, rfl, rfl, rfl, rfl, rfl, rfl, rfl, rfl, rfl, rfl, rfl⟩, fun hcount => ?_,
    fun lo hi hcount hrange => ?_, ?_, fun hne => ?_, rfl⟩
  · rw [hbus]
    dsimp only
    rw [happend hposted]
    cases a.step.flags.discard with
    | true => rw [if_pos rfl, if_pos rfl, List.append_nil]
    | false => rfl
  · show closedHeights r.stats = none
    rw [closedHeights, if_pos hcount]
  · show closedHeights r.stats = _
    rw [closedHeights, if_neg hcount, hrange]
    rfl
  · show pointDigest r.points = none ↔ _
    rw [pointDigest]
    cases r.points <;> simp
  · show pointDigest r.points = _
    rw [pointDigest, if_neg (by rwa [List.isEmpty_iff])]

/-! ## A sample outside the window, or backward (R79, R80) -/

section
variable {e : Surroundings} {p : Placed} {d : Detector} {r : OpenRecord}

theorem tryOpening_of_no_window {gap : Bool} (h : p.window = none) :
    tryOpening e gap p d = { d with runIn := false, runInWindow := none } := by
  have hnone : (if d.runIn then runInBlade e d p else none) = none := by
    simp only [runInBlade, h, ite_self]
  simp only [tryOpening, hnone, h]

theorem arrive_outside (hr : d.record = some r) (hseq : d.lastSeq = some (p.seq - 1))
    (hlast : d.state = .onSurface → d.lastPresent ≠ none) (hout : r.width ≤ (p.angle - r.start).toNat)
    (hwindow : p.window = none) : arrive e p d =
      ({ toOutside { d with lastSeq := some p.seq } with runIn := false, runInWindow := none }, some (closedForm d r)) := by
  have hgap : seqGap d p.seq = false := by simp [seqGap, hseq]
  have hclose : closeOpen false false { d with lastSeq := some p.seq } =
      (toOutside { d with lastSeq := some p.seq }, some (closedForm d r)) :=
    closeOpen_eq (d := { d with lastSeq := some p.seq }) hr hlast false
  simp only [arrive, hgap, hr, Bool.false_eq_true, if_false, hout, if_true, tryOpening_of_no_window hwindow]
  rw [← hr, hclose]

theorem arrive_backward (hr : d.record = some r) (hseq : d.lastSeq = some (p.seq - 1))
    (hlast : d.state = .onSurface → d.lastPresent ≠ none) (hin : (p.angle - r.start).toNat < r.width)
    (hback : (p.angle - r.start).toNat + 64 < d.prevOffset) : arrive e p d =
      (toOutside { d with lastSeq := some p.seq },
        some { closedForm d r with flags := (closedForm d r).flags ||| flagMask .reversed }) := by
  have hgap : seqGap d p.seq = false := by simp [seqGap, hseq]
  have hclose := closeOpen_eq (d := { d with lastSeq := some p.seq }) hr hlast true
  simp only [arrive, hgap, hr, Bool.false_eq_true, if_false, Nat.not_le.2 hin, hback, if_true]
  rw [← hr]
  exact hclose

end

/-! ## The tail end of a head (R85) -/

theorem tailEndHead_of_none {g : Head} {s : State} (h : (s.pe.detectors.get g).record = none) : tailEndHead g s = s := by
  refine if_neg ?_
  rw [recordOpen, h]
  simp

theorem foldl_tailEndHead_of_none {s : State} (hs : List Head) (h : ∀ g ∈ hs, (s.pe.detectors.get g).record = none) :
    hs.foldl (fun t g => tailEndHead g t) s = s := by
  induction hs with
  | nil => rfl
  | cons g gs ih =>
    rw [List.foldl_cons, tailEndHead_of_none (h g List.mem_cons_self)]
    exact ih fun g' hg' => h g' (List.mem_cons_of_mem _ hg')

/-- The one head that holds a record and has reached its tail end closes it. -/
theorem tailEnds_of_one {h : Head} {s : State} (hend : atTailEnd h s = true) (hopen : recordOpen h s = true)
    (hothers : ∀ g : Head, g ≠ h → (s.pe.detectors.get g).record = none)
    (hkept : ∀ g : Head, g ≠ h → (closeHead false h s).pe.detectors.get g = s.pe.detectors.get g) :
    tailEnds s = closeHead false h s := by
  obtain ⟨before, after, hheads⟩ := List.append_of_mem (mem_heads h)
  have hnodup : (before ++ h :: after).Nodup := hheads ▸ (by decide : heads.Nodup)
  obtain ⟨-, hafter, hdisjoint⟩ := List.nodup_append.1 hnodup
  have hbefore (g : Head) (hg : g ∈ before) : g ≠ h := fun e => hdisjoint g hg h List.mem_cons_self e
  have hbehind (g : Head) (hg : g ∈ after) : g ≠ h := fun e => (List.nodup_cons.1 hafter).1 (e ▸ hg)
  rw [tailEnds, hheads, List.foldl_append, List.foldl_cons,
    foldl_tailEndHead_of_none before fun g hg => hothers g (hbefore g hg),
    tailEndHead, hend, hopen, Bool.and_self, if_pos rfl]
  exact foldl_tailEndHead_of_none after fun g hg => by rw [hkept g (hbehind g hg), hothers g (hbehind g hg)]

theorem closeHead_closes {h : Head} {r : OpenRecord} {s : State} (hr : (s.pe.detectors.get h).record = some r)
    (hlast : (s.pe.detectors.get h).state = .onSurface → (s.pe.detectors.get h).lastPresent ≠ none) :
    closeHead false h s = deliver h (closedForm (s.pe.detectors.get h) r)
      (onDetector h (fun _ => toOutside (s.pe.detectors.get h)) s) := by
  rw [closeHead, closeOpen_eq hr hlast]
  rfl

theorem resolveSilent_ignore {h : Head} {e : Outstanding} {s : State} (hpolicy : (s.hp.get h).params.policy = .ignore) :
    resolveSilent h e s = onCounters h (fun c => { c with noResponse := satInc c.noResponse }) s := by
  have hkept : ((onCounters h (fun c => { c with noResponse := satInc c.noResponse }) s).hp.get h).params.policy = .ignore := by
    rw [onCounters, onPort, PerHead.get_set_self]
    exact hpolicy
  rw [resolveSilent, hkept]

/-- Settles O36: `closeOpen_eq` gives the closed form and `deliver_handedOn` its delivery, for a sample and for the tail
end alike. -/
theorem sampleOutsideClosesRecord : Obligations.SampleOutsideClosesRecord := by
  refine ⟨?_, ?_⟩
  · intro s after a h x r hr hstate ha hlearn hbusy hgen angle d v hrecord hlast hseq haborted hwhere f
    have hset : windowSet s.bt x.entry.gen = some s.bt.current := if_pos hgen
    have hexec := exec_placementEnd_handOver (after := after) hr hstate ha hlearn hbusy hset
    let e := surroundings a h (engineFreed (elapse after s))
    let p := placedSample a s.bt.current h x s
    let u := engineFreed (elapse after s)
    -- the close, whichever way the sample ends the record
    have hclosed {d' : Detector} {q : OpenRecord} (harrive : arrive e p d = (d', some q)) (hs : d'.state = .outside)
        (hrec : d'.record = none) (hseq' : d'.lastSeq = some x.entry.seq) (hrecorded : d'.recorded = d.recorded)
        (hq : hasFlag .aborted q.flags = false) :
        ∃ t : State, exec (.placementEnd after) s = .next t ∧ (t.pe.detectors.get h).state = .outside ∧
          (t.pe.detectors.get h).record = none ∧ (t.pe.detectors.get h).lastSeq = some x.entry.seq ∧
          (t.pe.detectors.get h).recorded = d.recorded ∧ handedOn a h q s t := by
      obtain ⟨bus, hdeliver, hhanded⟩ := deliver_handedOn (h := h) (r := q) (s := s)
        (u := onDetector h (fun _ => d') u) ha hlearn hq rfl
      have hhand : handOver a s.bt.current h x u = deliver h q (onDetector h (fun _ => d') u) :=
        congrArg (fun y : Detector × Option OpenRecord => deliverClosed h y.2 (onDetector h (fun _ => y.1) u)) harrive
      have hd' : ((onDetector h (fun _ => d') u).pe.detectors.get h) = d' := PerHead.get_set_self _ _ _
      refine ⟨_, hexec.trans (congrArg Host.Outcome.next (hhand.trans hdeliver)), ?_, ?_, ?_, ?_, hhanded⟩
      · exact (congrArg Detector.state hd').trans hs
      · exact (congrArg Detector.record hd').trans hrec
      · exact (congrArg Detector.lastSeq hd').trans hseq'
      · exact (congrArg Detector.recorded hd').trans hrecorded
    have hclear : hasFlag .aborted f.flags = false := (closedForm_aborted d r).trans haborted
    rcases hwhere with ⟨hout, hwindows⟩ | ⟨hin, hback⟩
    · rw [if_neg (Nat.not_lt.2 hout)]
      exact hclosed (arrive_outside hrecord hseq hlast hout (windowAt_eq_none hwindows)) rfl rfl rfl rfl hclear
    · rw [if_pos hin]
      refine hclosed (arrive_backward hrecord hseq hlast hin hback) rfl rfl rfl rfl ?_
      rw [hasFlag_or, hclear]
      rfl
  · intro s after a h e r hr hstate ha hlearn hbusy p d htail hlist hqueue hpolicy hpassed hrecord hlast haborted hothers
    let u := elapse after s
    let v := onCounters h (fun c => { c with noResponse := satInc c.noResponse }) (onPort h (fun p => { p with outstanding := [] }) u)
    have hport : v.hp.get h = { p with
        outstanding := [], counters := { p.counters with noResponse := satInc p.counters.noResponse } } := by
      simp only [v, onCounters, onPort, PerHead.get_set_self]
      rfl
    have hexec : exec (.responseTimeout after h) s = .next (tailEnds v) := by
      refine (exec_responseTimeout after h s hr).trans (congrArg Host.Outcome.next
        ((frontTimesOut_of_passed (s := u) hlist hpassed).trans (congrArg tailEnds (resolveSilent_ignore ?_))))
      rw [onPort, PerHead.get_set_self]
      exact hpolicy
    have hend : atTailEnd h v = true := by
      have hnot : placing h v = false := by
        show (match s.pe.busy with | none => false | some (g, _) => g == h) = false
        rw [hbusy]
      simp only [atTailEnd, hnot, hport, Bool.and_eq_true, beq_iff_eq, List.isEmpty_iff, Bool.not_false, and_true]
      exact ⟨⟨hstate, htail⟩, hqueue⟩
    have hopen : recordOpen h v = true := by
      show (s.pe.detectors.get h).record.isSome = true
      rw [show (s.pe.detectors.get h).record = some r from hrecord]
      rfl
    obtain ⟨bus, hdeliver, hhanded⟩ := deliver_handedOn (h := h) (r := closedForm d r) (s := s)
      (u := onDetector h (fun _ => toOutside d) v) ha hlearn ((closedForm_aborted d r).trans haborted) rfl
    have hclose : closeHead false h v = { onDetector h (fun _ => toOutside d) v with bus := bus } :=
      (closeHead_closes (s := v) hrecord hlast).trans hdeliver
    have hd : ((onDetector h (fun _ => toOutside d) v).pe.detectors.get h) = toOutside d := PerHead.get_set_self _ _ _
    have hkept (g : Head) (hg : g ≠ h) : (closeHead false h v).pe.detectors.get g = v.pe.detectors.get g := by
      rw [hclose]
      exact PerHead.get_set_ne _ _ hg
    rw [tailEnds_of_one hend hopen hothers hkept, hclose] at hexec
    refine ⟨_, hexec, congrArg HeadPort.outstanding hport, ?_, ?_, hhanded⟩
    · exact congrArg Detector.state hd
    · exact congrArg Detector.record hd

end Sys2Proof.Proofs
end
